-- ==== Sys2Proof/Word.lean ====
section
/-! DEFINITION. The bit-vector types of the CORE: bytes, instruction words, register words, and the
64-bit payload of an interrupt (00_scope.md R7, R14, R15; 10_state.md R47). -/

namespace Sys2Proof

/-- One byte of memory. -/
abbrev Byte := BitVec 8

/-- A 16-bit instruction or extension word, and the width of SR (30_encoding.md R100; 10_state.md R39). -/
abbrev Half := BitVec 16

/-- A 32-bit register, address or operand value (00_scope.md R7, R15). -/
abbrev Word := BitVec 32

/-- The 64-bit auxiliary payload of an interrupt request (10_state.md R47). -/
abbrev Aux := BitVec 64

end Sys2Proof
end

