-- ==== Sys2Proof/Syntax.lean ====
section
/-! DEFINITION. The instructions as syntax: one constructor of `Instr` per row of
spec/opcode_table.json, holding what the row's opword says. An instruction's extension words are no
part of it: "Decode reads only the opword" (30_encoding.md R114), and the meaning fetches them in the
order the instruction's rule gives (assumption log 14). -/

namespace Sys2Proof

/-- Operand sizes 1, 2 and 4 bytes (00_scope.md R15). -/
inductive Size where
  | byte
  | word
  | long
deriving DecidableEq, Repr

/-- The addressing modes of 30_encoding.md R102, with the register number where the mode has one. -/
inductive EA where
  /-- `Dn` -/
  | dreg (n : Fin 8)
  /-- `An` -/
  | areg (n : Fin 8)
  /-- `(An)` -/
  | ind (n : Fin 8)
  /-- `(An)+` -/
  | postInc (n : Fin 8)
  /-- `-(An)` -/
  | preDec (n : Fin 8)
  /-- `(d16,An)` -/
  | disp (n : Fin 8)
  /-- `(d8,An,Xn)` -/
  | index (n : Fin 8)
  /-- `(xxx).W` -/
  | absShort
  /-- `(xxx).L` -/
  | absLong
  /-- `(d16,PC)` -/
  | pcDisp
  /-- `(d8,PC,Xn)` -/
  | pcIndex
  /-- `#imm` -/
  | imm
deriving DecidableEq, Repr

/-- The conditions of Bcc, DBcc and Scc, in the order of their codes (30_encoding.md R111). -/
inductive Cond where
  | t | f | hi | ls | cc | cs | ne | eq | vc | vs | pl | mi | ge | lt | gt | le
deriving DecidableEq, Repr

/-- The count of a register shift: the 3-bit immediate field as encoded (0 stands for 8), or a data
register (42_shift_rotate.md R201). -/
inductive ShiftCount where
  | imm (field : Fin 8)
  | reg (n : Fin 8)
deriving DecidableEq, Repr

/-- The operands of ABCD, SBCD, ADDX, SUBX: `Dy,Dx` or `-(Ay),-(Ax)` (30_encoding.md R112). -/
inductive XMode where
  | dataRegs
  | preDec
deriving DecidableEq, Repr

/-- The direction of MOVEP (43_data_movement.md R226). -/
inductive MovepDir where
  | toReg
  | toMem
deriving DecidableEq, Repr

/-- The index register of an indexed extension word (30_encoding.md R104): its kind, number, width and
68020 scale (the index is shifted left by it). -/
structure IndexReg where
  isAddr : Bool
  reg : Fin 8
  isLong : Bool
  scale : Fin 4
deriving DecidableEq, Repr

/-- A displacement of a full extension word: null, one word or two words (30_encoding.md R105). -/
inductive DispSize where
  | null
  | word
  | long
deriving DecidableEq, Repr

/-- The memory indirection of a full extension word (30_encoding.md R105). With the index suppressed
only `none` and `pre` are encodings, and `pre` is the plain memory indirection. -/
inductive Indirection where
  | none
  | pre (outer : DispSize)
  | post (outer : DispSize)
deriving DecidableEq, Repr

/-- An indexed extension word: brief (30_encoding.md R104), full (R105), or a reserved combination of the
full format. -/
inductive IndexWord where
  | brief (x : IndexReg) (d8 : Byte)
  | full (x : IndexReg) (baseSuppressed indexSuppressed : Bool) (bd : DispSize) (ind : Indirection)
  | reserved
deriving DecidableEq, Repr

/-- One constructor per row of spec/opcode_table.json, in the table's order. -/
inductive Instr where
  -- line 0
  | oriCcr
  | oriSr
  | andiCcr
  | andiSr
  | eoriCcr
  | eoriSr
  | movep (dir : MovepDir) (sz : Size) (dn an : Fin 8)
  | btstReg (dn : Fin 8) (ea : EA)
  | bchgReg (dn : Fin 8) (ea : EA)
  | bclrReg (dn : Fin 8) (ea : EA)
  | bsetReg (dn : Fin 8) (ea : EA)
  | btstImm (ea : EA)
  | bchgImm (ea : EA)
  | bclrImm (ea : EA)
  | bsetImm (ea : EA)
  | ori (sz : Size) (ea : EA)
  | andi (sz : Size) (ea : EA)
  | subi (sz : Size) (ea : EA)
  | addi (sz : Size) (ea : EA)
  | eori (sz : Size) (ea : EA)
  | cmpi (sz : Size) (ea : EA)
  -- lines 1, 2, 3
  | moveB (src dst : EA)
  | moveaL (an : Fin 8) (src : EA)
  | moveL (src dst : EA)
  | moveaW (an : Fin 8) (src : EA)
  | moveW (src dst : EA)
  -- line 4
  | illegal
  | reset
  | nop
  | stop
  | rte
  | rts
  | trapv
  | rtr
  | trap (v : Fin 16)
  | link (an : Fin 8)
  | unlk (an : Fin 8)
  | moveToUsp (an : Fin 8)
  | moveFromUsp (an : Fin 8)
  | jsr (ea : EA)
  | jmp (ea : EA)
  | swap (dn : Fin 8)
  | extW (dn : Fin 8)
  | extL (dn : Fin 8)
  | pea (ea : EA)
  | movemToMem (sz : Size) (ea : EA)
  | movemToReg (sz : Size) (ea : EA)
  | nbcd (ea : EA)
  | moveFromSr (ea : EA)
  | moveToCcr (ea : EA)
  | moveToSr (ea : EA)
  | tas (ea : EA)
  | negx (sz : Size) (ea : EA)
  | clr (sz : Size) (ea : EA)
  | neg (sz : Size) (ea : EA)
  | not (sz : Size) (ea : EA)
  | tst (sz : Size) (ea : EA)
  | chk (dn : Fin 8) (ea : EA)
  | lea (an : Fin 8) (ea : EA)
  -- line 5
  | dbcc (cond : Cond) (dn : Fin 8)
  | scc (cond : Cond) (ea : EA)
  | addq (field : Fin 8) (sz : Size) (ea : EA)
  | subq (field : Fin 8) (sz : Size) (ea : EA)
  -- line 6
  | bra (d8 : Byte)
  | bsr (d8 : Byte)
  | bcc (cond : Cond) (d8 : Byte)
  -- line 7
  | moveq (dn : Fin 8) (d8 : Byte)
  -- line 8
  | divu (dn : Fin 8) (ea : EA)
  | divs (dn : Fin 8) (ea : EA)
  | sbcd (mode : XMode) (rx ry : Fin 8)
  | orToDn (dn : Fin 8) (sz : Size) (ea : EA)
  | orToEa (dn : Fin 8) (sz : Size) (ea : EA)
  -- line 9
  | suba (an : Fin 8) (sz : Size) (ea : EA)
  | subx (mode : XMode) (sz : Size) (rx ry : Fin 8)
  | subToDn (dn : Fin 8) (sz : Size) (ea : EA)
  | subToEa (dn : Fin 8) (sz : Size) (ea : EA)
  -- line 10
  | lineA (payload : BitVec 12)
  -- line 11
  | cmpa (an : Fin 8) (sz : Size) (ea : EA)
  | cmpm (sz : Size) (ax ay : Fin 8)
  | cmp (dn : Fin 8) (sz : Size) (ea : EA)
  | eor (dn : Fin 8) (sz : Size) (ea : EA)
  -- line 12
  | mulu (dn : Fin 8) (ea : EA)
  | muls (dn : Fin 8) (ea : EA)
  | abcd (mode : XMode) (rx ry : Fin 8)
  | exgDD (rx ry : Fin 8)
  | exgAA (rx ry : Fin 8)
  | exgDA (dx ay : Fin 8)
  | andToDn (dn : Fin 8) (sz : Size) (ea : EA)
  | andToEa (dn : Fin 8) (sz : Size) (ea : EA)
  -- line 13
  | adda (an : Fin 8) (sz : Size) (ea : EA)
  | addx (mode : XMode) (sz : Size) (rx ry : Fin 8)
  | addToDn (dn : Fin 8) (sz : Size) (ea : EA)
  | addToEa (dn : Fin 8) (sz : Size) (ea : EA)
  -- line 14
  | asrMem (ea : EA)
  | aslMem (ea : EA)
  | lsrMem (ea : EA)
  | lslMem (ea : EA)
  | roxrMem (ea : EA)
  | roxlMem (ea : EA)
  | rorMem (ea : EA)
  | rolMem (ea : EA)
  | asrReg (count : ShiftCount) (sz : Size) (dn : Fin 8)
  | aslReg (count : ShiftCount) (sz : Size) (dn : Fin 8)
  | lsrReg (count : ShiftCount) (sz : Size) (dn : Fin 8)
  | lslReg (count : ShiftCount) (sz : Size) (dn : Fin 8)
  | roxrReg (count : ShiftCount) (sz : Size) (dn : Fin 8)
  | roxlReg (count : ShiftCount) (sz : Size) (dn : Fin 8)
  | rorReg (count : ShiftCount) (sz : Size) (dn : Fin 8)
  | rolReg (count : ShiftCount) (sz : Size) (dn : Fin 8)
  -- line 15
  | lineF (payload : BitVec 12)
deriving DecidableEq, Repr

end Sys2Proof
end

