-- ==== Sys2Proof/WellFormed.lean ====
section
/-! DEFINITION. Which instructions are well formed: the effective-address classes of 30_encoding.md R106
and the constraints of the rows of spec/opcode_table.json (R116 to R128). -/

namespace Sys2Proof

/-- The effective-address classes of 30_encoding.md R106, and the four unions the opcode table names. -/
inductive EaClass where
  | all
  | data
  | memory
  | control
  | alterable
  | dataAlterable
  | memoryAlterable
  | controlAlterable
  | dataExceptImm
  | controlAlterableOrPreDec
  | controlOrPostInc
deriving DecidableEq, Repr

/-- `An` and `Dn`. -/
def EA.isReg : EA → Bool
  | .dreg _ | .areg _ => true
  | _ => false

def EA.isAreg : EA → Bool
  | .areg _ => true
  | _ => false

/-- Class control: the modes that name an address without a side effect (30_encoding.md R106). -/
def EA.isControl : EA → Bool
  | .ind _ | .disp _ | .index _ | .absShort | .absLong | .pcDisp | .pcIndex => true
  | _ => false

/-- Class alterable: everything but the PC-relative modes and the immediate (30_encoding.md R106). -/
def EA.isAlterable : EA → Bool
  | .pcDisp | .pcIndex | .imm => false
  | _ => true

/-- Membership in a class (30_encoding.md R106). -/
def EA.inClass (ea : EA) : EaClass → Bool
  | .all => true
  | .data => !ea.isAreg
  | .memory => !ea.isReg
  | .control => ea.isControl
  | .alterable => ea.isAlterable
  | .dataAlterable => ea.isAlterable && !ea.isAreg
  | .memoryAlterable => ea.isAlterable && !ea.isReg
  | .controlAlterable => ea.isControl && ea.isAlterable
  | .dataExceptImm => !ea.isAreg && ea != .imm
  | .controlAlterableOrPreDec =>
    match ea with
    | .preDec _ => true
    | _ => ea.isControl && ea.isAlterable
  | .controlOrPostInc =>
    match ea with
    | .postInc _ => true
    | _ => ea.isControl

/-- A byte operand may not be `An` (30_encoding.md R106). -/
def EA.sizeOk (ea : EA) (sz : Size) : Bool := !(ea.isAreg && sz == .byte)

/-- The instructions with a one-bit size field have no byte form (30_encoding.md R107). -/
def Size.wordOrLong (sz : Size) : Bool := sz != .byte

/-- The constraints of the instruction's row (30_encoding.md R116 to R128). -/
def Instr.wf : Instr → Bool
  | .oriCcr | .oriSr | .andiCcr | .andiSr | .eoriCcr | .eoriSr => true
  | .movep _ sz _ _ => sz.wordOrLong
  | .btstReg _ ea => ea.inClass .data
  | .bchgReg _ ea | .bclrReg _ ea | .bsetReg _ ea => ea.inClass .dataAlterable
  | .btstImm ea => ea.inClass .dataExceptImm
  | .bchgImm ea | .bclrImm ea | .bsetImm ea => ea.inClass .dataAlterable
  | .ori _ ea | .andi _ ea | .subi _ ea | .addi _ ea | .eori _ ea | .cmpi _ ea => ea.inClass .dataAlterable
  | .moveB src dst => src.inClass .all && src.sizeOk .byte && dst.inClass .dataAlterable
  | .moveL src dst | .moveW src dst => src.inClass .all && dst.inClass .dataAlterable
  | .moveaL _ src | .moveaW _ src => src.inClass .all
  | .illegal | .reset | .nop | .stop | .rte | .rts | .trapv | .rtr => true
  | .trap _ | .link _ | .unlk _ | .moveToUsp _ | .moveFromUsp _ => true
  | .jsr ea | .jmp ea | .pea ea | .lea _ ea => ea.inClass .control
  | .swap _ | .extW _ | .extL _ => true
  | .movemToMem sz ea => sz.wordOrLong && ea.inClass .controlAlterableOrPreDec
  | .movemToReg sz ea => sz.wordOrLong && ea.inClass .controlOrPostInc
  | .nbcd ea | .moveFromSr ea | .tas ea => ea.inClass .dataAlterable
  | .moveToCcr ea | .moveToSr ea => ea.inClass .data
  | .negx _ ea | .clr _ ea | .neg _ ea | .not _ ea | .tst _ ea => ea.inClass .dataAlterable
  | .chk _ ea => ea.inClass .data
  | .dbcc _ _ => true
  | .scc _ ea => ea.inClass .dataAlterable
  | .addq _ sz ea | .subq _ sz ea => ea.inClass .alterable && ea.sizeOk sz
  | .bra _ | .bsr _ => true
  | .bcc cond _ => cond != .t && cond != .f
  | .moveq _ _ => true
  | .divu _ ea | .divs _ ea | .mulu _ ea | .muls _ ea => ea.inClass .data
  | .sbcd _ _ _ | .abcd _ _ _ => true
  | .orToDn _ _ ea | .andToDn _ _ ea => ea.inClass .data
  | .orToEa _ _ ea | .andToEa _ _ ea => ea.inClass .memoryAlterable
  | .suba _ sz ea | .cmpa _ sz ea | .adda _ sz ea => sz.wordOrLong && ea.inClass .all
  | .subx _ _ _ _ | .addx _ _ _ _ | .cmpm _ _ _ => true
  | .subToDn _ sz ea | .addToDn _ sz ea | .cmp _ sz ea => ea.inClass .all && ea.sizeOk sz
  | .subToEa _ _ ea | .addToEa _ _ ea => ea.inClass .memoryAlterable
  | .lineA _ | .lineF _ => true
  | .eor _ _ ea => ea.inClass .dataAlterable
  | .exgDD _ _ | .exgAA _ _ | .exgDA _ _ => true
  | .asrMem ea | .aslMem ea | .lsrMem ea | .lslMem ea => ea.inClass .memoryAlterable
  | .roxrMem ea | .roxlMem ea | .rorMem ea | .rolMem ea => ea.inClass .memoryAlterable
  | .asrReg _ _ _ | .aslReg _ _ _ | .lsrReg _ _ _ | .lslReg _ _ _ => true
  | .roxrReg _ _ _ | .roxlReg _ _ _ | .rorReg _ _ _ | .rolReg _ _ _ => true

end Sys2Proof
end

