-- ==== Sys2Proof/Decode.lean ====
section
/-! DEFINITION. The decoder (30_encoding.md R113 to R136), total on any bytes, the encoder written from the
same encodings, and the indexed extension words (R104, R105). -/

namespace Sys2Proof

/-! ### Fields of an opword -/

/-- The 3-bit field whose lowest bit is `lo` (30_encoding.md R112). -/
def regAt (w : Half) (lo : Nat) : Fin 8 := ⟨(w.extractLsb' lo 3).toNat, (w.extractLsb' lo 3).isLt⟩

/-- The 4-bit field whose lowest bit is `lo`. -/
def nibbleAt (w : Half) (lo : Nat) : Fin 16 := ⟨(w.extractLsb' lo 4).toNat, (w.extractLsb' lo 4).isLt⟩

/-- The standard size field `w[7:6]`; 11 is not a size (30_encoding.md R107). -/
def sizeOf? (w : Half) : Option Size :=
  match w.getLsbD 7, w.getLsbD 6 with
  | false, false => some .byte
  | false, true => some .word
  | true, false => some .long
  | true, true => none

/-- A one-bit size field: 0 word, 1 long (30_encoding.md R107). -/
def oneBitSize (w : Half) (bit : Nat) : Size := if w.getLsbD bit then .long else .word

/-- A `mode : reg` pair as an addressing mode; 111/101 to 111/111 are none (30_encoding.md R102). -/
def eaOfFields (mode reg : Fin 8) : Option EA :=
  match mode with
  | 0 => some (.dreg reg)
  | 1 => some (.areg reg)
  | 2 => some (.ind reg)
  | 3 => some (.postInc reg)
  | 4 => some (.preDec reg)
  | 5 => some (.disp reg)
  | 6 => some (.index reg)
  | 7 =>
    match reg with
    | 0 => some .absShort
    | 1 => some .absLong
    | 2 => some .pcDisp
    | 3 => some .pcIndex
    | 4 => some .imm
    | _ => none

/-- The conditions by their code (30_encoding.md R111). -/
def condOfCode (c : Fin 16) : Cond :=
  match c with
  | 0 => .t | 1 => .f | 2 => .hi | 3 => .ls | 4 => .cc | 5 => .cs | 6 => .ne | 7 => .eq
  | 8 => .vc | 9 => .vs | 10 => .pl | 11 => .mi | 12 => .ge | 13 => .lt | 14 => .gt | _ => .le

/-- The condition field `w[11:8]` (30_encoding.md R111). -/
def condAt (w : Half) : Cond := condOfCode (nibbleAt w 8)

/-- `w[3]` of ABCD, SBCD, ADDX, SUBX (30_encoding.md R112). -/
def xModeOf (w : Half) : XMode := if w.getLsbD 3 then .preDec else .dataRegs

/-- The count field of a register shift: `w[5]` selects it (30_encoding.md R128). -/
def countOf (w : Half) : ShiftCount := if w.getLsbD 5 then .reg (regAt w 9) else .imm (regAt w 9)

/-- An instruction over the standard EA field (30_encoding.md R102). -/
def withEa (w : Half) (f : EA → Instr) : Option Instr :=
  match eaOfFields (regAt w 3) (regAt w 0) with
  | some ea => some (f ea)
  | none => none

/-- An instruction over the standard size field. -/
def withSize (w : Half) (f : Size → Instr) : Option Instr :=
  match sizeOf? w with
  | some sz => some (f sz)
  | none => none

/-- An instruction over the standard size and EA fields. -/
def withSizeEa (w : Half) (f : Size → EA → Instr) : Option Instr :=
  match sizeOf? w with
  | some sz => withEa w (f sz)
  | none => none

/-- MOVE: source in the standard position, destination with mode `w[8:6]` and register `w[11:9]` (30_encoding.md R102, R117). -/
def withEaDst (w : Half) (f : EA → EA → Instr) : Option Instr :=
  match eaOfFields (regAt w 6) (regAt w 9) with
  | some dst => withEa w fun src => f src dst
  | none => none

/-! ### The opcode table, line by line in its order (30_encoding.md R113, R116 to R129) -/

/-- A row of the table: the mask/compare test and the instruction its fields spell. The row's
constraints are `Instr.wf` of that instruction. -/
structure Row where
  mnemonic : String
  mask : Half
  pattern : Half
  build : Half → Option Instr

/-- Line 0 of the opcode table. -/
def Decode.line0 : List Row :=
  [⟨"ORI_CCR", 0xFFFF#16, 0x003C#16, fun _ => some .oriCcr⟩,
   ⟨"ORI_SR", 0xFFFF#16, 0x007C#16, fun _ => some .oriSr⟩,
   ⟨"ANDI_CCR", 0xFFFF#16, 0x023C#16, fun _ => some .andiCcr⟩,
   ⟨"ANDI_SR", 0xFFFF#16, 0x027C#16, fun _ => some .andiSr⟩,
   ⟨"EORI_CCR", 0xFFFF#16, 0x0A3C#16, fun _ => some .eoriCcr⟩,
   ⟨"EORI_SR", 0xFFFF#16, 0x0A7C#16, fun _ => some .eoriSr⟩,
   ⟨"MOVEP", 0xF138#16, 0x0108#16, fun w => some (.movep (if w.getLsbD 7 then .toMem else .toReg) (oneBitSize w 6) (regAt w 9) (regAt w 0))⟩,
   ⟨"BTST_REG", 0xF1C0#16, 0x0100#16, fun w => withEa w fun ea => .btstReg (regAt w 9) ea⟩,
   ⟨"BCHG_REG", 0xF1C0#16, 0x0140#16, fun w => withEa w fun ea => .bchgReg (regAt w 9) ea⟩,
   ⟨"BCLR_REG", 0xF1C0#16, 0x0180#16, fun w => withEa w fun ea => .bclrReg (regAt w 9) ea⟩,
   ⟨"BSET_REG", 0xF1C0#16, 0x01C0#16, fun w => withEa w fun ea => .bsetReg (regAt w 9) ea⟩,
   ⟨"BTST_IMM", 0xFFC0#16, 0x0800#16, fun w => withEa w fun ea => .btstImm ea⟩,
   ⟨"BCHG_IMM", 0xFFC0#16, 0x0840#16, fun w => withEa w fun ea => .bchgImm ea⟩,
   ⟨"BCLR_IMM", 0xFFC0#16, 0x0880#16, fun w => withEa w fun ea => .bclrImm ea⟩,
   ⟨"BSET_IMM", 0xFFC0#16, 0x08C0#16, fun w => withEa w fun ea => .bsetImm ea⟩,
   ⟨"ORI", 0xFF00#16, 0x0000#16, fun w => withSizeEa w fun sz ea => .ori sz ea⟩,
   ⟨"ANDI", 0xFF00#16, 0x0200#16, fun w => withSizeEa w fun sz ea => .andi sz ea⟩,
   ⟨"SUBI", 0xFF00#16, 0x0400#16, fun w => withSizeEa w fun sz ea => .subi sz ea⟩,
   ⟨"ADDI", 0xFF00#16, 0x0600#16, fun w => withSizeEa w fun sz ea => .addi sz ea⟩,
   ⟨"EORI", 0xFF00#16, 0x0A00#16, fun w => withSizeEa w fun sz ea => .eori sz ea⟩,
   ⟨"CMPI", 0xFF00#16, 0x0C00#16, fun w => withSizeEa w fun sz ea => .cmpi sz ea⟩]

/-- Line 1 of the opcode table. -/
def Decode.line1 : List Row :=
  [⟨"MOVE.B", 0xF000#16, 0x1000#16, fun w => withEaDst w fun src dst => .moveB src dst⟩]

/-- Line 2 of the opcode table. -/
def Decode.line2 : List Row :=
  [⟨"MOVEA.L", 0xF1C0#16, 0x2040#16, fun w => withEa w fun src => .moveaL (regAt w 9) src⟩,
   ⟨"MOVE.L", 0xF000#16, 0x2000#16, fun w => withEaDst w fun src dst => .moveL src dst⟩]

/-- Line 3 of the opcode table. -/
def Decode.line3 : List Row :=
  [⟨"MOVEA.W", 0xF1C0#16, 0x3040#16, fun w => withEa w fun src => .moveaW (regAt w 9) src⟩,
   ⟨"MOVE.W", 0xF000#16, 0x3000#16, fun w => withEaDst w fun src dst => .moveW src dst⟩]

/-- Line 4 of the opcode table. -/
def Decode.line4 : List Row :=
  [⟨"ILLEGAL", 0xFFFF#16, 0x4AFC#16, fun _ => some .illegal⟩,
   ⟨"RESET", 0xFFFF#16, 0x4E70#16, fun _ => some .reset⟩,
   ⟨"NOP", 0xFFFF#16, 0x4E71#16, fun _ => some .nop⟩,
   ⟨"STOP", 0xFFFF#16, 0x4E72#16, fun _ => some .stop⟩,
   ⟨"RTE", 0xFFFF#16, 0x4E73#16, fun _ => some .rte⟩,
   ⟨"RTS", 0xFFFF#16, 0x4E75#16, fun _ => some .rts⟩,
   ⟨"TRAPV", 0xFFFF#16, 0x4E76#16, fun _ => some .trapv⟩,
   ⟨"RTR", 0xFFFF#16, 0x4E77#16, fun _ => some .rtr⟩,
   ⟨"TRAP", 0xFFF0#16, 0x4E40#16, fun w => some (.trap (nibbleAt w 0))⟩,
   ⟨"LINK", 0xFFF8#16, 0x4E50#16, fun w => some (.link (regAt w 0))⟩,
   ⟨"UNLK", 0xFFF8#16, 0x4E58#16, fun w => some (.unlk (regAt w 0))⟩,
   ⟨"MOVE_TO_USP", 0xFFF8#16, 0x4E60#16, fun w => some (.moveToUsp (regAt w 0))⟩,
   ⟨"MOVE_FROM_USP", 0xFFF8#16, 0x4E68#16, fun w => some (.moveFromUsp (regAt w 0))⟩,
   ⟨"JSR", 0xFFC0#16, 0x4E80#16, fun w => withEa w fun ea => .jsr ea⟩,
   ⟨"JMP", 0xFFC0#16, 0x4EC0#16, fun w => withEa w fun ea => .jmp ea⟩,
   ⟨"SWAP", 0xFFF8#16, 0x4840#16, fun w => some (.swap (regAt w 0))⟩,
   ⟨"EXT.W", 0xFFF8#16, 0x4880#16, fun w => some (.extW (regAt w 0))⟩,
   ⟨"EXT.L", 0xFFF8#16, 0x48C0#16, fun w => some (.extL (regAt w 0))⟩,
   ⟨"PEA", 0xFFC0#16, 0x4840#16, fun w => withEa w fun ea => .pea ea⟩,
   ⟨"MOVEM_R2M", 0xFF80#16, 0x4880#16, fun w => withEa w fun ea => .movemToMem (oneBitSize w 6) ea⟩,
   ⟨"MOVEM_M2R", 0xFF80#16, 0x4C80#16, fun w => withEa w fun ea => .movemToReg (oneBitSize w 6) ea⟩,
   ⟨"NBCD", 0xFFC0#16, 0x4800#16, fun w => withEa w fun ea => .nbcd ea⟩,
   ⟨"MOVE_FROM_SR", 0xFFC0#16, 0x40C0#16, fun w => withEa w fun ea => .moveFromSr ea⟩,
   ⟨"MOVE_TO_CCR", 0xFFC0#16, 0x44C0#16, fun w => withEa w fun ea => .moveToCcr ea⟩,
   ⟨"MOVE_TO_SR", 0xFFC0#16, 0x46C0#16, fun w => withEa w fun ea => .moveToSr ea⟩,
   ⟨"TAS", 0xFFC0#16, 0x4AC0#16, fun w => withEa w fun ea => .tas ea⟩,
   ⟨"NEGX", 0xFF00#16, 0x4000#16, fun w => withSizeEa w fun sz ea => .negx sz ea⟩,
   ⟨"CLR", 0xFF00#16, 0x4200#16, fun w => withSizeEa w fun sz ea => .clr sz ea⟩,
   ⟨"NEG", 0xFF00#16, 0x4400#16, fun w => withSizeEa w fun sz ea => .neg sz ea⟩,
   ⟨"NOT", 0xFF00#16, 0x4600#16, fun w => withSizeEa w fun sz ea => .not sz ea⟩,
   ⟨"TST", 0xFF00#16, 0x4A00#16, fun w => withSizeEa w fun sz ea => .tst sz ea⟩,
   ⟨"CHK", 0xF1C0#16, 0x4180#16, fun w => withEa w fun ea => .chk (regAt w 9) ea⟩,
   ⟨"LEA", 0xF1C0#16, 0x41C0#16, fun w => withEa w fun ea => .lea (regAt w 9) ea⟩]

/-- Line 5 of the opcode table. -/
def Decode.line5 : List Row :=
  [⟨"DBcc", 0xF0F8#16, 0x50C8#16, fun w => some (.dbcc (condAt w) (regAt w 0))⟩,
   ⟨"Scc", 0xF0C0#16, 0x50C0#16, fun w => withEa w fun ea => .scc (condAt w) ea⟩,
   ⟨"ADDQ", 0xF100#16, 0x5000#16, fun w => withSizeEa w fun sz ea => .addq (regAt w 9) sz ea⟩,
   ⟨"SUBQ", 0xF100#16, 0x5100#16, fun w => withSizeEa w fun sz ea => .subq (regAt w 9) sz ea⟩]

/-- Line 6 of the opcode table. -/
def Decode.line6 : List Row :=
  [⟨"BRA", 0xFF00#16, 0x6000#16, fun w => some (.bra (w.setWidth 8))⟩,
   ⟨"BSR", 0xFF00#16, 0x6100#16, fun w => some (.bsr (w.setWidth 8))⟩,
   ⟨"Bcc", 0xF000#16, 0x6000#16, fun w => some (.bcc (condAt w) (w.setWidth 8))⟩]

/-- Line 7 of the opcode table. -/
def Decode.line7 : List Row :=
  [⟨"MOVEQ", 0xF100#16, 0x7000#16, fun w => some (.moveq (regAt w 9) (w.setWidth 8))⟩]

/-- Line 8 of the opcode table. -/
def Decode.line8 : List Row :=
  [⟨"DIVU", 0xF1C0#16, 0x80C0#16, fun w => withEa w fun ea => .divu (regAt w 9) ea⟩,
   ⟨"DIVS", 0xF1C0#16, 0x81C0#16, fun w => withEa w fun ea => .divs (regAt w 9) ea⟩,
   ⟨"SBCD", 0xF1F0#16, 0x8100#16, fun w => some (.sbcd (xModeOf w) (regAt w 9) (regAt w 0))⟩,
   ⟨"OR_TO_DN", 0xF100#16, 0x8000#16, fun w => withSizeEa w fun sz ea => .orToDn (regAt w 9) sz ea⟩,
   ⟨"OR_TO_EA", 0xF100#16, 0x8100#16, fun w => withSizeEa w fun sz ea => .orToEa (regAt w 9) sz ea⟩]

/-- Line 9 of the opcode table. -/
def Decode.line9 : List Row :=
  [⟨"SUBA", 0xF0C0#16, 0x90C0#16, fun w => withEa w fun ea => .suba (regAt w 9) (oneBitSize w 8) ea⟩,
   ⟨"SUBX", 0xF130#16, 0x9100#16, fun w => withSize w fun sz => .subx (xModeOf w) sz (regAt w 9) (regAt w 0)⟩,
   ⟨"SUB_TO_DN", 0xF100#16, 0x9000#16, fun w => withSizeEa w fun sz ea => .subToDn (regAt w 9) sz ea⟩,
   ⟨"SUB_TO_EA", 0xF100#16, 0x9100#16, fun w => withSizeEa w fun sz ea => .subToEa (regAt w 9) sz ea⟩]

/-- Line A of the opcode table. -/
def Decode.lineA : List Row :=
  [⟨"LINE_A", 0xF000#16, 0xA000#16, fun w => some (.lineA (w.setWidth 12))⟩]

/-- Line B of the opcode table. -/
def Decode.lineB : List Row :=
  [⟨"CMPA", 0xF0C0#16, 0xB0C0#16, fun w => withEa w fun ea => .cmpa (regAt w 9) (oneBitSize w 8) ea⟩,
   ⟨"CMPM", 0xF138#16, 0xB108#16, fun w => withSize w fun sz => .cmpm sz (regAt w 9) (regAt w 0)⟩,
   ⟨"CMP", 0xF100#16, 0xB000#16, fun w => withSizeEa w fun sz ea => .cmp (regAt w 9) sz ea⟩,
   ⟨"EOR", 0xF100#16, 0xB100#16, fun w => withSizeEa w fun sz ea => .eor (regAt w 9) sz ea⟩]

/-- Line C of the opcode table. -/
def Decode.lineC : List Row :=
  [⟨"MULU", 0xF1C0#16, 0xC0C0#16, fun w => withEa w fun ea => .mulu (regAt w 9) ea⟩,
   ⟨"MULS", 0xF1C0#16, 0xC1C0#16, fun w => withEa w fun ea => .muls (regAt w 9) ea⟩,
   ⟨"ABCD", 0xF1F0#16, 0xC100#16, fun w => some (.abcd (xModeOf w) (regAt w 9) (regAt w 0))⟩,
   ⟨"EXG_DD", 0xF1F8#16, 0xC140#16, fun w => some (.exgDD (regAt w 9) (regAt w 0))⟩,
   ⟨"EXG_AA", 0xF1F8#16, 0xC148#16, fun w => some (.exgAA (regAt w 9) (regAt w 0))⟩,
   ⟨"EXG_DA", 0xF1F8#16, 0xC188#16, fun w => some (.exgDA (regAt w 9) (regAt w 0))⟩,
   ⟨"AND_TO_DN", 0xF100#16, 0xC000#16, fun w => withSizeEa w fun sz ea => .andToDn (regAt w 9) sz ea⟩,
   ⟨"AND_TO_EA", 0xF100#16, 0xC100#16, fun w => withSizeEa w fun sz ea => .andToEa (regAt w 9) sz ea⟩]

/-- Line D of the opcode table. -/
def Decode.lineD : List Row :=
  [⟨"ADDA", 0xF0C0#16, 0xD0C0#16, fun w => withEa w fun ea => .adda (regAt w 9) (oneBitSize w 8) ea⟩,
   ⟨"ADDX", 0xF130#16, 0xD100#16, fun w => withSize w fun sz => .addx (xModeOf w) sz (regAt w 9) (regAt w 0)⟩,
   ⟨"ADD_TO_DN", 0xF100#16, 0xD000#16, fun w => withSizeEa w fun sz ea => .addToDn (regAt w 9) sz ea⟩,
   ⟨"ADD_TO_EA", 0xF100#16, 0xD100#16, fun w => withSizeEa w fun sz ea => .addToEa (regAt w 9) sz ea⟩]

/-- Line E of the opcode table. -/
def Decode.lineE : List Row :=
  [⟨"ASR_MEM", 0xFFC0#16, 0xE0C0#16, fun w => withEa w fun ea => .asrMem ea⟩,
   ⟨"ASL_MEM", 0xFFC0#16, 0xE1C0#16, fun w => withEa w fun ea => .aslMem ea⟩,
   ⟨"LSR_MEM", 0xFFC0#16, 0xE2C0#16, fun w => withEa w fun ea => .lsrMem ea⟩,
   ⟨"LSL_MEM", 0xFFC0#16, 0xE3C0#16, fun w => withEa w fun ea => .lslMem ea⟩,
   ⟨"ROXR_MEM", 0xFFC0#16, 0xE4C0#16, fun w => withEa w fun ea => .roxrMem ea⟩,
   ⟨"ROXL_MEM", 0xFFC0#16, 0xE5C0#16, fun w => withEa w fun ea => .roxlMem ea⟩,
   ⟨"ROR_MEM", 0xFFC0#16, 0xE6C0#16, fun w => withEa w fun ea => .rorMem ea⟩,
   ⟨"ROL_MEM", 0xFFC0#16, 0xE7C0#16, fun w => withEa w fun ea => .rolMem ea⟩,
   ⟨"ASR_REG", 0xF118#16, 0xE000#16, fun w => withSize w fun sz => .asrReg (countOf w) sz (regAt w 0)⟩,
   ⟨"ASL_REG", 0xF118#16, 0xE100#16, fun w => withSize w fun sz => .aslReg (countOf w) sz (regAt w 0)⟩,
   ⟨"LSR_REG", 0xF118#16, 0xE008#16, fun w => withSize w fun sz => .lsrReg (countOf w) sz (regAt w 0)⟩,
   ⟨"LSL_REG", 0xF118#16, 0xE108#16, fun w => withSize w fun sz => .lslReg (countOf w) sz (regAt w 0)⟩,
   ⟨"ROXR_REG", 0xF118#16, 0xE010#16, fun w => withSize w fun sz => .roxrReg (countOf w) sz (regAt w 0)⟩,
   ⟨"ROXL_REG", 0xF118#16, 0xE110#16, fun w => withSize w fun sz => .roxlReg (countOf w) sz (regAt w 0)⟩,
   ⟨"ROR_REG", 0xF118#16, 0xE018#16, fun w => withSize w fun sz => .rorReg (countOf w) sz (regAt w 0)⟩,
   ⟨"ROL_REG", 0xF118#16, 0xE118#16, fun w => withSize w fun sz => .rolReg (countOf w) sz (regAt w 0)⟩]

/-- Line F of the opcode table. -/
def Decode.lineF : List Row :=
  [⟨"LINE_F", 0xF000#16, 0xF000#16, fun w => some (.lineF (w.setWidth 12))⟩]

/-- The rows of a line (30_encoding.md R113). -/
def Decode.rowsOf (line : Fin 16) : List Row :=
  match line with
  | 0 => Decode.line0 | 1 => Decode.line1 | 2 => Decode.line2 | 3 => Decode.line3
  | 4 => Decode.line4 | 5 => Decode.line5 | 6 => Decode.line6 | 7 => Decode.line7
  | 8 => Decode.line8 | 9 => Decode.line9 | 10 => Decode.lineA | 11 => Decode.lineB
  | 12 => Decode.lineC | 13 => Decode.lineD | 14 => Decode.lineE | _ => Decode.lineF

/-- What a row answers for an opword: its instruction if the mask/compare test and the constraints hold. -/
def Row.select (r : Row) (w : Half) : Option Instr :=
  if w &&& r.mask = r.pattern then
    match r.build w with
    | some i => if i.wf then some i else none
    | none => none
  else none

/-- The first row that selects an instruction. -/
def firstRow (w : Half) : List Row → Option Instr
  | [] => none
  | r :: rest =>
    match r.select w with
    | some i => some i
    | none => firstRow w rest

/-- The dispatcher of 30_encoding.md R113: the rows of the opword's line in file order; `none` is an
illegal opword (R130). -/
def decodeOpword (w : Half) : Option Instr := firstRow w (Decode.rowsOf (nibbleAt w 12))

/-- Why bytes decode to no instruction. -/
inductive DecodeError where
  /-- fewer than the two bytes of an opword -/
  | truncated
  /-- the opword matches no row (30_encoding.md R130) -/
  | illegalOpword
deriving DecidableEq, Repr

/-- The decoder on bytes as they lie in memory: the opword is big-endian (20_memory.md R72), and decode
reads only the opword (30_encoding.md R114). -/
def decode : List Byte → Except DecodeError Instr
  | hi :: lo :: _ =>
    match decodeOpword (hi ++ lo) with
    | some i => .ok i
    | none => .error .illegalOpword
  | _ => .error .truncated

/-! ### The encoder -/

def bitsOfReg (n : Fin 8) (lo : Nat) : Half := BitVec.ofNat 16 n.val <<< lo

/-- The standard size field (30_encoding.md R107). -/
def bitsOfSize : Size → Half
  | .byte => 0x0000#16
  | .word => 0x0040#16
  | .long => 0x0080#16

/-- A one-bit size field (30_encoding.md R107). -/
def bitsOfOneBit (sz : Size) (bit : Nat) : Half :=
  match sz with
  | .long => 1#16 <<< bit
  | _ => 0#16

/-- The mode number of an addressing mode (30_encoding.md R102). -/
def modeOfEa : EA → Fin 8
  | .dreg _ => 0
  | .areg _ => 1
  | .ind _ => 2
  | .postInc _ => 3
  | .preDec _ => 4
  | .disp _ => 5
  | .index _ => 6
  | .absShort | .absLong | .pcDisp | .pcIndex | .imm => 7

/-- The register number of an addressing mode (30_encoding.md R102). -/
def regOfEa : EA → Fin 8
  | .dreg n | .areg n | .ind n | .postInc n | .preDec n | .disp n | .index n => n
  | .absShort => 0
  | .absLong => 1
  | .pcDisp => 2
  | .pcIndex => 3
  | .imm => 4

/-- The standard EA field `w[5:0]`. -/
def bitsOfEa (ea : EA) : Half := bitsOfReg (modeOfEa ea) 3 ||| bitsOfReg (regOfEa ea) 0

/-- The destination field of MOVE, `w[11:6]`. -/
def bitsOfDst (ea : EA) : Half := bitsOfReg (regOfEa ea) 9 ||| bitsOfReg (modeOfEa ea) 6

/-- The condition codes (30_encoding.md R111). -/
def codeOfCond : Cond → Fin 16
  | .t => 0 | .f => 1 | .hi => 2 | .ls => 3 | .cc => 4 | .cs => 5 | .ne => 6 | .eq => 7
  | .vc => 8 | .vs => 9 | .pl => 10 | .mi => 11 | .ge => 12 | .lt => 13 | .gt => 14 | .le => 15

def bitsOfCond (c : Cond) : Half := BitVec.ofNat 16 (codeOfCond c).val <<< 8

def bitsOfXMode : XMode → Half
  | .dataRegs => 0#16
  | .preDec => 0x0008#16

def bitsOfCount : ShiftCount → Half
  | .imm n => bitsOfReg n 9
  | .reg n => bitsOfReg n 9 ||| 0x0020#16

/-- The opword of an instruction, from the patterns of 30_encoding.md R116 to R129. -/
def encodeOpword : Instr → Half
  | .oriCcr => 0x003C#16
  | .oriSr => 0x007C#16
  | .andiCcr => 0x023C#16
  | .andiSr => 0x027C#16
  | .eoriCcr => 0x0A3C#16
  | .eoriSr => 0x0A7C#16
  | .movep dir sz dn an =>
    0x0108#16 ||| bitsOfReg dn 9 ||| (match dir with | .toReg => 0#16 | .toMem => 0x0080#16) ||| bitsOfOneBit sz 6 ||| bitsOfReg an 0
  | .btstReg dn ea => 0x0100#16 ||| bitsOfReg dn 9 ||| bitsOfEa ea
  | .bchgReg dn ea => 0x0140#16 ||| bitsOfReg dn 9 ||| bitsOfEa ea
  | .bclrReg dn ea => 0x0180#16 ||| bitsOfReg dn 9 ||| bitsOfEa ea
  | .bsetReg dn ea => 0x01C0#16 ||| bitsOfReg dn 9 ||| bitsOfEa ea
  | .btstImm ea => 0x0800#16 ||| bitsOfEa ea
  | .bchgImm ea => 0x0840#16 ||| bitsOfEa ea
  | .bclrImm ea => 0x0880#16 ||| bitsOfEa ea
  | .bsetImm ea => 0x08C0#16 ||| bitsOfEa ea
  | .ori sz ea => 0x0000#16 ||| bitsOfSize sz ||| bitsOfEa ea
  | .andi sz ea => 0x0200#16 ||| bitsOfSize sz ||| bitsOfEa ea
  | .subi sz ea => 0x0400#16 ||| bitsOfSize sz ||| bitsOfEa ea
  | .addi sz ea => 0x0600#16 ||| bitsOfSize sz ||| bitsOfEa ea
  | .eori sz ea => 0x0A00#16 ||| bitsOfSize sz ||| bitsOfEa ea
  | .cmpi sz ea => 0x0C00#16 ||| bitsOfSize sz ||| bitsOfEa ea
  | .moveB src dst => 0x1000#16 ||| bitsOfDst dst ||| bitsOfEa src
  | .moveaL an src => 0x2040#16 ||| bitsOfReg an 9 ||| bitsOfEa src
  | .moveL src dst => 0x2000#16 ||| bitsOfDst dst ||| bitsOfEa src
  | .moveaW an src => 0x3040#16 ||| bitsOfReg an 9 ||| bitsOfEa src
  | .moveW src dst => 0x3000#16 ||| bitsOfDst dst ||| bitsOfEa src
  | .illegal => 0x4AFC#16
  | .reset => 0x4E70#16
  | .nop => 0x4E71#16
  | .stop => 0x4E72#16
  | .rte => 0x4E73#16
  | .rts => 0x4E75#16
  | .trapv => 0x4E76#16
  | .rtr => 0x4E77#16
  | .trap v => 0x4E40#16 ||| BitVec.ofNat 16 v.val
  | .link an => 0x4E50#16 ||| bitsOfReg an 0
  | .unlk an => 0x4E58#16 ||| bitsOfReg an 0
  | .moveToUsp an => 0x4E60#16 ||| bitsOfReg an 0
  | .moveFromUsp an => 0x4E68#16 ||| bitsOfReg an 0
  | .jsr ea => 0x4E80#16 ||| bitsOfEa ea
  | .jmp ea => 0x4EC0#16 ||| bitsOfEa ea
  | .swap dn => 0x4840#16 ||| bitsOfReg dn 0
  | .extW dn => 0x4880#16 ||| bitsOfReg dn 0
  | .extL dn => 0x48C0#16 ||| bitsOfReg dn 0
  | .pea ea => 0x4840#16 ||| bitsOfEa ea
  | .movemToMem sz ea => 0x4880#16 ||| bitsOfOneBit sz 6 ||| bitsOfEa ea
  | .movemToReg sz ea => 0x4C80#16 ||| bitsOfOneBit sz 6 ||| bitsOfEa ea
  | .nbcd ea => 0x4800#16 ||| bitsOfEa ea
  | .moveFromSr ea => 0x40C0#16 ||| bitsOfEa ea
  | .moveToCcr ea => 0x44C0#16 ||| bitsOfEa ea
  | .moveToSr ea => 0x46C0#16 ||| bitsOfEa ea
  | .tas ea => 0x4AC0#16 ||| bitsOfEa ea
  | .negx sz ea => 0x4000#16 ||| bitsOfSize sz ||| bitsOfEa ea
  | .clr sz ea => 0x4200#16 ||| bitsOfSize sz ||| bitsOfEa ea
  | .neg sz ea => 0x4400#16 ||| bitsOfSize sz ||| bitsOfEa ea
  | .not sz ea => 0x4600#16 ||| bitsOfSize sz ||| bitsOfEa ea
  | .tst sz ea => 0x4A00#16 ||| bitsOfSize sz ||| bitsOfEa ea
  | .chk dn ea => 0x4180#16 ||| bitsOfReg dn 9 ||| bitsOfEa ea
  | .lea an ea => 0x41C0#16 ||| bitsOfReg an 9 ||| bitsOfEa ea
  | .dbcc c dn => 0x50C8#16 ||| bitsOfCond c ||| bitsOfReg dn 0
  | .scc c ea => 0x50C0#16 ||| bitsOfCond c ||| bitsOfEa ea
  | .addq q sz ea => 0x5000#16 ||| bitsOfReg q 9 ||| bitsOfSize sz ||| bitsOfEa ea
  | .subq q sz ea => 0x5100#16 ||| bitsOfReg q 9 ||| bitsOfSize sz ||| bitsOfEa ea
  | .bra d => 0x6000#16 ||| d.setWidth 16
  | .bsr d => 0x6100#16 ||| d.setWidth 16
  | .bcc c d => 0x6000#16 ||| bitsOfCond c ||| d.setWidth 16
  | .moveq dn d => 0x7000#16 ||| bitsOfReg dn 9 ||| d.setWidth 16
  | .divu dn ea => 0x80C0#16 ||| bitsOfReg dn 9 ||| bitsOfEa ea
  | .divs dn ea => 0x81C0#16 ||| bitsOfReg dn 9 ||| bitsOfEa ea
  | .sbcd m rx ry => 0x8100#16 ||| bitsOfReg rx 9 ||| bitsOfXMode m ||| bitsOfReg ry 0
  | .orToDn dn sz ea => 0x8000#16 ||| bitsOfReg dn 9 ||| bitsOfSize sz ||| bitsOfEa ea
  | .orToEa dn sz ea => 0x8100#16 ||| bitsOfReg dn 9 ||| bitsOfSize sz ||| bitsOfEa ea
  | .suba an sz ea => 0x90C0#16 ||| bitsOfReg an 9 ||| bitsOfOneBit sz 8 ||| bitsOfEa ea
  | .subx m sz rx ry => 0x9100#16 ||| bitsOfReg rx 9 ||| bitsOfSize sz ||| bitsOfXMode m ||| bitsOfReg ry 0
  | .subToDn dn sz ea => 0x9000#16 ||| bitsOfReg dn 9 ||| bitsOfSize sz ||| bitsOfEa ea
  | .subToEa dn sz ea => 0x9100#16 ||| bitsOfReg dn 9 ||| bitsOfSize sz ||| bitsOfEa ea
  | .lineA p => 0xA000#16 ||| p.setWidth 16
  | .cmpa an sz ea => 0xB0C0#16 ||| bitsOfReg an 9 ||| bitsOfOneBit sz 8 ||| bitsOfEa ea
  | .cmpm sz ax ay => 0xB108#16 ||| bitsOfReg ax 9 ||| bitsOfSize sz ||| bitsOfReg ay 0
  | .cmp dn sz ea => 0xB000#16 ||| bitsOfReg dn 9 ||| bitsOfSize sz ||| bitsOfEa ea
  | .eor dn sz ea => 0xB100#16 ||| bitsOfReg dn 9 ||| bitsOfSize sz ||| bitsOfEa ea
  | .mulu dn ea => 0xC0C0#16 ||| bitsOfReg dn 9 ||| bitsOfEa ea
  | .muls dn ea => 0xC1C0#16 ||| bitsOfReg dn 9 ||| bitsOfEa ea
  | .abcd m rx ry => 0xC100#16 ||| bitsOfReg rx 9 ||| bitsOfXMode m ||| bitsOfReg ry 0
  | .exgDD rx ry => 0xC140#16 ||| bitsOfReg rx 9 ||| bitsOfReg ry 0
  | .exgAA rx ry => 0xC148#16 ||| bitsOfReg rx 9 ||| bitsOfReg ry 0
  | .exgDA dx ay => 0xC188#16 ||| bitsOfReg dx 9 ||| bitsOfReg ay 0
  | .andToDn dn sz ea => 0xC000#16 ||| bitsOfReg dn 9 ||| bitsOfSize sz ||| bitsOfEa ea
  | .andToEa dn sz ea => 0xC100#16 ||| bitsOfReg dn 9 ||| bitsOfSize sz ||| bitsOfEa ea
  | .adda an sz ea => 0xD0C0#16 ||| bitsOfReg an 9 ||| bitsOfOneBit sz 8 ||| bitsOfEa ea
  | .addx m sz rx ry => 0xD100#16 ||| bitsOfReg rx 9 ||| bitsOfSize sz ||| bitsOfXMode m ||| bitsOfReg ry 0
  | .addToDn dn sz ea => 0xD000#16 ||| bitsOfReg dn 9 ||| bitsOfSize sz ||| bitsOfEa ea
  | .addToEa dn sz ea => 0xD100#16 ||| bitsOfReg dn 9 ||| bitsOfSize sz ||| bitsOfEa ea
  | .asrMem ea => 0xE0C0#16 ||| bitsOfEa ea
  | .aslMem ea => 0xE1C0#16 ||| bitsOfEa ea
  | .lsrMem ea => 0xE2C0#16 ||| bitsOfEa ea
  | .lslMem ea => 0xE3C0#16 ||| bitsOfEa ea
  | .roxrMem ea => 0xE4C0#16 ||| bitsOfEa ea
  | .roxlMem ea => 0xE5C0#16 ||| bitsOfEa ea
  | .rorMem ea => 0xE6C0#16 ||| bitsOfEa ea
  | .rolMem ea => 0xE7C0#16 ||| bitsOfEa ea
  | .asrReg c sz dn => 0xE000#16 ||| bitsOfCount c ||| bitsOfSize sz ||| bitsOfReg dn 0
  | .aslReg c sz dn => 0xE100#16 ||| bitsOfCount c ||| bitsOfSize sz ||| bitsOfReg dn 0
  | .lsrReg c sz dn => 0xE008#16 ||| bitsOfCount c ||| bitsOfSize sz ||| bitsOfReg dn 0
  | .lslReg c sz dn => 0xE108#16 ||| bitsOfCount c ||| bitsOfSize sz ||| bitsOfReg dn 0
  | .roxrReg c sz dn => 0xE010#16 ||| bitsOfCount c ||| bitsOfSize sz ||| bitsOfReg dn 0
  | .roxlReg c sz dn => 0xE110#16 ||| bitsOfCount c ||| bitsOfSize sz ||| bitsOfReg dn 0
  | .rorReg c sz dn => 0xE018#16 ||| bitsOfCount c ||| bitsOfSize sz ||| bitsOfReg dn 0
  | .rolReg c sz dn => 0xE118#16 ||| bitsOfCount c ||| bitsOfSize sz ||| bitsOfReg dn 0
  | .lineF p => 0xF000#16 ||| p.setWidth 16

/-- The two bytes of a 16-bit word as they lie in memory (20_memory.md R72). -/
def bytesOfHalf (w : Half) : List Byte := [w.extractLsb' 8 8, w.extractLsb' 0 8]

/-- The bytes of an instruction's opword as they lie in memory. -/
def encode (i : Instr) : List Byte := bytesOfHalf (encodeOpword i)

/-! ### Indexed extension words (30_encoding.md R104, R105) -/

/-- The index register fields, bits 15 to 9. -/
def indexRegOf (e : Half) : IndexReg :=
  { isAddr := e.getLsbD 15, reg := regAt e 12, isLong := e.getLsbD 11,
    scale := ⟨(e.extractLsb' 9 2).toNat, (e.extractLsb' 9 2).isLt⟩ }

/-- The size of the base displacement, bits 5 to 4; 00 is reserved (30_encoding.md R105). -/
def baseDispOf (e : Half) : Option DispSize :=
  match e.getLsbD 5, e.getLsbD 4 with
  | false, false => none
  | false, true => some .null
  | true, false => some .word
  | true, true => some .long

/-- The I/IS field, bits 2 to 0, under the index-suppress bit (30_encoding.md R105). -/
def indirectionOf (e : Half) (indexSuppressed : Bool) : Option Indirection :=
  match indexSuppressed, regAt e 0 with
  | _, 0 => some .none
  | _, 1 => some (.pre .null)
  | _, 2 => some (.pre .word)
  | _, 3 => some (.pre .long)
  | false, 5 => some (.post .null)
  | false, 6 => some (.post .word)
  | false, 7 => some (.post .long)
  | _, _ => none

/-- The indexed extension word (30_encoding.md R104, R105). -/
def decodeIndexWord (e : Half) : IndexWord :=
  if e.getLsbD 8 then
    if e.getLsbD 3 then .reserved
    else
      match baseDispOf e, indirectionOf e (e.getLsbD 6) with
      | some bd, some ind => .full (indexRegOf e) (e.getLsbD 7) (e.getLsbD 6) bd ind
      | _, _ => .reserved
  else .brief (indexRegOf e) (e.setWidth 8)

def bitIf (b : Bool) (bit : Nat) : Half := if b then 1#16 <<< bit else 0#16

def bitsOfIndexReg (x : IndexReg) : Half :=
  bitIf x.isAddr 15 ||| bitsOfReg x.reg 12 ||| bitIf x.isLong 11 ||| (BitVec.ofNat 16 x.scale.val <<< 9)

def bitsOfBaseDisp : DispSize → Half
  | .null => 0x0010#16
  | .word => 0x0020#16
  | .long => 0x0030#16

def bitsOfIndirection : Indirection → Half
  | .none => 0#16
  | .pre .null => 1#16
  | .pre .word => 2#16
  | .pre .long => 3#16
  | .post .null => 5#16
  | .post .word => 6#16
  | .post .long => 7#16

/-- A full word is an encoding unless it asks for a post-indexed form with the index suppressed (30_encoding.md R105). -/
def IndexWord.wf : IndexWord → Bool
  | .brief _ _ => true
  | .full _ _ indexSuppressed _ ind =>
    match indexSuppressed, ind with
    | true, .post _ => false
    | _, _ => true
  | .reserved => false

/-- The word of an indexed extension word; the reserved ones share one example word. -/
def encodeIndexWord : IndexWord → Half
  | .brief x d8 => bitsOfIndexReg x ||| d8.setWidth 16
  | .full x bs is bd ind =>
    bitsOfIndexReg x ||| 0x0100#16 ||| bitIf bs 7 ||| bitIf is 6 ||| bitsOfBaseDisp bd ||| bitsOfIndirection ind
  | .reserved => 0x0100#16

/-! ### The host's question about a table word -/

/-- The words of a number numbered as spec/opcode_table.json numbers them: word `k` holds bits
`16k + 15` to `16k`. -/
def tableWords (count w : Nat) : List Half := (List.range count).map fun k => BitVec.ofNat 16 (w >>> (16 * k))

/-- The bytes of those words as the hardware stores them. -/
def tableBytes (count w : Nat) : List Byte := (tableWords count w).flatMap bytesOfHalf

/-- The longest instruction in words: an opword and two full-format operands of five words each
(30_encoding.md R100). -/
def longestInstr : Nat := 11

/-- The instruction the decoder reads from an instruction whose low `nbits` bits are `w` and whose other bits are 0. -/
def decodeTableWord (nbits w : Nat) : Option Instr :=
  match decode (tableBytes longestInstr (w % 2 ^ nbits)) with
  | .ok i => some i
  | .error _ => none

end Sys2Proof
end

