-- ==== Sys2Proof/Machine/Bits.lean ====
section
/-! DEFINITION. Sizes, truncation, sign bits and sign extension (00_scope.md R14, R15). -/

namespace Sys2Proof.Machine

/-- The size in bytes (00_scope.md R15). -/
def sizeBytes : Size → Nat
  | .byte => 1
  | .word => 2
  | .long => 4

/-- `nbits(sz) = 8*sz` (00_scope.md R15). -/
def sizeBits (sz : Size) : Nat := 8 * sizeBytes sz

/-- The size in bytes as a word, for address arithmetic. -/
def sizeWord (sz : Size) : Word := BitVec.ofNat 32 (sizeBytes sz)

/-- The bits an operand of the size occupies. -/
def sizeMask : Size → Word
  | .byte => 0x000000FF#32
  | .word => 0x0000FFFF#32
  | .long => 0xFFFFFFFF#32

/-- `trunc(v, sz)` (00_scope.md R15). -/
def trunc (sz : Size) (v : Word) : Word := v &&& sizeMask sz

/-- `msb(v, sz)` (00_scope.md R15). -/
def msb (sz : Size) (v : Word) : Bool := v.getLsbD (sizeBits sz - 1)

/-- `old` with its low `nbits(sz)` bits replaced by those of `v` (00_scope.md R16). -/
def insertLow (sz : Size) (old v : Word) : Word := (old &&& ~~~(sizeMask sz)) ||| trunc sz v

/-- `sext_8` of a byte (00_scope.md R15). -/
def sext8 (b : Byte) : Word := b.signExtend 32

/-- `sext_16` of an extension word (00_scope.md R15). -/
def sext16 (h : Half) : Word := h.signExtend 32

/-- The low word of a value, sign-extended: what a word-sized source becomes in an address register
(10_state.md R32). -/
def sextLow (v : Word) : Word := sext16 (v.setWidth 16)

/-- A source of size `sz` as a 32-bit address operand: sign-extended when it is a word (10_state.md R32). -/
def addrOperand (sz : Size) (v : Word) : Word :=
  match sz with
  | .word => sextLow v
  | _ => v

/-- A long from its two words, the first one high (20_memory.md R73). -/
def longOf (hi lo : Half) : Word := hi ++ lo

end Sys2Proof.Machine
end

