-- ==== Sys2Proof/Machine/Flags.lean ====
section
/-! DEFINITION. The condition-code engine (41_condition_codes.md R180 to R191), the layout of SR (10_state.md
R39, R40), the shift/rotate engine (42_shift_rotate.md R200 to R205) and the BCD helpers (46_bit_bcd.md R315). -/

namespace Sys2Proof.Machine

/-- The condition codes X N Z V C. -/
structure Flags where
  x : Bool
  n : Bool
  z : Bool
  v : Bool
  c : Bool
deriving DecidableEq, Repr

/-! ### The condition-code engine -/

/-- operationKind (41_condition_codes.md R180). -/
inductive OpKind where
  | add
  | sub
  | logical
deriving DecidableEq, Repr

/-- flagsToUpdate (41_condition_codes.md R180). -/
structure FlagSet where
  x : Bool
  n : Bool
  z : Bool
  v : Bool
  c : Bool
deriving DecidableEq, Repr

/-- All five flags. -/
def FlagSet.all : FlagSet := { x := true, n := true, z := true, v := true, c := true }

/-- All but X. -/
def FlagSet.exceptX : FlagSet := { x := false, n := true, z := true, v := true, c := true }

/-- Carry of an addition from the sign bits (41_condition_codes.md R182). -/
def addCarry (sm dm rm : Bool) : Bool := (sm && dm) || (!rm && dm) || (sm && !rm)

/-- Borrow of a subtraction from the sign bits (R183). -/
def subCarry (sm dm rm : Bool) : Bool := (sm && !dm) || (rm && !dm) || (sm && rm)

/-- Overflow of an addition (R184). -/
def addOverflow (sm dm rm : Bool) : Bool := (sm && dm && !rm) || (!sm && !dm && rm)

/-- Overflow of a subtraction (R185). -/
def subOverflow (sm dm rm : Bool) : Bool := (!sm && dm && !rm) || (sm && !dm && rm)

/-- Zero of the width-masked result (R186). -/
def isZero (sz : Size) (r : Word) : Bool := trunc sz r == 0#32

/-- The carry an operation of the kind gives. -/
def carryOf (kind : OpKind) (sm dm rm : Bool) : Bool :=
  match kind with
  | .add => addCarry sm dm rm
  | .sub => subCarry sm dm rm
  | .logical => false

/-- The overflow an operation of the kind gives. -/
def overflowOf (kind : OpKind) (sm dm rm : Bool) : Bool :=
  match kind with
  | .add => addOverflow sm dm rm
  | .sub => subOverflow sm dm rm
  | .logical => false

/-- updateFlags (41_condition_codes.md R180, R181, R186, R187, R189): only the named flags are written,
and LOGICAL never writes X. -/
def updateFlags (src dst res : Word) (sz : Size) (kind : OpKind) (which : FlagSet) (old : Flags) : Flags :=
  let sm := msb sz src
  let dm := msb sz dst
  let rm := msb sz res
  { x := if which.x && kind != .logical then carryOf kind sm dm rm else old.x
    n := if which.n then rm else old.n
    z := if which.z then isZero sz res else old.z
    v := if which.v then overflowOf kind sm dm rm else old.v
    c := if which.c then carryOf kind sm dm rm else old.c }

/-- The sticky Z of the extended operations (41_condition_codes.md R188). -/
def stickyZ (old new : Flags) : Flags := { new with z := old.z && new.z }

/-- AddFlags without sticky Z (44_integer_arithmetic.md R250). -/
def addFlags (sz : Size) (src dst res : Word) (old : Flags) : Flags :=
  updateFlags src dst res sz .add .all old

/-- SubFlags with X and without sticky Z (R250). -/
def subFlags (sz : Size) (src dst res : Word) (old : Flags) : Flags :=
  updateFlags src dst res sz .sub .all old

/-- SubFlags without X (R250; the CMP family of R191). -/
def cmpFlags (sz : Size) (src dst res : Word) (old : Flags) : Flags :=
  updateFlags src dst res sz .sub .exceptX old

/-- AddFlags with sticky Z (R250, R188). -/
def addxFlags (sz : Size) (src dst res : Word) (old : Flags) : Flags :=
  stickyZ old (addFlags sz src dst res old)

/-- SubFlags with X and sticky Z (R250, R188). -/
def subxFlags (sz : Size) (src dst res : Word) (old : Flags) : Flags :=
  stickyZ old (subFlags sz src dst res old)

/-- LogicFlags (41_condition_codes.md R189). -/
def logicFlags (sz : Size) (res : Word) (old : Flags) : Flags :=
  updateFlags 0#32 0#32 res sz .logical .all old

/-- The X flag as the third input of ADDX, SUBX and NEGX. -/
def bitWord (b : Bool) : Word := if b then 1#32 else 0#32

/-- The condition table (41_condition_codes.md R190). -/
def condHolds (f : Flags) : Cond → Bool
  | .t => true
  | .f => false
  | .hi => !f.c && !f.z
  | .ls => f.c || f.z
  | .cc => !f.c
  | .cs => f.c
  | .ne => !f.z
  | .eq => f.z
  | .vc => !f.v
  | .vs => f.v
  | .pl => !f.n
  | .mi => f.n
  | .ge => f.n == f.v
  | .lt => f.n != f.v
  | .gt => !f.z && (f.n == f.v)
  | .le => f.z || (f.n != f.v)

/-! ### The status register (10_state.md R39, R40) -/

def srT1 (sr : Half) : Bool := sr.getLsbD 15
def srS (sr : Half) : Bool := sr.getLsbD 13

/-- The condition codes of SR. -/
def srFlags (sr : Half) : Flags :=
  { x := sr.getLsbD 4, n := sr.getLsbD 3, z := sr.getLsbD 2, v := sr.getLsbD 1, c := sr.getLsbD 0 }

def flagBit (b : Bool) (bit : Nat) : Half := if b then 1#16 <<< bit else 0#16

/-- The condition codes at their places. -/
def bitsOfFlags (f : Flags) : Half :=
  flagBit f.x 4 ||| flagBit f.n 3 ||| flagBit f.z 2 ||| flagBit f.v 1 ||| flagBit f.c 0

/-- SR with its condition codes replaced: what an ordinary instruction's flag update writes. -/
def srWithFlags (sr : Half) (f : Flags) : Half := (sr &&& 0xFFE0#16) ||| bitsOfFlags f

/-- A write of an 8-bit value to CCR: `SR[7:0] <- v & 0x1F`, `SR[15:8]` unchanged (10_state.md R40). -/
def srWithCcr (sr : Half) (v : Half) : Half := (sr &&& 0xFF00#16) ||| (v &&& 0x001F#16)

/-- SR as Enter leaves it: S set, T1 and T0 cleared, the rest unchanged (60_exceptions.md R407). -/
def srEntered (sr : Half) : Half := (sr &&& 0x3FFF#16) ||| 0x2000#16

/-- SR as the reset transition leaves it: `SR[15:8] <- 0x27` over the given condition codes
(70_reset_and_hazards.md R460). -/
def srAfterReset (ccr : Byte) : Half := 0x2700#16 ||| (ccr.setWidth 16 &&& 0x001F#16)

/-! ### The shift/rotate engine -/

/-- The modes of 42_shift_rotate.md R200. -/
inductive ShiftMode where
  | arith
  | logical
  | rotate
  | rotateX
deriving DecidableEq, Repr

inductive ShiftDir where
  | left
  | right
deriving DecidableEq, Repr

/-- What the loop carries: `v`, `last`, `vflag` and `x` of 42_shift_rotate.md R202. -/
structure ShiftState where
  value : Word
  last : Bool
  vflag : Bool
  x : Bool
deriving DecidableEq, Repr

/-- One turn of the loop (42_shift_rotate.md R202). -/
def shiftOnce (sz : Size) (mode : ShiftMode) (dir : ShiftDir) (s : ShiftState) : ShiftState :=
  match dir with
  | .left =>
    let out := msb sz s.value
    let shifted := trunc sz (s.value <<< 1)
    let v :=
      match mode with
      | .arith | .logical => shifted
      | .rotate => shifted ||| bitWord out
      | .rotateX => shifted ||| bitWord s.x
    { value := v, last := out, vflag := s.vflag || (mode == .arith && msb sz v != out),
      x := if mode == .rotateX then out else s.x }
  | .right =>
    let out := s.value.getLsbD 0
    let top := bitWord (match mode with | .arith => msb sz s.value | .logical => false | .rotate => out | .rotateX => s.x)
    { value := (s.value >>> 1) ||| (top <<< (sizeBits sz - 1)), last := out, vflag := s.vflag,
      x := if mode == .rotateX then out else s.x }

def shiftLoop (sz : Size) (mode : ShiftMode) (dir : ShiftDir) : Nat → ShiftState → ShiftState
  | 0, s => s
  | k + 1, s => shiftLoop sz mode dir k (shiftOnce sz mode dir s)

/-- Shift(value, sz, mode, dir, count) (42_shift_rotate.md R202). -/
def shiftEngine (sz : Size) (mode : ShiftMode) (dir : ShiftDir) (count : Nat) (x : Bool) (value : Word) : ShiftState :=
  shiftLoop sz mode dir count { value := trunc sz value, last := false, vflag := false, x := x }

/-- The flags after the loop (42_shift_rotate.md R203 to R205). -/
def shiftFlags (sz : Size) (mode : ShiftMode) (count : Nat) (rotateUpdatesX : Bool) (r : ShiftState) (old : Flags) : Flags :=
  { x :=
      if count = 0 then old.x
      else
        match mode with
        | .arith | .logical | .rotateX => r.last
        | .rotate => if rotateUpdatesX then r.last else old.x
    n := msb sz r.value
    z := isZero sz r.value
    v := mode == .arith && r.vflag
    c := if count = 0 then (mode == .rotateX && old.x) else r.last }

/-! ### BCD helpers (46_bit_bcd.md R315) -/

/-- Both nibbles at most 9. -/
def validBcd (b : Byte) : Bool := decide ((b.extractLsb' 4 4).toNat ≤ 9) && decide ((b.extractLsb' 0 4).toNat ≤ 9)

/-- `dec(v)`. -/
def bcdValue (b : Byte) : Nat := 10 * (b.extractLsb' 4 4).toNat + (b.extractLsb' 0 4).toNat

/-- `bcd(n)`, n in 0..99. -/
def bcdByte (n : Nat) : Byte := BitVec.ofNat 8 ((n / 10) * 16 + n % 10)

/-- BcdAdd: the result byte and the decimal carry. -/
def bcdAdd (s d : Byte) (x : Bool) : Byte × Bool :=
  let r := bcdValue d + bcdValue s + x.toNat
  (bcdByte (r % 100), decide (99 < r))

/-- BcdSub: the result byte and the decimal borrow. -/
def bcdSub (s d : Byte) (x : Bool) : Byte × Bool :=
  let r : Int := (bcdValue d : Int) - bcdValue s - x.toNat
  (bcdByte ((r + 100) % 100).toNat, decide (r < 0))

/-- The flags after a BCD instruction: N and V are the draws given (46_bit_bcd.md R315). -/
def bcdFlags (result : Byte) (carry drawnN drawnV : Bool) (old : Flags) : Flags :=
  { x := carry, n := drawnN, z := old.z && (result == 0#8), v := drawnV, c := carry }

end Sys2Proof.Machine
end

