-- ==== Sys2Proof/Config.lean ====
section
/-! DEFINITION. The interrupt kinds, the implementation parameters of 00_scope.md (R6 to R12) and the
free values of the model: what the spec calls a draw (00_scope.md R13), what a device region answers
(93_implementation_defined.md I23) and the part of CYCLE_COST the spec leaves open (70_reset_and_hazards.md
R473). A free value has no body, so no proof can rest on what it is. -/

namespace Sys2Proof

/-- Parameter CPU_MODEL (00_scope.md R6). -/
inductive CpuModel where
  | mc68000
  | mc68020Ea
deriving DecidableEq, Repr

/-- The interrupt kinds of 60_exceptions.md R401. -/
inductive IrqKind where
  | reset
  | busError
  | addressError
  | illegalInstruction
  | integerDivideByZero
  | chkChk2
  | ftrapTrapTrapv
  | privilegeViolation
  | trace
  | line1010Emulator
  | line1111Emulator
  | coprocessorProtocolViolation
  | formatError
  | uninitializedInterrupt
  | spuriousInterrupt
  /-- AUTOVECTOR_L with L = levelLess1 + 1, L in 1..7 -/
  | autovector (levelLess1 : Fin 7)
  /-- TRAP_n -/
  | trap (n : Fin 16)
deriving DecidableEq, Repr

/-- The parameters that are plain data. They stand in State, so that a claim about every state is a
claim about every value of them; no step changes them (assumption log 6). -/
structure Params where
  /-- CPU_MODEL (00_scope.md R6) -/
  cpuModel : CpuModel
  /-- PENDING_DEPTH (R8) -/
  pendingDepth : Nat
  /-- IRQ_PRIORITY (R9), as the kinds whose priority differs from the default table of 60_exceptions.md R401 -/
  irqPriority : List (IrqKind × Nat)
  /-- SR_MASK (R10) -/
  srMask : Half
  /-- ROTATE_UPDATES_X (R11) -/
  rotateUpdatesX : Bool
deriving DecidableEq, Repr

/-- The default parameters (00_scope.md R6, R8 to R11). -/
def Params.default : Params :=
  { cpuModel := .mc68000, pendingDepth := 10, irqPriority := [], srMask := 0xF71F#16, rotateUpdatesX := false }

/-- A draw of one bit: an undefined flag (00_scope.md R13; assumption log 5). -/
opaque Config.freeBit : Nat → Bool

/-- A draw of one byte: the result of a BCD instruction on an invalid digit (46_bit_bcd.md R315; log 5, log 20). -/
opaque Config.freeByte : Nat → Byte

/-- A draw of one word: what a device region answers to a read, and a register after the reset input
(93_implementation_defined.md I23; 10_state.md R60; log 5, log 8, log 21). -/
opaque Config.freeWord : Nat → Word

/-- The free part of CYCLE_COST: the base cost of a decoded instruction (70_reset_and_hazards.md R473; log 10). -/
opaque Config.baseCost : Instr → Nat

/-- The cost of a step whose opword is not fetched or decodes to no instruction (log 10). -/
opaque Config.undecodedCost : Nat

end Sys2Proof
end

