-- ==== Sys2Proof/Machine/State.lean ====
section
/-! DEFINITION. The state of the machine as plain data (10_state.md R30 to R60), the reasons a step can
stop, and the state after reset. -/

namespace Sys2Proof.Machine

/-- Why the model stops with a fault. -/
inductive Fault where
  /-- Raised by an operand access of a meaning that is given an instruction that is not well formed: a
  write to a location that is not alterable, or an address asked of an operand that has none. This is
  the "malformed internal invariant" of 93_implementation_defined.md I24: no instruction the decoder
  answers reaches it. Safe: the model stops where the spec refuses. -/
  | malformedOperand
deriving DecidableEq, Repr

/-- Why the model refuses an instruction. -/
inductive Refusal where
  /-- Raised by an arm of exec that has no meaning yet; the mnemonic is the table's. Safe. -/
  | notModelled (mnemonic : String)
deriving DecidableEq, Repr

/-- The run state (10_state.md R48). -/
inductive RunState where
  | running
  | stopped
  | halted
deriving DecidableEq, Repr

/-- How the platform's memory answers in a region (20_memory.md R70, R80, R82; assumption log 7). -/
inductive RegionKind where
  /-- every access signals PageNotMapped -/
  | unmapped
  /-- a write signals WriteProtected -/
  | writeProtected
  /-- addresses with side effects: the platform answers a read, and takes a write -/
  | device
deriving DecidableEq, Repr

/-- A region of the platform's memory that does not answer as plain memory. -/
structure Region where
  base : Nat
  size : Nat
  kind : RegionKind
deriving DecidableEq, Repr

/-- What the block sends to the platform beside plain memory traffic (10_state.md R53). -/
inductive Output where
  /-- the pulse of the RESET instruction (48_system_control.md R358) -/
  | resetDevices
  /-- a read request that a device region answered -/
  | deviceRead (addr : Word) (sz : Size)
  /-- a write request that a device region took -/
  | deviceWrite (addr : Word) (sz : Size) (value : Word)
deriving DecidableEq, Repr

/-- The state of the CORE, of the memory it works against, and of the platform as the CORE sees it. -/
structure State where
  /-- D0 to D7 (10_state.md R31) -/
  d : Vector Word 8
  /-- A0 to A6 (R32); A7 has no storage of its own (R33) -/
  a : Vector Word 7
  /-- the user stack pointer (R33) -/
  usp : Word
  /-- the supervisor stack pointer (R33) -/
  ssp : Word
  /-- the program counter (R36) -/
  pc : Word
  /-- the address of the opword of the instruction being executed (R38) -/
  pcStart : Word
  /-- the opword of the instruction being executed, 0 before it is fetched (60_exceptions.md R421; log 12) -/
  ir : Half
  /-- the status register (R39) -/
  sr : Half
  /-- the single active interrupt (R45) -/
  active : Option (IrqKind × Aux)
  /-- the pending stack, its top first (R46; 60_exceptions.md R413) -/
  pending : List (IrqKind × Aux)
  /-- the run state (R48) -/
  run : RunState
  /-- the cycle-cost accumulator (R49) -/
  cycles : Nat
  /-- the tick counter (R50) -/
  countdown : Nat
  /-- the contents of memory: the bytes that differ from an unlisted one, by rising address (log 1) -/
  mem : List Host.Cell
  /-- the regions that do not answer as plain memory (log 7) -/
  map : List Region
  /-- the implementation parameters (00_scope.md R6 to R11; log 6) -/
  params : Params
  /-- what was sent to the platform, newest first (log 9) -/
  outputs : List Output
  /-- how many draws have been taken (log 5) -/
  draws : Nat
deriving DecidableEq, Repr

/-- The machine right after reset (10_state.md R60; 70_reset_and_hazards.md R460): SSP and pc are the
longs at 0 and 4 of a memory with nothing listed (log 1, log 4); D, A, USP and the condition codes,
which the spec leaves unspecified, are 0 (log 2); pcStart and ir are 0 (log 3). -/
def State.reset : State :=
  { d := Vector.replicate 8 0#32
    a := Vector.replicate 7 0#32
    usp := 0#32
    ssp := 0#32
    pc := 0#32
    pcStart := 0#32
    ir := 0#16
    sr := 0x2700#16
    active := none
    pending := []
    run := .running
    cycles := 0
    countdown := 0
    mem := []
    map := []
    params := Params.default
    outputs := []
    draws := 0 }

end Sys2Proof.Machine
end

