-- ==== Sys2Proof/Machine/Memory.lean ====
section
/-! DEFINITION. Memory contents as one canonical list of (address, byte) pairs, big-endian accesses over
them (20_memory.md R71, R72), and how the platform's memory answers an access (R70, R78, R80; log 7,
log 8, log 11). -/

namespace Sys2Proof.Machine

/-- The contents of memory. -/
abbrev Memory := List Host.Cell

/-- What an address that is not listed reads as (assumption log 1). -/
def Memory.unlisted : Byte := 0#8

/-- The byte at an address. -/
def Memory.readByte : Memory → Nat → Byte
  | [], _ => Memory.unlisted
  | (k, b) :: rest, a => if k = a then b else Memory.readByte rest a

/-- A byte put in its place in the list; the byte an unlisted address reads as is not listed. -/
def Memory.writeByte : Memory → Nat → Byte → Memory
  | [], a, v => if v = Memory.unlisted then [] else [(a, v)]
  | (k, b) :: rest, a, v =>
    if a < k then (if v = Memory.unlisted then (k, b) :: rest else (a, v) :: (k, b) :: rest)
    else if a = k then (if v = Memory.unlisted then rest else (a, v) :: rest)
    else (k, b) :: Memory.writeByte rest a v

/-- The canonical form above a bound: addresses strictly rising, in the address space, and no entry
equal to what an unlisted address reads as. -/
def Memory.wfFrom : Nat → Memory → Bool
  | _, [] => true
  | low, (k, b) :: rest => decide (low ≤ k) && decide (k < 2 ^ 32) && decide (b ≠ Memory.unlisted) && Memory.wfFrom (k + 1) rest

/-- The canonical form. -/
def Memory.wf (m : Memory) : Bool := Memory.wfFrom 0 m

/-- The byte at a 32-bit address (20_memory.md R71). -/
def peek (m : Memory) (addr : Word) : Byte := m.readByte addr.toNat

def poke (m : Memory) (addr : Word) (v : Byte) : Memory := m.writeByte addr.toNat v

/-- The big-endian value of the bytes an access covers; the addresses wrap modulo 2^32 (20_memory.md R71, R72). -/
def valueAt (byteAt : Word → Byte) (addr : Word) (sz : Size) : Word :=
  match sz with
  | .byte => (byteAt addr).setWidth 32
  | .word => (byteAt addr ++ byteAt (addr + 1#32)).setWidth 32
  | .long => byteAt addr ++ byteAt (addr + 1#32) ++ byteAt (addr + 2#32) ++ byteAt (addr + 3#32)

/-- The low bytes of a value put big-endian in the bytes an access covers (20_memory.md R71, R72). -/
def storeAt (put : Memory → Word → Byte → Memory) (m : Memory) (addr : Word) (sz : Size) (v : Word) : Memory :=
  match sz with
  | .byte => put m addr (v.extractLsb' 0 8)
  | .word => put (put m addr (v.extractLsb' 8 8)) (addr + 1#32) (v.extractLsb' 0 8)
  | .long =>
    put (put (put (put m addr (v.extractLsb' 24 8)) (addr + 1#32) (v.extractLsb' 16 8)) (addr + 2#32) (v.extractLsb' 8 8))
      (addr + 3#32) (v.extractLsb' 0 8)

/-- The value at an address. -/
def readMem (m : Memory) (addr : Word) (sz : Size) : Word := valueAt (peek m) addr sz

/-- A value stored at an address. -/
def writeMem (m : Memory) (addr : Word) (sz : Size) (v : Word) : Memory := storeAt poke m addr sz v

/-- The addresses an access covers (20_memory.md R71). -/
def coveredBy (addr : Word) (sz : Size) : List Word :=
  match sz with
  | .byte => [addr]
  | .word => [addr, addr + 1#32]
  | .long => [addr, addr + 1#32, addr + 2#32, addr + 3#32]

/-- The region kind at an address: the first region that holds it. -/
def regionAt : List Region → Word → Option RegionKind
  | [], _ => none
  | r :: rest, a => if r.base ≤ a.toNat ∧ a.toNat < r.base + r.size then some r.kind else regionAt rest a

/-- How the platform's memory answers an access. -/
inductive Answer where
  /-- plain memory -/
  | ram
  /-- a device region answers -/
  | device
  /-- the memory signals a failure (20_memory.md R70) -/
  | pageNotMapped
  | writeProtected
deriving DecidableEq, Repr

/-- The platform's answer to an access: it fails if a byte of it fails, and else a device answers if a
byte of it lies in a device region (20_memory.md R70, R78; assumption log 8, log 11). -/
def answerOf (map : List Region) (addr : Word) (sz : Size) (isWrite : Bool) : Answer :=
  let kinds := (coveredBy addr sz).map (regionAt map)
  if kinds.contains (some .unmapped) then .pageNotMapped
  else if isWrite && kinds.contains (some .writeProtected) then .writeProtected
  else if kinds.contains (some .device) then .device
  else .ram

/-- A byte that a device region answers for (20_memory.md R80). -/
def isDevice (map : List Region) (a : Word) : Bool := regionAt map a == some .device

/-- A byte of an access to `addr` that touches a device: the device's answer in its region, and the latest write elsewhere
(20_memory.md R80, R85; log 8). -/
def byteAnswered (map : List Region) (m : Memory) (answer addr a : Word) : Byte :=
  if isDevice map a then answer.extractLsb' (8 * (a - addr).toNat) 8 else peek m a

/-- A byte stored by an access that touches a device: none in the device's region, where the platform takes the request
(20_memory.md R80, R85; log 8). -/
def pokePlain (map : List Region) (m : Memory) (a : Word) (v : Byte) : Memory := if isDevice map a then m else poke m a v

/-- An odd word or long address, which the CORE faults before it asks the memory (20_memory.md R74, R75). -/
def misaligned (addr : Word) (sz : Size) : Bool := sz != .byte && addr.getLsbD 0

end Sys2Proof.Machine
end

