-- ==== Sys2Proof/Machine/Vectors.lean ====
section
/-! DEFINITION. The interrupt kinds' numbers, vector addresses, groups and priorities (60_exceptions.md
R401 to R404). -/

namespace Sys2Proof.Machine

/-- irqNumber (60_exceptions.md R401). -/
def irqNumber : IrqKind → Nat
  | .reset => 0
  | .busError => 1
  | .addressError => 2
  | .illegalInstruction => 3
  | .integerDivideByZero => 4
  | .chkChk2 => 5
  | .ftrapTrapTrapv => 6
  | .privilegeViolation => 7
  | .trace => 8
  | .line1010Emulator => 9
  | .line1111Emulator => 10
  | .coprocessorProtocolViolation => 12
  | .formatError => 13
  | .uninitializedInterrupt => 14
  | .spuriousInterrupt => 23
  | .autovector l => 24 + l.val
  | .trap n => 31 + n.val

/-- VectorAddress (60_exceptions.md R403). -/
def vectorAddress (k : IrqKind) : Word :=
  if irqNumber k = 0 then 4#32 else BitVec.ofNat 32 (8 + (irqNumber k - 1) * 4)

/-- Group (60_exceptions.md R404). -/
def irqGroup : IrqKind → Nat
  | .reset | .busError | .addressError => 0
  | .trace | .autovector _ | .spuriousInterrupt | .uninitializedInterrupt | .illegalInstruction | .privilegeViolation
  | .line1010Emulator | .line1111Emulator | .formatError | .coprocessorProtocolViolation => 1
  | .integerDivideByZero | .chkChk2 | .ftrapTrapTrapv | .trap _ => 2

/-- The default priority (60_exceptions.md R401, R402). -/
def defaultPriority : IrqKind → Nat
  | .reset => 100
  | .busError => 99
  | .addressError => 98
  | .trace => 80
  | .autovector l => 71 + l.val
  | .spuriousInterrupt | .uninitializedInterrupt => 70
  | .illegalInstruction | .privilegeViolation | .line1010Emulator | .line1111Emulator | .formatError
  | .coprocessorProtocolViolation => 60
  | .integerDivideByZero | .chkChk2 | .ftrapTrapTrapv | .trap _ => 40

/-- IRQ_PRIORITY (00_scope.md R9): the parameter's entry for the kind, else the default. -/
def priority (p : Params) (k : IrqKind) : Nat :=
  match p.irqPriority.lookup k with
  | some n => n
  | none => defaultPriority k

/-- Every kind (60_exceptions.md R401). -/
def allKinds : List IrqKind :=
  [.reset, .busError, .addressError, .illegalInstruction, .integerDivideByZero, .chkChk2, .ftrapTrapTrapv,
   .privilegeViolation, .trace, .line1010Emulator, .line1111Emulator, .coprocessorProtocolViolation, .formatError,
   .uninitializedInterrupt, .spuriousInterrupt]
  ++ (List.finRange 7).map .autovector ++ (List.finRange 16).map .trap

/-- A priority table keeps the group order (00_scope.md R9; 60_exceptions.md R402). -/
def keepsGroupOrder (p : Params) : Bool :=
  allKinds.all fun k => allKinds.all fun l => !decide (irqGroup k < irqGroup l) || decide (priority p l < priority p k)

end Sys2Proof.Machine
end

