-- ==== Sys2Proof/Machine/Ops.lean ====
section
/-! DEFINITION. The named operations over registers, memory and the interrupt controller that every meaning
is built from (00_scope.md R16 to R18; 10_state.md R31 to R40; 20_memory.md R70 to R79; 60_exceptions.md R403 to
R418, R440). -/

namespace Sys2Proof.Machine

/-! ### Registers (10_state.md R31 to R35) -/

def State.dreg (s : State) (n : Fin 8) : Word := s.d[n.val]

/-- Supervisor mode (60_exceptions.md R438). -/
def State.supervisor (s : State) : Bool := srS s.sr

/-- The active stack pointer (10_state.md R33). -/
def State.sp (s : State) : Word := if s.supervisor then s.ssp else s.usp

def State.setSp (s : State) (v : Word) : State :=
  if s.supervisor then { s with ssp := v } else { s with usp := v }

/-- `A[n]`; `A[7]` is the active stack pointer (10_state.md R32, R33). -/
def State.areg (s : State) (n : Fin 8) : Word := if h : n.val < 7 then s.a[n.val] else s.sp

/-- `A[n] <- v` (10_state.md R32, R33). -/
def State.setAreg (s : State) (n : Fin 8) (v : Word) : State :=
  if h : n.val < 7 then { s with a := s.a.set n.val v } else s.setSp v

/-- `D[n].sz <- v` (00_scope.md R16; 10_state.md R31). -/
def State.setDreg (s : State) (n : Fin 8) (sz : Size) (v : Word) : State :=
  { s with d := s.d.set n.val (insertLow sz (s.dreg n) v) }

/-- The condition codes (10_state.md R39). -/
def State.flags (s : State) : Flags := srFlags s.sr

def State.setFlags (s : State) (f : Flags) : State := { s with sr := srWithFlags s.sr f }

/-- A write of SR (10_state.md R40). -/
def State.writeSr (s : State) (v : Half) : State := { s with sr := v &&& s.params.srMask }

/-- A write of CCR (10_state.md R40). -/
def State.writeCcr (s : State) (v : Half) : State := { s with sr := srWithCcr s.sr v }

/-! ### Instructions as operations that may abort -/

/-- Why an instruction stops before its end, or ends in a trap (00_scope.md R18; 60_exceptions.md R440). -/
inductive Abort where
  /-- `raise Fault(kind, aux)` -/
  | fault (k : IrqKind) (aux : Aux)
  /-- `raise Trap(kind)` -/
  | trap (k : IrqKind)
  /-- RTE with a group-0 interrupt active (60_exceptions.md R437) -/
  | halted
  /-- the model's own stop on an operand no decoded instruction has (93_implementation_defined.md I24) -/
  | stuck (f : Fault)
deriving DecidableEq, Repr

/-- An operation of an instruction: it answers a value or aborts, and the state it leaves keeps
everything done before the abort (60_exceptions.md R441). -/
abbrev M := EStateM Abort State

def getState : M State := fun s => .ok s s

def modifyState (f : State → State) : M Unit := fun s => .ok () (f s)

def raiseFault {α : Type} (k : IrqKind) (aux : Aux) : M α := fun s => .error (.fault k aux) s

def raiseTrap {α : Type} (k : IrqKind) : M α := fun s => .error (.trap k) s

/-- The CORE halts in the middle of an instruction (60_exceptions.md R437). -/
def haltCore : M Unit := fun s => .error .halted { s with run := .halted }

def stopStuck {α : Type} (f : Fault) : M α := fun s => .error (.stuck f) s

/-- A draw of one bit (00_scope.md R13; log 5). -/
def drawBit : M Bool := fun s => .ok (Config.freeBit s.draws) { s with draws := s.draws + 1 }

/-- A draw of one byte. -/
def drawByte : M Byte := fun s => .ok (Config.freeByte s.draws) { s with draws := s.draws + 1 }

/-! ### Memory accesses (00_scope.md R17; 20_memory.md R70 to R79) -/

/-- Program or data space (60_exceptions.md R422). -/
inductive Space where
  | data
  | program
deriving DecidableEq, Repr

/-- The function code (60_exceptions.md R421, R422). -/
def functionCode (supervisor : Bool) (sp : Space) : Half :=
  (if supervisor then 4#16 else 0#16) + (match sp with | .program => 2#16 | .data => 1#16)

/-- The fault-format word (60_exceptions.md R421). -/
def formatWord (supervisor isWrite : Bool) (sp : Space) : Half :=
  (if isWrite then 0#16 else 0x0010#16) ||| (match sp with | .program => 0#16 | .data => 0x0008#16) ||| functionCode supervisor sp

/-- A group-0 payload: format word, fault address, opword (10_state.md R47). -/
def packAux (fmt : Half) (addr : Word) (op : Half) : Aux := fmt ++ addr ++ op

/-- AddrAux (60_exceptions.md R421). -/
def State.addrAux (s : State) (addr : Word) (isWrite : Bool) (sp : Space) : Aux :=
  packAux (formatWord s.supervisor isWrite sp) addr s.ir

/-- `MemRead(addr, n)` (00_scope.md R17): an odd word or long address faults before the memory is asked
(20_memory.md R75), a failure of the memory is converted at the CORE's boundary (R78), and an oracle answers for the bytes
of a device region (R80, R85; log 8). -/
def memRead (sp : Space) (sz : Size) (addr : Word) : M Word := fun s =>
  if misaligned addr sz then .error (.fault .addressError (s.addrAux addr false sp)) s
  else
    match answerOf s.map addr sz false with
    | .pageNotMapped | .writeProtected => .error (.fault .addressError (s.addrAux addr false sp)) s
    | .ram => .ok (readMem s.mem addr sz) s
    | .device =>
      .ok (valueAt (byteAnswered s.map s.mem (Config.freeWord s.draws) addr) addr sz)
        { s with draws := s.draws + 1, outputs := .deviceRead addr sz :: s.outputs }

/-- `MemWrite(addr, n, v)` (00_scope.md R17; 20_memory.md R75, R78, R79; R80, R85, log 8 for a device region). -/
def memWrite (sz : Size) (addr v : Word) : M Unit := fun s =>
  if misaligned addr sz then .error (.fault .addressError (s.addrAux addr true .data)) s
  else
    match answerOf s.map addr sz true with
    | .pageNotMapped | .writeProtected => .error (.fault .addressError (s.addrAux addr true .data)) s
    | .ram => .ok () { s with mem := writeMem s.mem addr sz v }
    | .device =>
      .ok () { s with mem := storeAt (pokePlain s.map) s.mem addr sz v, outputs := .deviceWrite addr sz (trunc sz v) :: s.outputs }

/-- `FetchWord()` (00_scope.md R17). -/
def fetchWord : M Half := do
  let s ← getState
  let w ← memRead .program .word s.pc
  modifyState fun t => { t with pc := t.pc + 2#32 }
  return w.setWidth 16

/-- Two words, the first one high (20_memory.md R73). -/
def fetchLong : M Word := do
  let hi ← fetchWord
  let lo ← fetchWord
  return longOf hi lo

/-- `Push(n, v)` (00_scope.md R17; log 19). -/
def push (sz : Size) (v : Word) : M Unit := do
  modifyState fun s => s.setSp (s.sp - sizeWord sz)
  let s ← getState
  memWrite sz s.sp v

/-- `Pop(n)` (00_scope.md R17). -/
def pop (sz : Size) : M Word := do
  let s ← getState
  let v ← memRead .data sz s.sp
  modifyState fun t => t.setSp (t.sp + sizeWord sz)
  return v

/-! ### Taking an exception (60_exceptions.md R405 to R414) -/

/-- The four extra words of a group-0 frame (60_exceptions.md R408). -/
def pushGroup0Words (aux : Aux) : M Unit := do
  push .word ((aux.extractLsb' 48 16).setWidth 32)
  push .word ((aux.extractLsb' 32 16).setWidth 32)
  push .word ((aux.extractLsb' 16 16).setWidth 32)
  push .word ((aux.extractLsb' 0 16).setWidth 32)

/-- Enter as one sequence of accesses (60_exceptions.md R406 to R410). -/
def enterSequence (k : IrqKind) (aux : Aux) : M Unit := do
  let old ← getState
  modifyState fun s => { s with sr := srEntered s.sr }
  if irqGroup k = 0 then pushGroup0Words aux else pure ()
  push .word (old.sr.setWidth 32)
  push .long old.pc
  let target ← memRead .data .long (vectorAddress k)
  modifyState fun s => { s with pc := target, active := some (k, aux), run := .running }

/-- Enter: a fault in any access of it halts the CORE with what was done so far (60_exceptions.md R406, R418). -/
def enter (k : IrqKind) (aux : Aux) (s : State) : State :=
  match enterSequence k aux s with
  | .ok _ t => t
  | .error _ t => { t with run := .halted }

/-- Whether a request waits behind the active interrupt (60_exceptions.md R405). -/
def State.outranks (s : State) (k : IrqKind) : Bool :=
  match s.active with
  | some (a, _) => decide (priority s.params k ≤ priority s.params a)
  | none => false

/-- Raise (60_exceptions.md R405, R414). -/
def raiseIrq (k : IrqKind) (aux : Aux) (s : State) : State :=
  if s.outranks k then
    if s.pending.length = s.params.pendingDepth then { s with run := .halted }
    else { s with pending := (k, aux) :: s.pending }
  else enter k aux s

/-- CheckPending: the top of the stack, if it beats the active interrupt (60_exceptions.md R412). -/
def checkPending (s : State) : State :=
  match s.pending with
  | [] => s
  | (k, aux) :: rest => if s.outranks k then s else enter k aux { s with pending := rest }

/-- Return, the transition of RTE in supervisor mode (60_exceptions.md R411, R437; 48_system_control.md R362). -/
def returnFromException : M Unit := do
  let s ← getState
  match s.active with
  | some (k, _) =>
    if irqGroup k = 0 then haltCore else restoreFrame
  | none => restoreFrame
where
  /-- pops PC, then SR, and clears the active interrupt -/
  restoreFrame : M Unit := do
    let newPc ← pop .long
    let newSr ← pop .word
    modifyState fun t => { t.writeSr (newSr.setWidth 16) with pc := newPc, active := none }

/-! ### The end of an instruction (60_exceptions.md R430, R440) -/

/-- An instruction that started with T1 set and completed raises TRACE (60_exceptions.md R430). -/
def traceAfter (t1 : Bool) (s : State) : State := if t1 then raiseIrq .trace 0#64 s else s

/-- What the step does with an instruction's outcome (60_exceptions.md R440): a fault restores pc and is
raised, a trap is raised, a completed instruction may be traced. -/
def settle (t1 : Bool) : EStateM.Result Abort State Unit → Host.Outcome State Fault Refusal
  | .ok _ s => .next (traceAfter t1 s)
  | .error (.fault k aux) s => .next (raiseIrq k aux { s with pc := s.pcStart })
  | .error (.trap k) s => .next (raiseIrq k 0#64 s)
  | .error .halted s => .next s
  | .error (.stuck f) _ => .fault f

/-- An instruction run to its end, with the exception it raises taken (60_exceptions.md R440). -/
def instruction (body : M Unit) (s : State) : Host.Outcome State Fault Refusal := settle (srT1 s.sr) (body s)

/-- The check every privileged instruction begins with (48_system_control.md R350). -/
def privileged (body : M Unit) : M Unit := do
  let s ← getState
  if s.supervisor then body else raiseFault .privilegeViolation 0#64

end Sys2Proof.Machine
end

