-- ==== Sys2Proof/Machine/Operands.lean ====
section
/-! DEFINITION. The effective-address resolver and the location accessors: every operand form of
40_addressing_modes.md (R140 to R161). -/

namespace Sys2Proof.Machine

/-- What the resolver answers (40_addressing_modes.md R141). -/
inductive Loc where
  | dreg (n : Fin 8)
  | areg (n : Fin 8)
  | mem (addr : Word) (sp : Space)
  | imm (v : Word)
deriving DecidableEq, Repr

/-- `Step(reg, sz)`: a byte operand moves A7 by 2 (40_addressing_modes.md R147). -/
def stepOf (n : Fin 8) (sz : Size) : Word := if sz = .byte ∧ n = 7 then 2#32 else sizeWord sz

/-- `Immediate(sz)` (40_addressing_modes.md R154). -/
def immediate (sz : Size) : M Word :=
  match sz with
  | .byte => do
    let w ← fetchWord
    return (w.setWidth 8).setWidth 32
  | .word => do
    let w ← fetchWord
    return w.setWidth 32
  | .long => fetchLong

/-! ### Indexed modes -/

/-- The index register's value at its width (40_addressing_modes.md R149). -/
def State.indexValue (s : State) (x : IndexReg) : Word :=
  let xn := if x.isAddr then s.areg x.reg else s.dreg x.reg
  if x.isLong then xn else sextLow xn

/-- The index of a brief extension word: the scale counts only on MC68020_EA (40_addressing_modes.md R149). -/
def State.briefIndex (s : State) (x : IndexReg) : Word :=
  match s.params.cpuModel with
  | .mc68000 => s.indexValue x
  | .mc68020Ea => s.indexValue x <<< x.scale.val

/-- The index of a full extension word (40_addressing_modes.md R156). -/
def State.fullIndex (s : State) (x : IndexReg) (suppressed : Bool) : Word :=
  if suppressed then 0#32 else s.indexValue x <<< x.scale.val

/-- A displacement of a full extension word (40_addressing_modes.md R156). -/
def fetchDisp (d : DispSize) : M Word :=
  match d with
  | .null => pure 0#32
  | .word => do
    let w ← fetchWord
    return sext16 w
  | .long => fetchLong

/-- FullIndexed for a full word that is an encoding (40_addressing_modes.md R156): `base` is already 0
where it is suppressed. -/
def fullIndexed (base : Word) (x : IndexReg) (indexSuppressed : Bool) (bd : DispSize) (ind : Indirection) : M Word := do
  let disp ← fetchDisp bd
  let s ← getState
  let idx := s.fullIndex x indexSuppressed
  match ind with
  | .none => return base + disp + idx
  | .pre outer => do
    let od ← fetchDisp outer
    let p ← memRead .data .long (base + disp + idx)
    return p + od
  | .post outer => do
    let od ← fetchDisp outer
    let p ← memRead .data .long (base + disp)
    return p + idx + od

/-- `Indexed(base)` (40_addressing_modes.md R149, R156). -/
def indexed (base : Word) : M Word := do
  let e ← fetchWord
  let s ← getState
  match decodeIndexWord e with
  | .brief x d8 => return base + sext8 d8 + s.briefIndex x
  | .full x baseSuppressed indexSuppressed bd ind =>
    match s.params.cpuModel with
    | .mc68000 => raiseFault .illegalInstruction 0#64
    | .mc68020Ea => fullIndexed (if baseSuppressed then 0#32 else base) x indexSuppressed bd ind
  | .reserved => raiseFault .illegalInstruction 0#64

/-! ### The resolver -/

/-- `Resolve(mode, reg, sz, apply)` (40_addressing_modes.md R141 to R154, R157). -/
def resolve (ea : EA) (sz : Size) (apply : Bool) : M Loc :=
  match ea with
  | .dreg n => pure (.dreg n)
  | .areg n => pure (.areg n)
  | .ind n => do
    let s ← getState
    return .mem (s.areg n) .data
  | .postInc n => do
    let s ← getState
    modifyState fun t => if apply then t.setAreg n (t.areg n + stepOf n sz) else t
    return .mem (s.areg n) .data
  | .preDec n => do
    let s ← getState
    modifyState fun t => if apply then t.setAreg n (t.areg n - stepOf n sz) else t
    return .mem (s.areg n - stepOf n sz) .data
  | .disp n => do
    let w ← fetchWord
    let s ← getState
    return .mem (s.areg n + sext16 w) .data
  | .index n => do
    let s ← getState
    let a ← indexed (s.areg n)
    return .mem a .data
  | .absShort => do
    let w ← fetchWord
    return .mem (sext16 w) .data
  | .absLong => do
    let a ← fetchLong
    return .mem a .data
  | .pcDisp => do
    let s ← getState
    let w ← fetchWord
    return .mem (s.pc + sext16 w) .program
  | .pcIndex => do
    let s ← getState
    let a ← indexed s.pc
    return .mem a .program
  | .imm => do
    let v ← immediate sz
    return .imm v

/-! ### Location accessors (40_addressing_modes.md R158) -/

/-- `Read(loc, sz)`. -/
def readLoc (loc : Loc) (sz : Size) : M Word :=
  match loc with
  | .dreg n => do
    let s ← getState
    return trunc sz (s.dreg n)
  | .areg n => do
    let s ← getState
    return trunc sz (s.areg n)
  | .mem a sp => memRead sp sz a
  | .imm v => pure v

/-- `Write(loc, sz, v)`; the locations the rule shuts out stop the model (log 18). -/
def writeLoc (loc : Loc) (sz : Size) (v : Word) : M Unit :=
  match loc with
  | .dreg n => modifyState fun s => s.setDreg n sz v
  | .areg n =>
    match sz with
    | .long => modifyState fun s => s.setAreg n v
    | _ => stopStuck .malformedOperand
  | .mem a .data => memWrite sz a v
  | .mem _ .program => stopStuck .malformedOperand
  | .imm _ => stopStuck .malformedOperand

/-- The address of a memory location, with its space. -/
def addressOf (loc : Loc) : M (Word × Space) :=
  match loc with
  | .mem a sp => pure (a, sp)
  | _ => stopStuck .malformedOperand

/-! ### The shapes the meanings share -/

/-- `Read(Resolve(ea, sz), sz)`. -/
def readEa (ea : EA) (sz : Size) : M Word := do
  let loc ← resolve ea sz true
  readLoc loc sz

/-- `Write(Resolve(ea, sz), sz, v)`: the operand is not read (40_addressing_modes.md R158). -/
def writeEa (ea : EA) (sz : Size) (v : Word) : M Unit := do
  let loc ← resolve ea sz true
  writeLoc loc sz v

/-- The address of a control operand; nothing is read at it (40_addressing_modes.md R161). -/
def controlAddress (ea : EA) : M Word := do
  let loc ← resolve ea .long true
  let p ← addressOf loc
  return p.1

/-- An operand read, replaced and its flags written, with one resolution (20_memory.md R77). `f` gives
the result and the flags from the state after the read and the operand. -/
def modifyEa (ea : EA) (sz : Size) (f : State → Word → Word × Flags) : M Unit := do
  let loc ← resolve ea sz true
  let d ← readLoc loc sz
  let s ← getState
  writeLoc loc sz (f s d).1
  modifyState fun t => t.setFlags (f s d).2

/-- A source operand combined into a data register, and the flags. -/
def combineDn (dn : Fin 8) (ea : EA) (sz : Size) (f : State → Word → Word × Flags) : M Unit := do
  let v ← readEa ea sz
  modifyState fun s => (s.setDreg dn sz (f s v).1).setFlags (f s v).2

/-- A source operand compared: only the flags are written. -/
def compareEa (ea : EA) (sz : Size) (f : State → Word → Flags) : M Unit := do
  let v ← readEa ea sz
  modifyState fun s => s.setFlags (f s v)

/-- The two operands of ADDX, SUBX, ABCD and SBCD: the source's location is resolved and read first
(44_integer_arithmetic.md R256; 46_bit_bcd.md R316). Answers the source, the destination and its location. -/
def extendedOperands (mode : XMode) (sz : Size) (rx ry : Fin 8) : M (Word × Word × Loc) :=
  match mode with
  | .dataRegs => do
    let s ← getState
    return (trunc sz (s.dreg ry), trunc sz (s.dreg rx), .dreg rx)
  | .preDec => do
    let v ← readEa (.preDec ry) sz
    let dst ← resolve (.preDec rx) sz true
    let d ← readLoc dst sz
    return (v, d, dst)

end Sys2Proof.Machine
end

