-- ==== Sys2Proof/Machine/Arithmetic.lean ====
section
/-! DEFINITION. Addition, subtraction, comparison, negation, clear, sign extension and test
(44_integer_arithmetic.md R250 to R270, R275). -/

namespace Sys2Proof.Machine

/-- `d + s` with the flags of an addition (R250, R251). -/
def addOp (sz : Size) (s d : Word) (old : Flags) : Word × Flags :=
  (trunc sz (d + s), addFlags sz s d (trunc sz (d + s)) old)

/-- `d - s` with the flags of a subtraction (R250, R257). -/
def subOp (sz : Size) (s d : Word) (old : Flags) : Word × Flags :=
  (trunc sz (d - s), subFlags sz s d (trunc sz (d - s)) old)

/-- `d + s + X` with the flags of an extended addition (R256). -/
def addxOp (sz : Size) (s d : Word) (old : Flags) : Word × Flags :=
  (trunc sz (d + s + bitWord old.x), addxFlags sz s d (trunc sz (d + s + bitWord old.x)) old)

/-- `d - s - X` with the flags of an extended subtraction (R262). -/
def subxOp (sz : Size) (s d : Word) (old : Flags) : Word × Flags :=
  (trunc sz (d - s - bitWord old.x), subxFlags sz s d (trunc sz (d - s - bitWord old.x)) old)

/-- The flags of `d - s`, X unchanged (R263). -/
def cmpOp (sz : Size) (s d : Word) (old : Flags) : Flags := cmpFlags sz s d (trunc sz (d - s)) old

/-- The value of a 3-bit quick field: 0 stands for 8 (R255). -/
def quickValue (field : Fin 8) : Word := if field = 0 then 8#32 else BitVec.ofNat 32 field.val

/-! ### Addition -/

/-- ADD ea,Dn (R251). -/
def execAddToDn (dn : Fin 8) (sz : Size) (ea : EA) (s : State) : Host.Outcome State Fault Refusal :=
  instruction (combineDn dn ea sz fun t v => addOp sz v (trunc sz (t.dreg dn)) t.flags) s

/-- ADD Dn,ea (R252). -/
def execAddToEa (dn : Fin 8) (sz : Size) (ea : EA) (s : State) : Host.Outcome State Fault Refusal :=
  instruction (modifyEa ea sz fun t d => addOp sz (trunc sz (t.dreg dn)) d t.flags) s

def addaBody (an : Fin 8) (sz : Size) (ea : EA) : M Unit := do
  let v ← readEa ea sz
  modifyState fun s => s.setAreg an (s.areg an + addrOperand sz v)

/-- ADDA (R253). -/
def execAdda (an : Fin 8) (sz : Size) (ea : EA) (s : State) : Host.Outcome State Fault Refusal := instruction (addaBody an sz ea) s

def addiBody (sz : Size) (ea : EA) : M Unit := do
  let i ← immediate sz
  modifyEa ea sz fun t d => addOp sz i d t.flags

/-- ADDI: the immediate precedes the operand's extension words (R254). -/
def execAddi (sz : Size) (ea : EA) (s : State) : Host.Outcome State Fault Refusal := instruction (addiBody sz ea) s

/-- ADDQ: an address register is changed whole and writes no flag (R255). -/
def addqBody (field : Fin 8) (sz : Size) (ea : EA) : M Unit :=
  match ea with
  | .areg n => modifyState fun s => s.setAreg n (s.areg n + quickValue field)
  | _ => modifyEa ea sz fun t d => addOp sz (quickValue field) d t.flags

/-- ADDQ (R255). -/
def execAddq (field : Fin 8) (sz : Size) (ea : EA) (s : State) : Host.Outcome State Fault Refusal :=
  instruction (addqBody field sz ea) s

def addxBody (mode : XMode) (sz : Size) (rx ry : Fin 8) : M Unit := do
  let (v, d, dst) ← extendedOperands mode sz rx ry
  let s ← getState
  writeLoc dst sz (addxOp sz v d s.flags).1
  modifyState fun t => t.setFlags (addxOp sz v d s.flags).2

/-- ADDX (R256). -/
def execAddx (mode : XMode) (sz : Size) (rx ry : Fin 8) (s : State) : Host.Outcome State Fault Refusal :=
  instruction (addxBody mode sz rx ry) s

/-! ### Subtraction -/

/-- SUB ea,Dn (R257). -/
def execSubToDn (dn : Fin 8) (sz : Size) (ea : EA) (s : State) : Host.Outcome State Fault Refusal :=
  instruction (combineDn dn ea sz fun t v => subOp sz v (trunc sz (t.dreg dn)) t.flags) s

/-- SUB Dn,ea (R258). -/
def execSubToEa (dn : Fin 8) (sz : Size) (ea : EA) (s : State) : Host.Outcome State Fault Refusal :=
  instruction (modifyEa ea sz fun t d => subOp sz (trunc sz (t.dreg dn)) d t.flags) s

def subaBody (an : Fin 8) (sz : Size) (ea : EA) : M Unit := do
  let v ← readEa ea sz
  modifyState fun s => s.setAreg an (s.areg an - addrOperand sz v)

/-- SUBA (R259). -/
def execSuba (an : Fin 8) (sz : Size) (ea : EA) (s : State) : Host.Outcome State Fault Refusal := instruction (subaBody an sz ea) s

def subiBody (sz : Size) (ea : EA) : M Unit := do
  let i ← immediate sz
  modifyEa ea sz fun t d => subOp sz i d t.flags

/-- SUBI (R260). -/
def execSubi (sz : Size) (ea : EA) (s : State) : Host.Outcome State Fault Refusal := instruction (subiBody sz ea) s

def subqBody (field : Fin 8) (sz : Size) (ea : EA) : M Unit :=
  match ea with
  | .areg n => modifyState fun s => s.setAreg n (s.areg n - quickValue field)
  | _ => modifyEa ea sz fun t d => subOp sz (quickValue field) d t.flags

/-- SUBQ (R261). -/
def execSubq (field : Fin 8) (sz : Size) (ea : EA) (s : State) : Host.Outcome State Fault Refusal :=
  instruction (subqBody field sz ea) s

def subxBody (mode : XMode) (sz : Size) (rx ry : Fin 8) : M Unit := do
  let (v, d, dst) ← extendedOperands mode sz rx ry
  let s ← getState
  writeLoc dst sz (subxOp sz v d s.flags).1
  modifyState fun t => t.setFlags (subxOp sz v d s.flags).2

/-- SUBX (R262). -/
def execSubx (mode : XMode) (sz : Size) (rx ry : Fin 8) (s : State) : Host.Outcome State Fault Refusal :=
  instruction (subxBody mode sz rx ry) s

/-! ### Comparison -/

/-- CMP (R263). -/
def execCmp (dn : Fin 8) (sz : Size) (ea : EA) (s : State) : Host.Outcome State Fault Refusal :=
  instruction (compareEa ea sz fun t v => cmpOp sz v (trunc sz (t.dreg dn)) t.flags) s

/-- CMPA: compared at long size (R264). -/
def execCmpa (an : Fin 8) (sz : Size) (ea : EA) (s : State) : Host.Outcome State Fault Refusal :=
  instruction (compareEa ea sz fun t v => cmpOp .long (addrOperand sz v) (t.areg an) t.flags) s

def cmpiBody (sz : Size) (ea : EA) : M Unit := do
  let i ← immediate sz
  compareEa ea sz fun t d => cmpOp sz i d t.flags

/-- CMPI (R265). -/
def execCmpi (sz : Size) (ea : EA) (s : State) : Host.Outcome State Fault Refusal := instruction (cmpiBody sz ea) s

def cmpmBody (sz : Size) (ax ay : Fin 8) : M Unit := do
  let v ← readEa (.postInc ay) sz
  compareEa (.postInc ax) sz fun t d => cmpOp sz v d t.flags

/-- CMPM (R266). -/
def execCmpm (sz : Size) (ax ay : Fin 8) (s : State) : Host.Outcome State Fault Refusal := instruction (cmpmBody sz ax ay) s

/-! ### Negation, clear, extension, test -/

/-- NEG (R267). -/
def execNeg (sz : Size) (ea : EA) (s : State) : Host.Outcome State Fault Refusal :=
  instruction (modifyEa ea sz fun t d => subOp sz d 0#32 t.flags) s

/-- NEGX (R268). -/
def execNegx (sz : Size) (ea : EA) (s : State) : Host.Outcome State Fault Refusal :=
  instruction (modifyEa ea sz fun t d => subxOp sz d 0#32 t.flags) s

def clrBody (sz : Size) (ea : EA) : M Unit := do
  writeEa ea sz 0#32
  modifyState fun s => s.setFlags (logicFlags sz 0#32 s.flags)

/-- CLR: the operand is not read (R269). -/
def execClr (sz : Size) (ea : EA) (s : State) : Host.Outcome State Fault Refusal := instruction (clrBody sz ea) s

/-- A byte sign-extended to a word (R270). -/
def extByte (v : Word) : Word := trunc .word (sext8 (v.setWidth 8))

/-- EXT.W: bits 31 to 16 are unchanged (R270). -/
def execExtW (dn : Fin 8) (s : State) : Host.Outcome State Fault Refusal :=
  instruction (modifyState fun t =>
    (t.setDreg dn .word (extByte (t.dreg dn))).setFlags (logicFlags .word (extByte (t.dreg dn)) t.flags)) s

/-- EXT.L (R270). -/
def execExtL (dn : Fin 8) (s : State) : Host.Outcome State Fault Refusal :=
  instruction (modifyState fun t =>
    (t.setDreg dn .long (sextLow (t.dreg dn))).setFlags (logicFlags .long (sextLow (t.dreg dn)) t.flags)) s

/-- TST (R275). -/
def execTst (sz : Size) (ea : EA) (s : State) : Host.Outcome State Fault Refusal :=
  instruction (compareEa ea sz fun t v => logicFlags sz v t.flags) s

end Sys2Proof.Machine
end

