-- ==== Sys2Proof/Machine/BitBcd.lean ====
section
/-! DEFINITION. Bit operations, binary-coded decimal, test-and-set (46_bit_bcd.md R310 to R319). -/

namespace Sys2Proof.Machine

/-! ### Bit operations (R310 to R314) -/

/-- The operand size of a bit operation (R310). -/
def bitSize : EA → Size
  | .dreg _ => .long
  | _ => .byte

/-- The bit tested: the number modulo 32 or 8 (R310). -/
def bitNumber (ea : EA) (n : Word) : Nat := n.toNat % sizeBits (bitSize ea)

/-- The number of a static form: the low byte of one extension word (R310). -/
def staticBit : M Word := do
  let w ← fetchWord
  return (w.setWidth 8).setWidth 32

/-- The number of a dynamic form (R310). -/
def dynamicBit (dn : Fin 8) : M Word := do
  let s ← getState
  return s.dreg dn

/-- Only Z is written (R310). -/
def State.setZ (s : State) (z : Bool) : State := s.setFlags { s.flags with z := z }

/-- BTST's part after the bit number is known (R310, R311). -/
def bitTest (ea : EA) (n : Word) : M Unit := do
  let v ← readEa ea (bitSize ea)
  modifyState fun s => s.setZ (!v.getLsbD (bitNumber ea n))

/-- The part of BCHG, BCLR and BSET after the bit number is known: Z from the bit before the change,
then the write. `f` takes the value and the bit's mask (R310). -/
def bitChange (ea : EA) (f : Word → Word → Word) (n : Word) : M Unit := do
  let loc ← resolve ea (bitSize ea) true
  let v ← readLoc loc (bitSize ea)
  modifyState fun s => s.setZ (!v.getLsbD (bitNumber ea n))
  writeLoc loc (bitSize ea) (f v (1#32 <<< bitNumber ea n))

/-- The three changes of a bit (R310). -/
def flipBit (v mask : Word) : Word := v ^^^ mask
def clearBit (v mask : Word) : Word := v &&& ~~~mask
def setBit (v mask : Word) : Word := v ||| mask

/-- BTST Dn,ea (R311). -/
def execBtstReg (dn : Fin 8) (ea : EA) (s : State) : Host.Outcome State Fault Refusal :=
  instruction (dynamicBit dn >>= bitTest ea) s

/-- BCHG Dn,ea (R312). -/
def execBchgReg (dn : Fin 8) (ea : EA) (s : State) : Host.Outcome State Fault Refusal :=
  instruction (dynamicBit dn >>= bitChange ea flipBit) s

/-- BCLR Dn,ea (R313). -/
def execBclrReg (dn : Fin 8) (ea : EA) (s : State) : Host.Outcome State Fault Refusal :=
  instruction (dynamicBit dn >>= bitChange ea clearBit) s

/-- BSET Dn,ea (R314). -/
def execBsetReg (dn : Fin 8) (ea : EA) (s : State) : Host.Outcome State Fault Refusal :=
  instruction (dynamicBit dn >>= bitChange ea setBit) s

/-- BTST #b,ea (R311). -/
def execBtstImm (ea : EA) (s : State) : Host.Outcome State Fault Refusal := instruction (staticBit >>= bitTest ea) s

/-- BCHG #b,ea (R312). -/
def execBchgImm (ea : EA) (s : State) : Host.Outcome State Fault Refusal := instruction (staticBit >>= bitChange ea flipBit) s

/-- BCLR #b,ea (R313). -/
def execBclrImm (ea : EA) (s : State) : Host.Outcome State Fault Refusal := instruction (staticBit >>= bitChange ea clearBit) s

/-- BSET #b,ea (R314). -/
def execBsetImm (ea : EA) (s : State) : Host.Outcome State Fault Refusal := instruction (staticBit >>= bitChange ea setBit) s

/-! ### Binary-coded decimal (R315 to R318) -/

/-- The low byte of an operand. -/
def lowByte (v : Word) : Byte := v.setWidth 8

/-- The result byte and the carry: the helper's on valid digits, drawn otherwise (R315; log 20). -/
def bcdResult (f : Byte → Byte → Bool → Byte × Bool) (s d : Byte) (x : Bool) : M (Byte × Bool) :=
  if validBcd s && validBcd d then pure (f s d x)
  else do
    let r ← drawByte
    let c ← drawBit
    return (r, c)

/-- The end of a BCD instruction: the result is written, then the flags, N and V drawn (R315; log 5). -/
def bcdFinish (dst : Loc) (r : Byte × Bool) : M Unit := do
  writeLoc dst .byte (r.1.setWidth 32)
  let n ← drawBit
  let v ← drawBit
  modifyState fun s => s.setFlags (bcdFlags r.1 r.2 n v s.flags)

def bcdBody (f : Byte → Byte → Bool → Byte × Bool) (mode : XMode) (rx ry : Fin 8) : M Unit := do
  let (v, d, dst) ← extendedOperands mode .byte rx ry
  let s ← getState
  let r ← bcdResult f (lowByte v) (lowByte d) s.flags.x
  bcdFinish dst r

/-- ABCD (R316). -/
def execAbcd (mode : XMode) (rx ry : Fin 8) (s : State) : Host.Outcome State Fault Refusal :=
  instruction (bcdBody bcdAdd mode rx ry) s

/-- SBCD (R317). -/
def execSbcd (mode : XMode) (rx ry : Fin 8) (s : State) : Host.Outcome State Fault Refusal :=
  instruction (bcdBody bcdSub mode rx ry) s

def nbcdBody (ea : EA) : M Unit := do
  let loc ← resolve ea .byte true
  let d ← readLoc loc .byte
  let s ← getState
  let r ← bcdResult bcdSub (lowByte d) 0#8 s.flags.x
  bcdFinish loc r

/-- NBCD (R318). -/
def execNbcd (ea : EA) (s : State) : Host.Outcome State Fault Refusal := instruction (nbcdBody ea) s

/-! ### Test and set (R319) -/

/-- TAS: the flags are written before the write, from the value before the set (R319). -/
def tasBody (ea : EA) : M Unit := do
  let loc ← resolve ea .byte true
  let v ← readLoc loc .byte
  modifyState fun s => s.setFlags (logicFlags .byte v s.flags)
  writeLoc loc .byte (v ||| 0x80#32)

/-- TAS (R319). -/
def execTas (ea : EA) (s : State) : Host.Outcome State Fault Refusal := instruction (tasBody ea) s

end Sys2Proof.Machine
end

