-- ==== Sys2Proof/Machine/DataMovement.lean ====
section
/-! DEFINITION. The data movement instructions (43_data_movement.md R220 to R232). -/

namespace Sys2Proof.Machine

/-- MOVE at a size: source read before the destination is resolved, flags after the write (R220). -/
def moveBody (sz : Size) (src dst : EA) : M Unit := do
  let v ← readEa src sz
  writeEa dst sz v
  modifyState fun s => s.setFlags (logicFlags sz v s.flags)

/-- MOVE.B (R220). -/
def execMoveB (src dst : EA) (s : State) : Host.Outcome State Fault Refusal := instruction (moveBody .byte src dst) s

/-- MOVE.W (R220). -/
def execMoveW (src dst : EA) (s : State) : Host.Outcome State Fault Refusal := instruction (moveBody .word src dst) s

/-- MOVE.L (R220). -/
def execMoveL (src dst : EA) (s : State) : Host.Outcome State Fault Refusal := instruction (moveBody .long src dst) s

/-- MOVEA at a size (R221). -/
def moveaBody (sz : Size) (an : Fin 8) (src : EA) : M Unit := do
  let v ← readEa src sz
  modifyState fun s => s.setAreg an (addrOperand sz v)

/-- MOVEA.W (R221). -/
def execMoveaW (an : Fin 8) (src : EA) (s : State) : Host.Outcome State Fault Refusal := instruction (moveaBody .word an src) s

/-- MOVEA.L (R221). -/
def execMoveaL (an : Fin 8) (src : EA) (s : State) : Host.Outcome State Fault Refusal := instruction (moveaBody .long an src) s

/-- MOVEQ (R222). -/
def execMoveq (dn : Fin 8) (d8 : Byte) (s : State) : Host.Outcome State Fault Refusal :=
  instruction (modifyState fun t => (t.setDreg dn .long (sext8 d8)).setFlags (logicFlags .long (sext8 d8) t.flags)) s

/-! ### MOVEM (R223 to R225) -/

/-- `RegOf(k)` (R223). -/
def State.regOf (s : State) (k : Fin 16) : Word :=
  if h : k.val < 8 then s.dreg ⟨k.val, h⟩ else s.areg ⟨k.val - 8, by omega⟩

/-- `RegOf(k) <- v`, all 32 bits (R225). -/
def State.setRegOf (s : State) (k : Fin 16) (v : Word) : State :=
  if h : k.val < 8 then s.setDreg ⟨k.val, h⟩ .long v else s.setAreg ⟨k.val - 8, by omega⟩ v

/-- The set bits of a register mask, ascending (R223). -/
def maskBits (m : Half) : List (Fin 16) := (List.finRange 16).filter fun k => m.getLsbD k.val

/-- The transfers to memory at ascending addresses; answers the address after the last one (R224). -/
def movemStoreUp (sz : Size) : List (Fin 16) → Word → M Word
  | [], a => pure a
  | k :: rest, a => do
    let s ← getState
    memWrite sz a (trunc sz (s.regOf k))
    movemStoreUp sz rest (a + sizeWord sz)

/-- The transfers to memory at descending addresses: mask bit `k` selects `RegOf(15 - k)` (R223, R224). -/
def movemStoreDown (sz : Size) : List (Fin 16) → Word → M Word
  | [], a => pure a
  | k :: rest, a => do
    let s ← getState
    memWrite sz (a - sizeWord sz) (trunc sz (s.regOf k.rev))
    movemStoreDown sz rest (a - sizeWord sz)

/-- The transfers to registers; a word is sign-extended into every register (R225). DEDUCED (log 26): where a later
transfer faults, the base register of `(An)+` keeps the value loaded into it if it was in the list and already loaded. -/
def movemLoad (sz : Size) (sp : Space) : List (Fin 16) → Word → M Word
  | [], a => pure a
  | k :: rest, a => do
    let v ← memRead sp sz a
    modifyState fun s => s.setRegOf k (addrOperand sz v)
    movemLoad sz sp rest (a + sizeWord sz)

/-- MOVEM registers to memory (R224): the base register of `-(An)` is written once, at the end. -/
def movemToMemBody (sz : Size) (ea : EA) : M Unit := do
  let m ← fetchWord
  match ea with
  | .preDec n => do
    let s ← getState
    let a ← movemStoreDown sz (maskBits m) (s.areg n)
    modifyState fun t => t.setAreg n a
  | _ => do
    let loc ← resolve ea sz false
    let p ← addressOf loc
    let _ ← movemStoreUp sz (maskBits m) p.1
    pure ()

/-- MOVEM_R2M (R224). -/
def execMovemToMem (sz : Size) (ea : EA) (s : State) : Host.Outcome State Fault Refusal := instruction (movemToMemBody sz ea) s

/-- MOVEM memory to registers (R225): the base register of `(An)+` is written once, at the end. -/
def movemToRegBody (sz : Size) (ea : EA) : M Unit := do
  let m ← fetchWord
  let loc ← resolve ea sz false
  let p ← addressOf loc
  let a ← movemLoad sz p.2 (maskBits m) p.1
  match ea with
  | .postInc n => modifyState fun t => t.setAreg n a
  | _ => pure ()

/-- MOVEM_M2R (R225). -/
def execMovemToReg (sz : Size) (ea : EA) (s : State) : Host.Outcome State Fault Refusal := instruction (movemToRegBody sz ea) s

/-! ### MOVEP (R226) -/

/-- Every second byte from an address, the first one highest (R226). -/
def movepLoad (sz : Size) (a : Word) : M Word :=
  match sz with
  | .long => do
    let b3 ← memRead .data .byte a
    let b2 ← memRead .data .byte (a + 2#32)
    let b1 ← memRead .data .byte (a + 4#32)
    let b0 ← memRead .data .byte (a + 6#32)
    return (b3 <<< 24) ||| (b2 <<< 16) ||| (b1 <<< 8) ||| b0
  | _ => do
    let hi ← memRead .data .byte a
    let lo ← memRead .data .byte (a + 2#32)
    return (hi <<< 8) ||| lo

/-- The bytes of a register to every second address, the highest one first (R226). -/
def movepStore (sz : Size) (a v : Word) : M Unit :=
  match sz with
  | .long => do
    memWrite .byte a (v >>> 24)
    memWrite .byte (a + 2#32) (v >>> 16)
    memWrite .byte (a + 4#32) (v >>> 8)
    memWrite .byte (a + 6#32) v
  | _ => do
    memWrite .byte a (v >>> 8)
    memWrite .byte (a + 2#32) v

def movepBody (dir : MovepDir) (sz : Size) (dn an : Fin 8) : M Unit := do
  let w ← fetchWord
  let s ← getState
  match dir with
  | .toReg => do
    let v ← movepLoad sz (s.areg an + sext16 w)
    modifyState fun t => t.setDreg dn sz v
  | .toMem => movepStore sz (s.areg an + sext16 w) (s.dreg dn)

/-- MOVEP (R226). -/
def execMovep (dir : MovepDir) (sz : Size) (dn an : Fin 8) (s : State) : Host.Outcome State Fault Refusal :=
  instruction (movepBody dir sz dn an) s

/-! ### Addresses, exchanges, stack frames -/

def leaBody (an : Fin 8) (ea : EA) : M Unit := do
  let a ← controlAddress ea
  modifyState fun s => s.setAreg an a

/-- LEA (R227). -/
def execLea (an : Fin 8) (ea : EA) (s : State) : Host.Outcome State Fault Refusal := instruction (leaBody an ea) s

def peaBody (ea : EA) : M Unit := do
  let a ← controlAddress ea
  push .long a

/-- PEA (R228). -/
def execPea (ea : EA) (s : State) : Host.Outcome State Fault Refusal := instruction (peaBody ea) s

/-- EXG Dx,Dy (R229). -/
def execExgDD (rx ry : Fin 8) (s : State) : Host.Outcome State Fault Refusal :=
  instruction (modifyState fun t => (t.setDreg rx .long (t.dreg ry)).setDreg ry .long (t.dreg rx)) s

/-- EXG Ax,Ay (R229). -/
def execExgAA (rx ry : Fin 8) (s : State) : Host.Outcome State Fault Refusal :=
  instruction (modifyState fun t => (t.setAreg rx (t.areg ry)).setAreg ry (t.areg rx)) s

/-- EXG Dx,Ay (R229). -/
def execExgDA (dx ay : Fin 8) (s : State) : Host.Outcome State Fault Refusal :=
  instruction (modifyState fun t => (t.setDreg dx .long (t.areg ay)).setAreg ay (t.dreg dx)) s

/-- The halves of a long exchanged (R230). -/
def swapHalves (v : Word) : Word := v.extractLsb' 0 16 ++ v.extractLsb' 16 16

/-- SWAP (R230). -/
def execSwap (dn : Fin 8) (s : State) : Host.Outcome State Fault Refusal :=
  instruction (modifyState fun t =>
    (t.setDreg dn .long (swapHalves (t.dreg dn))).setFlags (logicFlags .long (swapHalves (t.dreg dn)) t.flags)) s

/-- LINK: A7 is written only after the push has succeeded (R231). -/
def linkBody (an : Fin 8) : M Unit := do
  let w ← fetchWord
  let s ← getState
  memWrite .long (s.areg 7 - 4#32) (if an = 7 then s.areg 7 - 4#32 else s.areg an)
  modifyState fun t => t.setAreg 7 (s.areg 7 - 4#32)
  modifyState fun t => t.setAreg an (s.areg 7 - 4#32)
  modifyState fun t => t.setAreg 7 (t.areg 7 + sext16 w)

/-- LINK (R231). -/
def execLink (an : Fin 8) (s : State) : Host.Outcome State Fault Refusal := instruction (linkBody an) s

/-- UNLK: when `An` is A7 the loaded value overwrites the incremented pointer (R232). -/
def unlkBody (an : Fin 8) : M Unit := do
  let s ← getState
  let v ← memRead .data .long (s.areg an)
  modifyState fun t => t.setAreg 7 (s.areg an + 4#32)
  modifyState fun t => t.setAreg an v

/-- UNLK (R232). -/
def execUnlk (an : Fin 8) (s : State) : Host.Outcome State Fault Refusal := instruction (unlkBody an) s

end Sys2Proof.Machine
end

