-- ==== Sys2Proof/Machine/Logical.lean ====
section
/-! DEFINITION. The logical instructions (45_logical.md R290 to R298). -/

namespace Sys2Proof.Machine

/-- A result with LogicFlags (41_condition_codes.md R189). -/
def logicOp (sz : Size) (r : Word) (old : Flags) : Word × Flags := (r, logicFlags sz r old)

/-- A logical instruction with an immediate: the immediate precedes the operand's extension words. -/
def logicImmediate (sz : Size) (ea : EA) (op : Word → Word → Word) : M Unit := do
  let i ← immediate sz
  modifyEa ea sz fun t d => logicOp sz (op d i) t.flags

/-- AND ea,Dn (R290). -/
def execAndToDn (dn : Fin 8) (sz : Size) (ea : EA) (s : State) : Host.Outcome State Fault Refusal :=
  instruction (combineDn dn ea sz fun t v => logicOp sz (trunc sz (t.dreg dn) &&& v) t.flags) s

/-- AND Dn,ea (R291). -/
def execAndToEa (dn : Fin 8) (sz : Size) (ea : EA) (s : State) : Host.Outcome State Fault Refusal :=
  instruction (modifyEa ea sz fun t d => logicOp sz (d &&& trunc sz (t.dreg dn)) t.flags) s

/-- ANDI (R292). -/
def execAndi (sz : Size) (ea : EA) (s : State) : Host.Outcome State Fault Refusal :=
  instruction (logicImmediate sz ea fun d i => d &&& i) s

/-- OR ea,Dn (R293). -/
def execOrToDn (dn : Fin 8) (sz : Size) (ea : EA) (s : State) : Host.Outcome State Fault Refusal :=
  instruction (combineDn dn ea sz fun t v => logicOp sz (trunc sz (t.dreg dn) ||| v) t.flags) s

/-- OR Dn,ea (R294). -/
def execOrToEa (dn : Fin 8) (sz : Size) (ea : EA) (s : State) : Host.Outcome State Fault Refusal :=
  instruction (modifyEa ea sz fun t d => logicOp sz (d ||| trunc sz (t.dreg dn)) t.flags) s

/-- ORI (R295). -/
def execOri (sz : Size) (ea : EA) (s : State) : Host.Outcome State Fault Refusal :=
  instruction (logicImmediate sz ea fun d i => d ||| i) s

/-- EOR (R296). -/
def execEor (dn : Fin 8) (sz : Size) (ea : EA) (s : State) : Host.Outcome State Fault Refusal :=
  instruction (modifyEa ea sz fun t d => logicOp sz (d ^^^ trunc sz (t.dreg dn)) t.flags) s

/-- EORI (R297). -/
def execEori (sz : Size) (ea : EA) (s : State) : Host.Outcome State Fault Refusal :=
  instruction (logicImmediate sz ea fun d i => d ^^^ i) s

/-- NOT (R298). -/
def execNot (sz : Size) (ea : EA) (s : State) : Host.Outcome State Fault Refusal :=
  instruction (modifyEa ea sz fun t d => logicOp sz (trunc sz (~~~d)) t.flags) s

end Sys2Proof.Machine
end

