-- ==== Sys2Proof/Machine/MulDiv.lean ====
section
/-! DEFINITION. Multiplication and division (44_integer_arithmetic.md R271 to R274). -/

namespace Sys2Proof.Machine

/-- The unsigned product of two words (R271). -/
def mulUnsigned (d s : Word) : Word := trunc .word d * trunc .word s

/-- The signed product of two words, which always fits 32 bits (R272). -/
def mulSigned (d s : Word) : Word := sextLow d * sextLow s

def muluBody (dn : Fin 8) (ea : EA) : M Unit := do
  let v ← readEa ea .word
  modifyState fun s =>
    (s.setDreg dn .long (mulUnsigned (s.dreg dn) v)).setFlags (logicFlags .long (mulUnsigned (s.dreg dn) v) s.flags)

/-- MULU (R271). -/
def execMulu (dn : Fin 8) (ea : EA) (s : State) : Host.Outcome State Fault Refusal := instruction (muluBody dn ea) s

def mulsBody (dn : Fin 8) (ea : EA) : M Unit := do
  let v ← readEa ea .word
  modifyState fun s =>
    (s.setDreg dn .long (mulSigned (s.dreg dn) v)).setFlags (logicFlags .long (mulSigned (s.dreg dn) v) s.flags)

/-- MULS (R272). -/
def execMuls (dn : Fin 8) (ea : EA) (s : State) : Host.Outcome State Fault Refusal := instruction (mulsBody dn ea) s

/-- What a division by a divisor that is not 0 gives: the long with the remainder above the quotient,
or an overflow (R273, R274). -/
def divUnsigned (a s : Word) : Option Word :=
  if 0xFFFF < (a / s).toNat then none else some (((a % s) <<< 16) ||| (a / s))

/-- The signed division rounds toward zero and the remainder takes the dividend's sign (R274). -/
def divSigned (a s : Word) : Option Word :=
  let x := a.toInt
  let y := (s.setWidth 16).toInt
  let q := x.tdiv y
  if q < -32768 ∨ 32767 < q then none else some (BitVec.ofInt 16 (x - q * y) ++ BitVec.ofInt 16 q)

/-- DIVU and DIVS over their division: a zero divisor leaves C clear and N, Z, V drawn and traps; an
overflow sets V, clears C, draws N and Z, and leaves `Dn` (R273, R274; log 5). -/
def divideBody (dn : Fin 8) (ea : EA) (divide : Word → Word → Option Word) : M Unit := do
  let v ← readEa ea .word
  let s ← getState
  if v = 0#32 then do
    let n ← drawBit
    let z ← drawBit
    let o ← drawBit
    modifyState fun t => t.setFlags { x := t.flags.x, n := n, z := z, v := o, c := false }
    raiseTrap .integerDivideByZero
  else
    match divide (s.dreg dn) v with
    | none => do
      let n ← drawBit
      let z ← drawBit
      modifyState fun t => t.setFlags { x := t.flags.x, n := n, z := z, v := true, c := false }
    | some r => modifyState fun t => (t.setDreg dn .long r).setFlags (logicFlags .word r t.flags)

/-- DIVU (R273). -/
def execDivu (dn : Fin 8) (ea : EA) (s : State) : Host.Outcome State Fault Refusal := instruction (divideBody dn ea divUnsigned) s

/-- DIVS (R274). -/
def execDivs (dn : Fin 8) (ea : EA) (s : State) : Host.Outcome State Fault Refusal := instruction (divideBody dn ea divSigned) s

end Sys2Proof.Machine
end

