-- ==== Sys2Proof/Machine/ProgramControl.lean ====
section
/-! DEFINITION. Branches, jumps, subroutine calls and returns (47_program_control.md R330 to R340). -/

namespace Sys2Proof.Machine

/-- The displacement of a branch: the opword's byte, or a displacement word when the byte is 0 (R331). -/
def branchDisp (d8 : Byte) : M Word :=
  if d8 = 0#8 then do
    let w ← fetchWord
    return sext16 w
  else pure (sext8 d8)

/-- Bcc over its condition; the base is pc after the opword (R330, R331). -/
def branchBody (cond : Cond) (d8 : Byte) : M Unit := do
  let b ← getState
  let disp ← branchDisp d8
  modifyState fun s => if condHolds s.flags cond then { s with pc := b.pc + disp } else s

/-- Bcc (R331). -/
def execBcc (cond : Cond) (d8 : Byte) (s : State) : Host.Outcome State Fault Refusal := instruction (branchBody cond d8) s

/-- BRA: as Bcc with the condition always true (R332). -/
def execBra (d8 : Byte) (s : State) : Host.Outcome State Fault Refusal := instruction (branchBody .t d8) s

def bsrBody (d8 : Byte) : M Unit := do
  let b ← getState
  let disp ← branchDisp d8
  let s ← getState
  push .long s.pc
  modifyState fun t => { t with pc := b.pc + disp }

/-- BSR (R333). -/
def execBsr (d8 : Byte) (s : State) : Host.Outcome State Fault Refusal := instruction (bsrBody d8) s

/-- The low word of a counter, decremented (R334). -/
def decrementWord (v : Word) : Word := trunc .word (v - 1#32)

/-- DBcc: the displacement word is always fetched (R334). -/
def dbccBody (cond : Cond) (dn : Fin 8) : M Unit := do
  let b ← getState
  let w ← fetchWord
  modifyState fun s =>
    if condHolds s.flags cond then s
    else
      let c := decrementWord (s.dreg dn)
      let t := s.setDreg dn .word c
      if c = 0xFFFF#32 then t else { t with pc := b.pc + sext16 w }

/-- DBcc (R334). -/
def execDbcc (cond : Cond) (dn : Fin 8) (s : State) : Host.Outcome State Fault Refusal := instruction (dbccBody cond dn) s

def sccBody (cond : Cond) (ea : EA) : M Unit := do
  let loc ← resolve ea .byte true
  let s ← getState
  writeLoc loc .byte (if condHolds s.flags cond then 0xFF#32 else 0x00#32)

/-- Scc: the operand is not read (R335). -/
def execScc (cond : Cond) (ea : EA) (s : State) : Host.Outcome State Fault Refusal := instruction (sccBody cond ea) s

def jmpBody (ea : EA) : M Unit := do
  let a ← controlAddress ea
  modifyState fun s => { s with pc := a }

/-- JMP (R336). -/
def execJmp (ea : EA) (s : State) : Host.Outcome State Fault Refusal := instruction (jmpBody ea) s

def jsrBody (ea : EA) : M Unit := do
  let a ← controlAddress ea
  let s ← getState
  push .long s.pc
  modifyState fun t => { t with pc := a }

/-- JSR: the target is computed before A7 is decremented (R337). -/
def execJsr (ea : EA) (s : State) : Host.Outcome State Fault Refusal := instruction (jsrBody ea) s

def rtsBody : M Unit := do
  let a ← pop .long
  modifyState fun s => { s with pc := a }

/-- RTS (R338). -/
def execRts (s : State) : Host.Outcome State Fault Refusal := instruction rtsBody s

def rtrBody : M Unit := do
  let c ← pop .word
  modifyState fun s => s.writeCcr (c.setWidth 16)
  let a ← pop .long
  modifyState fun s => { s with pc := a }

/-- RTR: the condition codes are written before the second pop (R339). -/
def execRtr (s : State) : Host.Outcome State Fault Refusal := instruction rtrBody s

/-- NOP (R340). -/
def execNop (s : State) : Host.Outcome State Fault Refusal := instruction (pure ()) s

end Sys2Proof.Machine
end

