-- ==== Sys2Proof/Machine/ShiftRotate.lean ====
section
/-! DEFINITION. The shift and rotate instructions (42_shift_rotate.md R200 to R213). -/

namespace Sys2Proof.Machine

/-- The count of a register form: an immediate field of 0 stands for 8, a register's value is taken
modulo 64 (R201). -/
def State.shiftCount (s : State) : ShiftCount → Nat
  | .imm field => if field = 0 then 8 else field.val
  | .reg n => (s.dreg n).toNat % 64

/-- A value shifted, with the flags (R202 to R205). -/
def shiftOp (sz : Size) (mode : ShiftMode) (dir : ShiftDir) (count : Nat) (rotateUpdatesX : Bool) (value : Word) (old : Flags) :
    Word × Flags :=
  let r := shiftEngine sz mode dir count old.x value
  (r.value, shiftFlags sz mode count rotateUpdatesX r old)

/-- The register form. -/
def shiftReg (mode : ShiftMode) (dir : ShiftDir) (count : ShiftCount) (sz : Size) (dn : Fin 8) : M Unit :=
  modifyState fun s =>
    let p := shiftOp sz mode dir (s.shiftCount count) s.params.rotateUpdatesX (s.dreg dn) s.flags
    (s.setDreg dn sz p.1).setFlags p.2

/-- The memory form: a word, shifted once. -/
def shiftMem (mode : ShiftMode) (dir : ShiftDir) (ea : EA) : M Unit :=
  modifyEa ea .word fun s d => shiftOp .word mode dir 1 s.params.rotateUpdatesX d s.flags

/-- ASR memory form (R207). -/
def execAsrMem (ea : EA) (s : State) : Host.Outcome State Fault Refusal := instruction (shiftMem .arith .right ea) s

/-- ASL memory form (R206). -/
def execAslMem (ea : EA) (s : State) : Host.Outcome State Fault Refusal := instruction (shiftMem .arith .left ea) s

/-- LSR memory form (R209). -/
def execLsrMem (ea : EA) (s : State) : Host.Outcome State Fault Refusal := instruction (shiftMem .logical .right ea) s

/-- LSL memory form (R208). -/
def execLslMem (ea : EA) (s : State) : Host.Outcome State Fault Refusal := instruction (shiftMem .logical .left ea) s

/-- ROXR memory form (R213). -/
def execRoxrMem (ea : EA) (s : State) : Host.Outcome State Fault Refusal := instruction (shiftMem .rotateX .right ea) s

/-- ROXL memory form (R212). -/
def execRoxlMem (ea : EA) (s : State) : Host.Outcome State Fault Refusal := instruction (shiftMem .rotateX .left ea) s

/-- ROR memory form (R211). -/
def execRorMem (ea : EA) (s : State) : Host.Outcome State Fault Refusal := instruction (shiftMem .rotate .right ea) s

/-- ROL memory form (R210). -/
def execRolMem (ea : EA) (s : State) : Host.Outcome State Fault Refusal := instruction (shiftMem .rotate .left ea) s

/-- ASR register form (R207). -/
def execAsrReg (count : ShiftCount) (sz : Size) (dn : Fin 8) (s : State) : Host.Outcome State Fault Refusal :=
  instruction (shiftReg .arith .right count sz dn) s

/-- ASL register form (R206). -/
def execAslReg (count : ShiftCount) (sz : Size) (dn : Fin 8) (s : State) : Host.Outcome State Fault Refusal :=
  instruction (shiftReg .arith .left count sz dn) s

/-- LSR register form (R209). -/
def execLsrReg (count : ShiftCount) (sz : Size) (dn : Fin 8) (s : State) : Host.Outcome State Fault Refusal :=
  instruction (shiftReg .logical .right count sz dn) s

/-- LSL register form (R208). -/
def execLslReg (count : ShiftCount) (sz : Size) (dn : Fin 8) (s : State) : Host.Outcome State Fault Refusal :=
  instruction (shiftReg .logical .left count sz dn) s

/-- ROXR register form (R213). -/
def execRoxrReg (count : ShiftCount) (sz : Size) (dn : Fin 8) (s : State) : Host.Outcome State Fault Refusal :=
  instruction (shiftReg .rotateX .right count sz dn) s

/-- ROXL register form (R212). -/
def execRoxlReg (count : ShiftCount) (sz : Size) (dn : Fin 8) (s : State) : Host.Outcome State Fault Refusal :=
  instruction (shiftReg .rotateX .left count sz dn) s

/-- ROR register form (R211). -/
def execRorReg (count : ShiftCount) (sz : Size) (dn : Fin 8) (s : State) : Host.Outcome State Fault Refusal :=
  instruction (shiftReg .rotate .right count sz dn) s

/-- ROL register form (R210). -/
def execRolReg (count : ShiftCount) (sz : Size) (dn : Fin 8) (s : State) : Host.Outcome State Fault Refusal :=
  instruction (shiftReg .rotate .left count sz dn) s

end Sys2Proof.Machine
end

