-- ==== Sys2Proof/Machine/SystemControl.lean ====
section
/-! DEFINITION. System control and the exception-raising instructions (48_system_control.md R350 to R369). -/

namespace Sys2Proof.Machine

/-! ### SR and CCR (R351 to R355, R357, R359 to R361) -/

def moveToSrBody (ea : EA) : M Unit := do
  let v ← readEa ea .word
  modifyState fun s => s.writeSr (v.setWidth 16)

/-- MOVE to SR (R351). -/
def execMoveToSr (ea : EA) (s : State) : Host.Outcome State Fault Refusal := instruction (privileged (moveToSrBody ea)) s

def moveFromSrBody (ea : EA) : M Unit := do
  let loc ← resolve ea .word true
  let s ← getState
  writeLoc loc .word (s.sr.setWidth 32)

/-- MOVE from SR, not privileged; the destination is not read (R352). -/
def execMoveFromSr (ea : EA) (s : State) : Host.Outcome State Fault Refusal := instruction (moveFromSrBody ea) s

def moveToCcrBody (ea : EA) : M Unit := do
  let v ← readEa ea .word
  modifyState fun s => s.writeCcr (v.setWidth 16)

/-- MOVE to CCR (R353). -/
def execMoveToCcr (ea : EA) (s : State) : Host.Outcome State Fault Refusal := instruction (moveToCcrBody ea) s

/-- A logical immediate to CCR (R354, R355, R357). -/
def ccrImmediate (op : Half → Half → Half) : M Unit := do
  let i ← fetchWord
  modifyState fun s => s.writeCcr (op s.sr i)

/-- A logical immediate to SR (R359 to R361). -/
def srImmediate (op : Half → Half → Half) : M Unit := do
  let i ← fetchWord
  modifyState fun s => s.writeSr (op s.sr i)

/-- ANDI to CCR (R354). -/
def execAndiCcr (s : State) : Host.Outcome State Fault Refusal := instruction (ccrImmediate fun v i => v &&& i) s

/-- ORI to CCR (R355). -/
def execOriCcr (s : State) : Host.Outcome State Fault Refusal := instruction (ccrImmediate fun v i => v ||| i) s

/-- EORI to CCR (R357). -/
def execEoriCcr (s : State) : Host.Outcome State Fault Refusal := instruction (ccrImmediate fun v i => v ^^^ i) s

/-- ANDI to SR (R359). -/
def execAndiSr (s : State) : Host.Outcome State Fault Refusal := instruction (privileged (srImmediate fun v i => v &&& i)) s

/-- ORI to SR (R360). -/
def execOriSr (s : State) : Host.Outcome State Fault Refusal := instruction (privileged (srImmediate fun v i => v ||| i)) s

/-- EORI to SR (R361). -/
def execEoriSr (s : State) : Host.Outcome State Fault Refusal := instruction (privileged (srImmediate fun v i => v ^^^ i)) s

/-! ### User stack pointer, RESET, STOP, RTE (R356, R358, R362, R363) -/

/-- MOVE An,USP (R356). -/
def execMoveToUsp (an : Fin 8) (s : State) : Host.Outcome State Fault Refusal :=
  instruction (privileged (modifyState fun t => { t with usp := t.areg an })) s

/-- MOVE USP,An (R356). -/
def execMoveFromUsp (an : Fin 8) (s : State) : Host.Outcome State Fault Refusal :=
  instruction (privileged (modifyState fun t => t.setAreg an t.usp)) s

/-- RESET: pulses `resetDevices` and changes nothing else of the CORE (R358). -/
def execReset (s : State) : Host.Outcome State Fault Refusal :=
  instruction (privileged (modifyState fun t => { t with outputs := .resetDevices :: t.outputs })) s

def stopBody : M Unit := do
  let i ← fetchWord
  modifyState fun s => { s.writeSr i with run := .stopped }

/-- STOP (R363). -/
def execStop (s : State) : Host.Outcome State Fault Refusal := instruction (privileged stopBody) s

/-- RTE (R362). -/
def execRte (s : State) : Host.Outcome State Fault Refusal := instruction (privileged returnFromException) s

/-! ### Exception-raising instructions (R364 to R369) -/

/-- TRAP #v (R364). -/
def execTrap (v : Fin 16) (s : State) : Host.Outcome State Fault Refusal := instruction (raiseTrap (.trap v)) s

def trapvBody : M Unit := do
  let s ← getState
  if s.flags.v then raiseTrap .ftrapTrapTrapv else pure ()

/-- TRAPV (R365). -/
def execTrapv (s : State) : Host.Outcome State Fault Refusal := instruction trapvBody s

/-- CHK's flags: X kept, N as given, Z V C drawn (R366; log 5). -/
def chkFlags (n : Bool) : M Unit := do
  let z ← drawBit
  let v ← drawBit
  let c ← drawBit
  modifyState fun s => s.setFlags { x := s.flags.x, n := n, z := z, v := v, c := c }

/-- CHK over its signed operands: a negative value is tested first (R366). -/
def chkBody (dn : Fin 8) (ea : EA) : M Unit := do
  let w ← readEa ea .word
  let s ← getState
  if (sextLow (s.dreg dn)).toInt < 0 then do
    chkFlags true
    raiseTrap .chkChk2
  else if (sextLow w).toInt < (sextLow (s.dreg dn)).toInt then do
    chkFlags false
    raiseTrap .chkChk2
  else do
    let n ← drawBit
    chkFlags n

/-- CHK.W (R366). -/
def execChk (dn : Fin 8) (ea : EA) (s : State) : Host.Outcome State Fault Refusal := instruction (chkBody dn ea) s

/-- ILLEGAL (R367). -/
def execIllegal (s : State) : Host.Outcome State Fault Refusal := instruction (raiseFault .illegalInstruction 0#64) s

/-- The opwords of line 1010 (R368). -/
def execLineA (_payload : BitVec 12) (s : State) : Host.Outcome State Fault Refusal :=
  instruction (raiseFault .line1010Emulator 0#64) s

/-- The opwords of line 1111 (R369). -/
def execLineF (_payload : BitVec 12) (s : State) : Host.Outcome State Fault Refusal :=
  instruction (raiseFault .line1111Emulator 0#64) s

end Sys2Proof.Machine
end

