-- ==== Sys2Proof/Machine/Dispatch.lean ====
section
/-! DEFINITION. The dispatcher: one arm per instruction, each a call of its meaning. -/

namespace Sys2Proof.Machine

def exec (i : Instr) (s : State) : Host.Outcome State Fault Refusal :=
  match i with
  | .oriCcr => Sys2Proof.Machine.execOriCcr s
  | .oriSr => Sys2Proof.Machine.execOriSr s
  | .andiCcr => Sys2Proof.Machine.execAndiCcr s
  | .andiSr => Sys2Proof.Machine.execAndiSr s
  | .eoriCcr => Sys2Proof.Machine.execEoriCcr s
  | .eoriSr => Sys2Proof.Machine.execEoriSr s
  | .movep dir sz dn an => Sys2Proof.Machine.execMovep dir sz dn an s
  | .btstReg dn ea => Sys2Proof.Machine.execBtstReg dn ea s
  | .bchgReg dn ea => Sys2Proof.Machine.execBchgReg dn ea s
  | .bclrReg dn ea => Sys2Proof.Machine.execBclrReg dn ea s
  | .bsetReg dn ea => Sys2Proof.Machine.execBsetReg dn ea s
  | .btstImm ea => Sys2Proof.Machine.execBtstImm ea s
  | .bchgImm ea => Sys2Proof.Machine.execBchgImm ea s
  | .bclrImm ea => Sys2Proof.Machine.execBclrImm ea s
  | .bsetImm ea => Sys2Proof.Machine.execBsetImm ea s
  | .ori sz ea => Sys2Proof.Machine.execOri sz ea s
  | .andi sz ea => Sys2Proof.Machine.execAndi sz ea s
  | .subi sz ea => Sys2Proof.Machine.execSubi sz ea s
  | .addi sz ea => Sys2Proof.Machine.execAddi sz ea s
  | .eori sz ea => Sys2Proof.Machine.execEori sz ea s
  | .cmpi sz ea => Sys2Proof.Machine.execCmpi sz ea s
  | .moveB src dst => Sys2Proof.Machine.execMoveB src dst s
  | .moveaL an src => Sys2Proof.Machine.execMoveaL an src s
  | .moveL src dst => Sys2Proof.Machine.execMoveL src dst s
  | .moveaW an src => Sys2Proof.Machine.execMoveaW an src s
  | .moveW src dst => Sys2Proof.Machine.execMoveW src dst s
  | .illegal => Sys2Proof.Machine.execIllegal s
  | .reset => Sys2Proof.Machine.execReset s
  | .nop => Sys2Proof.Machine.execNop s
  | .stop => Sys2Proof.Machine.execStop s
  | .rte => Sys2Proof.Machine.execRte s
  | .rts => Sys2Proof.Machine.execRts s
  | .trapv => Sys2Proof.Machine.execTrapv s
  | .rtr => Sys2Proof.Machine.execRtr s
  | .trap v => Sys2Proof.Machine.execTrap v s
  | .link an => Sys2Proof.Machine.execLink an s
  | .unlk an => Sys2Proof.Machine.execUnlk an s
  | .moveToUsp an => Sys2Proof.Machine.execMoveToUsp an s
  | .moveFromUsp an => Sys2Proof.Machine.execMoveFromUsp an s
  | .jsr ea => Sys2Proof.Machine.execJsr ea s
  | .jmp ea => Sys2Proof.Machine.execJmp ea s
  | .swap dn => Sys2Proof.Machine.execSwap dn s
  | .extW dn => Sys2Proof.Machine.execExtW dn s
  | .extL dn => Sys2Proof.Machine.execExtL dn s
  | .pea ea => Sys2Proof.Machine.execPea ea s
  | .movemToMem sz ea => Sys2Proof.Machine.execMovemToMem sz ea s
  | .movemToReg sz ea => Sys2Proof.Machine.execMovemToReg sz ea s
  | .nbcd ea => Sys2Proof.Machine.execNbcd ea s
  | .moveFromSr ea => Sys2Proof.Machine.execMoveFromSr ea s
  | .moveToCcr ea => Sys2Proof.Machine.execMoveToCcr ea s
  | .moveToSr ea => Sys2Proof.Machine.execMoveToSr ea s
  | .tas ea => Sys2Proof.Machine.execTas ea s
  | .negx sz ea => Sys2Proof.Machine.execNegx sz ea s
  | .clr sz ea => Sys2Proof.Machine.execClr sz ea s
  | .neg sz ea => Sys2Proof.Machine.execNeg sz ea s
  | .not sz ea => Sys2Proof.Machine.execNot sz ea s
  | .tst sz ea => Sys2Proof.Machine.execTst sz ea s
  | .chk dn ea => Sys2Proof.Machine.execChk dn ea s
  | .lea an ea => Sys2Proof.Machine.execLea an ea s
  | .dbcc cond dn => Sys2Proof.Machine.execDbcc cond dn s
  | .scc cond ea => Sys2Proof.Machine.execScc cond ea s
  | .addq field sz ea => Sys2Proof.Machine.execAddq field sz ea s
  | .subq field sz ea => Sys2Proof.Machine.execSubq field sz ea s
  | .bra d8 => Sys2Proof.Machine.execBra d8 s
  | .bsr d8 => Sys2Proof.Machine.execBsr d8 s
  | .bcc cond d8 => Sys2Proof.Machine.execBcc cond d8 s
  | .moveq dn d8 => Sys2Proof.Machine.execMoveq dn d8 s
  | .divu dn ea => Sys2Proof.Machine.execDivu dn ea s
  | .divs dn ea => Sys2Proof.Machine.execDivs dn ea s
  | .sbcd mode rx ry => Sys2Proof.Machine.execSbcd mode rx ry s
  | .orToDn dn sz ea => Sys2Proof.Machine.execOrToDn dn sz ea s
  | .orToEa dn sz ea => Sys2Proof.Machine.execOrToEa dn sz ea s
  | .suba an sz ea => Sys2Proof.Machine.execSuba an sz ea s
  | .subx mode sz rx ry => Sys2Proof.Machine.execSubx mode sz rx ry s
  | .subToDn dn sz ea => Sys2Proof.Machine.execSubToDn dn sz ea s
  | .subToEa dn sz ea => Sys2Proof.Machine.execSubToEa dn sz ea s
  | .lineA payload => Sys2Proof.Machine.execLineA payload s
  | .cmpa an sz ea => Sys2Proof.Machine.execCmpa an sz ea s
  | .cmpm sz ax ay => Sys2Proof.Machine.execCmpm sz ax ay s
  | .cmp dn sz ea => Sys2Proof.Machine.execCmp dn sz ea s
  | .eor dn sz ea => Sys2Proof.Machine.execEor dn sz ea s
  | .mulu dn ea => Sys2Proof.Machine.execMulu dn ea s
  | .muls dn ea => Sys2Proof.Machine.execMuls dn ea s
  | .abcd mode rx ry => Sys2Proof.Machine.execAbcd mode rx ry s
  | .exgDD rx ry => Sys2Proof.Machine.execExgDD rx ry s
  | .exgAA rx ry => Sys2Proof.Machine.execExgAA rx ry s
  | .exgDA dx ay => Sys2Proof.Machine.execExgDA dx ay s
  | .andToDn dn sz ea => Sys2Proof.Machine.execAndToDn dn sz ea s
  | .andToEa dn sz ea => Sys2Proof.Machine.execAndToEa dn sz ea s
  | .adda an sz ea => Sys2Proof.Machine.execAdda an sz ea s
  | .addx mode sz rx ry => Sys2Proof.Machine.execAddx mode sz rx ry s
  | .addToDn dn sz ea => Sys2Proof.Machine.execAddToDn dn sz ea s
  | .addToEa dn sz ea => Sys2Proof.Machine.execAddToEa dn sz ea s
  | .asrMem ea => Sys2Proof.Machine.execAsrMem ea s
  | .aslMem ea => Sys2Proof.Machine.execAslMem ea s
  | .lsrMem ea => Sys2Proof.Machine.execLsrMem ea s
  | .lslMem ea => Sys2Proof.Machine.execLslMem ea s
  | .roxrMem ea => Sys2Proof.Machine.execRoxrMem ea s
  | .roxlMem ea => Sys2Proof.Machine.execRoxlMem ea s
  | .rorMem ea => Sys2Proof.Machine.execRorMem ea s
  | .rolMem ea => Sys2Proof.Machine.execRolMem ea s
  | .asrReg count sz dn => Sys2Proof.Machine.execAsrReg count sz dn s
  | .aslReg count sz dn => Sys2Proof.Machine.execAslReg count sz dn s
  | .lsrReg count sz dn => Sys2Proof.Machine.execLsrReg count sz dn s
  | .lslReg count sz dn => Sys2Proof.Machine.execLslReg count sz dn s
  | .roxrReg count sz dn => Sys2Proof.Machine.execRoxrReg count sz dn s
  | .roxlReg count sz dn => Sys2Proof.Machine.execRoxlReg count sz dn s
  | .rorReg count sz dn => Sys2Proof.Machine.execRorReg count sz dn s
  | .rolReg count sz dn => Sys2Proof.Machine.execRolReg count sz dn s
  | .lineF payload => Sys2Proof.Machine.execLineF payload s

end Sys2Proof.Machine
end

