-- ==== Sys2Proof/Machine/Cycles.lean ====
section
/-! DEFINITION. CYCLE_COST (00_scope.md R12; 70_reset_and_hazards.md R470, R472, R473): the
effective-address costs the spec gives over a free base cost (log 10). No meaning reads it. -/

namespace Sys2Proof.Machine

/-- The cost of resolving an operand (70_reset_and_hazards.md R472). -/
def eaCost (ea : EA) (sz : Size) : Nat :=
  match ea, sz with
  | .dreg _, _ | .areg _, _ => 0
  | .ind _, .long | .postInc _, .long => 8
  | .ind _, _ | .postInc _, _ => 4
  | .preDec _, .long => 10
  | .preDec _, _ => 6
  | .disp _, .long | .absShort, .long | .pcDisp, .long => 12
  | .disp _, _ | .absShort, _ | .pcDisp, _ => 8
  | .index _, .long | .pcIndex, .long => 14
  | .index _, _ | .pcIndex, _ => 8
  | .absLong, _ => 12
  | .imm, .long => 8
  | .imm, _ => 4

/-- The pair of operands of ADDX, SUBX, ABCD and SBCD. -/
def extendedModes (mode : XMode) (sz : Size) (rx ry : Fin 8) : List (EA × Size) :=
  match mode with
  | .dataRegs => [(.dreg ry, sz), (.dreg rx, sz)]
  | .preDec => [(.preDec ry, sz), (.preDec rx, sz)]

/-- The operands an instruction resolves, with their sizes: the "resolved modes" CYCLE_COST takes
(70_reset_and_hazards.md R470). -/
def resolvedModes : Instr → List (EA × Size)
  | .oriCcr | .oriSr | .andiCcr | .andiSr | .eoriCcr | .eoriSr => []
  | .movep _ _ _ _ => []
  | .btstReg _ ea | .bchgReg _ ea | .bclrReg _ ea | .bsetReg _ ea => [(ea, .byte)]
  | .btstImm ea | .bchgImm ea | .bclrImm ea | .bsetImm ea => [(ea, .byte)]
  | .ori sz ea | .andi sz ea | .subi sz ea | .addi sz ea | .eori sz ea | .cmpi sz ea => [(ea, sz)]
  | .moveB src dst => [(src, .byte), (dst, .byte)]
  | .moveL src dst => [(src, .long), (dst, .long)]
  | .moveW src dst => [(src, .word), (dst, .word)]
  | .moveaL _ src => [(src, .long)]
  | .moveaW _ src => [(src, .word)]
  | .illegal | .reset | .nop | .stop | .rte | .rts | .trapv | .rtr => []
  | .trap _ | .link _ | .unlk _ | .moveToUsp _ | .moveFromUsp _ => []
  | .jsr ea | .jmp ea | .pea ea | .lea _ ea => [(ea, .long)]
  | .swap _ | .extW _ | .extL _ => []
  | .movemToMem sz ea | .movemToReg sz ea => [(ea, sz)]
  | .nbcd ea | .tas ea | .scc _ ea => [(ea, .byte)]
  | .moveFromSr ea | .moveToCcr ea | .moveToSr ea | .chk _ ea => [(ea, .word)]
  | .negx sz ea | .clr sz ea | .neg sz ea | .not sz ea | .tst sz ea => [(ea, sz)]
  | .dbcc _ _ => []
  | .addq _ sz ea | .subq _ sz ea => [(ea, sz)]
  | .bra _ | .bsr _ | .bcc _ _ | .moveq _ _ => []
  | .divu _ ea | .divs _ ea | .mulu _ ea | .muls _ ea => [(ea, .word)]
  | .sbcd mode rx ry | .abcd mode rx ry => extendedModes mode .byte rx ry
  | .subx mode sz rx ry | .addx mode sz rx ry => extendedModes mode sz rx ry
  | .cmpm sz ax ay => [(.postInc ay, sz), (.postInc ax, sz)]
  | .orToDn _ sz ea | .orToEa _ sz ea | .andToDn _ sz ea | .andToEa _ sz ea => [(ea, sz)]
  | .suba _ sz ea | .adda _ sz ea | .cmpa _ sz ea => [(ea, sz)]
  | .subToDn _ sz ea | .subToEa _ sz ea | .addToDn _ sz ea | .addToEa _ sz ea => [(ea, sz)]
  | .cmp _ sz ea | .eor _ sz ea => [(ea, sz)]
  | .lineA _ | .lineF _ => []
  | .exgDD _ _ | .exgAA _ _ | .exgDA _ _ => []
  | .asrMem ea | .aslMem ea | .lsrMem ea | .lslMem ea => [(ea, .word)]
  | .roxrMem ea | .roxlMem ea | .rorMem ea | .rolMem ea => [(ea, .word)]
  | .asrReg _ _ _ | .aslReg _ _ _ | .lsrReg _ _ _ | .lslReg _ _ _ => []
  | .roxrReg _ _ _ | .roxlReg _ _ _ | .rorReg _ _ _ | .rolReg _ _ _ => []

/-- The sum of the costs of resolved operands. -/
def eaCosts : List (EA × Size) → Nat
  | [] => 0
  | (ea, sz) :: rest => eaCost ea sz + eaCosts rest

/-- CYCLE_COST (00_scope.md R12; 70_reset_and_hazards.md R470). DESIGN CHOICE (log 10): every operand of the instruction is
counted, whether or not a fault or a privilege violation cut it off before it resolved that operand. -/
def cycleCost (i : Instr) : Nat := Config.baseCost i + eaCosts (resolvedModes i)

end Sys2Proof.Machine
end

