-- ==== Sys2Proof/Machine/Fetch.lean ====
section
/-! DEFINITION. What a step does around an instruction's meaning: latching pcStart, fetching the opword,
an opword that is no instruction, the cycle count and CheckPending (60_exceptions.md R440), and where the
host's word is put. -/

namespace Sys2Proof.Machine

/-- `pcStart <- pc`; no opword has been fetched yet (60_exceptions.md R440, R421; log 12). -/
def State.beginStep (s : State) : State := { s with pcStart := s.pc, ir := 0#16 }

/-- The fetch of the opword, a program-space word at pc (60_exceptions.md R440; log 12). -/
def fetchOpword : M Half := do
  let w ← fetchWord
  modifyState fun s => { s with ir := w }
  return w

/-- An opword that is no instruction (30_encoding.md R130, R133). -/
def execUndecoded (s : State) : Host.Outcome State Fault Refusal := instruction (raiseFault .illegalInstruction 0#64) s

/-- The end of a step: the cost is added, and CheckPending runs unless the CORE is HALTED
(60_exceptions.md R440; 70_reset_and_hazards.md R470). -/
def State.endStep (s : State) (cost : Nat) : State :=
  let t := { s with cycles := s.cycles + cost }
  match t.run with
  | .halted => t
  | .running | .stopped => checkPending t

/-- The end of a step over an instruction's outcome. -/
def finishStep (cost : Nat) : Host.Outcome State Fault Refusal → Host.Outcome State Fault Refusal
  | .next s => .next (s.endStep cost)
  | .fault f => .fault f
  | .refused r => .refused r

/-! ### Where a step fetches from -/

/-- The addresses of `n` bytes from an address. -/
def byteAddresses (addr : Word) (n : Nat) : List Word := (List.range n).map fun k => addr + BitVec.ofNat 32 k

/-- Bytes stored one after the other. -/
def pokeBytes (m : Memory) (addr : Word) : List Byte → Memory
  | [] => m
  | b :: rest => pokeBytes (poke m addr b) (addr + 1#32) rest

/-- An even address: what a fetch takes (10_state.md R37). -/
def evenAddress (addr : Word) : Word := addr &&& 0xFFFFFFFE#32

/-- Whether a region holds none of some addresses. -/
def Region.avoids (r : Region) (addrs : List Word) : Bool :=
  addrs.all fun a => !(decide (r.base ≤ a.toNat) && decide (a.toNat < r.base + r.size))

/-- The state with bytes put where the next step fetches: RUNNING, pc even, plain memory there (log 25). -/
def State.withCodeAtPc (s : State) (code : List Byte) : State :=
  let pc := evenAddress s.pc
  { s with
    run := .running
    pc := pc
    map := s.map.filter fun r => r.avoids (byteAddresses pc code.length)
    mem := pokeBytes s.mem pc code }

end Sys2Proof.Machine
end

