-- ==== Sys2Proof/Machine/Step.lean ====
section
/-! DEFINITION. The step (60_exceptions.md R440): one instruction of a RUNNING CORE, CheckPending alone in
STOPPED, nothing in HALTED. -/

namespace Sys2Proof.Machine

/-- The step of a RUNNING CORE (60_exceptions.md R440). -/
def stepRunning (s : State) : Host.Outcome State Fault Refusal :=
  match fetchOpword s.beginStep with
  | .ok w t =>
    match decodeOpword w with
    | some i => finishStep (cycleCost i) (exec i t)
    | none => finishStep Config.undecodedCost (execUndecoded t)
  | .error a t => finishStep Config.undecodedCost (settle (srT1 s.sr) (.error a t))

/-- The step (60_exceptions.md R440, R442, R443). -/
def step (s : State) : Host.Outcome State Fault Refusal :=
  match s.run with
  | .halted => .next s
  | .stopped => .next (checkPending s)
  | .running => stepRunning s

/-- The state with an instruction's words, numbered as spec/opcode_table.json numbers them, where the next
step fetches (log 25). -/
def State.withFetchWord (s : State) (nbits w : Nat) : State := s.withCodeAtPc (tableBytes longestInstr (w % 2 ^ nbits))

end Sys2Proof.Machine
end

