-- ==== Sys2Proof/Machine/Effects.lean ====
section
/-! DEFINITION. What an instruction may write, from the rules of files 42 to 48: its data registers, its
address registers, its flags, and where it stores. No meaning reads this; claims about what an instruction
leaves unchanged are stated with it. -/

namespace Sys2Proof.Machine

/-! ### Registers -/

/-- The address register that a post-increment or pre-decrement operand updates (40_addressing_modes.md
R145, R146). -/
def sideRegs : EA → List (Fin 8)
  | .postInc n | .preDec n => [n]
  | _ => []

/-- The data register a destination operand names. -/
def dataRegs : EA → List (Fin 8)
  | .dreg n => [n]
  | _ => []

/-- The address register a destination operand names or updates. -/
def addrRegs : EA → List (Fin 8)
  | .areg n | .postInc n | .preDec n => [n]
  | _ => []

/-- Whether a destination operand is a place of memory. -/
def inMemory : EA → Bool
  | .ind _ | .postInc _ | .preDec _ | .disp _ | .index _ | .absShort | .absLong => true
  | .dreg _ | .areg _ | .pcDisp | .pcIndex | .imm => false

/-- The data registers an instruction may write (the rules of files 42 to 48). -/
def dregsWritten : Instr → List (Fin 8)
  | .oriCcr | .oriSr | .andiCcr | .andiSr | .eoriCcr | .eoriSr => []
  | .movep dir _ dn _ => match dir with | .toReg => [dn] | .toMem => []
  | .btstReg _ _ | .btstImm _ => []
  | .bchgReg _ ea | .bclrReg _ ea | .bsetReg _ ea | .bchgImm ea | .bclrImm ea | .bsetImm ea => dataRegs ea
  | .ori _ ea | .andi _ ea | .subi _ ea | .addi _ ea | .eori _ ea => dataRegs ea
  | .cmpi _ _ => []
  | .moveB _ dst | .moveL _ dst | .moveW _ dst => dataRegs dst
  | .moveaL _ _ | .moveaW _ _ => []
  | .illegal | .reset | .nop | .stop | .rte | .rts | .trapv | .rtr | .trap _ | .link _ | .unlk _ => []
  | .moveToUsp _ | .moveFromUsp _ | .jsr _ | .jmp _ | .pea _ => []
  | .swap dn | .extW dn | .extL dn => [dn]
  | .movemToMem _ _ => []
  | .movemToReg _ _ => List.finRange 8
  | .nbcd ea | .moveFromSr ea | .tas ea | .scc _ ea => dataRegs ea
  | .moveToCcr _ | .moveToSr _ => []
  | .negx _ ea | .clr _ ea | .neg _ ea | .not _ ea => dataRegs ea
  | .tst _ _ | .chk _ _ | .lea _ _ => []
  | .dbcc _ dn => [dn]
  | .addq _ _ ea | .subq _ _ ea => dataRegs ea
  | .bra _ | .bsr _ | .bcc _ _ => []
  | .moveq dn _ | .divu dn _ | .divs dn _ | .mulu dn _ | .muls dn _ => [dn]
  | .sbcd mode rx _ | .abcd mode rx _ | .subx mode _ rx _ | .addx mode _ rx _ => match mode with | .dataRegs => [rx] | .preDec => []
  | .orToDn dn _ _ | .andToDn dn _ _ | .subToDn dn _ _ | .addToDn dn _ _ => [dn]
  | .orToEa _ _ ea | .andToEa _ _ ea | .subToEa _ _ ea | .addToEa _ _ ea | .eor _ _ ea => dataRegs ea
  | .suba _ _ _ | .adda _ _ _ | .cmpa _ _ _ | .cmpm _ _ _ | .cmp _ _ _ => []
  | .lineA _ | .lineF _ => []
  | .exgDD rx ry => [rx, ry]
  | .exgAA _ _ => []
  | .exgDA dx _ => [dx]
  | .asrMem ea | .aslMem ea | .lsrMem ea | .lslMem ea | .roxrMem ea | .roxlMem ea | .rorMem ea | .rolMem ea => dataRegs ea
  | .asrReg _ _ dn | .aslReg _ _ dn | .lsrReg _ _ dn | .lslReg _ _ dn => [dn]
  | .roxrReg _ _ dn | .roxlReg _ _ dn | .rorReg _ _ dn | .rolReg _ _ dn => [dn]

/-- The address registers an instruction may write, the ones its addressing modes and its stack accesses
update among them; 7 stands for the active stack pointer. -/
def aregsWritten : Instr → List (Fin 8)
  | .oriCcr | .oriSr | .andiCcr | .andiSr | .eoriCcr | .eoriSr => []
  | .movep _ _ _ _ => []
  | .btstReg _ ea | .btstImm ea => sideRegs ea
  | .bchgReg _ ea | .bclrReg _ ea | .bsetReg _ ea | .bchgImm ea | .bclrImm ea | .bsetImm ea => addrRegs ea
  | .ori _ ea | .andi _ ea | .subi _ ea | .addi _ ea | .eori _ ea => addrRegs ea
  | .cmpi _ ea => sideRegs ea
  | .moveB src dst | .moveL src dst | .moveW src dst => sideRegs src ++ addrRegs dst
  | .moveaL an src | .moveaW an src => an :: sideRegs src
  | .illegal | .reset | .nop | .stop | .trapv | .trap _ => []
  | .rte | .rts | .rtr => [7]
  | .link an | .unlk an => [an, 7]
  | .moveToUsp _ => []
  | .moveFromUsp an => [an]
  | .jsr ea | .pea ea => 7 :: sideRegs ea
  | .jmp ea => sideRegs ea
  | .swap _ | .extW _ | .extL _ => []
  | .movemToMem _ ea => sideRegs ea
  | .movemToReg _ _ => List.finRange 8
  | .nbcd ea | .moveFromSr ea | .tas ea | .scc _ ea => addrRegs ea
  | .moveToCcr ea | .moveToSr ea | .tst _ ea | .chk _ ea => sideRegs ea
  | .negx _ ea | .clr _ ea | .neg _ ea | .not _ ea => addrRegs ea
  | .lea an ea => an :: sideRegs ea
  | .dbcc _ _ => []
  | .addq _ _ ea | .subq _ _ ea => addrRegs ea
  | .bra _ | .bcc _ _ => []
  | .bsr _ => [7]
  | .moveq _ _ => []
  | .divu _ ea | .divs _ ea | .mulu _ ea | .muls _ ea => sideRegs ea
  | .sbcd mode rx ry | .abcd mode rx ry | .subx mode _ rx ry | .addx mode _ rx ry =>
    match mode with | .dataRegs => [] | .preDec => [ry, rx]
  | .orToDn _ _ ea | .andToDn _ _ ea | .subToDn _ _ ea | .addToDn _ _ ea => sideRegs ea
  | .orToEa _ _ ea | .andToEa _ _ ea | .subToEa _ _ ea | .addToEa _ _ ea | .eor _ _ ea => addrRegs ea
  | .suba an _ ea | .adda an _ ea => an :: sideRegs ea
  | .cmpa _ _ ea | .cmp _ _ ea => sideRegs ea
  | .cmpm _ ax ay => [ay, ax]
  | .lineA _ | .lineF _ => []
  | .exgDD _ _ => []
  | .exgAA rx ry => [rx, ry]
  | .exgDA _ ay => [ay]
  | .asrMem ea | .aslMem ea | .lsrMem ea | .lslMem ea | .roxrMem ea | .roxlMem ea | .rorMem ea | .rolMem ea => addrRegs ea
  | .asrReg _ _ _ | .aslReg _ _ _ | .lsrReg _ _ _ | .lslReg _ _ _ => []
  | .roxrReg _ _ _ | .roxlReg _ _ _ | .rorReg _ _ _ | .rolReg _ _ _ => []

/-! ### Flags -/

def FlagSet.none : FlagSet := { x := false, n := false, z := false, v := false, c := false }

def FlagSet.zOnly : FlagSet := { FlagSet.none with z := true }

/-- The flags an instruction may write; a rotate writes X only where ROTATE_UPDATES_X says so
(00_scope.md R11; 42_shift_rotate.md R205). The instructions that write CCR or SR whole write them all. -/
def flagsWritten (rotateUpdatesX : Bool) : Instr → FlagSet
  | .oriCcr | .oriSr | .andiCcr | .andiSr | .eoriCcr | .eoriSr => .all
  | .movep _ _ _ _ => .none
  | .btstReg _ _ | .bchgReg _ _ | .bclrReg _ _ | .bsetReg _ _ => .zOnly
  | .btstImm _ | .bchgImm _ | .bclrImm _ | .bsetImm _ => .zOnly
  | .ori _ _ | .andi _ _ | .eori _ _ | .cmpi _ _ => .exceptX
  | .subi _ _ | .addi _ _ => .all
  | .moveB _ _ | .moveL _ _ | .moveW _ _ => .exceptX
  | .moveaL _ _ | .moveaW _ _ => .none
  | .illegal | .reset | .nop | .rts | .trapv | .trap _ | .link _ | .unlk _ => .none
  | .stop | .rte | .rtr => .all
  | .moveToUsp _ | .moveFromUsp _ | .jsr _ | .jmp _ | .pea _ | .lea _ _ => .none
  | .swap _ | .extW _ | .extL _ => .exceptX
  | .movemToMem _ _ | .movemToReg _ _ | .moveFromSr _ => .none
  | .nbcd _ | .negx _ _ | .neg _ _ => .all
  | .moveToCcr _ | .moveToSr _ => .all
  | .tas _ | .clr _ _ | .not _ _ | .tst _ _ | .chk _ _ => .exceptX
  | .dbcc _ _ | .scc _ _ => .none
  | .addq _ _ ea | .subq _ _ ea => if ea.isAreg then .none else .all
  | .bra _ | .bsr _ | .bcc _ _ => .none
  | .moveq _ _ | .divu _ _ | .divs _ _ | .mulu _ _ | .muls _ _ => .exceptX
  | .sbcd _ _ _ | .abcd _ _ _ | .subx _ _ _ _ | .addx _ _ _ _ => .all
  | .orToDn _ _ _ | .orToEa _ _ _ | .andToDn _ _ _ | .andToEa _ _ _ | .eor _ _ _ => .exceptX
  | .suba _ _ _ | .adda _ _ _ => .none
  | .subToDn _ _ _ | .subToEa _ _ _ | .addToDn _ _ _ | .addToEa _ _ _ => .all
  | .cmpa _ _ _ | .cmpm _ _ _ | .cmp _ _ _ => .exceptX
  | .lineA _ | .lineF _ | .exgDD _ _ | .exgAA _ _ | .exgDA _ _ => .none
  | .asrMem _ | .aslMem _ | .lsrMem _ | .lslMem _ | .roxrMem _ | .roxlMem _ => .all
  | .asrReg _ _ _ | .aslReg _ _ _ | .lsrReg _ _ _ | .lslReg _ _ _ | .roxrReg _ _ _ | .roxlReg _ _ _ => .all
  | .rorMem _ | .rolMem _ | .rorReg _ _ _ | .rolReg _ _ _ => if rotateUpdatesX then .all else .exceptX

/-- Condition codes that agree outside a set. -/
structure FlagSet.Keeps (w : FlagSet) (old new : Flags) : Prop where
  x : w.x = false → new.x = old.x
  n : w.n = false → new.n = old.n
  z : w.z = false → new.z = old.z
  v : w.v = false → new.v = old.v
  c : w.c = false → new.c = old.c

/-! ### Stores -/

/-- The cell a location is, as an address and a size. -/
def Loc.cells (sz : Size) : Loc → List (Word × Size)
  | .mem a _ => [(a, sz)]
  | .dreg _ | .areg _ | .imm _ => []

/-- The cells of a destination operand, resolved as the meaning resolves it. -/
def targetCells (ea : EA) (sz : Size) : M (List (Word × Size)) := do
  let loc ← resolve ea sz true
  return loc.cells sz

/-- The long a push of a return address or an address stores. -/
def pushCells : M (List (Word × Size)) := do
  let s ← getState
  return [(s.sp - 4#32, .long)]

/-- The cells of MOVEM at ascending addresses. -/
def upCells (sz : Size) : Nat → Word → List (Word × Size)
  | 0, _ => []
  | k + 1, a => (a, sz) :: upCells sz k (a + sizeWord sz)

/-- The cells of MOVEM at descending addresses. -/
def downCells (sz : Size) : Nat → Word → List (Word × Size)
  | 0, _ => []
  | k + 1, a => (a - sizeWord sz, sz) :: downCells sz k (a - sizeWord sz)

/-- The bytes MOVEP stores. -/
def movepCells (sz : Size) (a : Word) : List (Word × Size) :=
  match sz with
  | .long => [(a, .byte), (a + 2#32, .byte), (a + 4#32, .byte), (a + 6#32, .byte)]
  | _ => [(a, .byte), (a + 2#32, .byte)]

/-- The destination cell of ADDX, SUBX, ABCD and SBCD: the source is read first. -/
def extendedCells (mode : XMode) (sz : Size) (rx ry : Fin 8) : M (List (Word × Size)) :=
  match mode with
  | .dataRegs => pure []
  | .preDec => do
    let _ ← readEa (.preDec ry) sz
    targetCells (.preDec rx) sz

/-- The cells an instruction stores to when it completes, computed as its meaning computes them: the operand
resolved in the state in which the meaning resolves it. -/
def storesAt : Instr → M (List (Word × Size))
  | .oriCcr | .oriSr | .andiCcr | .andiSr | .eoriCcr | .eoriSr => pure []
  | .movep dir sz _ an =>
    match dir with
    | .toReg => pure []
    | .toMem => do
      let w ← fetchWord
      let s ← getState
      return movepCells sz (s.areg an + sext16 w)
  | .btstReg _ _ | .btstImm _ => pure []
  | .bchgReg _ ea | .bclrReg _ ea | .bsetReg _ ea => targetCells ea (bitSize ea)
  | .bchgImm ea | .bclrImm ea | .bsetImm ea => do
    let _ ← staticBit
    targetCells ea (bitSize ea)
  | .ori sz ea | .andi sz ea | .subi sz ea | .addi sz ea | .eori sz ea => do
    let _ ← immediate sz
    targetCells ea sz
  | .cmpi _ _ => pure []
  | .moveB src dst => do
    let _ ← readEa src .byte
    targetCells dst .byte
  | .moveL src dst => do
    let _ ← readEa src .long
    targetCells dst .long
  | .moveW src dst => do
    let _ ← readEa src .word
    targetCells dst .word
  | .moveaL _ _ | .moveaW _ _ => pure []
  | .illegal | .reset | .nop | .stop | .rte | .rts | .trapv | .rtr | .trap _ => pure []
  | .link _ => do
    let _ ← fetchWord
    pushCells
  | .unlk _ | .moveToUsp _ | .moveFromUsp _ | .jmp _ | .swap _ | .extW _ | .extL _ => pure []
  | .jsr ea | .pea ea => do
    let _ ← controlAddress ea
    pushCells
  | .movemToMem sz ea => do
    let m ← fetchWord
    match ea with
    | .preDec n => do
      let s ← getState
      return downCells sz (maskBits m).length (s.areg n)
    | _ => do
      let loc ← resolve ea sz false
      let p ← addressOf loc
      return upCells sz (maskBits m).length p.1
  | .movemToReg _ _ => pure []
  | .nbcd ea | .tas ea | .scc _ ea => targetCells ea .byte
  | .moveFromSr ea => targetCells ea .word
  | .moveToCcr _ | .moveToSr _ => pure []
  | .negx sz ea | .clr sz ea | .neg sz ea | .not sz ea => targetCells ea sz
  | .tst _ _ | .chk _ _ | .lea _ _ | .dbcc _ _ => pure []
  | .addq _ sz ea | .subq _ sz ea => targetCells ea sz
  | .bra _ | .bcc _ _ | .moveq _ _ | .divu _ _ | .divs _ _ | .mulu _ _ | .muls _ _ => pure []
  | .bsr d8 => do
    let _ ← branchDisp d8
    pushCells
  | .sbcd mode rx ry | .abcd mode rx ry => extendedCells mode .byte rx ry
  | .subx mode sz rx ry | .addx mode sz rx ry => extendedCells mode sz rx ry
  | .orToDn _ _ _ | .andToDn _ _ _ | .subToDn _ _ _ | .addToDn _ _ _ => pure []
  | .orToEa _ sz ea | .andToEa _ sz ea | .subToEa _ sz ea | .addToEa _ sz ea | .eor _ sz ea => targetCells ea sz
  | .suba _ _ _ | .adda _ _ _ | .cmpa _ _ _ | .cmpm _ _ _ | .cmp _ _ _ => pure []
  | .lineA _ | .lineF _ | .exgDD _ _ | .exgAA _ _ | .exgDA _ _ => pure []
  | .asrMem ea | .aslMem ea | .lsrMem ea | .lslMem ea => targetCells ea .word
  | .roxrMem ea | .roxlMem ea | .rorMem ea | .rolMem ea => targetCells ea .word
  | .asrReg _ _ _ | .aslReg _ _ _ | .lsrReg _ _ _ | .lslReg _ _ _ => pure []
  | .roxrReg _ _ _ | .roxlReg _ _ _ | .rorReg _ _ _ | .rolReg _ _ _ => pure []

end Sys2Proof.Machine
end

