-- ==== Sys2Proof/Machine/Inputs.lean ====
section
/-! DEFINITION. The other inputs of the block (10_state.md R53): the reset transition (70_reset_and_hazards.md
R460, R461), the interrupt request (60_exceptions.md R434, R443, R445) and the clock tick (70_reset_and_hazards.md
R471). When an input arrives is outside the model (log 15). -/

namespace Sys2Proof.Machine

/-! ### Reset -/

/-- What the registers the reset transition leaves unspecified hold after it (10_state.md R60). -/
structure ResetFill where
  d : Vector Word 8
  a : Vector Word 7
  usp : Word
  ccr : Byte
deriving DecidableEq, Repr

/-- The reset transition up to its two reads (70_reset_and_hazards.md R460). -/
def State.resetting (s : State) (fill : ResetFill) : State :=
  { s with pending := [], active := none, sr := srAfterReset fill.ccr, d := fill.d, a := fill.a, usp := fill.usp }

/-- The reads of SSP and pc and what follows them (70_reset_and_hazards.md R460). -/
def resetReads : M Unit := do
  let sp ← memRead .data .long 0#32
  modifyState fun s => { s with ssp := sp }
  let start ← memRead .data .long 4#32
  modifyState fun s => { s with pc := start, cycles := 0, countdown := 0, run := .running }

/-- Reset; a fault on a read halts the CORE (70_reset_and_hazards.md R460, R461; log 23). -/
def resetWith (fill : ResetFill) (s : State) : State :=
  match resetReads (s.resetting fill) with
  | .ok _ t => t
  | .error _ t => { t with run := .halted }

/-- Free values for the registers the reset transition leaves unspecified (10_state.md R60; log 21). -/
def State.drawnFill (s : State) : ResetFill :=
  { d := Vector.ofFn fun k => Config.freeWord (s.draws + k.val)
    a := Vector.ofFn fun k => Config.freeWord (s.draws + 8 + k.val)
    usp := Config.freeWord (s.draws + 15)
    ccr := Config.freeByte (s.draws + 16) }

/-- The reset input, taken in every run state (70_reset_and_hazards.md R460). -/
def resetInput (s : State) : State := resetWith s.drawnFill { s with draws := s.draws + 17 }

/-! ### Interrupt request -/

/-- The `raise(kind, aux)` input: RESET is the reset input, and a HALTED CORE ignores every other kind
(60_exceptions.md R434, R443, R445; log 15). -/
def raiseInput (k : IrqKind) (aux : Aux) (s : State) : State :=
  if k = .reset then resetInput s
  else
    match s.run with
    | .halted => s
    | .running | .stopped => raiseIrq k aux s

/-! ### Clock tick -/

/-- The opword at pc, without a side effect: none where a fetch would not be answered by plain memory (log 16). -/
def State.peekOpword (s : State) : Option Half :=
  if misaligned s.pc .word then none
  else
    match answerOf s.map s.pc .word false with
    | .ram => some ((readMem s.mem s.pc .word).setWidth 16)
    | .device | .pageNotMapped | .writeProtected => none

/-- NextCost, at least 1 (70_reset_and_hazards.md R471; log 16). -/
def State.nextCost (s : State) : Nat :=
  match s.peekOpword with
  | some w =>
    match decodeOpword w with
    | some i => max 1 (cycleCost i)
    | none => max 1 Config.undecodedCost
  | none => max 1 Config.undecodedCost

/-- The part of a tick after the count: a step when it has reached 0, and the next count. -/
def tickRunning (s : State) : Host.Outcome State Fault Refusal :=
  if s.countdown = 0 then
    match step s with
    | .next t => .next { t with countdown := t.nextCost }
    | .fault f => .fault f
    | .refused r => .refused r
  else .next s

/-- The clock tick (70_reset_and_hazards.md R471). -/
def tick (s : State) : Host.Outcome State Fault Refusal :=
  match s.run with
  | .halted => .next s
  | .running | .stopped => tickRunning { s with countdown := s.countdown - 1 }

end Sys2Proof.Machine
end

