-- ==== Sys2Proof/Safety.lean ====
section
/-! DEFINITION. What a good state of the machine is, and what a claim calls a completed step. -/

namespace Sys2Proof.Machine

/-- The constraints 00_scope.md puts on the parameters: the priority table keeps the group order (R9;
60_exceptions.md R402), and SR_MASK holds the bits that rules other than an SR write set: S, the mask I and
the condition codes (R10; log 6). -/
def validParams (p : Params) : Bool := keepsGroupOrder p && (p.srMask &&& 0x271F#16 == 0x271F#16)

/-- A queued or active request is never the reset input (60_exceptions.md R434). -/
def notReset (r : IrqKind × Aux) : Bool := r.1 != .reset

/-- The invariant of the machine. -/
structure State.Inv (s : State) : Prop where
  /-- memory keeps its canonical form -/
  memory : Memory.wf s.mem = true
  /-- the bits of SR outside SR_MASK read as 0 (10_state.md R40) -/
  status : s.sr &&& ~~~s.params.srMask = 0#16
  /-- the pending stack is bounded (10_state.md R46) -/
  bounded : s.pending.length ≤ s.params.pendingDepth
  /-- RESET is never queued (60_exceptions.md R434) -/
  queued : s.pending.all notReset = true
  /-- RESET is never entered (60_exceptions.md R434) -/
  entered : s.active.all notReset = true
  /-- the parameters are ones the spec allows (00_scope.md R9, R10) -/
  parameters : validParams s.params = true

/-! ### When an access succeeds -/

/-- Plain memory answers a read at an address, which is not odd for a word or a long. -/
def State.readable (s : State) (addr : Word) (sz : Size) : Prop :=
  misaligned addr sz = false ∧ answerOf s.map addr sz false = .ram

/-- Plain memory takes a write at an address, which is not odd for a word or a long. -/
def State.writable (s : State) (addr : Word) (sz : Size) : Prop :=
  misaligned addr sz = false ∧ answerOf s.map addr sz true = .ram

/-- The extension word at pc. -/
def State.wordAtPc (s : State) : Half := (readMem s.mem s.pc .word).setWidth 16

/-! ### Operands of a claim -/

/-- An operand is resolved and read: it gives `v` and leaves `u` (40_addressing_modes.md R159). -/
def Reads (ea : EA) (sz : Size) (s : State) (v : Word) (u : State) : Prop :=
  ∃ loc s1, resolve ea sz true s = .ok loc s1 ∧ readLoc loc sz s1 = .ok v u

/-- An operand is resolved and written without being read: `v` is stored and `t` is left. -/
def Writes (ea : EA) (sz : Size) (s : State) (v : Word) (t : State) : Prop :=
  ∃ loc s1, resolve ea sz true s = .ok loc s1 ∧ writeLoc loc sz v s1 = .ok () t

/-- An operand is resolved once, read and written back (20_memory.md R77): it held `d`, was read leaving `u`, and
`r` stored in its place leaves `t`. -/
def Updates (ea : EA) (sz : Size) (s : State) (d : Word) (u : State) (r : Word) (t : State) : Prop :=
  ∃ loc s1, resolve ea sz true s = .ok loc s1 ∧ readLoc loc sz s1 = .ok d u ∧ writeLoc loc sz r u = .ok () t

/-- The signed value of an operand at a size. -/
def signedAt (sz : Size) (v : Word) : Int :=
  if msb sz v then ((trunc sz v).toNat : Int) - 2 ^ sizeBits sz else (trunc sz v).toNat

/-- The privileged instructions (48_system_control.md R350). -/
def isPrivileged : Instr → Bool
  | .oriSr | .andiSr | .eoriSr | .moveToSr _ | .moveToUsp _ | .moveFromUsp _ | .reset | .rte | .stop => true
  | _ => false

/-! ### Completed steps -/

/-- An instruction completes from a state when its meaning answers a next state. -/
def Completes (i : Instr) (s t : State) : Prop := exec i s = .next t

/-- No exception was taken, queued or refused between two states: the instruction completed, was not traced,
and no interrupt entered (60_exceptions.md R405, R430, R440). RTE clears the active interrupt. -/
structure Uninterrupted (s t : State) : Prop where
  untraced : srT1 s.sr = false
  active : t.active = s.active ∨ t.active = none
  pending : t.pending = s.pending
  alive : t.run ≠ .halted

/-- A run of `n` steps is safe when none of them is a fault or a refusal of the model. -/
def SafeFor : Nat → State → Prop
  | 0, _ => True
  | n + 1, s => ∃ t, step s = .next t ∧ SafeFor n t

end Sys2Proof.Machine
end

