-- ==== Sys2Proof/Certificates/Slice0/Obligations.lean ====
section
/-! DEFINITION. The statements about the machine. An instruction that completes leaves the state its rule gives,
and TRACE follows where T1 was set when it started: `traceAfter (srT1 s.sr) t` (60_exceptions.md R430), which is
`t` itself while T1 is 0. -/

section Statements

open Sys2Proof Sys2Proof.Machine

/-! ### Encoding and decoding -/

/-- Opwords written out from the encodings of 30_encoding.md R116 to R132, one or two of each line. -/
def Obligations.DecodeWrittenWords : Prop :=
  decodeOpword 0b0000000001111100#16 = some .oriSr ∧
  decodeOpword 0b0000011000000000#16 = some (.addi .byte (.dreg 0)) ∧
  decodeOpword 0b0000001111001010#16 = some (.movep .toMem .long 1 2) ∧
  decodeOpword 0b0001111100000000#16 = some (.moveB (.dreg 0) (.preDec 7)) ∧
  decodeOpword 0b0010000001111100#16 = some (.moveaL 0 .imm) ∧
  decodeOpword 0b0011000000111100#16 = some (.moveW .imm (.dreg 0)) ∧
  decodeOpword 0b0100111001110011#16 = some .rte ∧
  decodeOpword 0b0100100011100111#16 = some (.movemToMem .long (.preDec 7)) ∧
  decodeOpword 0b0101000111001000#16 = some (.dbcc .f 0) ∧
  decodeOpword 0b0110011100000000#16 = some (.bcc .eq 0#8) ∧
  decodeOpword 0b0111011011111111#16 = some (.moveq 3 0xFF#8) ∧
  decodeOpword 0b1000000011000001#16 = some (.divu 0 (.dreg 1)) ∧
  decodeOpword 0b1001000100001001#16 = some (.subx .preDec .byte 0 1) ∧
  decodeOpword 0b1010111111111111#16 = some (.lineA 0xFFF#12) ∧
  decodeOpword 0b1011001100001000#16 = some (.cmpm .byte 1 0) ∧
  decodeOpword 0b1100000110001001#16 = some (.exgDA 0 1) ∧
  decodeOpword 0b1101000110010000#16 = some (.addToEa 0 .long (.ind 0)) ∧
  decodeOpword 0b1110001100110000#16 = some (.roxlReg (.reg 1) .byte 0) ∧
  decodeOpword 0b1111000000000000#16 = some (.lineF 0#12) ∧
  decodeOpword 0b0100111001110100#16 = none

/-- Decoding the bytes of a well-formed instruction gives it back whatever bytes follow (30_encoding.md R113, R114),
and so for the indexed extension words (R104, R105). -/
def Obligations.DecodeEncodeRoundTrip : Prop :=
  (∀ (i : Instr) (rest : List Byte), i.wf = true → decode (encode i ++ rest) = .ok i) ∧
  (∀ x : IndexWord, x.wf = true → decodeIndexWord (encodeIndexWord x) = x)

/-- An opword that decodes, decodes to a well-formed instruction whose encoding it is: no bit of it is dropped and no two
opwords mean the same instruction. The same of an indexed extension word that is not reserved. -/
def Obligations.DecodedWordsReencode : Prop :=
  (∀ (w : Half) (i : Instr), decodeOpword w = some i → i.wf = true ∧ encodeOpword i = w) ∧
  (∀ e : Half, decodeIndexWord e ≠ .reserved → (decodeIndexWord e).wf = true ∧ encodeIndexWord (decodeIndexWord e) = e)

/-! ### The step -/

/-- A step of a RUNNING CORE runs the instruction its decoder reads at pc: pcStart is latched, the opword fetched and pc
moved past it, the instruction run, its cost added, and CheckPending run unless the CORE halted (60_exceptions.md R440). That the cost
counts every operand of an instruction that faulted before it resolved them is the model's choice (log 10). -/
def Obligations.StepRunsDecodedInstruction : Prop :=
  ∀ (s : State) (i : Instr) (rest : List Byte), s.run = .running → s.readable s.pc .word →
    decode (peek s.mem s.pc :: peek s.mem (s.pc + 1#32) :: rest) = .ok i →
    let u := { s with pcStart := s.pc, ir := s.wordAtPc, pc := s.pc + 2#32 }
    step s = finishStep (cycleCost i) (exec i u) ∧
    ∀ t, exec i u = .next t →
      step s = .next (if t.run = .halted then { t with cycles := t.cycles + cycleCost i }
                      else checkPending { t with cycles := t.cycles + cycleCost i })

/-- How an instruction's outcome is settled: one that completes is followed by TRACE if T1 was set when it started, a fault
restores pc to pcStart and is raised, a trap is raised with pc as it is (60_exceptions.md R430, R432, R440). -/
def Obligations.OutcomesAreSettled : Prop :=
  ∀ (body : M Unit) (s t : State),
    (body s = .ok () t → instruction body s = .next (if srT1 s.sr then raiseIrq .trace 0#64 t else t)) ∧
    (∀ k aux, body s = .error (.fault k aux) t → instruction body s = .next (raiseIrq k aux { t with pc := t.pcStart })) ∧
    (∀ k, body s = .error (.trap k) t → instruction body s = .next (raiseIrq k 0#64 t)) ∧
    (body s = .error .halted t → instruction body s = .next t)

/-- An odd pc faults at the fetch with the fetch's address, a program-space read, and 0 for the opword, and pc stays odd
(10_state.md R37; 60_exceptions.md R421). An opword that is no instruction, ILLEGAL, and the opwords of lines 1010 and 1111 raise their
kind with `aux = 0` and pc at the opword (30_encoding.md R130 to R133; 48_system_control.md R367 to R369). The cost of a step that decodes
nothing is free (log 10), and the latch that is 0 until the opword is fetched is the model's (log 12). -/
def Obligations.FetchAndDecodeFaults : Prop :=
  (∀ s : State, s.run = .running → s.pc.getLsbD 0 = true →
    step s = .next
      ((raiseIrq .addressError (packAux (if s.supervisor then 0x0016#16 else 0x0012#16) s.pc 0#16)
        { s with pcStart := s.pc, ir := 0#16 }).endStep Config.undecodedCost)) ∧
  (∀ s : State, s.run = .running → s.readable s.pc .word → decodeOpword s.wordAtPc = none →
    step s = .next ((raiseIrq .illegalInstruction 0#64 { s with pcStart := s.pc, ir := s.wordAtPc }).endStep Config.undecodedCost)) ∧
  (∀ s : State, exec .illegal s = .next (raiseIrq .illegalInstruction 0#64 { s with pc := s.pcStart })) ∧
  (∀ (s : State) (p : BitVec 12), exec (.lineA p) s = .next (raiseIrq .line1010Emulator 0#64 { s with pc := s.pcStart })) ∧
  (∀ (s : State) (p : BitVec 12), exec (.lineF p) s = .next (raiseIrq .line1111Emulator 0#64 { s with pc := s.pcStart }))

/-- A STOPPED CORE's step is CheckPending alone; a HALTED CORE ignores step, tick and every raise but RESET (60_exceptions.md R442,
R443). A tick counts down, runs a step only when the count reaches 0, and then counts from the cost of the instruction at pc, at least 1
(70_reset_and_hazards.md R471). That a HALTED CORE takes a raise of RESET is deduced (log 15). -/
def Obligations.RunStatesAndTicks : Prop :=
  (∀ s : State, s.run = .stopped → step s = .next (checkPending s)) ∧
  (∀ s : State, s.run = .halted → step s = .next s ∧ tick s = .next s ∧ ∀ k aux, k ≠ .reset → raiseInput k aux s = s) ∧
  (∀ s : State, s.run ≠ .halted → 1 < s.countdown → tick s = .next { s with countdown := s.countdown - 1 }) ∧
  (∀ s t : State, s.run ≠ .halted → s.countdown ≤ 1 → step { s with countdown := 0 } = .next t →
    ∃ n, 1 ≤ n ∧ tick s = .next { t with countdown := n } ∧
      ∀ i, t.readable t.pc .word → decodeOpword t.wordAtPc = some i → n = max 1 (cycleCost i))

/-- No step of any state, and no well-formed instruction in any state, ends in a fault or a refusal of the model: "A Fault or
Trap never escapes the step" (60_exceptions.md R440). -/
def Obligations.EveryStepAnswersNext : Prop :=
  (∀ s : State, ∃ t, step s = .next t) ∧ (∀ (i : Instr) (s : State), i.wf = true → ∃ t, exec i s = .next t)

/-! ### Whole-machine rules -/

/-- What reset leaves (10_state.md R60; 70_reset_and_hazards.md R460), and that it is a good state. The general registers and the
condition codes, which the spec leaves unspecified, are not in this statement. That memory lists nothing at reset is the model's (log 1, log 4). -/
def Obligations.ResetState : Prop :=
  State.reset.sr &&& 0xFF00#16 = 0x2700#16 ∧ State.reset.ssp = readMem State.reset.mem 0#32 .long ∧
  State.reset.pc = readMem State.reset.mem 4#32 .long ∧ State.reset.active = none ∧ State.reset.pending = [] ∧
  State.reset.run = .running ∧ State.reset.cycles = 0 ∧ State.reset.countdown = 0 ∧ State.reset.Inv

/-- The reset transition, in every run state: with both reads answered it leaves the values of 70_reset_and_hazards.md R460,
and a fault on a read halts the CORE with the state as far as written (R461), in the order deduced in log 23. The registers it leaves
unspecified are free (log 21), and a raise of RESET is the reset input (log 15). -/
def Obligations.ResetTransition : Prop :=
  (∀ s : State, s.readable 0#32 .long → s.readable 4#32 .long →
    let t := resetInput s
    t.pending = [] ∧ t.active = none ∧ t.sr &&& 0xFF00#16 = 0x2700#16 ∧ t.ssp = readMem s.mem 0#32 .long ∧
      t.pc = readMem s.mem 4#32 .long ∧ t.cycles = 0 ∧ t.countdown = 0 ∧ t.run = .running ∧
      t.mem = s.mem ∧ t.map = s.map ∧ t.params = s.params) ∧
  (∀ s : State, answerOf s.map 0#32 .long false = .pageNotMapped →
    let t := resetInput s
    t.run = .halted ∧ t.ssp = s.ssp ∧ t.pc = s.pc ∧ t.cycles = s.cycles ∧ t.pending = [] ∧ t.active = none ∧
      t.sr &&& 0xFF00#16 = 0x2700#16 ∧ t.mem = s.mem) ∧
  (∀ s : State, s.readable 0#32 .long → answerOf s.map 4#32 .long false = .pageNotMapped →
    let t := resetInput s
    t.run = .halted ∧ t.ssp = readMem s.mem 0#32 .long ∧ t.pc = s.pc ∧ t.cycles = s.cycles ∧ t.mem = s.mem) ∧
  (∀ (s : State) (aux : Aux), raiseInput .reset aux s = resetInput s)

/-- Every step from a good state leaves a good one: memory stays canonical, the SR bits outside SR_MASK stay 0, the pending stack
stays bounded and RESET is neither queued nor entered; the parameters and the memory map never change (10_state.md R40, R46;
60_exceptions.md R434; 00_scope.md R10). That SR_MASK holds 0x271F in a good state is deduced (log 6). -/
def Obligations.InvKeptByStep : Prop :=
  ∀ s t : State, s.Inv → step s = .next t → t.Inv ∧ t.params = s.params ∧ t.map = s.map

/-- The other inputs keep the invariant too: reset, every interrupt request, and the clock tick. -/
def Obligations.InvKeptByInputs : Prop :=
  ∀ s : State, s.Inv → (resetInput s).Inv ∧ (∀ k aux, (raiseInput k aux s).Inv) ∧ (∀ t, tick s = .next t → t.Inv)

/-- "User mode cannot enter supervisor mode except by an interrupt" (60_exceptions.md R438): a step from user mode that does not
enter an interrupt, and does not halt, leaves the mode, the trace bits, M, the mask I and the supervisor stack pointer. -/
def Obligations.UserModeIsolation : Prop :=
  ∀ s t : State, s.supervisor = false → step s = .next t →
    (∃ k aux, t.active = some (k, aux) ∧ s.active ≠ t.active) ∨ t.run = .halted ∨
    (t.supervisor = false ∧ t.sr &&& 0xFF00#16 = s.sr &&& 0xFF00#16 ∧ t.ssp = s.ssp)

/-- Every privileged instruction, in user mode, changes nothing and raises PRIVILEGE_VIOLATION with pc at its opword, before any
extension word is fetched (48_system_control.md R350). -/
def Obligations.PrivilegedInUserMode : Prop :=
  ∀ s : State, s.supervisor = false → ∀ i : Instr,
    (i ∈ [.oriSr, .andiSr, .eoriSr, .reset, .rte, .stop] ∨ (∃ ea, i = .moveToSr ea) ∨ (∃ n, i = .moveToUsp n) ∨ (∃ n, i = .moveFromUsp n)) →
    exec i s = .next (raiseIrq .privilegeViolation 0#64 { s with pc := s.pcStart })

/-! ### Registers and memory -/

/-- `A[7]` names SSP in supervisor mode and USP in user mode, for reads and writes, and a write of SR switches it at once and
changes neither stack pointer (10_state.md R33, R34). -/
def Obligations.StackPointerNames : Prop :=
  ∀ (s : State) (v : Word) (h : Half),
    s.areg 7 = (if s.sr.getLsbD 13 then s.ssp else s.usp) ∧
    (s.setAreg 7 v).ssp = (if s.sr.getLsbD 13 then v else s.ssp) ∧
    (s.setAreg 7 v).usp = (if s.sr.getLsbD 13 then s.usp else v) ∧
    (s.setAreg 7 v).d = s.d ∧ (s.setAreg 7 v).a = s.a ∧
    (s.writeSr h).ssp = s.ssp ∧ (s.writeSr h).usp = s.usp ∧
    (s.writeSr h).areg 7 = (if (h &&& s.params.srMask).getLsbD 13 then s.ssp else s.usp)

/-- A write of an address register writes all 32 bits and no other register; a write of a data register changes only its low 8, 16
or 32 bits and no other register (10_state.md R31, R32; 00_scope.md R16). -/
def Obligations.RegisterWrites : Prop :=
  ∀ (s : State) (n m : Fin 8) (v : Word),
    (s.setAreg n v).areg n = v ∧ (m ≠ n → (s.setAreg n v).areg m = s.areg m) ∧ (s.setAreg n v).d = s.d ∧
    (s.setDreg n .byte v).dreg n = (s.dreg n).extractLsb' 8 24 ++ v.extractLsb' 0 8 ∧
    (s.setDreg n .word v).dreg n = (s.dreg n).extractLsb' 16 16 ++ v.extractLsb' 0 16 ∧
    (s.setDreg n .long v).dreg n = v ∧
    (∀ sz, (m ≠ n → (s.setDreg n sz v).dreg m = s.dreg m) ∧ (s.setDreg n sz v).areg m = s.areg m ∧ (s.setDreg n sz v).sr = s.sr)

/-- A write of SR stores `v & SR_MASK`; a write of CCR stores the low five bits and leaves the high byte; a flag update writes the
five flags and no other bit (10_state.md R39, R40). -/
def Obligations.StatusWrites : Prop :=
  ∀ (s : State) (v : Half) (f : Flags),
    (s.writeSr v).sr = v &&& s.params.srMask ∧ Params.default.srMask = 0xF71F#16 ∧
    (s.writeCcr v).sr.extractLsb' 0 8 = v.extractLsb' 0 8 &&& 0x1F#8 ∧ (s.writeCcr v).sr.extractLsb' 8 8 = s.sr.extractLsb' 8 8 ∧
    (s.setFlags f).flags = f ∧ (s.setFlags f).sr &&& 0xFFE0#16 = s.sr &&& 0xFFE0#16

/-- Big-endian memory: a read after a write of the same place gives the value, a word is its two bytes and a long its two words,
high first; the bytes outside a store are unchanged; a store keeps the canonical form, in which equal contents are equal data
(20_memory.md R71, R72). -/
def Obligations.BigEndianMemory : Prop :=
  ∀ (m : Memory) (a : Word) (v : Word), m.wf = true →
    (∀ sz, readMem (writeMem m a sz v) a sz = trunc sz v ∧ (writeMem m a sz v).wf = true ∧
      ∀ b, b ∉ coveredBy a sz → peek (writeMem m a sz v) b = peek m b) ∧
    readMem m a .word = (readMem m a .byte <<< 8) ||| readMem m (a + 1#32) .byte ∧
    readMem m a .long = (readMem m a .word <<< 16) ||| readMem m (a + 2#32) .word ∧
    readMem (writeMem m a .long v) a .byte = v >>> 24 ∧
    readMem (writeMem m a .long v) (a + 1#32) .byte = trunc .byte (v >>> 16) ∧
    readMem (writeMem m a .long v) (a + 2#32) .word = trunc .word v ∧
    (∀ m' : Memory, m'.wf = true → (∀ b, peek m' b = peek m b) → m' = m)

/-- A word or long access at an odd address, an unmapped byte under any access, and a write to a write-protected byte fault with
ADDRESS_ERROR, the only fault of an access, and change nothing; the payload packs the format word, the access's address and the
opword (20_memory.md R74, R75, R78, R79; 60_exceptions.md R421, R422). An access that plain memory answers succeeds and does nothing
else, and so FetchWord, Push and Pop (00_scope.md R17). An access that touches a device region and does not fail sends its request, reads
what was last written at its plain bytes and any value at the device's, and stores its plain bytes alone (R80, R85; log 8). That one
failing byte fails the whole access is deduced (log 11). -/
def Obligations.MemoryAccesses : Prop :=
  ∀ (s : State) (a v : Word) (sz : Size) (sp : Space),
    let fc : Half := (if s.supervisor then 4#16 else 0#16) + (match sp with | .program => 2#16 | .data => 1#16)
    let readFmt : Half := 0x10#16 ||| (match sp with | .program => 0#16 | .data => 8#16) ||| fc
    let writeFmt : Half := 8#16 ||| ((if s.supervisor then 4#16 else 0#16) + 1#16)
    ((sz ≠ .byte ∧ a.getLsbD 0 = true) ∨ (∃ b ∈ coveredBy a sz, regionAt s.map b = some .unmapped) →
      memRead sp sz a s = .error (.fault .addressError (readFmt ++ a ++ s.ir)) s ∧
      memWrite sz a v s = .error (.fault .addressError (writeFmt ++ a ++ s.ir)) s) ∧
    ((∃ b ∈ coveredBy a sz, regionAt s.map b = some .writeProtected) →
      memWrite sz a v s = .error (.fault .addressError (writeFmt ++ a ++ s.ir)) s) ∧
    (∀ e t, memRead sp sz a s = .error e t → e = .fault .addressError (readFmt ++ a ++ s.ir) ∧ t = s) ∧
    (∀ e t, memWrite sz a v s = .error e t → e = .fault .addressError (writeFmt ++ a ++ s.ir) ∧ t = s) ∧
    (s.readable a sz → memRead sp sz a s = .ok (readMem s.mem a sz) s) ∧
    (s.writable a sz → memWrite sz a v s = .ok () { s with mem := writeMem s.mem a sz v }) ∧
    ((sz = .byte ∨ a.getLsbD 0 = false) → (∀ b ∈ coveredBy a sz, regionAt s.map b = none) → s.readable a sz ∧ s.writable a sz) ∧
    ((sz = .byte ∨ a.getLsbD 0 = false) → (∃ b ∈ coveredBy a sz, regionAt s.map b = some .device) →
      ((∀ b ∈ coveredBy a sz, regionAt s.map b ≠ some .unmapped) →
        ∃ r d, memRead sp sz a s = .ok r { s with draws := d, outputs := .deviceRead a sz :: s.outputs } ∧ trunc sz r = r ∧
          ∀ j, j < sizeBytes sz → regionAt s.map (a + BitVec.ofNat 32 j) ≠ some .device →
            r.extractLsb' (8 * (sizeBytes sz - 1 - j)) 8 = peek s.mem (a + BitVec.ofNat 32 j)) ∧
      ((∀ b ∈ coveredBy a sz, regionAt s.map b ≠ some .unmapped ∧ regionAt s.map b ≠ some .writeProtected) →
        ∃ m', memWrite sz a v s = .ok () { s with mem := m', outputs := .deviceWrite a sz (trunc sz v) :: s.outputs } ∧
          (∀ b, regionAt s.map b = some .device → peek m' b = peek s.mem b) ∧
          (Memory.wf s.mem = true →
            Memory.wf m' = true ∧ ∀ b, regionAt s.map b ≠ some .device → peek m' b = peek (writeMem s.mem a sz v) b))) ∧
    (s.readable s.pc .word → fetchWord s = .ok s.wordAtPc { s with pc := s.pc + 2#32 }) ∧
    (s.writable (s.areg 7 - sizeWord sz) sz →
      push sz v s = .ok () ({ s with mem := writeMem s.mem (s.areg 7 - sizeWord sz) sz v }.setAreg 7 (s.areg 7 - sizeWord sz))) ∧
    (s.readable (s.areg 7) sz → pop sz s = .ok (readMem s.mem (s.areg 7) sz) (s.setAreg 7 (s.areg 7 + sizeWord sz)))

/-! ### Effective addresses -/

/-- What every addressing mode but the indexed ones resolves to, and what it changes (40_addressing_modes.md R142 to R148, R150 to
R152, R154, R157), a byte operand moving A7 by 2; and what reading and writing a resolved operand do (R158). -/
def Obligations.ResolvedOperands : Prop :=
  ∀ (s : State) (sz : Size) (n : Fin 8),
    let moved : Word := if sz = .byte ∧ n = 7 then 2#32 else sizeWord sz
    (∀ ap, resolve (.dreg n) sz ap s = .ok (.dreg n) s ∧ resolve (.areg n) sz ap s = .ok (.areg n) s ∧
      resolve (.ind n) sz ap s = .ok (.mem (s.areg n) .data) s) ∧
    resolve (.postInc n) sz true s = .ok (.mem (s.areg n) .data) (s.setAreg n (s.areg n + moved)) ∧
    resolve (.postInc n) sz false s = .ok (.mem (s.areg n) .data) s ∧
    resolve (.preDec n) sz true s = .ok (.mem (s.areg n - moved) .data) (s.setAreg n (s.areg n - moved)) ∧
    resolve (.preDec n) sz false s = .ok (.mem (s.areg n - moved) .data) s ∧
    (s.readable s.pc .word →
      let w := s.wordAtPc
      let u := { s with pc := s.pc + 2#32 }
      (∀ ap, resolve (.disp n) sz ap s = .ok (.mem (s.areg n + sext16 w) .data) u ∧
        resolve .absShort sz ap s = .ok (.mem (sext16 w) .data) u ∧
        resolve .pcDisp sz ap s = .ok (.mem (s.pc + sext16 w) .program) u) ∧
      immediate .byte s = .ok (trunc .byte (w.setWidth 32)) u ∧ immediate .word s = .ok (w.setWidth 32) u ∧
      (s.readable (s.pc + 2#32) .word →
        let long := longOf w ((readMem s.mem (s.pc + 2#32) .word).setWidth 16)
        let u2 := { s with pc := s.pc + 4#32 }
        (∀ ap, resolve .absLong sz ap s = .ok (.mem long .data) u2) ∧ immediate .long s = .ok long u2)) ∧
    (∀ ap v u, immediate sz s = .ok v u → resolve .imm sz ap s = .ok (.imm v) u) ∧
    (∀ (a v : Word) (sp : Space),
      readLoc (.dreg n) sz s = .ok (trunc sz (s.dreg n)) s ∧ readLoc (.areg n) sz s = .ok (trunc sz (s.areg n)) s ∧
      readLoc (.mem a sp) sz s = memRead sp sz a s ∧ readLoc (.imm v) sz s = .ok v s ∧
      writeLoc (.dreg n) sz v s = .ok () (s.setDreg n sz v) ∧ writeLoc (.areg n) .long v s = .ok () (s.setAreg n v) ∧
      writeLoc (.mem a .data) sz v s = memWrite sz a v s)

/-- The indexed modes. A brief word: base plus sign-extended byte plus the index register at its width, scaled only on MC68020_EA; a
full word faults on MC68000 and a reserved word on both (40_addressing_modes.md R149). A full word on MC68020_EA: base and index may
be suppressed, and a long pointer may be read before or after the index is added (R156). -/
def Obligations.IndexedAddresses : Prop :=
  ∀ (s : State) (base : Word), s.readable s.pc .word →
    let e := s.wordAtPc
    let u := { s with pc := s.pc + 2#32 }
    let xn := if e.getLsbD 15 then s.areg (regAt e 12) else s.dreg (regAt e 12)
    let idx := if e.getLsbD 11 then xn else sextLow xn
    let scaled := idx <<< (e.extractLsb' 9 2).toNat
    (e.getLsbD 8 = false →
      (s.params.cpuModel = .mc68000 → indexed base s = .ok (base + sext8 (e.setWidth 8) + idx) u) ∧
      (s.params.cpuModel = .mc68020Ea → indexed base s = .ok (base + sext8 (e.setWidth 8) + scaled) u)) ∧
    (e.getLsbD 8 = true → s.params.cpuModel = .mc68000 → indexed base s = .error (.fault .illegalInstruction 0#64) u) ∧
    (decodeIndexWord e = .reserved → indexed base s = .error (.fault .illegalInstruction 0#64) u) ∧
    (∀ x bs is bd ind, decodeIndexWord e = .full x bs is bd ind → s.params.cpuModel = .mc68020Ea →
      let b := if bs then 0#32 else base
      let i := if is then 0#32 else scaled
      ∀ d1 u1, fetchDisp bd u = .ok d1 u1 →
        (ind = .none → indexed base s = .ok (b + d1 + i) u1) ∧
        (∀ o d2 u2 p u3, ind = .pre o → fetchDisp o u1 = .ok d2 u2 → memRead .data .long (b + d1 + i) u2 = .ok p u3 →
          indexed base s = .ok (p + d2) u3) ∧
        (∀ o d2 u2 p u3, ind = .post o → fetchDisp o u1 = .ok d2 u2 → memRead .data .long (b + d1) u2 = .ok p u3 →
          indexed base s = .ok (p + i + d2) u3)) ∧
    (∀ (n : Fin 8) (sz : Size) (ap : Bool) (a : Word) (t : State),
      (indexed (s.areg n) s = .ok a t → resolve (.index n) sz ap s = .ok (.mem a .data) t) ∧
      (indexed s.pc s = .ok a t → resolve .pcIndex sz ap s = .ok (.mem a .program) t))

/-! ### Flags -/

/-- The addition flags of two operands and a carry in. They are those of the formulas over the sign bits, and so of the exact sum: C
and X say that the unsigned sum does not fit, V that the signed sum does not, N and Z are the result's; no bit above the width affects
them (41_condition_codes.md R182, R184, R186, R187). -/
def Obligations.AdditionFlags : Prop :=
  ∀ (sz : Size) (a b : Word) (x : Bool) (old : Flags),
    let s := trunc sz a
    let d := trunc sz b
    let r := trunc sz (d + s + bitWord x)
    let f := addFlags sz a b (b + a + bitWord x) old
    let sm := msb sz a
    let dm := msb sz b
    let rm := msb sz r
    f.c = ((sm && dm) || (!rm && dm) || (sm && !rm)) ∧ f.v = ((sm && dm && !rm) || (!sm && !dm && rm)) ∧
    f.c = decide (2 ^ sizeBits sz ≤ d.toNat + s.toNat + x.toNat) ∧ f.x = f.c ∧
    f.v = decide (signedAt sz r ≠ signedAt sz d + signedAt sz s + x.toNat) ∧
    f.n = decide (signedAt sz r < 0) ∧ f.z = decide ((d.toNat + s.toNat + x.toNat) % 2 ^ sizeBits sz = 0)

/-- The subtraction flags, of the formulas over the sign bits, and so of the exact difference: C and X the unsigned borrow, V that the
signed difference does not fit, N and Z the result's; no bit above the width affects them (41_condition_codes.md R183, R185 to R187). -/
def Obligations.SubtractionFlags : Prop :=
  ∀ (sz : Size) (a b : Word) (x : Bool) (old : Flags),
    let s := trunc sz a
    let d := trunc sz b
    let r := trunc sz (d - s - bitWord x)
    let f := subFlags sz a b (b - a - bitWord x) old
    let sm := msb sz a
    let dm := msb sz b
    let rm := msb sz r
    f.c = ((sm && !dm) || (rm && !dm) || (sm && rm)) ∧ f.v = ((!sm && dm && !rm) || (sm && !dm && rm)) ∧
    f.c = decide (d.toNat < s.toNat + x.toNat) ∧ f.x = f.c ∧
    f.v = decide (signedAt sz r ≠ signedAt sz d - signedAt sz s - x.toNat) ∧
    f.n = decide (signedAt sz r < 0) ∧ f.z = decide (r = 0#32)

/-- The comparison flags leave X; the extended operations' Z is kept only by a zero result; the logical flags clear V and C and leave
X (41_condition_codes.md R188, R189; 44_integer_arithmetic.md R250). -/
def Obligations.OtherFlagRules : Prop :=
  ∀ (sz : Size) (s d r : Word) (old : Flags),
    cmpFlags sz s d r old = { subFlags sz s d r old with x := old.x } ∧
    addxFlags sz s d r old = { addFlags sz s d r old with z := old.z && trunc sz r == 0#32 } ∧
    subxFlags sz s d r old = { subFlags sz s d r old with z := old.z && trunc sz r == 0#32 } ∧
    logicFlags sz r old = { x := old.x, n := msb sz r, z := trunc sz r == 0#32, v := false, c := false }

/-- The condition table of Bcc, DBcc and Scc (41_condition_codes.md R190). -/
def Obligations.ConditionTable : Prop :=
  ∀ f : Flags,
    condHolds f .t = true ∧ condHolds f .f = false ∧
    condHolds f .hi = (!f.c && !f.z) ∧ condHolds f .ls = (f.c || f.z) ∧
    condHolds f .cc = !f.c ∧ condHolds f .cs = f.c ∧ condHolds f .ne = !f.z ∧ condHolds f .eq = f.z ∧
    condHolds f .vc = !f.v ∧ condHolds f .vs = f.v ∧ condHolds f .pl = !f.n ∧ condHolds f .mi = f.n ∧
    condHolds f .ge = decide (f.n = f.v) ∧ condHolds f .lt = decide (f.n ≠ f.v) ∧
    condHolds f .gt = (!f.z && decide (f.n = f.v)) ∧ condHolds f .le = (f.z || decide (f.n ≠ f.v))

/-- The shifts as arithmetic: a left shift multiplies by 2^k modulo the width, LSR and ASR divide rounding down, C and X are the last
bit out, and ASL sets V exactly when the signed product does not fit: the sign bit changed at some step (42_shift_rotate.md R202, R203,
R205 to R209). -/
def Obligations.ShiftsAreArithmetic : Prop :=
  ∀ (sz : Size) (v : Word) (k : Nat) (b : Bool) (old : Flags), 0 < k → k < 64 →
    let n := sizeBits sz
    let w := trunc sz v
    let lost := decide (k ≤ n) && w.getLsbD (n - k)
    let left := shiftOp sz .logical .left k b v old
    let aleft := shiftOp sz .arith .left k b v old
    let right := shiftOp sz .logical .right k b v old
    let aright := shiftOp sz .arith .right k b v old
    left.1.toNat = w.toNat * 2 ^ k % 2 ^ n ∧ left.2 = { x := lost, n := msb sz left.1, z := left.1 == 0#32, v := false, c := lost } ∧
    aleft.1 = left.1 ∧
    aleft.2 = { left.2 with v := decide (signedAt sz aleft.1 ≠ signedAt sz v * 2 ^ k) } ∧
    right.1.toNat = w.toNat / 2 ^ k ∧
    right.2 = { x := w.getLsbD (k - 1), n := false, z := right.1 == 0#32, v := false, c := w.getLsbD (k - 1) } ∧
    signedAt sz aright.1 = signedAt sz v / 2 ^ k ∧ trunc sz aright.1 = aright.1 ∧
    aright.2 = { x := w.getLsbD (min k n - 1), n := msb sz v, z := aright.1 == 0#32, v := false, c := w.getLsbD (min k n - 1) }

/-- The rotates as permutations of bits: ROL and ROR move bit i by k modulo the width, C is the last bit rotated out, and X changes only
where ROTATE_UPDATES_X says so (42_shift_rotate.md R202, R203, R205, R210, R211). ROXL and ROXR move the bits of a ring of one place more
than the width, X above the operand, by k modulo its length; the bit that comes to stand in X is the last one rotated out and goes to C
too, and one place more than the width leaves the value and X (R212, R213). N and Z are the result's and V is clear. -/
def Obligations.RotatesMoveBits : Prop :=
  ∀ (sz : Size) (v : Word) (k : Nat) (b : Bool) (old : Flags), 0 < k → k < 64 →
    let n := sizeBits sz
    let w := trunc sz v
    let rol := shiftOp sz .rotate .left k b v old
    let ror := shiftOp sz .rotate .right k b v old
    (∀ i, rol.1.getLsbD i = (decide (i < n) && w.getLsbD ((i + n - k % n) % n))) ∧
    (∀ i, ror.1.getLsbD i = (decide (i < n) && w.getLsbD ((i + k) % n))) ∧
    rol.2 = { x := if b then rol.1.getLsbD 0 else old.x, n := msb sz rol.1, z := w == 0#32, v := false, c := rol.1.getLsbD 0 } ∧
    ror.2 = { x := if b then msb sz ror.1 else old.x, n := msb sz ror.1, z := w == 0#32, v := false, c := msb sz ror.1 } ∧
    (let ring (i : Nat) : Bool := if i < n then w.getLsbD i else old.x
     let roxl := shiftOp sz .rotateX .left k b v old
     let roxr := shiftOp sz .rotateX .right k b v old
     let outLeft := ring ((n + (n + 1) - k % (n + 1)) % (n + 1))
     let outRight := ring ((n + k) % (n + 1))
     (∀ i, roxl.1.getLsbD i = (decide (i < n) && ring ((i + (n + 1) - k % (n + 1)) % (n + 1)))) ∧
     (∀ i, roxr.1.getLsbD i = (decide (i < n) && ring ((i + k) % (n + 1)))) ∧
     roxl.2 = { x := outLeft, n := msb sz roxl.1, z := roxl.1 == 0#32, v := false, c := outLeft } ∧
     roxr.2 = { x := outRight, n := msb sz roxr.1, z := roxr.1 == 0#32, v := false, c := outRight }) ∧
    (shiftOp sz .rotateX .left (n + 1) b v old).1 = w ∧ (shiftOp sz .rotateX .left (n + 1) b v old).2.x = old.x ∧
    (shiftOp sz .rotateX .right (n + 1) b v old).1 = w ∧ (shiftOp sz .rotateX .right (n + 1) b v old).2.x = old.x

/-- BcdAdd and BcdSub on valid digits are decimal arithmetic with a decimal carry and borrow, and their results are valid digits
(46_bit_bcd.md R315). -/
def Obligations.BcdIsDecimal : Prop :=
  ∀ (s d : Byte) (x : Bool), validBcd s = true → validBcd d = true →
    bcdValue (bcdAdd s d x).1 + 100 * (bcdAdd s d x).2.toNat = bcdValue d + bcdValue s + x.toNat ∧
    validBcd (bcdAdd s d x).1 = true ∧
    bcdValue (bcdSub s d x).1 + bcdValue s + x.toNat = bcdValue d + 100 * (bcdSub s d x).2.toNat ∧
    validBcd (bcdSub s d x).1 = true

/-! ### Data movement -/

/-- MOVE and MOVEA: the source is read before the destination is resolved; MOVE's flags are LOGICAL from the value moved, MOVEA writes
all 32 bits, a word sign-extended, and no flag (43_data_movement.md R220, R221). A read of the source that faults, and MOVE's write that
faults, leave what resolving the operands had done, with SR, the data registers and memory as they were, and the fault is raised at the
instruction's opword (R220; 60_exceptions.md R441). -/
def Obligations.MoveResults : Prop :=
  ∀ (src dst : EA) (an : Fin 8) (s u t : State) (v : Word),
    (Reads src .byte s v u → Writes dst .byte u v t →
      exec (.moveB src dst) s = .next (traceAfter (srT1 s.sr) (t.setFlags (logicFlags .byte v t.flags)))) ∧
    (Reads src .word s v u → Writes dst .word u v t →
      exec (.moveW src dst) s = .next (traceAfter (srT1 s.sr) (t.setFlags (logicFlags .word v t.flags)))) ∧
    (Reads src .long s v u → Writes dst .long u v t →
      exec (.moveL src dst) s = .next (traceAfter (srT1 s.sr) (t.setFlags (logicFlags .long v t.flags)))) ∧
    (Reads src .word s v u → exec (.moveaW an src) s = .next (traceAfter (srT1 s.sr) (u.setAreg an (sextLow v)))) ∧
    (Reads src .long s v u → exec (.moveaL an src) s = .next (traceAfter (srT1 s.sr) (u.setAreg an v))) ∧
    (let faulted (i : Instr) (k : IrqKind) (aux : Aux) (left : State) : Prop :=
       left.sr = s.sr ∧ left.d = s.d ∧ left.mem = s.mem ∧ exec i s = .next (raiseIrq k aux { left with pc := left.pcStart })
     (∀ i sz, (sz, i) ∈ [(Size.byte, Instr.moveB src dst), (.word, .moveW src dst), (.long, .moveL src dst), (.word, .moveaW an src),
         (.long, .moveaL an src)] →
       ∀ loc r k aux w, resolve src sz true s = .ok loc r → readLoc loc sz r = .error (.fault k aux) w → w = r ∧ faulted i k aux r) ∧
     (∀ i sz, (sz, i) ∈ [(Size.byte, Instr.moveB src dst), (.word, .moveW src dst), (.long, .moveL src dst)] →
       ∀ loc r k aux w, Reads src sz s v u → resolve dst sz true u = .ok loc r → writeLoc loc sz v r = .error (.fault k aux) w →
         w = r ∧ faulted i k aux r))

/-- MOVEQ, SWAP, EXT and EXG, which touch registers only (43_data_movement.md R222, R229, R230; 44_integer_arithmetic.md R270). -/
def Obligations.RegisterMoves : Prop :=
  ∀ (s : State) (rx ry : Fin 8) (d8 : Byte),
    let x := s.dreg rx
    let moved := d8.signExtend 32
    let swapped := x.extractLsb' 0 16 ++ x.extractLsb' 16 16
    let extended := ((x.setWidth 8).signExtend 16).setWidth 32
    let extendedLong := (x.setWidth 16).signExtend 32
    exec (.moveq rx d8) s = .next (traceAfter (srT1 s.sr) ((s.setDreg rx .long moved).setFlags (logicFlags .long moved s.flags))) ∧
    exec (.swap rx) s = .next (traceAfter (srT1 s.sr) ((s.setDreg rx .long swapped).setFlags (logicFlags .long swapped s.flags))) ∧
    exec (.extW rx) s = .next (traceAfter (srT1 s.sr) ((s.setDreg rx .word extended).setFlags (logicFlags .word extended s.flags))) ∧
    exec (.extL rx) s =
      .next (traceAfter (srT1 s.sr) ((s.setDreg rx .long extendedLong).setFlags (logicFlags .long extendedLong s.flags))) ∧
    exec (.exgDD rx ry) s = .next (traceAfter (srT1 s.sr) ((s.setDreg rx .long (s.dreg ry)).setDreg ry .long x)) ∧
    exec (.exgAA rx ry) s = .next (traceAfter (srT1 s.sr) ((s.setAreg rx (s.areg ry)).setAreg ry (s.areg rx))) ∧
    exec (.exgDA rx ry) s = .next (traceAfter (srT1 s.sr) ((s.setDreg rx .long (s.areg ry)).setAreg ry x))

/-- MOVEM to memory: the j-th selected register stands at the j-th place, ascending from the address for every mode but `-(An)` and
descending with the register order reversed for it, where the base register ends at the lowest address; all other memory is unchanged
(43_data_movement.md R223, R224). -/
def Obligations.MovemStores : Prop :=
  ∀ (s u : State) (m : Half) (sz : Size), fetchWord s = .ok m u → Memory.wf u.mem = true →
    let count := (maskBits m).length
    let place (a : Word) (j : Nat) : Word := a + BitVec.ofNat 32 (j * sizeBytes sz)
    (∀ (ea : EA) (a : Word) (sp : Space) (v : State), (∀ n, ea ≠ .preDec n) → resolve ea sz false u = .ok (.mem a sp) v →
      (∀ j, j < count → v.writable (place a j) sz) →
      ∃ mem', exec (.movemToMem sz ea) s = .next (traceAfter (srT1 s.sr) { v with mem := mem' }) ∧
        (∀ j (h : j < count), readMem mem' (place a j) sz = trunc sz (v.regOf (maskBits m)[j])) ∧
        ∀ b, (∀ j, j < count → b ∉ coveredBy (place a j) sz) → peek mem' b = peek v.mem b) ∧
    (∀ n : Fin 8,
      let low := u.areg n - BitVec.ofNat 32 (count * sizeBytes sz)
      (∀ j, j < count → u.writable (place low j) sz) →
      ∃ mem', exec (.movemToMem sz (.preDec n)) s = .next (traceAfter (srT1 s.sr) ({ u with mem := mem' }.setAreg n low)) ∧
        (∀ j (h : j < count), readMem mem' (place low (count - 1 - j)) sz = trunc sz (u.regOf (maskBits m)[j].rev)) ∧
        ∀ b, (∀ j, j < count → b ∉ coveredBy (place low j) sz) → peek mem' b = peek u.mem b)

/-- MOVEM to registers: the j-th selected register takes the j-th place, a word sign-extended into all 32 bits; the registers not
selected are unchanged, and the base register of `(An)+` ends at the address after the last place, even when it is selected
(43_data_movement.md R223, R225). -/
def Obligations.MovemLoads : Prop :=
  ∀ (s u v : State) (m : Half) (sz : Size) (ea : EA) (a : Word) (sp : Space), fetchWord s = .ok m u →
    resolve ea sz false u = .ok (.mem a sp) v →
    let count := (maskBits m).length
    let place (j : Nat) : Word := a + BitVec.ofNat 32 (j * sizeBytes sz)
    let loaded (j : Nat) : Word := addrOperand sz (readMem v.mem (place j) sz)
    (∀ j, j < count → v.readable (place j) sz) →
    ((∀ n, ea ≠ .postInc n) →
      ∃ t, exec (.movemToReg sz ea) s = .next (traceAfter (srT1 s.sr) t) ∧
        (∀ j (h : j < count), t.regOf (maskBits m)[j] = loaded j) ∧ (∀ k, k ∉ maskBits m → t.regOf k = v.regOf k) ∧
        t.mem = v.mem ∧ t.sr = v.sr ∧ t.pc = v.pc) ∧
    (∀ n, ea = .postInc n →
      ∃ t, exec (.movemToReg sz ea) s = .next (traceAfter (srT1 s.sr) t) ∧ t.areg n = place count ∧
        (∀ j (h : j < count), (maskBits m)[j].val ≠ 8 + n.val → t.regOf (maskBits m)[j] = loaded j) ∧
        (∀ k : Fin 16, k ∉ maskBits m → k.val ≠ 8 + n.val → t.regOf k = v.regOf k) ∧
        t.mem = v.mem ∧ t.sr = v.sr ∧ t.pc = v.pc)

/-- MOVEP: the bytes of a word or a long at every second address, the highest byte first (43_data_movement.md R226). -/
def Obligations.MovepTransfers : Prop :=
  ∀ (s u : State) (w : Half) (dn an : Fin 8), fetchWord s = .ok w u →
    let a := u.areg an + sext16 w
    let x := u.dreg dn
    let byte (k : Nat) : Word := readMem u.mem (a + BitVec.ofNat 32 k) .byte
    (u.readable a .byte → u.readable (a + 2#32) .byte →
      exec (.movep .toReg .word dn an) s = .next (traceAfter (srT1 s.sr) (u.setDreg dn .word ((byte 0 <<< 8) ||| byte 2)))) ∧
    (u.readable a .byte → u.readable (a + 2#32) .byte → u.readable (a + 4#32) .byte → u.readable (a + 6#32) .byte →
      exec (.movep .toReg .long dn an) s =
        .next (traceAfter (srT1 s.sr) (u.setDreg dn .long ((byte 0 <<< 24) ||| (byte 2 <<< 16) ||| (byte 4 <<< 8) ||| byte 6)))) ∧
    (u.writable a .byte → u.writable (a + 2#32) .byte →
      exec (.movep .toMem .word dn an) s =
        .next (traceAfter (srT1 s.sr)
          { u with mem := poke (poke u.mem a (x.extractLsb' 8 8)) (a + 2#32) (x.extractLsb' 0 8) })) ∧
    (u.writable a .byte → u.writable (a + 2#32) .byte → u.writable (a + 4#32) .byte → u.writable (a + 6#32) .byte →
      exec (.movep .toMem .long dn an) s =
        .next (traceAfter (srT1 s.sr)
          { u with mem := poke (poke (poke (poke u.mem a (x.extractLsb' 24 8)) (a + 2#32) (x.extractLsb' 16 8)) (a + 4#32)
              (x.extractLsb' 8 8)) (a + 6#32) (x.extractLsb' 0 8) }))

/-- LEA, PEA, LINK and UNLK, A7 as a frame register among them (43_data_movement.md R227, R228, R231, R232; 40_addressing_modes.md
R161). A LINK whose push faults leaves every address register, A7 and An among them, and memory as they were, and the fault is raised at
its opword (R231; 60_exceptions.md R441). -/
def Obligations.AddressesAndFrames : Prop :=
  ∀ (s u : State) (an : Fin 8),
    (∀ ea a sp, resolve ea .long true s = .ok (.mem a sp) u →
      exec (.lea an ea) s = .next (traceAfter (srT1 s.sr) (u.setAreg an a)) ∧
      (u.writable (u.areg 7 - 4#32) .long →
        exec (.pea ea) s =
          .next (traceAfter (srT1 s.sr)
            ({ u with mem := writeMem u.mem (u.areg 7 - 4#32) .long a }.setAreg 7 (u.areg 7 - 4#32))))) ∧
    (∀ w, fetchWord s = .ok w u →
      let sp := u.areg 7 - 4#32
      u.writable sp .long →
      (an ≠ 7 →
        exec (.link an) s =
          .next (traceAfter (srT1 s.sr)
            (({ u with mem := writeMem u.mem sp .long (u.areg an) }.setAreg an sp).setAreg 7 (sp + sext16 w)))) ∧
      (an = 7 →
        exec (.link an) s =
          .next (traceAfter (srT1 s.sr) ({ u with mem := writeMem u.mem sp .long sp }.setAreg 7 (sp + sext16 w))))) ∧
    (∀ w k aux t, fetchWord s = .ok w u →
      memWrite .long (u.areg 7 - 4#32) (if an = 7 then u.areg 7 - 4#32 else u.areg an) u = .error (.fault k aux) t →
      t = u ∧ (∀ n, u.areg n = s.areg n) ∧ u.mem = s.mem ∧
        exec (.link an) s = .next (raiseIrq k aux { u with pc := u.pcStart })) ∧
    (s.readable (s.areg an) .long →
      let v := readMem s.mem (s.areg an) .long
      (an ≠ 7 → exec (.unlk an) s = .next (traceAfter (srT1 s.sr) ((s.setAreg 7 (s.areg an + 4#32)).setAreg an v))) ∧
      (an = 7 → exec (.unlk an) s = .next (traceAfter (srT1 s.sr) (s.setAreg 7 v))))

/-! ### Arithmetic and logic -/

/-- ADD, SUB, AND and OR of an operand into a data register (44_integer_arithmetic.md R251, R257; 45_logical.md R290, R293). -/
def Obligations.RegisterDestinations : Prop :=
  ∀ (dn : Fin 8) (sz : Size) (ea : EA) (s u : State) (v : Word), Reads ea sz s v u →
    let d := trunc sz (u.dreg dn)
    let sum := trunc sz (d + v)
    let diff := trunc sz (d - v)
    exec (.addToDn dn sz ea) s = .next (traceAfter (srT1 s.sr) ((u.setDreg dn sz sum).setFlags (addFlags sz v d sum u.flags))) ∧
    exec (.subToDn dn sz ea) s = .next (traceAfter (srT1 s.sr) ((u.setDreg dn sz diff).setFlags (subFlags sz v d diff u.flags))) ∧
    exec (.andToDn dn sz ea) s = .next (traceAfter (srT1 s.sr) ((u.setDreg dn sz (d &&& v)).setFlags (logicFlags sz (d &&& v) u.flags))) ∧
    exec (.orToDn dn sz ea) s = .next (traceAfter (srT1 s.sr) ((u.setDreg dn sz (d ||| v)).setFlags (logicFlags sz (d ||| v) u.flags)))

/-- ADD, SUB, AND, OR and EOR of a data register into an operand, and NEG, NEGX and NOT: the operand is resolved once, and the flags
are written after it (44_integer_arithmetic.md R252, R258, R267, R268; 45_logical.md R291, R294, R296, R298). -/
def Obligations.OperandDestinations : Prop :=
  ∀ (dn : Fin 8) (sz : Size) (ea : EA) (s u t : State) (d : Word),
    let v := trunc sz (u.dreg dn)
    let sum := trunc sz (d + v)
    let diff := trunc sz (d - v)
    let neg := trunc sz (0#32 - d)
    let negx := trunc sz (0#32 - d - (if u.flags.x then 1#32 else 0#32))
    let inverse := trunc sz (~~~d)
    (Updates ea sz s d u sum t →
      exec (.addToEa dn sz ea) s = .next (traceAfter (srT1 s.sr) (t.setFlags (addFlags sz v d sum u.flags)))) ∧
    (Updates ea sz s d u diff t →
      exec (.subToEa dn sz ea) s = .next (traceAfter (srT1 s.sr) (t.setFlags (subFlags sz v d diff u.flags)))) ∧
    (Updates ea sz s d u (d &&& v) t →
      exec (.andToEa dn sz ea) s = .next (traceAfter (srT1 s.sr) (t.setFlags (logicFlags sz (d &&& v) u.flags)))) ∧
    (Updates ea sz s d u (d ||| v) t →
      exec (.orToEa dn sz ea) s = .next (traceAfter (srT1 s.sr) (t.setFlags (logicFlags sz (d ||| v) u.flags)))) ∧
    (Updates ea sz s d u (d ^^^ v) t →
      exec (.eor dn sz ea) s = .next (traceAfter (srT1 s.sr) (t.setFlags (logicFlags sz (d ^^^ v) u.flags)))) ∧
    (Updates ea sz s d u neg t →
      exec (.neg sz ea) s = .next (traceAfter (srT1 s.sr) (t.setFlags (subFlags sz d 0#32 neg u.flags)))) ∧
    (Updates ea sz s d u negx t →
      exec (.negx sz ea) s = .next (traceAfter (srT1 s.sr) (t.setFlags (subxFlags sz d 0#32 negx u.flags)))) ∧
    (Updates ea sz s d u inverse t →
      exec (.not sz ea) s = .next (traceAfter (srT1 s.sr) (t.setFlags (logicFlags sz inverse u.flags))))

/-- ADDI, SUBI, ANDI, ORI and EORI: the immediate is fetched before the operand is resolved (44_integer_arithmetic.md R254, R260;
45_logical.md R292, R295, R297). -/
def Obligations.ImmediateOperations : Prop :=
  ∀ (sz : Size) (ea : EA) (s s0 u t : State) (i d : Word), immediate sz s = .ok i s0 →
    let sum := trunc sz (d + i)
    let diff := trunc sz (d - i)
    (Updates ea sz s0 d u sum t →
      exec (.addi sz ea) s = .next (traceAfter (srT1 s.sr) (t.setFlags (addFlags sz i d sum u.flags)))) ∧
    (Updates ea sz s0 d u diff t →
      exec (.subi sz ea) s = .next (traceAfter (srT1 s.sr) (t.setFlags (subFlags sz i d diff u.flags)))) ∧
    (Updates ea sz s0 d u (d &&& i) t →
      exec (.andi sz ea) s = .next (traceAfter (srT1 s.sr) (t.setFlags (logicFlags sz (d &&& i) u.flags)))) ∧
    (Updates ea sz s0 d u (d ||| i) t →
      exec (.ori sz ea) s = .next (traceAfter (srT1 s.sr) (t.setFlags (logicFlags sz (d ||| i) u.flags)))) ∧
    (Updates ea sz s0 d u (d ^^^ i) t →
      exec (.eori sz ea) s = .next (traceAfter (srT1 s.sr) (t.setFlags (logicFlags sz (d ^^^ i) u.flags))))

/-- ADDQ and SUBQ, where a field of 0 stands for 8 and an address register is changed whole without a flag, and ADDA and SUBA, whose
word source is sign-extended (44_integer_arithmetic.md R253, R255, R259, R261). -/
def Obligations.QuickAndAddressArithmetic : Prop :=
  ∀ (q n an : Fin 8) (sz : Size) (ea : EA) (s u t : State) (d v : Word),
    let quick : Word := if q.val = 0 then 8#32 else BitVec.ofNat 32 q.val
    let sum := trunc sz (d + quick)
    let diff := trunc sz (d - quick)
    exec (.addq q sz (.areg n)) s = .next (traceAfter (srT1 s.sr) (s.setAreg n (s.areg n + quick))) ∧
    exec (.subq q sz (.areg n)) s = .next (traceAfter (srT1 s.sr) (s.setAreg n (s.areg n - quick))) ∧
    (ea.isAreg = false → Updates ea sz s d u sum t →
      exec (.addq q sz ea) s = .next (traceAfter (srT1 s.sr) (t.setFlags (addFlags sz quick d sum u.flags)))) ∧
    (ea.isAreg = false → Updates ea sz s d u diff t →
      exec (.subq q sz ea) s = .next (traceAfter (srT1 s.sr) (t.setFlags (subFlags sz quick d diff u.flags)))) ∧
    (Reads ea .word s v u →
      exec (.adda an .word ea) s = .next (traceAfter (srT1 s.sr) (u.setAreg an (u.areg an + sextLow v))) ∧
      exec (.suba an .word ea) s = .next (traceAfter (srT1 s.sr) (u.setAreg an (u.areg an - sextLow v)))) ∧
    (Reads ea .long s v u →
      exec (.adda an .long ea) s = .next (traceAfter (srT1 s.sr) (u.setAreg an (u.areg an + v))) ∧
      exec (.suba an .long ea) s = .next (traceAfter (srT1 s.sr) (u.setAreg an (u.areg an - v))))

/-- CMP, CMPA, CMPI, CMPM and TST write nothing but flags: CMPA compares all 32 bits with a word source sign-extended, and CMPM reads
its source first (44_integer_arithmetic.md R263 to R266, R275). -/
def Obligations.Comparisons : Prop :=
  ∀ (n ay : Fin 8) (sz : Size) (ea : EA) (s s0 u : State) (i v : Word),
    (Reads ea sz s v u →
      (let d := trunc sz (u.dreg n)
       exec (.cmp n sz ea) s = .next (traceAfter (srT1 s.sr) (u.setFlags (cmpFlags sz v d (trunc sz (d - v)) u.flags)))) ∧
      exec (.tst sz ea) s = .next (traceAfter (srT1 s.sr) (u.setFlags (logicFlags sz v u.flags)))) ∧
    (Reads ea .word s v u →
      exec (.cmpa n .word ea) s =
        .next (traceAfter (srT1 s.sr) (u.setFlags (cmpFlags .long (sextLow v) (u.areg n) (u.areg n - sextLow v) u.flags)))) ∧
    (Reads ea .long s v u →
      exec (.cmpa n .long ea) s = .next (traceAfter (srT1 s.sr) (u.setFlags (cmpFlags .long v (u.areg n) (u.areg n - v) u.flags)))) ∧
    (immediate sz s = .ok i s0 → Reads ea sz s0 v u →
      exec (.cmpi sz ea) s = .next (traceAfter (srT1 s.sr) (u.setFlags (cmpFlags sz i v (trunc sz (v - i)) u.flags)))) ∧
    (Reads (.postInc ay) sz s i s0 → Reads (.postInc n) sz s0 v u →
      exec (.cmpm sz n ay) s = .next (traceAfter (srT1 s.sr) (u.setFlags (cmpFlags sz i v (trunc sz (v - i)) u.flags))))

/-- ADDX and SUBX: the source's location is resolved and read before the destination's, X is the third input, and Z is sticky
(44_integer_arithmetic.md R256, R262). -/
def Obligations.ExtendedArithmetic : Prop :=
  ∀ (sz : Size) (rx ry : Fin 8) (s : State),
    (let v := trunc sz (s.dreg ry)
     let d := trunc sz (s.dreg rx)
     let x : Word := if s.flags.x then 1#32 else 0#32
     exec (.addx .dataRegs sz rx ry) s =
       .next (traceAfter (srT1 s.sr)
         ((s.setDreg rx sz (trunc sz (d + v + x))).setFlags (addxFlags sz v d (trunc sz (d + v + x)) s.flags))) ∧
     exec (.subx .dataRegs sz rx ry) s =
       .next (traceAfter (srT1 s.sr)
         ((s.setDreg rx sz (trunc sz (d - v - x))).setFlags (subxFlags sz v d (trunc sz (d - v - x)) s.flags)))) ∧
    (∀ (s0 u t : State) (v d : Word), Reads (.preDec ry) sz s v s0 →
      let x : Word := if u.flags.x then 1#32 else 0#32
      (Updates (.preDec rx) sz s0 d u (trunc sz (d + v + x)) t →
        exec (.addx .preDec sz rx ry) s =
          .next (traceAfter (srT1 s.sr) (t.setFlags (addxFlags sz v d (trunc sz (d + v + x)) u.flags)))) ∧
      (Updates (.preDec rx) sz s0 d u (trunc sz (d - v - x)) t →
        exec (.subx .preDec sz rx ry) s =
          .next (traceAfter (srT1 s.sr) (t.setFlags (subxFlags sz v d (trunc sz (d - v - x)) u.flags))))) ∧
    extendedOperands .dataRegs sz rx ry s = .ok (trunc sz (s.dreg ry), trunc sz (s.dreg rx), .dreg rx) s ∧
    (∀ v s0 loc s1 d u, Reads (.preDec ry) sz s v s0 → resolve (.preDec rx) sz true s0 = .ok loc s1 → readLoc loc sz s1 = .ok d u →
      extendedOperands .preDec sz rx ry s = .ok (v, d, loc) u)

/-- CLR, Scc and MOVE from SR write their operand without reading it (44_integer_arithmetic.md R269; 47_program_control.md R335;
48_system_control.md R352). -/
def Obligations.WriteOnlyOperands : Prop :=
  ∀ (sz : Size) (ea : EA) (c : Cond) (s t : State),
    (Writes ea sz s 0#32 t →
      exec (.clr sz ea) s =
        .next (traceAfter (srT1 s.sr) (t.setFlags { x := t.flags.x, n := false, z := true, v := false, c := false }))) ∧
    (Writes ea .byte s (if condHolds s.flags c then 0xFF#32 else 0#32) t →
      exec (.scc c ea) s = .next (traceAfter (srT1 s.sr) t)) ∧
    (Writes ea .word s (s.sr.setWidth 32) t → exec (.moveFromSr ea) s = .next (traceAfter (srT1 s.sr) t))

/-- MULU and MULS: the exact product of two unsigned or two signed words, in 32 bits, with LOGICAL flags from all of it
(44_integer_arithmetic.md R271, R272). -/
def Obligations.Products : Prop :=
  ∀ (dn : Fin 8) (ea : EA) (s u : State) (v : Word), Reads ea .word s v u →
    let unsigned := BitVec.ofNat 32 ((u.dreg dn).toNat % 65536 * (v.toNat % 65536))
    let signed := BitVec.ofInt 32 (signedAt .word (u.dreg dn) * signedAt .word v)
    exec (.mulu dn ea) s = .next (traceAfter (srT1 s.sr) ((u.setDreg dn .long unsigned).setFlags (logicFlags .long unsigned u.flags))) ∧
    exec (.muls dn ea) s = .next (traceAfter (srT1 s.sr) ((u.setDreg dn .long signed).setFlags (logicFlags .long signed u.flags)))

/-- DIVU and DIVS: quotient in the low word and remainder in the high word, rounded toward zero, N and Z from the quotient; a quotient
that does not fit sets V, clears C and leaves the register, with N and Z open; a zero divisor clears C, leaves the register and N, Z, V
open, and raises INTEGER_DIVIDE_BY_ZERO as a trap (44_integer_arithmetic.md R273, R274; 60_exceptions.md R424). -/
def Obligations.Quotients : Prop :=
  ∀ (dn : Fin 8) (ea : EA) (s u : State) (v : Word), Reads ea .word s v u →
    let a := u.dreg dn
    let uq := a.toNat / v.toNat
    let sq := a.toInt.tdiv (signedAt .word v)
    let ur := BitVec.ofNat 16 (a.toNat % v.toNat) ++ BitVec.ofNat 16 uq
    let sr := BitVec.ofInt 16 (a.toInt.tmod (signedAt .word v)) ++ BitVec.ofInt 16 sq
    let overflowed (i : Instr) : Prop :=
      ∃ n z k, exec i s =
        .next (traceAfter (srT1 s.sr) ({ u with draws := k }.setFlags { x := u.flags.x, n := n, z := z, v := true, c := false }))
    let trapped (i : Instr) : Prop :=
      ∃ n z o k, exec i s =
        .next (raiseIrq .integerDivideByZero 0#64
          ({ u with draws := k }.setFlags { x := u.flags.x, n := n, z := z, v := o, c := false }))
    (v = 0#32 → trapped (.divu dn ea) ∧ trapped (.divs dn ea)) ∧
    (v ≠ 0#32 → v.toNat < 65536 →
      (uq ≤ 65535 →
        exec (.divu dn ea) s = .next (traceAfter (srT1 s.sr) ((u.setDreg dn .long ur).setFlags (logicFlags .word ur u.flags)))) ∧
      (65535 < uq → overflowed (.divu dn ea)) ∧
      (-32768 ≤ sq → sq ≤ 32767 →
        exec (.divs dn ea) s = .next (traceAfter (srT1 s.sr) ((u.setDreg dn .long sr).setFlags (logicFlags .word sr u.flags)))) ∧
      ((sq < -32768 ∨ 32767 < sq) → overflowed (.divs dn ea)))

/-- The shifts and rotates: the register form by an immediate count, where a field of 0 stands for 8, or by a register modulo 64, and
the memory form, a word by one place (42_shift_rotate.md R201, R206 to R213). A count of 0 leaves the register, sets N and Z from it,
clears V, leaves X, and clears C, which ROXL and ROXR set to X (R204). -/
def Obligations.ShiftResults : Prop :=
  ∀ (count : ShiftCount) (sz : Size) (dn : Fin 8) (ea : EA) (s : State),
    let cnt := match count with | .imm f => (if f.val = 0 then 8 else f.val) | .reg r => (s.dreg r).toNat % 64
    let result (mode : ShiftMode) (dir : ShiftDir) := shiftOp sz mode dir cnt s.params.rotateUpdatesX (s.dreg dn) s.flags
    let shifted (i : Instr) (mode : ShiftMode) (dir : ShiftDir) : Prop :=
      exec i s = .next (traceAfter (srT1 s.sr) ((s.setDreg dn sz (result mode dir).1).setFlags (result mode dir).2))
    let inMemory (i : Instr) (mode : ShiftMode) (dir : ShiftDir) : Prop :=
      ∀ (d : Word) (u t : State),
        let r := shiftOp .word mode dir 1 u.params.rotateUpdatesX d u.flags
        Updates ea .word s d u r.1 t → exec i s = .next (traceAfter (srT1 s.sr) (t.setFlags r.2))
    shifted (.asrReg count sz dn) .arith .right ∧ shifted (.aslReg count sz dn) .arith .left ∧
    shifted (.lsrReg count sz dn) .logical .right ∧ shifted (.lslReg count sz dn) .logical .left ∧
    shifted (.roxrReg count sz dn) .rotateX .right ∧ shifted (.roxlReg count sz dn) .rotateX .left ∧
    shifted (.rorReg count sz dn) .rotate .right ∧ shifted (.rolReg count sz dn) .rotate .left ∧
    inMemory (.asrMem ea) .arith .right ∧ inMemory (.aslMem ea) .arith .left ∧
    inMemory (.lsrMem ea) .logical .right ∧ inMemory (.lslMem ea) .logical .left ∧
    inMemory (.roxrMem ea) .rotateX .right ∧ inMemory (.roxlMem ea) .rotateX .left ∧
    inMemory (.rorMem ea) .rotate .right ∧ inMemory (.rolMem ea) .rotate .left ∧
    (cnt = 0 → ∀ mode dir,
      result mode dir =
        (trunc sz (s.dreg dn),
         { x := s.flags.x, n := msb sz (s.dreg dn), z := trunc sz (s.dreg dn) == 0#32, v := false,
           c := mode == .rotateX && s.flags.x }))

/-- BTST, BCHG, BCLR and BSET, dynamic and static: the bit number modulo 32 on a data register and modulo 8 in memory, Z from the bit
before the change, no other flag; TAS: flags from the byte read, then bit 7 set in it (46_bit_bcd.md R310 to R314, R319). Each writes its
flags before its operand, so a write that faults leaves the flags already written and nothing else changed after them, and the fault is
raised at the opword (R319; 60_exceptions.md R441). -/
def Obligations.BitOperations : Prop :=
  ∀ (dn : Fin 8) (ea : EA) (s s0 : State) (w : Half),
    let sz : Size := match ea with | .dreg _ => .long | _ => .byte
    let tests (i : Instr) (start : State) (number : Word) : Prop :=
      ∀ v u, Reads ea sz start v u →
        exec i s = .next (traceAfter (srT1 s.sr) (u.setFlags { u.flags with z := !v.getLsbD (number.toNat % sizeBits sz) }))
    let settles (i : Instr) (loc : Loc) (size : Size) (r : Word) (flagged : State) : Prop :=
      (∀ t, writeLoc loc size r flagged = .ok () t → exec i s = .next (traceAfter (srT1 s.sr) t)) ∧
      (∀ k aux t, writeLoc loc size r flagged = .error (.fault k aux) t →
        t = flagged ∧ exec i s = .next (raiseIrq k aux { flagged with pc := flagged.pcStart }))
    let changes (i : Instr) (start : State) (number : Word) (f : Word → Word → Word) : Prop :=
      ∀ loc s1 v u, resolve ea sz true start = .ok loc s1 → readLoc loc sz s1 = .ok v u →
        settles i loc sz (f v (1#32 <<< (number.toNat % sizeBits sz)))
          (u.setFlags { u.flags with z := !v.getLsbD (number.toNat % sizeBits sz) })
    tests (.btstReg dn ea) s (s.dreg dn) ∧
    changes (.bchgReg dn ea) s (s.dreg dn) (fun v m => v ^^^ m) ∧
    changes (.bclrReg dn ea) s (s.dreg dn) (fun v m => v &&& ~~~m) ∧
    changes (.bsetReg dn ea) s (s.dreg dn) (fun v m => v ||| m) ∧
    (fetchWord s = .ok w s0 →
      let number := (w.setWidth 8).setWidth 32
      tests (.btstImm ea) s0 number ∧
      changes (.bchgImm ea) s0 number (fun v m => v ^^^ m) ∧
      changes (.bclrImm ea) s0 number (fun v m => v &&& ~~~m) ∧
      changes (.bsetImm ea) s0 number (fun v m => v ||| m)) ∧
    (∀ loc s1 v u, resolve ea .byte true s = .ok loc s1 → readLoc loc .byte s1 = .ok v u →
      settles (.tas ea) loc .byte (v ||| 0x80#32) (u.setFlags (logicFlags .byte v u.flags)))

/-- ABCD, SBCD and NBCD: on valid digits the result byte and the carry of the decimal sum or difference with X; C and X the carry, Z
sticky, N and V open. On an invalid digit the result byte and the carry are open too and the instruction still completes
(46_bit_bcd.md R315 to R318). -/
def Obligations.DecimalInstructions : Prop :=
  ∀ (mode : XMode) (rx ry : Fin 8) (ea : EA) (s : State),
    let finishes (i : Instr) (loc : Loc) (u : State) (valid : Bool) (result : Byte × Bool) : Prop :=
      ∀ w : Word → Nat → State, (∀ r k, writeLoc loc .byte r { u with draws := k } = .ok () (w r k)) →
        ∃ (r : Byte) (c n o : Bool) (k k' : Nat), (valid = true → (r, c) = result) ∧
          exec i s =
            .next (traceAfter (srT1 s.sr)
              ({ w (r.setWidth 32) k with draws := k' }.setFlags
                { x := c, n := n, z := (w (r.setWidth 32) k).flags.z && r == 0#8, v := o, c := c }))
    (∀ v d dst u, extendedOperands mode .byte rx ry s = .ok (v, d, dst) u →
      let a := v.setWidth 8
      let b := d.setWidth 8
      finishes (.abcd mode rx ry) dst u (validBcd a && validBcd b) (bcdAdd a b u.flags.x) ∧
      finishes (.sbcd mode rx ry) dst u (validBcd a && validBcd b) (bcdSub a b u.flags.x)) ∧
    (∀ loc s1 d u, resolve ea .byte true s = .ok loc s1 → readLoc loc .byte s1 = .ok d u →
      finishes (.nbcd ea) loc u (validBcd (d.setWidth 8)) (bcdSub (d.setWidth 8) 0#8 u.flags.x))

/-! ### Program control -/

/-- BRA, Bcc, DBcc and NOP: the base is the address after the opword; a displacement byte of 0 takes a displacement word; DBcc
decrements the low word of its counter unless the condition holds, and branches unless the counter passes below 0
(47_program_control.md R331, R332, R334, R340). -/
def Obligations.Branches : Prop :=
  ∀ (c : Cond) (d8 : Byte) (dn : Fin 8) (s : State),
    (∀ disp u, (d8 ≠ 0#8 ∧ disp = sext8 d8 ∧ u = s) ∨ (d8 = 0#8 ∧ ∃ w, fetchWord s = .ok w u ∧ disp = sext16 w) →
      exec (.bra d8) s = .next (traceAfter (srT1 s.sr) { u with pc := s.pc + disp }) ∧
      (condHolds u.flags c = true → exec (.bcc c d8) s = .next (traceAfter (srT1 s.sr) { u with pc := s.pc + disp })) ∧
      (condHolds u.flags c = false → exec (.bcc c d8) s = .next (traceAfter (srT1 s.sr) u))) ∧
    (∀ w u, fetchWord s = .ok w u →
      let count := (u.dreg dn).setWidth 16
      let t := u.setDreg dn .word ((count - 1#16).setWidth 32)
      (condHolds u.flags c = true → exec (.dbcc c dn) s = .next (traceAfter (srT1 s.sr) u)) ∧
      (condHolds u.flags c = false → count = 0#16 → exec (.dbcc c dn) s = .next (traceAfter (srT1 s.sr) t)) ∧
      (condHolds u.flags c = false → count ≠ 0#16 →
        exec (.dbcc c dn) s = .next (traceAfter (srT1 s.sr) { t with pc := s.pc + sext16 w }))) ∧
    exec .nop s = .next (traceAfter (srT1 s.sr) s)

/-- BSR, JSR, JMP, RTS and RTR: a call pushes the address after its last word, a jump's target is computed first, a return pops
(47_program_control.md R333, R336 to R339). -/
def Obligations.CallsAndReturns : Prop :=
  ∀ (d8 : Byte) (ea : EA) (s : State),
    let pushed (u : State) : State := { u with mem := writeMem u.mem (u.areg 7 - 4#32) .long u.pc }.setAreg 7 (u.areg 7 - 4#32)
    (∀ disp u, (d8 ≠ 0#8 ∧ disp = sext8 d8 ∧ u = s) ∨ (d8 = 0#8 ∧ ∃ w, fetchWord s = .ok w u ∧ disp = sext16 w) →
      u.writable (u.areg 7 - 4#32) .long → exec (.bsr d8) s = .next (traceAfter (srT1 s.sr) { pushed u with pc := s.pc + disp })) ∧
    (∀ a sp u, resolve ea .long true s = .ok (.mem a sp) u →
      exec (.jmp ea) s = .next (traceAfter (srT1 s.sr) { u with pc := a }) ∧
      (u.writable (u.areg 7 - 4#32) .long → exec (.jsr ea) s = .next (traceAfter (srT1 s.sr) { pushed u with pc := a }))) ∧
    (s.readable (s.areg 7) .long →
      exec .rts s = .next (traceAfter (srT1 s.sr) { s.setAreg 7 (s.areg 7 + 4#32) with pc := readMem s.mem (s.areg 7) .long })) ∧
    (s.readable (s.areg 7) .word → s.readable (s.areg 7 + 2#32) .long →
      exec .rtr s =
        .next (traceAfter (srT1 s.sr)
          { (s.setAreg 7 (s.areg 7 + 6#32)).writeCcr ((readMem s.mem (s.areg 7) .word).setWidth 16) with
            pc := readMem s.mem (s.areg 7 + 2#32) .long }))

/-! ### System control -/

/-- MOVE to CCR, the immediates to CCR in both modes, and MOVE to SR and the immediates to SR in supervisor mode: SR takes the value
through SR_MASK (48_system_control.md R351, R353 to R355, R357, R359 to R361). -/
def Obligations.StatusInstructions : Prop :=
  ∀ (ea : EA) (s u : State) (v : Word) (i : Half),
    (Reads ea .word s v u →
      exec (.moveToCcr ea) s = .next (traceAfter (srT1 s.sr) (u.writeCcr (v.setWidth 16))) ∧
      (s.supervisor = true → exec (.moveToSr ea) s = .next (traceAfter (srT1 s.sr) (u.writeSr (v.setWidth 16))))) ∧
    (fetchWord s = .ok i u →
      exec .andiCcr s = .next (traceAfter (srT1 s.sr) (u.writeCcr (u.sr &&& i))) ∧
      exec .oriCcr s = .next (traceAfter (srT1 s.sr) (u.writeCcr (u.sr ||| i))) ∧
      exec .eoriCcr s = .next (traceAfter (srT1 s.sr) (u.writeCcr (u.sr ^^^ i))) ∧
      (s.supervisor = true →
        exec .andiSr s = .next (traceAfter (srT1 s.sr) (u.writeSr (u.sr &&& i))) ∧
        exec .oriSr s = .next (traceAfter (srT1 s.sr) (u.writeSr (u.sr ||| i))) ∧
        exec .eoriSr s = .next (traceAfter (srT1 s.sr) (u.writeSr (u.sr ^^^ i)))))

/-- MOVE USP, RESET and STOP in supervisor mode: RESET only pulses `resetDevices`; STOP loads SR and stops (48_system_control.md R356,
R358, R363). -/
def Obligations.SupervisorInstructions : Prop :=
  ∀ (s u : State) (n : Fin 8) (i : Half), s.supervisor = true →
    exec (.moveToUsp n) s = .next (traceAfter (srT1 s.sr) { s with usp := s.areg n }) ∧
    exec (.moveFromUsp n) s = .next (traceAfter (srT1 s.sr) (s.setAreg n s.usp)) ∧
    exec .reset s = .next (traceAfter (srT1 s.sr) { s with outputs := .resetDevices :: s.outputs }) ∧
    (fetchWord s = .ok i u →
      exec .stop s = .next (traceAfter (srT1 s.sr) { u with sr := i &&& u.params.srMask, run := .stopped }))

/-- RTE in supervisor mode: it pops pc and then SR, which is written through SR_MASK, and clears the active interrupt; with a group-0
interrupt active it halts before popping anything (48_system_control.md R362; 60_exceptions.md R411, R437). -/
def Obligations.ReturnFromException : Prop :=
  ∀ s : State, s.supervisor = true →
    ((∀ k aux, s.active = some (k, aux) → irqGroup k ≠ 0) → s.readable s.ssp .long → s.readable (s.ssp + 4#32) .word →
      exec .rte s =
        .next (traceAfter (srT1 s.sr)
          { s with ssp := s.ssp + 6#32, pc := readMem s.mem s.ssp .long, active := none
                   sr := (readMem s.mem (s.ssp + 4#32) .word).setWidth 16 &&& s.params.srMask })) ∧
    (∀ k aux, s.active = some (k, aux) → irqGroup k = 0 → exec .rte s = .next { s with run := .halted })

/-- TRAP raises its kind; TRAPV does if V is set and is a NOP otherwise; CHK.W traps with N set below 0, with N clear above its signed
bound, and otherwise goes on, with X kept and the other flags open (48_system_control.md R364 to R366). -/
def Obligations.TrapInstructions : Prop :=
  ∀ (v : Fin 16) (dn : Fin 8) (ea : EA) (s : State),
    exec (.trap v) s = .next (raiseIrq (.trap v) 0#64 s) ∧
    (s.flags.v = true → exec .trapv s = .next (raiseIrq .ftrapTrapTrapv 0#64 s)) ∧
    (s.flags.v = false → exec .trapv s = .next (traceAfter (srT1 s.sr) s)) ∧
    (∀ bound u, Reads ea .word s bound u →
      let d := signedAt .word (u.dreg dn)
      let flagged (n : Bool) (t : State) : Prop :=
        ∃ z o c k, t = { u with draws := k }.setFlags { x := u.flags.x, n := n, z := z, v := o, c := c }
      (d < 0 → ∃ t, flagged true t ∧ exec (.chk dn ea) s = .next (raiseIrq .chkChk2 0#64 t)) ∧
      (0 ≤ d → signedAt .word bound < d → ∃ t, flagged false t ∧ exec (.chk dn ea) s = .next (raiseIrq .chkChk2 0#64 t)) ∧
      (0 ≤ d → d ≤ signedAt .word bound → ∃ n t, flagged n t ∧ exec (.chk dn ea) s = .next (traceAfter (srT1 s.sr) t)))

/-! ### Exceptions -/

/-- The number, vector address, group and default priority of each kind, one line of the table at a time (60_exceptions.md R401, R403, R404). -/
def Obligations.KindTable : Prop :=
  let row (k : IrqKind) (irq : Nat) (vector : Word) (group prio : Nat) : Prop :=
    irqNumber k = irq ∧ vectorAddress k = vector ∧ irqGroup k = group ∧ priority Params.default k = prio
  row .reset 0 4#32 0 100 ∧ row .busError 1 8#32 0 99 ∧ row .addressError 2 12#32 0 98 ∧ row .illegalInstruction 3 16#32 1 60 ∧
  row .integerDivideByZero 4 20#32 2 40 ∧ row .chkChk2 5 24#32 2 40 ∧ row .ftrapTrapTrapv 6 28#32 2 40 ∧
  row .privilegeViolation 7 32#32 1 60 ∧ row .trace 8 36#32 1 80 ∧ row .line1010Emulator 9 40#32 1 60 ∧
  row .line1111Emulator 10 44#32 1 60 ∧ row .coprocessorProtocolViolation 12 52#32 1 60 ∧ row .formatError 13 56#32 1 60 ∧
  row .uninitializedInterrupt 14 60#32 1 70 ∧ row .spuriousInterrupt 23 96#32 1 70 ∧
  (∀ l : Fin 7, row (.autovector l) (24 + l.val) (BitVec.ofNat 32 (96 + 4 * (l.val + 1))) 1 (70 + (l.val + 1))) ∧
  (∀ n : Fin 16, row (.trap n) (31 + n.val) (BitVec.ofNat 32 (128 + 4 * n.val)) 2 40)

/-- The standard frame of Enter: with its three accesses answered, the old SR and PC stand below the old SSP, supervisor mode is on, the
trace bits are off, M, I and the condition codes are unchanged, pc is the handler's address, the kind is active, the CORE runs, and the
data and address registers, USP and all other memory are unchanged (60_exceptions.md R406, R407, R409, R410, R415). -/
def Obligations.EnterStandardFrame : Prop :=
  ∀ (k : IrqKind) (aux : Aux) (s : State), irqGroup k ≠ 0 → Memory.wf s.mem = true →
    s.writable (s.ssp - 2#32) .word → s.writable (s.ssp - 6#32) .long → s.readable (vectorAddress k) .long →
    let t := enter k aux s
    t.ssp = s.ssp - 6#32 ∧
    readMem t.mem (s.ssp - 2#32) .word = s.sr.setWidth 32 ∧ readMem t.mem (s.ssp - 6#32) .long = s.pc ∧
    (∀ b, b ∉ coveredBy (s.ssp - 2#32) .word → b ∉ coveredBy (s.ssp - 6#32) .long → peek t.mem b = peek s.mem b) ∧
    t.sr = (s.sr &&& 0x1FFF#16) ||| 0x2000#16 ∧ t.pc = readMem t.mem (vectorAddress k) .long ∧ t.active = some (k, aux) ∧
    t.run = .running ∧ t.d = s.d ∧ t.a = s.a ∧ t.usp = s.usp ∧ t.pending = s.pending

/-- The group-0 frame of Enter: the four words of the payload (format word, address high, address low, opword), the format word at
the highest address, above the standard frame (60_exceptions.md R408, R415). -/
def Obligations.EnterGroup0Frame : Prop :=
  ∀ (k : IrqKind) (fmt op : Half) (addr : Word) (s : State), irqGroup k = 0 → Memory.wf s.mem = true →
    (∀ j ∈ [2, 4, 6, 8, 10], s.writable (s.ssp - BitVec.ofNat 32 j) .word) → s.writable (s.ssp - 14#32) .long →
    s.readable (vectorAddress k) .long →
    let t := enter k (fmt ++ addr ++ op) s
    t.ssp = s.ssp - 14#32 ∧
    readMem t.mem (s.ssp - 2#32) .word = fmt.setWidth 32 ∧
    readMem t.mem (s.ssp - 4#32) .word = (addr.extractLsb' 16 16).setWidth 32 ∧
    readMem t.mem (s.ssp - 6#32) .word = (addr.extractLsb' 0 16).setWidth 32 ∧
    readMem t.mem (s.ssp - 8#32) .word = op.setWidth 32 ∧ readMem t.mem (s.ssp - 10#32) .word = s.sr.setWidth 32 ∧
    readMem t.mem (s.ssp - 14#32) .long = s.pc ∧
    (∀ b, (∀ j, j < 14 → b ≠ s.ssp - 14#32 + BitVec.ofNat 32 j) → peek t.mem b = peek s.mem b) ∧
    t.sr = (s.sr &&& 0x1FFF#16) ||| 0x2000#16 ∧ t.pc = readMem t.mem (vectorAddress k) .long ∧
    t.active = some (k, fmt ++ addr ++ op) ∧ t.run = .running ∧ t.d = s.d ∧ t.a = s.a ∧ t.usp = s.usp ∧ t.pending = s.pending

/-- The controller: Raise queues behind an active interrupt of at least its priority, halts where the stack is full, and else enters;
CheckPending enters the top of the stack when it beats the active one, and only then; and Enter halts the CORE when a push or the vector
read of it faults, raising no second interrupt (60_exceptions.md R405, R412 to R414, R418), and then leaves the active interrupt and the
pending stack as they were (deduced, log 17). -/
def Obligations.ControllerTransitions : Prop :=
  ∀ (k : IrqKind) (aux : Aux) (s : State),
    (∀ a x, s.active = some (a, x) → priority s.params k ≤ priority s.params a →
      (s.pending.length = s.params.pendingDepth → raiseIrq k aux s = { s with run := .halted }) ∧
      (s.pending.length ≠ s.params.pendingDepth → raiseIrq k aux s = { s with pending := (k, aux) :: s.pending })) ∧
    ((∀ a x, s.active = some (a, x) → priority s.params a < priority s.params k) → raiseIrq k aux s = enter k aux s) ∧
    (s.pending = [] → checkPending s = s) ∧
    (∀ rest, s.pending = (k, aux) :: rest →
      ((∀ a x, s.active = some (a, x) → priority s.params a < priority s.params k) →
        checkPending s = enter k aux { s with pending := rest }) ∧
      (∀ a x, s.active = some (a, x) → priority s.params k ≤ priority s.params a → checkPending s = s)) ∧
    (s.ssp.getLsbD 0 = true ∨
      (∃ j, 0 < j ∧ j ≤ (if irqGroup k = 0 then 14 else 6) ∧
        (regionAt s.map (s.ssp - BitVec.ofNat 32 j) = some .unmapped ∨ regionAt s.map (s.ssp - BitVec.ofNat 32 j) = some .writeProtected)) ∨
      (∃ b ∈ coveredBy (vectorAddress k) .long, regionAt s.map b = some .unmapped) →
      (enter k aux s).run = .halted ∧ (enter k aux s).active = s.active ∧ (enter k aux s).pending = s.pending)

/-- After an RTE that is not traced (the handler left T1 clear, as Enter does) and pops the frame of the most recent Enter of a kind
outside group 0, SR, pc, USP, SSP equal their values before that Enter, whatever else the handler did, provided it left the frame, SSP and
USP as Enter made them and no group-0 interrupt is active (60_exceptions.md R436, R437; 10_state.md R34). -/
def Obligations.RteUndoesEnter : Prop :=
  ∀ (k : IrqKind) (aux : Aux) (s h : State), irqGroup k ≠ 0 → s.Inv →
    s.writable (s.ssp - 2#32) .word → s.writable (s.ssp - 6#32) .long → s.readable (vectorAddress k) .long →
    let e := enter k aux s
    h.supervisor = true → srT1 h.sr = false → h.ssp = e.ssp → h.usp = e.usp → h.params = e.params →
    (∀ a x, h.active = some (a, x) → irqGroup a ≠ 0) →
    (∀ b, b ∈ coveredBy (s.ssp - 2#32) .word ∨ b ∈ coveredBy (s.ssp - 6#32) .long → peek h.mem b = peek e.mem b) →
    h.readable (s.ssp - 6#32) .long → h.readable (s.ssp - 2#32) .word →
    ∃ t, exec .rte h = .next t ∧ t.sr = s.sr ∧ t.pc = s.pc ∧ t.usp = s.usp ∧ t.ssp = s.ssp ∧ t.areg 7 = s.areg 7 ∧ t.active = none ∧
      t.d = h.d ∧ t.a = h.a ∧ t.mem = h.mem

/-! ### What an instruction leaves unchanged -/

/-- The frame of every instruction over registers, whether it completes, traps or faults: a data register, and an address register A0 to
A6, changes only where `dregsWritten` and `aregsWritten` name it; USP changes only by MOVE to USP or as the active stack pointer the
instruction names; SSP, where no exception was taken, only as the active stack pointer it names; the latches and bookkeeping of the step,
the parameters and the memory map never. -/
def Obligations.RegisterFrame : Prop :=
  ∀ (i : Instr) (s t : State), i.wf = true → exec i s = .next t →
    (∀ n, n ∉ dregsWritten i → t.dreg n = s.dreg n) ∧
    (∀ n : Fin 8, n ≠ 7 → n ∉ aregsWritten i → t.areg n = s.areg n) ∧
    ((∀ n, i ≠ .moveToUsp n) → (s.supervisor = true ∨ 7 ∉ aregsWritten i) → t.usp = s.usp) ∧
    (Uninterrupted s t → (s.supervisor = false ∨ 7 ∉ aregsWritten i) → t.ssp = s.ssp) ∧
    t.pcStart = s.pcStart ∧ t.ir = s.ir ∧ t.cycles = s.cycles ∧ t.countdown = s.countdown ∧ t.params = s.params ∧ t.map = s.map

/-- The frame of every instruction over SR and the controller. Whatever happens, the pending stack keeps what it held, and gains at most
one request on top, only where there is room behind an active interrupt of at least its priority, which stays active (60_exceptions.md
R405, R414). Where no exception was taken: only the flags `flagsWritten` names change; the high byte of SR changes only by MOVE to SR, the
immediates to SR, STOP and RTE, and its bits 7 to 5 by these and the writers of CCR; the active interrupt changes only by RTE and the run
state only by STOP. -/
def Obligations.StatusFrame : Prop :=
  ∀ (i : Instr) (s t : State), i.wf = true → exec i s = .next t →
    (t.pending = s.pending ∨
      ∃ k aux a x, t.pending = (k, aux) :: s.pending ∧ s.pending.length ≠ s.params.pendingDepth ∧ s.active = some (a, x) ∧
        t.active = s.active ∧ priority s.params k ≤ priority s.params a) ∧
    (Uninterrupted s t →
      (flagsWritten s.params.rotateUpdatesX i).Keeps s.flags t.flags ∧
      (i ∉ [.oriSr, .andiSr, .eoriSr, .stop, .rte] → (∀ ea, i ≠ .moveToSr ea) →
        t.sr &&& 0xFF00#16 = s.sr &&& 0xFF00#16 ∧
        (i ∉ [.oriCcr, .andiCcr, .eoriCcr, .rtr] → (∀ ea, i ≠ .moveToCcr ea) → t.sr &&& 0xFFE0#16 = s.sr &&& 0xFFE0#16)) ∧
      (i ≠ .rte → t.active = s.active) ∧ (i ≠ .stop → t.run = s.run))

/-- The frame of every instruction over memory, where no exception was taken: it stores only to the cells `storesAt` computes, with the
resolver its meaning uses in the state its meaning uses it in; every other byte reads as before, and an instruction with no cell changes
no byte. -/
def Obligations.StoreFrame : Prop :=
  ∀ (i : Instr) (s t : State), i.wf = true → exec i s = .next t → Uninterrupted s t →
    ∃ cells u, storesAt i s = .ok cells u ∧ ∀ b, (∀ c ∈ cells, b ∉ coveredBy c.1 c.2) → peek t.mem b = peek s.mem b

end Statements
end

