-- ==== Sys2Proof/Laws/Bits.lean ====
section
/-! SUPPORT. Truncation, insertion of a low part, and the bytes of a value. -/

namespace Sys2Proof.Machine

theorem trunc_byte_eq (v : Word) : trunc .byte v = (v.setWidth 8).setWidth 32 := by
  apply BitVec.eq_of_toNat_eq
  simp only [trunc, sizeMask, BitVec.toNat_and, BitVec.toNat_setWidth, BitVec.toNat_ofNat]
  rw [show 0xFF % 2^32 = 2^8 - 1 by rfl, Nat.and_two_pow_sub_one_eq_mod]
  omega

theorem trunc_word_eq (v : Word) : trunc .word v = (v.setWidth 16).setWidth 32 := by
  apply BitVec.eq_of_toNat_eq
  simp only [trunc, sizeMask, BitVec.toNat_and, BitVec.toNat_setWidth, BitVec.toNat_ofNat]
  rw [show 0xFFFF % 2^32 = 2^16 - 1 by rfl, Nat.and_two_pow_sub_one_eq_mod]
  omega

theorem trunc_long_eq (v : Word) : trunc .long v = v := by
  simp only [trunc, sizeMask]
  exact BitVec.and_allOnes

theorem trunc_toNat (sz : Size) (v : Word) : (trunc sz v).toNat = v.toNat % 2 ^ sizeBits sz := by
  cases sz
  · rw [trunc_byte_eq]; simp only [BitVec.toNat_setWidth, sizeBits, sizeBytes]; omega
  · rw [trunc_word_eq]; simp only [BitVec.toNat_setWidth, sizeBits, sizeBytes]; omega
  · rw [trunc_long_eq]; simp only [sizeBits, sizeBytes]; omega

theorem trunc_getLsbD (sz : Size) (v : Word) (i : Nat) : (trunc sz v).getLsbD i = (decide (i < sizeBits sz) && v.getLsbD i) := by
  cases sz
  · rw [trunc_byte_eq]; simp only [BitVec.getLsbD_setWidth, sizeBits, sizeBytes]
    by_cases h : i < 8 <;> simp [h]
    omega
  · rw [trunc_word_eq]; simp only [BitVec.getLsbD_setWidth, sizeBits, sizeBytes]
    by_cases h : i < 16 <;> simp [h]
    omega
  · rw [trunc_long_eq]; simp only [sizeBits, sizeBytes]
    by_cases h : i < 32 <;> simp [h]
    exact BitVec.getLsbD_of_ge _ _ (by omega)

@[simp] theorem trunc_trunc (sz : Size) (v : Word) : trunc sz (trunc sz v) = trunc sz v := by
  simp only [trunc, BitVec.and_assoc, BitVec.and_self]

@[simp] theorem msb_trunc (sz : Size) (v : Word) : msb sz (trunc sz v) = msb sz v := by
  simp only [msb, trunc_getLsbD]
  cases sz <;> simp [sizeBits, sizeBytes]

@[simp] theorem trunc_insertLow (sz : Size) (old v : Word) : trunc sz (insertLow sz old v) = trunc sz v := by
  cases sz <;> simp only [trunc, insertLow, sizeMask]
  all_goals
    rw [BitVec.and_comm, BitVec.and_or_distrib_left, ← BitVec.and_assoc, BitVec.and_comm _ old, BitVec.and_assoc, BitVec.and_comm _ (v &&& _), BitVec.and_assoc]
    simp

@[simp] theorem insertLow_long (old v : Word) : insertLow .long old v = v := by
  simp only [insertLow, trunc_long_eq, sizeMask]
  rw [show (~~~ (0xFFFFFFFF#32)) = 0#32 by decide]; simp

theorem halfBytes (v : Word) : (v.extractLsb' 8 8 ++ v.extractLsb' 0 8 : BitVec 16) = v.setWidth 16 := by
  ext i hi
  simp only [BitVec.getElem_append, BitVec.getElem_extractLsb', BitVec.getElem_setWidth]
  split
  · simp
  · congr 1; omega

end Sys2Proof.Machine
end

