-- ==== Sys2Proof/Laws/Memory.lean ====
section
/-! SUPPORT. Memory: a read after a write, the canonical form every write keeps, and that the form makes
equal memories equal data. -/

namespace Sys2Proof.Machine

/-! ### Single bytes -/

/-- Nothing is listed below the bound of a canonical form. -/
theorem readByte_of_wfFrom (low : Nat) (m : Memory) (h : Memory.wfFrom low m = true) (a : Nat) (ha : a < low) :
    m.readByte a = Memory.unlisted := by
  induction m generalizing low with
  | nil => rfl
  | cons e rest ih =>
    obtain ⟨k, b⟩ := e
    simp only [Memory.wfFrom, Bool.and_eq_true, decide_eq_true_eq] at h
    rw [Memory.readByte, if_neg (by omega)]
    exact ih (k + 1) h.2 (by omega)

theorem wfFrom_mono (low low' : Nat) (m : Memory) (h : Memory.wfFrom low m = true) (hl : low' ≤ low) :
    Memory.wfFrom low' m = true := by
  cases m with
  | nil => rfl
  | cons e rest =>
    obtain ⟨k, b⟩ := e
    simp only [Memory.wfFrom, Bool.and_eq_true, decide_eq_true_eq] at h ⊢
    exact ⟨⟨⟨by omega, h.1.1.2⟩, h.1.2⟩, h.2⟩

theorem readByte_writeByte_ne (m : Memory) (a a' : Nat) (v : Byte) (h : a' ≠ a) :
    (m.writeByte a v).readByte a' = m.readByte a' := by
  induction m with
  | nil =>
    rw [Memory.writeByte]
    split
    · rfl
    · simp [Memory.readByte, h.symm]
  | cons e rest ih =>
    obtain ⟨k, b⟩ := e
    rw [Memory.writeByte]
    split
    · split
      · rfl
      · simp [Memory.readByte, h.symm]
    · split
      · rename_i hk
        subst hk
        split <;> simp [Memory.readByte, h.symm]
      · simp only [Memory.readByte, ih]

theorem readByte_writeByte_same (low : Nat) (m : Memory) (hm : Memory.wfFrom low m = true) (a : Nat) (v : Byte) :
    (m.writeByte a v).readByte a = v := by
  induction m generalizing low with
  | nil =>
    rw [Memory.writeByte]
    split
    · rename_i hv; rw [hv]; rfl
    · simp [Memory.readByte]
  | cons e rest ih =>
    obtain ⟨k, b⟩ := e
    have hm' := hm
    simp only [Memory.wfFrom, Bool.and_eq_true, decide_eq_true_eq] at hm'
    rw [Memory.writeByte]
    split
    · rename_i hk
      split
      · rename_i hv
        rw [hv]
        rw [Memory.readByte, if_neg (by omega)]
        exact readByte_of_wfFrom _ rest hm'.2 a (by omega)
      · simp [Memory.readByte]
    · split
      · rename_i hk
        subst hk
        split
        · rename_i hv
          rw [hv]
          exact readByte_of_wfFrom _ rest hm'.2 _ (by omega)
        · simp [Memory.readByte]
      · rename_i h1 h2
        rw [Memory.readByte, if_neg (by omega)]
        exact ih (k + 1) hm'.2

theorem wfFrom_writeByte (low : Nat) (m : Memory) (hm : Memory.wfFrom low m = true) (a : Nat) (v : Byte) (hl : low ≤ a)
    (ha : a < 2 ^ 32) : Memory.wfFrom low (m.writeByte a v) = true := by
  induction m generalizing low with
  | nil =>
    rw [Memory.writeByte]
    split
    · rfl
    · rename_i hv
      simp [Memory.wfFrom, hl, hv]
      omega
  | cons e rest ih =>
    obtain ⟨k, b⟩ := e
    have hm' := hm
    simp only [Memory.wfFrom, Bool.and_eq_true, decide_eq_true_eq] at hm'
    rw [Memory.writeByte]
    split
    · rename_i hk
      split
      · exact hm
      · rename_i hv
        simp only [Memory.wfFrom, Bool.and_eq_true, decide_eq_true_eq]
        exact ⟨⟨⟨hl, ha⟩, hv⟩, ⟨⟨by omega, hm'.1.1.2⟩, hm'.1.2⟩, hm'.2⟩
    · split
      · rename_i hk
        subst hk
        split
        · exact wfFrom_mono _ _ rest hm'.2 (by omega)
        · rename_i hv
          simp only [Memory.wfFrom, Bool.and_eq_true, decide_eq_true_eq]
          exact ⟨⟨⟨hl, ha⟩, hv⟩, hm'.2⟩
      · rename_i h1 h2
        simp only [Memory.wfFrom, Bool.and_eq_true, decide_eq_true_eq]
        exact ⟨hm'.1, ih (k + 1) hm'.2 (by omega)⟩

/-- Canonical memories that read the same are the same. -/
theorem wfFrom_ext (low low' : Nat) (m m' : Memory) (h : Memory.wfFrom low m = true) (h' : Memory.wfFrom low' m' = true)
    (heq : ∀ a, m.readByte a = m'.readByte a) : m = m' := by
  induction m generalizing low low' m' with
  | nil =>
    cases m' with
    | nil => rfl
    | cons e rest =>
      obtain ⟨k, b⟩ := e
      simp only [Memory.wfFrom, Bool.and_eq_true, decide_eq_true_eq] at h'
      have := heq k
      simp only [Memory.readByte, if_pos] at this
      exact absurd this.symm h'.1.2
  | cons e rest ih =>
    obtain ⟨k, b⟩ := e
    simp only [Memory.wfFrom, Bool.and_eq_true, decide_eq_true_eq] at h
    cases m' with
    | nil =>
      have := heq k
      simp only [Memory.readByte, if_pos] at this
      exact absurd this h.1.2
    | cons e' rest' =>
      obtain ⟨k', b'⟩ := e'
      simp only [Memory.wfFrom, Bool.and_eq_true, decide_eq_true_eq] at h'
      have hkk : k = k' := by
        rcases Nat.lt_trichotomy k k' with hlt | he | hgt
        · have := heq k
          rw [Memory.readByte, if_pos rfl, Memory.readByte, if_neg (by omega),
            readByte_of_wfFrom _ rest' h'.2 k (by omega)] at this
          exact absurd this h.1.2
        · exact he
        · have := heq k'
          rw [Memory.readByte, if_neg (by omega), readByte_of_wfFrom _ rest h.2 k' (by omega), Memory.readByte,
            if_pos rfl] at this
          exact absurd this.symm h'.1.2
      subst hkk
      have hb : b = b' := by
        have := heq k
        simpa [Memory.readByte] using this
      subst hb
      have : rest = rest' := by
        refine ih (k + 1) (k + 1) rest' h.2 h'.2 ?_
        intro a
        by_cases ha : a < k + 1
        · rw [readByte_of_wfFrom _ rest h.2 a ha, readByte_of_wfFrom _ rest' h'.2 a ha]
        · have := heq a
          rwa [Memory.readByte, if_neg (by omega), Memory.readByte, if_neg (by omega)] at this
      rw [this]

/-! ### Accesses -/

theorem peek_poke_same (m : Memory) (hm : m.wf = true) (a : Word) (v : Byte) : peek (poke m a v) a = v :=
  readByte_writeByte_same 0 m hm a.toNat v

theorem peek_poke_ne (m : Memory) (a a' : Word) (v : Byte) (h : a' ≠ a) : peek (poke m a v) a' = peek m a' :=
  readByte_writeByte_ne m a.toNat a'.toNat v fun e => h (BitVec.eq_of_toNat_eq e)

theorem wf_poke (m : Memory) (hm : m.wf = true) (a : Word) (v : Byte) : (poke m a v).wf = true :=
  wfFrom_writeByte 0 m hm a.toNat v (Nat.zero_le _) a.isLt

/-- What every byte put keeps, a store keeps. -/
theorem storeAt_induction {put : Memory → Word → Byte → Memory} {P : Memory → Prop} (hput : ∀ m a v, P m → P (put m a v))
    {m : Memory} (h : P m) (a : Word) (sz : Size) (v : Word) : P (storeAt put m a sz v) := by
  cases sz
  · exact hput _ _ _ h
  · exact hput _ _ _ (hput _ _ _ h)
  · exact hput _ _ _ (hput _ _ _ (hput _ _ _ (hput _ _ _ h)))

/-- A store changes only the bytes it covers. -/
theorem peek_storeAt_outside {put : Memory → Word → Byte → Memory} (hput : ∀ m a v b, b ≠ a → peek (put m a v) b = peek m b)
    (m : Memory) (a b : Word) (sz : Size) (v : Word) (h : b ∉ coveredBy a sz) : peek (storeAt put m a sz v) b = peek m b := by
  cases sz <;> simp only [coveredBy, List.mem_cons, List.not_mem_nil, or_false, not_or] at h <;> simp only [storeAt]
  · exact hput _ _ _ _ h
  · rw [hput _ _ _ _ h.2, hput _ _ _ _ h.1]
  · rw [hput _ _ _ _ h.2.2.2, hput _ _ _ _ h.2.2.1, hput _ _ _ _ h.2.1, hput _ _ _ _ h.1]

/-- Every store keeps the canonical form. -/
theorem wf_writeMem (m : Memory) (hm : m.wf = true) (a : Word) (sz : Size) (v : Word) : (writeMem m a sz v).wf = true :=
  storeAt_induction (P := fun m => m.wf = true) (fun m a v h => wf_poke m h a v) hm a sz v

theorem peek_writeMem_outside (m : Memory) (a b : Word) (sz : Size) (v : Word) (h : b ∉ coveredBy a sz) :
    peek (writeMem m a sz v) b = peek m b := peek_storeAt_outside (fun m a v b h => peek_poke_ne m a b v h) m a b sz v h

/-! ### Accesses that touch a device region -/

theorem pokePlain_device {map : List Region} {a : Word} (h : isDevice map a = true) (m : Memory) (v : Byte) :
    pokePlain map m a v = m := by simp [pokePlain, h]

theorem pokePlain_plain {map : List Region} {a : Word} (h : isDevice map a = false) (m : Memory) (v : Byte) :
    pokePlain map m a v = poke m a v := by simp [pokePlain, h]

theorem peek_pokePlain_ne (map : List Region) (m : Memory) (a : Word) (v : Byte) (b : Word) (h : b ≠ a) :
    peek (pokePlain map m a v) b = peek m b := by
  unfold pokePlain
  split
  · rfl
  · exact peek_poke_ne m a b v h

theorem wf_pokePlain (map : List Region) (m : Memory) (a : Word) (v : Byte) (h : m.wf = true) : (pokePlain map m a v).wf = true := by
  unfold pokePlain
  split
  · exact h
  · exact wf_poke m h a v

theorem wf_storePlain (map : List Region) (m : Memory) (hm : m.wf = true) (a : Word) (sz : Size) (v : Word) :
    (storeAt (pokePlain map) m a sz v).wf = true :=
  storeAt_induction (P := fun m => m.wf = true) (wf_pokePlain map) hm a sz v

theorem peek_storePlain_outside (map : List Region) (m : Memory) (a b : Word) (sz : Size) (v : Word) (h : b ∉ coveredBy a sz) :
    peek (storeAt (pokePlain map) m a sz v) b = peek m b := peek_storeAt_outside (peek_pokePlain_ne map) m a b sz v h

/-- No byte of a device region is stored to. -/
theorem peek_storePlain_device {map : List Region} {b : Word} (h : isDevice map b = true) (m : Memory) (a : Word) (sz : Size)
    (v : Word) : peek (storeAt (pokePlain map) m a sz v) b = peek m b := by
  refine storeAt_induction (P := fun m' => peek m' b = peek m b) (fun m' c w hm => ?_) rfl a sz v
  by_cases e : b = c
  · rw [← e, pokePlain_device h, hm]
  · rw [peek_pokePlain_ne _ _ _ _ _ e, hm]

/-- A plain byte takes what a store to plain memory gives it. -/
theorem peek_storePlain_plain {map : List Region} {b : Word} (h : isDevice map b = false) {m : Memory} (hm : m.wf = true) (a : Word)
    (sz : Size) (v : Word) : peek (storeAt (pokePlain map) m a sz v) b = peek (writeMem m a sz v) b := by
  have one : ∀ m m' c w, m.wf = true ∧ m'.wf = true ∧ peek m b = peek m' b →
      (pokePlain map m c w).wf = true ∧ (poke m' c w).wf = true ∧ peek (pokePlain map m c w) b = peek (poke m' c w) b := by
    rintro m m' c w ⟨h1, h2, h3⟩
    refine ⟨wf_pokePlain map m c w h1, wf_poke m' h2 c w, ?_⟩
    by_cases e : b = c
    · rw [← e, pokePlain_plain h, peek_poke_same _ h1, peek_poke_same _ h2]
    · rw [peek_pokePlain_ne _ _ _ _ _ e, peek_poke_ne _ _ _ _ e, h3]
  have start : m.wf = true ∧ m.wf = true ∧ peek m b = peek m b := ⟨hm, hm, rfl⟩
  cases sz
  · exact (one _ _ _ _ start).2.2
  · exact (one _ _ _ _ (one _ _ _ _ start)).2.2
  · exact (one _ _ _ _ (one _ _ _ _ (one _ _ _ _ (one _ _ _ _ start)))).2.2

/-- A device answers an access that touches one of its bytes and does not fail. -/
theorem answerOf_device {map : List Region} {addr : Word} {sz : Size} {isWrite : Bool}
    (hd : ∃ b ∈ coveredBy addr sz, regionAt map b = some .device) (hu : ∀ b ∈ coveredBy addr sz, regionAt map b ≠ some .unmapped)
    (hw : isWrite = true → ∀ b ∈ coveredBy addr sz, regionAt map b ≠ some .writeProtected) : answerOf map addr sz isWrite = .device := by
  have e (k : RegionKind) : ((coveredBy addr sz).map (regionAt map)).contains (some k) = true ↔
      ∃ b ∈ coveredBy addr sz, regionAt map b = some k := by simp
  unfold answerOf
  simp only [e]
  rw [if_neg fun ⟨b, hb, h⟩ => hu b hb h, if_neg, if_pos hd]
  rw [Bool.and_eq_true, e]
  exact fun ⟨hi, b, hb, h⟩ => hw hi b hb h

theorem byteAnswered_plain {map : List Region} {a : Word} (h : isDevice map a = false) (m : Memory) (answer addr : Word) :
    byteAnswered map m answer addr a = peek m a := by simp [byteAnswered, h]

/-- The bytes of a value, in the order of their addresses. -/
theorem valueAt_byte (byteAt : Word → Byte) (addr : Word) (sz : Size) (j : Nat) (hj : j < sizeBytes sz) :
    (valueAt byteAt addr sz).extractLsb' (8 * (sizeBytes sz - 1 - j)) 8 = byteAt (addr + BitVec.ofNat 32 j) := by
  have e0 : addr + BitVec.ofNat 32 0 = addr := by simp
  cases sz <;> simp only [sizeBytes] at hj <;> interval_cases j <;> simp only [e0, valueAt, sizeBytes] <;>
    (apply BitVec.eq_of_getLsbD_eq; intro i hi
     simp only [BitVec.getLsbD_extractLsb', BitVec.getLsbD_setWidth, BitVec.getLsbD_append, hi, decide_true, Bool.true_and]
     repeat' split
     all_goals first | omega | (congr 1; omega) | (rw [decide_eq_true (by omega), Bool.true_and]; congr 1; omega))

theorem word_add_ne (a i j : Word) (h : i ≠ j) : a + i ≠ a + j := by
  intro e
  exact h (BitVec.add_right_inj a |>.mp e)

theorem word_ne_add (a j : Word) (h : j ≠ 0#32) : a ≠ a + j := by
  intro e
  exact h (by simpa using e.symm)

/-- A long from its bytes. -/
theorem bytes_of_word (v : Word) :
    v.extractLsb' 24 8 ++ v.extractLsb' 16 8 ++ v.extractLsb' 8 8 ++ v.extractLsb' 0 8 = v := by
  ext i hi
  simp only [BitVec.getElem_append, BitVec.getElem_extractLsb']
  repeat' split
  all_goals (try simp only [← BitVec.getLsbD_eq_getElem hi]); (try congr 1); (try omega)

/-- A read of what was just stored. -/
theorem readMem_writeMem_same (m : Memory) (hm : m.wf = true) (a : Word) (sz : Size) (v : Word) :
    readMem (writeMem m a sz v) a sz = trunc sz v := by
  have e1 : a ≠ a + 1#32 := word_ne_add a _ (by decide)
  have e2 : a ≠ a + 2#32 := word_ne_add a _ (by decide)
  have e3 : a ≠ a + 3#32 := word_ne_add a _ (by decide)
  have e12 : a + 1#32 ≠ a + 2#32 := word_add_ne a _ _ (by decide)
  have e13 : a + 1#32 ≠ a + 3#32 := word_add_ne a _ _ (by decide)
  have e23 : a + 2#32 ≠ a + 3#32 := word_add_ne a _ _ (by decide)
  have w1 := wf_poke m hm
  cases sz <;> simp only [readMem, valueAt, writeMem, storeAt]
  · rw [peek_poke_same _ hm]
    rw [trunc_byte_eq]
    rfl
  · rw [peek_poke_ne _ _ _ _ e1, peek_poke_same _ hm, peek_poke_same _ (w1 _ _), trunc_word_eq, halfBytes]
  · rw [peek_poke_same _ (wf_poke _ (wf_poke _ (w1 _ _) _ _) _ _), peek_poke_ne _ _ _ _ e23,
      peek_poke_same _ (wf_poke _ (w1 _ _) _ _), peek_poke_ne _ _ _ _ e13, peek_poke_ne _ _ _ _ e12,
      peek_poke_same _ (w1 _ _), peek_poke_ne _ _ _ _ e3, peek_poke_ne _ _ _ _ e2, peek_poke_ne _ _ _ _ e1,
      peek_poke_same _ hm, bytes_of_word, trunc_long_eq]

/-- A read whose bytes a store does not cover. -/
theorem readMem_writeMem_ne (m : Memory) (a b v : Word) (sz sz' : Size) (h : ∀ x ∈ coveredBy b sz', x ∉ coveredBy a sz) :
    readMem (writeMem m a sz v) b sz' = readMem m b sz' := by
  cases sz'
  · simp only [readMem, valueAt]; rw [peek_writeMem_outside _ _ _ _ _ (h _ (by simp [coveredBy]))]
  · simp only [readMem, valueAt]
    rw [peek_writeMem_outside _ _ _ _ _ (h _ (by simp [coveredBy])), peek_writeMem_outside _ _ _ _ _ (h (b + 1#32) (by simp [coveredBy]))]
  · simp only [readMem, valueAt]
    rw [peek_writeMem_outside _ _ _ _ _ (h _ (by simp [coveredBy])), peek_writeMem_outside _ _ _ _ _ (h (b + 1#32) (by simp [coveredBy])),
      peek_writeMem_outside _ _ _ _ _ (h (b + 2#32) (by simp [coveredBy])),
      peek_writeMem_outside _ _ _ _ _ (h (b + 3#32) (by simp [coveredBy]))]

end Sys2Proof.Machine
end

