-- ==== Sys2Proof/Laws/State.lean ====
section
/-! SUPPORT. What each named update of the state does to each accessor, so that no proof unfolds a record
update; and the bit facts of SR that go with them. -/

namespace Sys2Proof.Machine

/-! ### The status register -/

@[simp] theorem srFlags_srWithFlags (sr : Half) (f : Flags) : srFlags (srWithFlags sr f) = f := by
  rcases f with ⟨x, n, z, v, c⟩
  cases x <;> cases n <;> cases z <;> cases v <;> cases c <;> simp [srFlags, srWithFlags, bitsOfFlags, flagBit]

@[simp] theorem srWithFlags_srWithFlags (sr : Half) (f g : Flags) : srWithFlags (srWithFlags sr f) g = srWithFlags sr g := by
  have h : bitsOfFlags f &&& 0xFFE0#16 = 0#16 := by
    rcases f with ⟨x, n, z, v, c⟩
    cases x <;> cases n <;> cases z <;> cases v <;> cases c <;> decide
  simp only [srWithFlags]
  rw [show (sr &&& 0xFFE0#16 ||| bitsOfFlags f) &&& 0xFFE0#16 = sr &&& 0xFFE0#16 by
    rw [BitVec.and_comm, BitVec.and_or_distrib_left, BitVec.and_comm, BitVec.and_assoc,
      BitVec.and_comm 0xFFE0#16 (bitsOfFlags f), h]; simp]

theorem bitsOfFlags_getLsbD_high (f : Flags) (k : Nat) (h : 5 ≤ k) : (bitsOfFlags f).getLsbD k = false := by
  by_cases hk : k < 16
  · rcases f with ⟨x, n, z, v, c⟩
    have : k = 5 ∨ k = 6 ∨ k = 7 ∨ k = 8 ∨ k = 9 ∨ k = 10 ∨ k = 11 ∨ k = 12 ∨ k = 13 ∨ k = 14 ∨ k = 15 := by omega
    rcases this with rfl | rfl | rfl | rfl | rfl | rfl | rfl | rfl | rfl | rfl | rfl <;>
      cases x <;> cases n <;> cases z <;> cases v <;> cases c <;> rfl
  · exact BitVec.getLsbD_of_ge _ _ (by omega)

@[simp] theorem srS_srWithFlags (sr : Half) (f : Flags) : srS (srWithFlags sr f) = srS sr := by
  simp only [srS, srWithFlags, BitVec.getLsbD_or, BitVec.getLsbD_and, bitsOfFlags_getLsbD_high f 13 (by omega)]
  simp

@[simp] theorem srT1_srWithFlags (sr : Half) (f : Flags) : srT1 (srWithFlags sr f) = srT1 sr := by
  simp only [srT1, srWithFlags, BitVec.getLsbD_or, BitVec.getLsbD_and, bitsOfFlags_getLsbD_high f 15 (by omega)]
  simp

@[simp] theorem srS_srWithCcr (sr v : Half) : srS (srWithCcr sr v) = srS sr := by simp [srS, srWithCcr]
@[simp] theorem srT1_srWithCcr (sr v : Half) : srT1 (srWithCcr sr v) = srT1 sr := by simp [srT1, srWithCcr]
@[simp] theorem srS_srEntered (sr : Half) : srS (srEntered sr) = true := by simp [srS, srEntered]
@[simp] theorem srT1_srEntered (sr : Half) : srT1 (srEntered sr) = false := by simp [srT1, srEntered]
@[simp] theorem srFlags_srEntered (sr : Half) : srFlags (srEntered sr) = srFlags sr := by simp [srFlags, srEntered]

@[simp] theorem srFlags_srWithCcr (sr v : Half) : srFlags (srWithCcr sr v) = srFlags v := by simp [srFlags, srWithCcr]

/-- The bits of SR above the condition codes are kept by a flag update. -/
theorem srWithFlags_high (sr : Half) (f : Flags) : srWithFlags sr f &&& 0xFFE0#16 = sr &&& 0xFFE0#16 := by
  have h : bitsOfFlags f &&& 0xFFE0#16 = 0#16 := by
    rcases f with ⟨x, n, z, v, c⟩
    cases x <;> cases n <;> cases z <;> cases v <;> cases c <;> decide
  rw [srWithFlags, BitVec.and_comm, BitVec.and_or_distrib_left, BitVec.and_comm, BitVec.and_assoc,
    BitVec.and_comm 0xFFE0#16 (bitsOfFlags f), h]
  simp

/-! ### Data registers -/

@[simp] theorem dreg_setDreg_same (s : State) (n : Fin 8) (sz : Size) (v : Word) :
    (s.setDreg n sz v).dreg n = insertLow sz (s.dreg n) v := by simp [State.dreg, State.setDreg]

theorem dreg_setDreg_ne (s : State) (n m : Fin 8) (sz : Size) (v : Word) (h : m ≠ n) : (s.setDreg n sz v).dreg m = s.dreg m := by
  have : n.val ≠ m.val := fun e => h (Fin.ext e.symm)
  simp [State.dreg, State.setDreg, Vector.getElem_set_ne, this]

section setDreg
variable (s : State) (n : Fin 8) (sz : Size) (v : Word)
@[simp] theorem setDreg_a : (s.setDreg n sz v).a = s.a := rfl
@[simp] theorem setDreg_usp : (s.setDreg n sz v).usp = s.usp := rfl
@[simp] theorem setDreg_ssp : (s.setDreg n sz v).ssp = s.ssp := rfl
@[simp] theorem setDreg_pc : (s.setDreg n sz v).pc = s.pc := rfl
@[simp] theorem setDreg_pcStart : (s.setDreg n sz v).pcStart = s.pcStart := rfl
@[simp] theorem setDreg_ir : (s.setDreg n sz v).ir = s.ir := rfl
@[simp] theorem setDreg_sr : (s.setDreg n sz v).sr = s.sr := rfl
@[simp] theorem setDreg_active : (s.setDreg n sz v).active = s.active := rfl
@[simp] theorem setDreg_pending : (s.setDreg n sz v).pending = s.pending := rfl
@[simp] theorem setDreg_run : (s.setDreg n sz v).run = s.run := rfl
@[simp] theorem setDreg_cycles : (s.setDreg n sz v).cycles = s.cycles := rfl
@[simp] theorem setDreg_countdown : (s.setDreg n sz v).countdown = s.countdown := rfl
@[simp] theorem setDreg_mem : (s.setDreg n sz v).mem = s.mem := rfl
@[simp] theorem setDreg_map : (s.setDreg n sz v).map = s.map := rfl
@[simp] theorem setDreg_params : (s.setDreg n sz v).params = s.params := rfl
@[simp] theorem setDreg_outputs : (s.setDreg n sz v).outputs = s.outputs := rfl
@[simp] theorem setDreg_draws : (s.setDreg n sz v).draws = s.draws := rfl
@[simp] theorem setDreg_areg (m : Fin 8) : (s.setDreg n sz v).areg m = s.areg m := rfl
@[simp] theorem setDreg_sp : (s.setDreg n sz v).sp = s.sp := rfl
@[simp] theorem setDreg_flags : (s.setDreg n sz v).flags = s.flags := rfl
@[simp] theorem setDreg_supervisor : (s.setDreg n sz v).supervisor = s.supervisor := rfl
end setDreg

/-! ### Stack pointers and address registers -/

section setSp
variable (s : State) (v : Word)
@[simp] theorem setSp_d : (s.setSp v).d = s.d := by unfold State.setSp; split <;> rfl
@[simp] theorem setSp_a : (s.setSp v).a = s.a := by unfold State.setSp; split <;> rfl
@[simp] theorem setSp_pc : (s.setSp v).pc = s.pc := by unfold State.setSp; split <;> rfl
@[simp] theorem setSp_pcStart : (s.setSp v).pcStart = s.pcStart := by unfold State.setSp; split <;> rfl
@[simp] theorem setSp_ir : (s.setSp v).ir = s.ir := by unfold State.setSp; split <;> rfl
@[simp] theorem setSp_sr : (s.setSp v).sr = s.sr := by unfold State.setSp; split <;> rfl
@[simp] theorem setSp_active : (s.setSp v).active = s.active := by unfold State.setSp; split <;> rfl
@[simp] theorem setSp_pending : (s.setSp v).pending = s.pending := by unfold State.setSp; split <;> rfl
@[simp] theorem setSp_run : (s.setSp v).run = s.run := by unfold State.setSp; split <;> rfl
@[simp] theorem setSp_cycles : (s.setSp v).cycles = s.cycles := by unfold State.setSp; split <;> rfl
@[simp] theorem setSp_countdown : (s.setSp v).countdown = s.countdown := by unfold State.setSp; split <;> rfl
@[simp] theorem setSp_mem : (s.setSp v).mem = s.mem := by unfold State.setSp; split <;> rfl
@[simp] theorem setSp_map : (s.setSp v).map = s.map := by unfold State.setSp; split <;> rfl
@[simp] theorem setSp_params : (s.setSp v).params = s.params := by unfold State.setSp; split <;> rfl
@[simp] theorem setSp_outputs : (s.setSp v).outputs = s.outputs := by unfold State.setSp; split <;> rfl
@[simp] theorem setSp_draws : (s.setSp v).draws = s.draws := by unfold State.setSp; split <;> rfl
@[simp] theorem setSp_dreg (m : Fin 8) : (s.setSp v).dreg m = s.dreg m := by simp [State.dreg]
@[simp] theorem setSp_flags : (s.setSp v).flags = s.flags := by simp [State.flags]
@[simp] theorem setSp_supervisor : (s.setSp v).supervisor = s.supervisor := by simp [State.supervisor]
@[simp] theorem setSp_sp : (s.setSp v).sp = v := by
  unfold State.sp; rw [setSp_supervisor]; unfold State.setSp; split <;> rfl
theorem setSp_usp : (s.setSp v).usp = if s.supervisor then s.usp else v := by unfold State.setSp; split <;> rfl
theorem setSp_ssp : (s.setSp v).ssp = if s.supervisor then v else s.ssp := by unfold State.setSp; split <;> rfl
@[simp] theorem setSp_setSp (w : Word) : (s.setSp v).setSp w = s.setSp w := by
  have h := setSp_supervisor s v
  unfold State.setSp at *
  split <;> simp_all [State.supervisor]
end setSp

section setAreg
variable (s : State) (n : Fin 8) (v : Word)
@[simp] theorem setAreg_d : (s.setAreg n v).d = s.d := by unfold State.setAreg; split <;> simp
@[simp] theorem setAreg_pc : (s.setAreg n v).pc = s.pc := by unfold State.setAreg; split <;> simp
@[simp] theorem setAreg_pcStart : (s.setAreg n v).pcStart = s.pcStart := by unfold State.setAreg; split <;> simp
@[simp] theorem setAreg_ir : (s.setAreg n v).ir = s.ir := by unfold State.setAreg; split <;> simp
@[simp] theorem setAreg_sr : (s.setAreg n v).sr = s.sr := by unfold State.setAreg; split <;> simp
@[simp] theorem setAreg_active : (s.setAreg n v).active = s.active := by unfold State.setAreg; split <;> simp
@[simp] theorem setAreg_pending : (s.setAreg n v).pending = s.pending := by unfold State.setAreg; split <;> simp
@[simp] theorem setAreg_run : (s.setAreg n v).run = s.run := by unfold State.setAreg; split <;> simp
@[simp] theorem setAreg_cycles : (s.setAreg n v).cycles = s.cycles := by unfold State.setAreg; split <;> simp
@[simp] theorem setAreg_countdown : (s.setAreg n v).countdown = s.countdown := by unfold State.setAreg; split <;> simp
@[simp] theorem setAreg_mem : (s.setAreg n v).mem = s.mem := by unfold State.setAreg; split <;> simp
@[simp] theorem setAreg_map : (s.setAreg n v).map = s.map := by unfold State.setAreg; split <;> simp
@[simp] theorem setAreg_params : (s.setAreg n v).params = s.params := by unfold State.setAreg; split <;> simp
@[simp] theorem setAreg_outputs : (s.setAreg n v).outputs = s.outputs := by unfold State.setAreg; split <;> simp
@[simp] theorem setAreg_draws : (s.setAreg n v).draws = s.draws := by unfold State.setAreg; split <;> simp
@[simp] theorem setAreg_dreg (m : Fin 8) : (s.setAreg n v).dreg m = s.dreg m := by simp [State.dreg]
@[simp] theorem setAreg_flags : (s.setAreg n v).flags = s.flags := by simp [State.flags]
@[simp] theorem setAreg_supervisor : (s.setAreg n v).supervisor = s.supervisor := by simp [State.supervisor]

@[simp] theorem areg_setAreg_same : (s.setAreg n v).areg n = v := by
  unfold State.areg State.setAreg
  split <;> simp

theorem areg_setAreg_ne (m : Fin 8) (h : m ≠ n) : (s.setAreg n v).areg m = s.areg m := by
  have hv : n.val ≠ m.val := fun e => h (Fin.ext e.symm)
  unfold State.areg State.setAreg
  by_cases h1 : n.val < 7 <;> by_cases h2 : m.val < 7
  · simp [h1, h2, Vector.getElem_set_ne, hv]
  · simp only [h1, h2, dif_pos, dif_neg, not_false_eq_true]; rfl
  · simp [h1, h2]
  · omega

/-- The stack pointer the mode does not name is kept. -/
theorem setAreg_inactive : (s.supervisor = true → (s.setAreg n v).usp = s.usp) ∧
    (s.supervisor = false → (s.setAreg n v).ssp = s.ssp) := by
  unfold State.setAreg State.setSp
  constructor <;> intro h <;> split <;> simp [h]
end setAreg

/-! ### Flags, SR and CCR -/

section setFlags
variable (s : State) (f : Flags)
@[simp] theorem setFlags_d : (s.setFlags f).d = s.d := rfl
@[simp] theorem setFlags_a : (s.setFlags f).a = s.a := rfl
@[simp] theorem setFlags_usp : (s.setFlags f).usp = s.usp := rfl
@[simp] theorem setFlags_ssp : (s.setFlags f).ssp = s.ssp := rfl
@[simp] theorem setFlags_pc : (s.setFlags f).pc = s.pc := rfl
@[simp] theorem setFlags_pcStart : (s.setFlags f).pcStart = s.pcStart := rfl
@[simp] theorem setFlags_ir : (s.setFlags f).ir = s.ir := rfl
@[simp] theorem setFlags_active : (s.setFlags f).active = s.active := rfl
@[simp] theorem setFlags_pending : (s.setFlags f).pending = s.pending := rfl
@[simp] theorem setFlags_run : (s.setFlags f).run = s.run := rfl
@[simp] theorem setFlags_cycles : (s.setFlags f).cycles = s.cycles := rfl
@[simp] theorem setFlags_countdown : (s.setFlags f).countdown = s.countdown := rfl
@[simp] theorem setFlags_mem : (s.setFlags f).mem = s.mem := rfl
@[simp] theorem setFlags_map : (s.setFlags f).map = s.map := rfl
@[simp] theorem setFlags_params : (s.setFlags f).params = s.params := rfl
@[simp] theorem setFlags_outputs : (s.setFlags f).outputs = s.outputs := rfl
@[simp] theorem setFlags_draws : (s.setFlags f).draws = s.draws := rfl
@[simp] theorem setFlags_dreg (m : Fin 8) : (s.setFlags f).dreg m = s.dreg m := rfl
@[simp] theorem setFlags_sr : (s.setFlags f).sr = srWithFlags s.sr f := rfl
@[simp] theorem setFlags_flags : (s.setFlags f).flags = f := by simp [State.flags]
@[simp] theorem setFlags_supervisor : (s.setFlags f).supervisor = s.supervisor := by simp [State.supervisor]
@[simp] theorem setFlags_sp : (s.setFlags f).sp = s.sp := by simp [State.sp]
@[simp] theorem setFlags_areg (m : Fin 8) : (s.setFlags f).areg m = s.areg m := by simp [State.areg]
end setFlags

section writeCcr
variable (s : State) (v : Half)
@[simp] theorem writeCcr_sr : (s.writeCcr v).sr = srWithCcr s.sr v := rfl
@[simp] theorem writeCcr_flags : (s.writeCcr v).flags = srFlags v := by simp [State.flags]
@[simp] theorem writeCcr_supervisor : (s.writeCcr v).supervisor = s.supervisor := by simp [State.supervisor]
@[simp] theorem writeCcr_dreg (m : Fin 8) : (s.writeCcr v).dreg m = s.dreg m := rfl
@[simp] theorem writeCcr_mem : (s.writeCcr v).mem = s.mem := rfl
@[simp] theorem writeCcr_map : (s.writeCcr v).map = s.map := rfl
@[simp] theorem writeCcr_pc : (s.writeCcr v).pc = s.pc := rfl
@[simp] theorem writeCcr_sp : (s.writeCcr v).sp = s.sp := by simp [State.sp]; rfl
@[simp] theorem writeSr_sr : (s.writeSr v).sr = v &&& s.params.srMask := rfl
@[simp] theorem writeSr_dreg (m : Fin 8) : (s.writeSr v).dreg m = s.dreg m := rfl
@[simp] theorem writeSr_usp : (s.writeSr v).usp = s.usp := rfl
@[simp] theorem writeSr_ssp : (s.writeSr v).ssp = s.ssp := rfl
@[simp] theorem writeSr_mem : (s.writeSr v).mem = s.mem := rfl
@[simp] theorem writeSr_pc : (s.writeSr v).pc = s.pc := rfl
@[simp] theorem writeSr_params : (s.writeSr v).params = s.params := rfl
end writeCcr

end Sys2Proof.Machine
end

