-- ==== Sys2Proof/Laws/Ops.lean ====
section
/-! SUPPORT. What each shared operation can do: the equations of the operations of an instruction, when an
access succeeds and what it then answers, and what an instruction's outcome is. -/

namespace Sys2Proof.Machine

/-! ### Sequencing -/

variable {α β : Type}

theorem bind_ok {m : M α} {f : α → M β} {s t : State} {a : α} (h : m s = .ok a t) : (m >>= f) s = f a t := by
  show EStateM.bind m f s = _
  simp [EStateM.bind, h]

theorem bind_error {m : M α} {f : α → M β} {s t : State} {e : Abort} (h : m s = .error e t) : (m >>= f) s = .error e t := by
  show EStateM.bind m f s = _
  simp [EStateM.bind, h]

/-- A sequence that completes completed in its first part. -/
theorem bind_eq_ok {m : M α} {f : α → M β} {s t : State} {b : β} (h : (m >>= f) s = .ok b t) :
    ∃ a u, m s = .ok a u ∧ f a u = .ok b t := by
  cases hm : m s with
  | ok a u => exact ⟨a, u, rfl, by rwa [bind_ok hm] at h⟩
  | error e u => rw [bind_error hm] at h; cases h

@[simp] theorem pure_apply (a : α) (s : State) : (pure a : M α) s = .ok a s := rfl
@[simp] theorem getState_apply (s : State) : getState s = .ok s s := rfl
@[simp] theorem modifyState_apply (f : State → State) (s : State) : modifyState f s = .ok () (f s) := rfl
@[simp] theorem raiseFault_apply (k : IrqKind) (aux : Aux) (s : State) :
    (raiseFault k aux : M α) s = .error (.fault k aux) s := rfl
@[simp] theorem raiseTrap_apply (k : IrqKind) (s : State) : (raiseTrap k : M α) s = .error (.trap k) s := rfl
@[simp] theorem haltCore_apply (s : State) : haltCore s = .error .halted { s with run := .halted } := rfl
@[simp] theorem stopStuck_apply (f : Fault) (s : State) : (stopStuck f : M α) s = .error (.stuck f) s := rfl
@[simp] theorem drawBit_apply (s : State) : drawBit s = .ok (Config.freeBit s.draws) { s with draws := s.draws + 1 } := rfl
@[simp] theorem drawByte_apply (s : State) : drawByte s = .ok (Config.freeByte s.draws) { s with draws := s.draws + 1 } := rfl

@[simp] theorem getState_bind (f : State → M β) (s : State) : (getState >>= f) s = f s s := rfl
@[simp] theorem modifyState_bind (g : State → State) (f : Unit → M β) (s : State) : (modifyState g >>= f) s = f () (g s) := rfl
@[simp] theorem pure_bind_apply (a : α) (f : α → M β) (s : State) : ((pure a : M α) >>= f) s = f a s := rfl
@[simp] theorem drawBit_bind (f : Bool → M β) (s : State) :
    (drawBit >>= f) s = f (Config.freeBit s.draws) { s with draws := s.draws + 1 } := rfl
@[simp] theorem drawByte_bind (f : Byte → M β) (s : State) :
    (drawByte >>= f) s = f (Config.freeByte s.draws) { s with draws := s.draws + 1 } := rfl

/-! ### Accesses -/

theorem memRead_readable {s : State} {sp : Space} {sz : Size} {addr : Word} (h : s.readable addr sz) :
    memRead sp sz addr s = .ok (readMem s.mem addr sz) s := by
  simp [memRead, h.1, h.2]

theorem memWrite_writable {s : State} {sz : Size} {addr v : Word} (h : s.writable addr sz) :
    memWrite sz addr v s = .ok () { s with mem := writeMem s.mem addr sz v } := by
  simp [memWrite, h.1, h.2]

theorem memRead_device {s : State} {sp : Space} {sz : Size} {addr : Word} (hm : misaligned addr sz = false)
    (h : answerOf s.map addr sz false = .device) :
    memRead sp sz addr s = .ok (valueAt (byteAnswered s.map s.mem (Config.freeWord s.draws) addr) addr sz)
      { s with draws := s.draws + 1, outputs := .deviceRead addr sz :: s.outputs } := by simp [memRead, hm, h]

theorem memWrite_device {s : State} {sz : Size} {addr v : Word} (hm : misaligned addr sz = false)
    (h : answerOf s.map addr sz true = .device) :
    memWrite sz addr v s =
      .ok () { s with mem := storeAt (pokePlain s.map) s.mem addr sz v, outputs := .deviceWrite addr sz (trunc sz v) :: s.outputs } := by
  simp [memWrite, hm, h]

/-- A read answers a value, with at most a draw and a device request, or faults with nothing changed. -/
theorem memRead_cases (sp : Space) (sz : Size) (addr : Word) (s : State) :
    (∃ v d o, memRead sp sz addr s = .ok v { s with draws := d, outputs := o }) ∨
    memRead sp sz addr s = .error (.fault .addressError (s.addrAux addr false sp)) s := by
  unfold memRead
  split
  · exact .inr rfl
  · split
    · exact .inr rfl
    · exact .inr rfl
    · exact .inl ⟨_, s.draws, s.outputs, rfl⟩
    · exact .inl ⟨_, _, _, rfl⟩

/-- A write stores, or stores its plain bytes and sends a device request, or faults with nothing changed. -/
theorem memWrite_cases (sz : Size) (addr v : Word) (s : State) :
    memWrite sz addr v s = .ok () { s with mem := writeMem s.mem addr sz v } ∨
    (∃ o, memWrite sz addr v s = .ok () { s with mem := storeAt (pokePlain s.map) s.mem addr sz v, outputs := o }) ∨
    memWrite sz addr v s = .error (.fault .addressError (s.addrAux addr true .data)) s := by
  unfold memWrite
  split
  · exact .inr (.inr rfl)
  · split
    · exact .inr (.inr rfl)
    · exact .inr (.inr rfl)
    · exact .inl rfl
    · exact .inr (.inl ⟨_, rfl⟩)

theorem fetchWord_readable {s : State} (h : s.readable s.pc .word) :
    fetchWord s = .ok s.wordAtPc { s with pc := s.pc + 2#32 } := by
  unfold fetchWord
  rw [getState_bind, bind_ok (memRead_readable h)]
  rfl

theorem fetchWord_cases (s : State) :
    (∃ v d o, fetchWord s = .ok v { s with pc := s.pc + 2#32, draws := d, outputs := o }) ∨
    fetchWord s = .error (.fault .addressError (s.addrAux s.pc false .program)) s := by
  unfold fetchWord
  rw [getState_bind]
  rcases memRead_cases .program .word s.pc s with ⟨v, d, o, h⟩ | h
  · rw [bind_ok h]
    exact .inl ⟨_, d, o, rfl⟩
  · rw [bind_error h]
    exact .inr rfl

/-- The state after two words of the instruction have been fetched. -/
theorem fetchLong_readable {s : State} (h : s.readable s.pc .word) (h' : s.readable (s.pc + 2#32) .word) :
    fetchLong s = .ok (longOf s.wordAtPc ((readMem s.mem (s.pc + 2#32) .word).setWidth 16)) { s with pc := s.pc + 4#32 } := by
  unfold fetchLong
  rw [bind_ok (fetchWord_readable h)]
  have h2 : State.readable { s with pc := s.pc + 2#32 } (s.pc + 2#32) .word := h'
  rw [bind_ok (fetchWord_readable (s := { s with pc := s.pc + 2#32 }) h2)]
  simp [State.wordAtPc, BitVec.add_assoc]

theorem push_writable {s : State} {sz : Size} {v : Word} (h : s.writable (s.sp - sizeWord sz) sz) :
    push sz v s = .ok () { s.setSp (s.sp - sizeWord sz) with mem := writeMem s.mem (s.sp - sizeWord sz) sz v } := by
  unfold push
  rw [modifyState_bind, getState_bind, setSp_sp]
  have hw : (s.setSp (s.sp - sizeWord sz)).writable (s.sp - sizeWord sz) sz := by
    simpa [State.writable] using h
  rw [memWrite_writable hw, setSp_mem]

theorem pop_readable {s : State} {sz : Size} (h : s.readable s.sp sz) :
    pop sz s = .ok (readMem s.mem s.sp sz) (s.setSp (s.sp + sizeWord sz)) := by
  unfold pop
  rw [getState_bind, bind_ok (memRead_readable h)]
  rfl

/-! ### The outcome of an instruction -/

theorem instruction_ok {body : M Unit} {s t : State} (h : body s = .ok () t) :
    instruction body s = .next (traceAfter (srT1 s.sr) t) := by simp [instruction, h, settle]

theorem instruction_fault {body : M Unit} {s t : State} {k : IrqKind} {aux : Aux} (h : body s = .error (.fault k aux) t) :
    instruction body s = .next (raiseIrq k aux { t with pc := t.pcStart }) := by simp [instruction, h, settle]

theorem instruction_trap {body : M Unit} {s t : State} {k : IrqKind} (h : body s = .error (.trap k) t) :
    instruction body s = .next (raiseIrq k 0#64 t) := by simp [instruction, h, settle]

theorem instruction_halted {body : M Unit} {s t : State} (h : body s = .error .halted t) :
    instruction body s = .next t := by simp [instruction, h, settle]

/-- Return, over whether a group-0 interrupt is active (60_exceptions.md R411, R437). -/
theorem returnFromException_none {s : State} (h : s.active = none) :
    returnFromException s = returnFromException.restoreFrame s := by
  rw [returnFromException, getState_bind]; simp only [h]

theorem returnFromException_some {s : State} {k : IrqKind} {aux : Aux} (h : s.active = some (k, aux)) (hk : irqGroup k ≠ 0) :
    returnFromException s = returnFromException.restoreFrame s := by
  rw [returnFromException, getState_bind]; simp only [h, hk, if_false]

theorem returnFromException_group0 {s : State} {k : IrqKind} {aux : Aux} (h : s.active = some (k, aux)) (hk : irqGroup k = 0) :
    returnFromException s = .error .halted { s with run := .halted } := by
  rw [returnFromException, getState_bind]; simp [h, hk]

theorem privileged_supervisor {body : M Unit} {s : State} (h : s.supervisor = true) : privileged body s = body s := by
  simp [privileged, h]

theorem privileged_user {body : M Unit} {s : State} (h : s.supervisor = false) :
    privileged body s = .error (.fault .privilegeViolation 0#64) s := by simp [privileged, h]

@[simp] theorem traceAfter_false (s : State) : traceAfter false s = s := rfl
@[simp] theorem traceAfter_true (s : State) : traceAfter true s = raiseIrq .trace 0#64 s := rfl

/-! ### The operand shapes -/

theorem readEa_ok {ea : EA} {sz : Size} {s s1 s2 : State} {loc : Loc} {v : Word} (h1 : resolve ea sz true s = .ok loc s1)
    (h2 : readLoc loc sz s1 = .ok v s2) : readEa ea sz s = .ok v s2 := by
  unfold readEa
  rw [bind_ok h1, h2]

theorem writeEa_ok {ea : EA} {sz : Size} {s s1 s2 : State} {loc : Loc} {v : Word} (h1 : resolve ea sz true s = .ok loc s1)
    (h2 : writeLoc loc sz v s1 = .ok () s2) : writeEa ea sz v s = .ok () s2 := by
  unfold writeEa
  rw [bind_ok h1, h2]

theorem modifyEa_ok {ea : EA} {sz : Size} {f : State → Word → Word × Flags} {s s1 s2 s3 : State} {loc : Loc} {d : Word}
    (h1 : resolve ea sz true s = .ok loc s1) (h2 : readLoc loc sz s1 = .ok d s2)
    (h3 : writeLoc loc sz (f s2 d).1 s2 = .ok () s3) : modifyEa ea sz f s = .ok () (s3.setFlags (f s2 d).2) := by
  unfold modifyEa
  rw [bind_ok h1, bind_ok h2, getState_bind, bind_ok h3]
  rfl

theorem combineDn_ok {dn : Fin 8} {ea : EA} {sz : Size} {f : State → Word → Word × Flags} {s t : State} {v : Word}
    (h : readEa ea sz s = .ok v t) : combineDn dn ea sz f s = .ok () ((t.setDreg dn sz (f t v).1).setFlags (f t v).2) := by
  unfold combineDn
  rw [bind_ok h]
  rfl

theorem compareEa_ok {ea : EA} {sz : Size} {f : State → Word → Flags} {s t : State} {v : Word}
    (h : readEa ea sz s = .ok v t) : compareEa ea sz f s = .ok () (t.setFlags (f t v)) := by
  unfold compareEa
  rw [bind_ok h]
  rfl

theorem controlAddress_ok {ea : EA} {s t : State} {a : Word} {sp : Space} (h : resolve ea .long true s = .ok (.mem a sp) t) :
    controlAddress ea s = .ok a t := by
  unfold controlAddress
  rw [bind_ok h]
  rfl

@[simp] theorem readLoc_dreg (n : Fin 8) (sz : Size) (s : State) : readLoc (.dreg n) sz s = .ok (trunc sz (s.dreg n)) s := rfl
@[simp] theorem readLoc_areg (n : Fin 8) (sz : Size) (s : State) : readLoc (.areg n) sz s = .ok (trunc sz (s.areg n)) s := rfl
@[simp] theorem readLoc_imm (v : Word) (sz : Size) (s : State) : readLoc (.imm v) sz s = .ok v s := rfl
theorem readLoc_mem {s : State} {a : Word} {sp : Space} {sz : Size} (h : s.readable a sz) :
    readLoc (.mem a sp) sz s = .ok (readMem s.mem a sz) s := memRead_readable h
@[simp] theorem writeLoc_dreg (n : Fin 8) (sz : Size) (v : Word) (s : State) :
    writeLoc (.dreg n) sz v s = .ok () (s.setDreg n sz v) := rfl
theorem writeLoc_mem {s : State} {a : Word} {sz : Size} {v : Word} (h : s.writable a sz) :
    writeLoc (.mem a .data) sz v s = .ok () { s with mem := writeMem s.mem a sz v } := memWrite_writable h

end Sys2Proof.Machine
end

