-- ==== Sys2Proof/Laws/Locations.lean ====
section
/-! SUPPORT. The locations an operand resolves to, and what a write of a location leaves alone. -/

namespace Sys2Proof.Machine

variable {α β : Type}

/-- What an operation that completes answers. -/
def Yields (Q : α → Prop) (m : M α) : Prop := ∀ s a t, m s = .ok a t → Q a

/-- The kind of location an addressing mode resolves to. -/
def Loc.fits (ea : EA) (loc : Loc) : Prop :=
  match ea with
  | .dreg n => loc = .dreg n
  | .areg n => loc = .areg n
  | .imm => ∃ v, loc = .imm v
  | .pcDisp | .pcIndex => ∃ a, loc = .mem a .program
  | .ind _ | .postInc _ | .preDec _ | .disp _ | .index _ | .absShort | .absLong => ∃ a, loc = .mem a .data

theorem resolve_fits (ea : EA) (sz : Size) (apply : Bool) : Yields (Loc.fits ea) (Machine.resolve ea sz apply) := by
  intro s loc t h
  cases ea
  case dreg n => cases h; rfl
  case areg n => cases h; rfl
  case ind n => cases h; exact ⟨_, rfl⟩
  case postInc n => cases h; exact ⟨_, rfl⟩
  case preDec n => cases h; exact ⟨_, rfl⟩
  case disp n =>
    obtain ⟨_, _, _, h⟩ := bind_eq_ok h
    cases h; exact ⟨_, rfl⟩
  case index n =>
    obtain ⟨_, _, _, h⟩ := bind_eq_ok h
    obtain ⟨_, _, _, h⟩ := bind_eq_ok h
    cases h; exact ⟨_, rfl⟩
  case absShort =>
    obtain ⟨_, _, _, h⟩ := bind_eq_ok h
    cases h; exact ⟨_, rfl⟩
  case absLong =>
    obtain ⟨_, _, _, h⟩ := bind_eq_ok h
    cases h; exact ⟨_, rfl⟩
  case pcDisp =>
    obtain ⟨_, _, _, h⟩ := bind_eq_ok h
    obtain ⟨_, _, _, h⟩ := bind_eq_ok h
    cases h; exact ⟨_, rfl⟩
  case pcIndex =>
    obtain ⟨_, _, _, h⟩ := bind_eq_ok h
    obtain ⟨_, _, _, h⟩ := bind_eq_ok h
    cases h; exact ⟨_, rfl⟩
  case imm =>
    obtain ⟨_, _, _, h⟩ := bind_eq_ok h
    cases h; exact ⟨_, rfl⟩

/-- The destination operand of the extended operations. -/
def extendedTarget (mode : XMode) (rx : Fin 8) : EA :=
  match mode with
  | .dataRegs => .dreg rx
  | .preDec => .preDec rx

/-- The destination of an extended operation is a data register or a data address. -/
theorem extendedOperands_yields (mode : XMode) (sz : Size) (rx ry : Fin 8) :
    Yields (fun p => p.2.2.fits (extendedTarget mode rx))
      (Machine.extendedOperands mode sz rx ry) := by
  intro s p t h
  cases mode
  · cases h; rfl
  · obtain ⟨_, _, _, h⟩ := bind_eq_ok h
    obtain ⟨loc, _, h1, h⟩ := bind_eq_ok h
    obtain ⟨_, _, _, h⟩ := bind_eq_ok h
    cases h
    exact resolve_fits (.preDec rx) sz true _ loc _ h1

/-- Writing a location leaves the status register and the parameters. -/
theorem writeLoc_kept {loc : Loc} {sz : Size} {v : Word} {s t : State} (h : writeLoc loc sz v s = .ok () t) :
    t.sr = s.sr ∧ t.params = s.params := by
  rcases loc with n | n | ⟨a, sp⟩ | w
  · cases h; exact ⟨rfl, rfl⟩
  · cases sz <;> cases h
    exact ⟨setAreg_sr s n v, setAreg_params s n v⟩
  · cases sp
    · have h : memWrite sz a v s = .ok () t := h
      rcases memWrite_cases sz a v s with e | ⟨o, e⟩ | e <;> rw [e] at h
      · cases h; exact ⟨rfl, rfl⟩
      · cases h; exact ⟨rfl, rfl⟩
      · cases h
    · cases h
  · cases h

end Sys2Proof.Machine
end

