-- ==== Sys2Proof/Laws/Preserve.lean ====
section
/-! SUPPORT. A relation between states that every primitive update keeps is kept by every operation of an
instruction, whether it completes or aborts: proved once, so that a claim about all instructions is a claim
about the updates. -/

namespace Sys2Proof.Machine

variable {α β : Type}

/-- The state an outcome leaves. -/
def leftState : EStateM.Result Abort State α → State
  | .ok _ s => s
  | .error _ s => s

/-- An operation relates its start to the state it leaves. -/
def Preserves (R : State → State → Prop) (m : M α) : Prop := ∀ s, R s (leftState (m s))

/-- The updates an operation may make. -/
structure Permits where
  dreg : Fin 8 → Prop
  areg : Fin 8 → Prop
  /-- the flags it may leave, from the parameters and the old flags -/
  flags : Params → Flags → Flags → Prop
  /-- whether it may write CCR whole -/
  ccr : Prop
  /-- whether it may store -/
  store : Prop
  /-- whether it may write SR whole -/
  sr : Prop
  /-- whether it may write USP by its name -/
  usp : Prop
  /-- whether it may stop the CORE -/
  stop : Prop

/-- Every update. -/
def Permits.all : Permits :=
  { dreg := fun _ => True, areg := fun _ => True, flags := fun _ _ _ => True, ccr := True, store := True,
    sr := True, usp := True, stop := True }

/-- A relation kept by every permitted update of an unprivileged instruction. -/
structure Closed (p : Permits) (R : State → State → Prop) : Prop where
  refl : ∀ s, R s s
  trans : ∀ {s t u}, R s t → R t u → R s u
  pc : ∀ s v, R s { s with pc := v }
  dreg : ∀ s n sz v, p.dreg n → R s (s.setDreg n sz v)
  areg : ∀ s n v, p.areg n → R s (s.setAreg n v)
  flags : ∀ s f, p.flags s.params s.flags f → R s (s.setFlags f)
  ccr : ∀ s v, p.ccr → R s (s.writeCcr v)
  read : ∀ s d o, R s { s with draws := d, outputs := o }
  store : ∀ s a b, p.store → R s { s with mem := poke s.mem a b }

/-- A relation also kept by the updates of the privileged instructions other than RTE. -/
structure ClosedPrivileged (p : Permits) (R : State → State → Prop) : Prop extends Closed p R where
  sr : ∀ s v, p.sr → R s (s.writeSr v)
  usp : ∀ s v, p.usp → R s { s with usp := v }
  stop : ∀ s, p.stop → R s { s with run := .stopped }

/-- A relation also kept by the updates of RTE. -/
structure ClosedReturn (p : Permits) (R : State → State → Prop) : Prop extends ClosedPrivileged p R where
  halt : ∀ s, R s { s with run := .halted }
  inactive : ∀ s, R s { s with active := none }

variable {p : Permits} {R : State → State → Prop}

/-- Fewer permitted updates ask less of a relation. -/
theorem Closed.mono {q : Permits} (h : Closed q R) (hd : ∀ n, p.dreg n → q.dreg n) (ha : ∀ n, p.areg n → q.areg n)
    (hf : ∀ ps f g, p.flags ps f g → q.flags ps f g) (hc : p.ccr → q.ccr) (hs : p.store → q.store) : Closed p R where
  refl := h.refl
  trans := h.trans
  pc := h.pc
  dreg s n sz v hn := h.dreg s n sz v (hd n hn)
  areg s n v hn := h.areg s n v (ha n hn)
  flags s f hp := h.flags s f (hf _ _ _ hp)
  ccr s v hp := h.ccr s v (hc hp)
  read := h.read
  store s a b hp := h.store s a b (hs hp)

theorem Closed.of_all (h : Closed .all R) : Closed p R :=
  h.mono (fun _ _ => trivial) (fun _ _ => trivial) (fun _ _ _ _ => trivial) (fun _ => trivial) fun _ => trivial

theorem ClosedReturn.of_all (h : ClosedReturn .all R) : ClosedReturn p R where
  toClosed := h.toClosed.of_all
  sr s v _ := h.sr s v trivial
  usp s v _ := h.usp s v trivial
  stop s _ := h.stop s trivial
  halt := h.halt
  inactive := h.inactive

theorem Closed.sp (h : Closed p R) (s : State) (v : Word) (h7 : p.areg 7) : R s (s.setSp v) := h.areg s 7 v h7
theorem Closed.draws (h : Closed p R) (s : State) (d : Nat) : R s { s with draws := d } := h.read s d s.outputs

/-- A store puts bytes one at a time. -/
theorem Closed.storeAt (h : Closed p R) {put : Memory → Word → Byte → Memory} (hput : ∀ s a b, R s { s with mem := put s.mem a b })
    (s : State) (a : Word) (sz : Size) (v : Word) : R s { s with mem := Machine.storeAt put s.mem a sz v } :=
  storeAt_induction (P := fun m => R s { s with mem := m }) (fun _ _ _ hm => h.trans hm (hput _ _ _)) (h.refl s) a sz v

theorem Closed.writeMem (h : Closed p R) (hs : p.store) (s : State) (a : Word) (sz : Size) (v : Word) :
    R s { s with mem := Machine.writeMem s.mem a sz v } := h.storeAt (fun s a b => h.store s a b hs) s a sz v

theorem Closed.storePlain (h : Closed p R) (hs : p.store) (map : List Region) (s : State) (a : Word) (sz : Size) (v : Word) :
    R s { s with mem := Machine.storeAt (pokePlain map) s.mem a sz v } := by
  refine h.storeAt (fun s a b => ?_) s a sz v
  unfold pokePlain
  split
  · exact h.refl s
  · exact h.store s a b hs

theorem Closed.outputs (h : Closed p R) (s : State) (o : List Output) : R s { s with outputs := o } := h.read s s.draws o

/-- The permission a write of a location needs. -/
def Permits.loc (p : Permits) : Loc → Prop
  | .dreg n => p.dreg n
  | .areg n => p.areg n
  | .mem _ .data => p.store
  | .mem _ .program | .imm _ => True

/-- The permissions a destination operand needs. -/
structure Permits.Target (p : Permits) (ea : EA) : Prop where
  dreg : ∀ n ∈ dataRegs ea, p.dreg n
  areg : ∀ n ∈ addrRegs ea, p.areg n
  store : inMemory ea = true → p.store

theorem Permits.Target.loc {ea : EA} (h : p.Target ea) {l : Loc} (hl : l.fits ea) : p.loc l := by
  cases ea
  case dreg n => cases hl; exact h.dreg n (by simp [dataRegs])
  case areg n => cases hl; exact h.areg n (by simp [addrRegs])
  case imm => obtain ⟨v, rfl⟩ := hl; trivial
  case pcDisp => obtain ⟨a, rfl⟩ := hl; trivial
  case pcIndex => obtain ⟨a, rfl⟩ := hl; trivial
  all_goals
    obtain ⟨a, rfl⟩ := hl
    exact h.store rfl

theorem sideRegs_addrRegs {ea : EA} {n : Fin 8} (h : n ∈ sideRegs ea) : n ∈ addrRegs ea := by
  cases ea <;> simp_all [sideRegs, addrRegs]

theorem Permits.Target.side {ea : EA} (h : p.Target ea) : ∀ n ∈ sideRegs ea, p.areg n :=
  fun n hn => h.areg n (sideRegs_addrRegs hn)

/-! ### Sequencing -/

theorem Preserves.pure (h : Closed p R) (a : α) : Preserves R (pure a : M α) := fun s => h.refl s

theorem Preserves.bind (h : Closed p R) {m : M α} {f : α → M β} (hm : Preserves R m) (hf : ∀ a, Preserves R (f a)) :
    Preserves R (m >>= f) := by
  intro s
  have h1 := hm s
  cases hs : m s with
  | ok a t =>
    rw [bind_ok hs]
    rw [hs] at h1
    exact h.trans h1 (hf a t)
  | error e t =>
    rw [bind_error hs]
    rw [hs] at h1
    exact h1

theorem Preserves.bindYields (h : Closed p R) {Q : α → Prop} {m : M α} {f : α → M β} (hm : Preserves R m) (hq : Yields Q m)
    (hf : ∀ a, Q a → Preserves R (f a)) : Preserves R (m >>= f) := by
  intro s
  have h1 := hm s
  cases hs : m s with
  | ok a t =>
    rw [bind_ok hs]
    rw [hs] at h1
    exact h.trans h1 (hf a (hq s a t hs) t)
  | error e t =>
    rw [bind_error hs]
    rw [hs] at h1
    exact h1

theorem Preserves.getState (h : Closed p R) : Preserves R Machine.getState := fun s => h.refl s
theorem Preserves.modifyState {f : State → State} (hf : ∀ s, R s (f s)) : Preserves R (Machine.modifyState f) := hf
theorem Preserves.raiseFault (h : Closed p R) (k : IrqKind) (aux : Aux) : Preserves R (Machine.raiseFault k aux : M α) :=
  fun s => h.refl s
theorem Preserves.raiseTrap (h : Closed p R) (k : IrqKind) : Preserves R (Machine.raiseTrap k : M α) := fun s => h.refl s
theorem Preserves.stopStuck (h : Closed p R) (f : Fault) : Preserves R (Machine.stopStuck f : M α) := fun s => h.refl s
theorem Preserves.drawBit (h : Closed p R) : Preserves R Machine.drawBit := fun s => h.draws s _
theorem Preserves.drawByte (h : Closed p R) : Preserves R Machine.drawByte := fun s => h.draws s _

theorem Preserves.ite {c : Prop} [Decidable c] {m m' : M α} (h : Preserves R m) (h' : Preserves R m') :
    Preserves R (if c then m else m') := by split <;> assumption

/-! ### Accesses and operands -/

theorem Preserves.memRead (h : Closed p R) (sp : Space) (sz : Size) (a : Word) : Preserves R (Machine.memRead sp sz a) := by
  intro s
  rcases memRead_cases sp sz a s with ⟨v, d, o, e⟩ | e
  · rw [e]; exact h.read s d o
  · rw [e]; exact h.refl s

theorem Preserves.memWrite (h : Closed p R) (hs : p.store) (sz : Size) (a v : Word) : Preserves R (Machine.memWrite sz a v) := by
  intro s
  rcases memWrite_cases sz a v s with e | ⟨o, e⟩ | e
  · rw [e]; exact h.writeMem hs s a sz v
  · rw [e]; exact h.trans (h.storePlain hs s.map s a sz v) (h.outputs _ o)
  · rw [e]; exact h.refl s

theorem Preserves.fetchWord (h : Closed p R) : Preserves R Machine.fetchWord :=
  .bind h (.getState h) fun _ => .bind h (.memRead h _ _ _) fun _ => .bind h (.modifyState fun s => h.pc s _) fun _ => .pure h _

theorem Preserves.fetchLong (h : Closed p R) : Preserves R Machine.fetchLong :=
  .bind h (.fetchWord h) fun _ => .bind h (.fetchWord h) fun _ => .pure h _

theorem Preserves.push (h : Closed p R) (hs : p.store) (h7 : p.areg 7) (sz : Size) (v : Word) : Preserves R (Machine.push sz v) :=
  .bind h (.modifyState fun s => h.sp s _ h7) fun _ => .bind h (.getState h) fun _ => .memWrite h hs _ _ _

theorem Preserves.pop (h : Closed p R) (h7 : p.areg 7) (sz : Size) : Preserves R (Machine.pop sz) :=
  .bind h (.getState h) fun _ => .bind h (.memRead h _ _ _) fun _ => .bind h (.modifyState fun s => h.sp s _ h7) fun _ => .pure h _

theorem Preserves.immediate (h : Closed p R) (sz : Size) : Preserves R (Machine.immediate sz) := by
  cases sz
  · exact .bind h (.fetchWord h) fun _ => .pure h _
  · exact .bind h (.fetchWord h) fun _ => .pure h _
  · exact .fetchLong h

theorem Preserves.fetchDisp (h : Closed p R) (d : DispSize) : Preserves R (Machine.fetchDisp d) := by
  cases d
  · exact .pure h _
  · exact .bind h (.fetchWord h) fun _ => .pure h _
  · exact .fetchLong h

theorem Preserves.fullIndexed (h : Closed p R) (b : Word) (x : IndexReg) (is : Bool) (bd : DispSize) (ind : Indirection) :
    Preserves R (Machine.fullIndexed b x is bd ind) := by
  refine .bind h (.fetchDisp h _) fun _ => .bind h (.getState h) fun _ => ?_
  cases ind
  · exact .pure h _
  · exact .bind h (.fetchDisp h _) fun _ => .bind h (.memRead h _ _ _) fun _ => .pure h _
  · exact .bind h (.fetchDisp h _) fun _ => .bind h (.memRead h _ _ _) fun _ => .pure h _

theorem Preserves.indexed (h : Closed p R) (b : Word) : Preserves R (Machine.indexed b) := by
  refine .bind h (.fetchWord h) fun e => .bind h (.getState h) fun s => ?_
  split
  · exact .pure h _
  · split
    · exact .raiseFault h _ _
    · exact .fullIndexed h _ _ _ _ _
  · exact .raiseFault h _ _

theorem Preserves.resolve (h : Closed p R) (ea : EA) (sz : Size) (apply : Bool) (hea : ∀ n ∈ sideRegs ea, p.areg n) :
    Preserves R (Machine.resolve ea sz apply) := by
  have step : ∀ n, p.areg n → ∀ (g : State → Word),
      Preserves R (Machine.modifyState fun t => if apply then t.setAreg n (g t) else t) := by
    intro n hn g
    refine .modifyState fun s => ?_
    show R s (if apply = true then s.setAreg n (g s) else s)
    split
    · exact h.areg s n _ hn
    · exact h.refl s
  cases ea
  · exact .pure h _
  · exact .pure h _
  · exact .bind h (.getState h) fun _ => .pure h _
  · exact .bind h (.getState h) fun _ => .bind h (step _ (hea _ (List.mem_singleton_self _)) _) fun _ => .pure h _
  · exact .bind h (.getState h) fun _ => .bind h (step _ (hea _ (List.mem_singleton_self _)) _) fun _ => .pure h _
  · exact .bind h (.fetchWord h) fun _ => .bind h (.getState h) fun _ => .pure h _
  · exact .bind h (.getState h) fun _ => .bind h (.indexed h _) fun _ => .pure h _
  · exact .bind h (.fetchWord h) fun _ => .pure h _
  · exact .bind h (.fetchLong h) fun _ => .pure h _
  · exact .bind h (.getState h) fun _ => .bind h (.fetchWord h) fun _ => .pure h _
  · exact .bind h (.getState h) fun _ => .bind h (.indexed h _) fun _ => .pure h _
  · exact .bind h (.immediate h _) fun _ => .pure h _

theorem Preserves.readLoc (h : Closed p R) (loc : Loc) (sz : Size) : Preserves R (Machine.readLoc loc sz) := by
  cases loc
  · exact .bind h (.getState h) fun _ => .pure h _
  · exact .bind h (.getState h) fun _ => .pure h _
  · exact .memRead h _ _ _
  · exact .pure h _

theorem Preserves.writeLoc (h : Closed p R) (loc : Loc) (hl : p.loc loc) (sz : Size) (v : Word) :
    Preserves R (Machine.writeLoc loc sz v) := by
  rcases loc with n | n | ⟨a, sp⟩ | w
  · exact .modifyState fun s => h.dreg s n sz v hl
  · cases sz
    · exact .stopStuck h _
    · exact .stopStuck h _
    · exact .modifyState fun s => h.areg s n v hl
  · cases sp
    · exact .memWrite h hl _ _ _
    · exact .stopStuck h _
  · exact .stopStuck h _

theorem Preserves.addressOf (h : Closed p R) (loc : Loc) : Preserves R (Machine.addressOf loc) := by
  cases loc
  · exact .stopStuck h _
  · exact .stopStuck h _
  · exact .pure h _
  · exact .stopStuck h _

/-! ### The shapes the meanings share -/

theorem Preserves.readEa (h : Closed p R) (ea : EA) (sz : Size) (hea : ∀ n ∈ sideRegs ea, p.areg n) :
    Preserves R (Machine.readEa ea sz) :=
  .bind h (.resolve h _ _ _ hea) fun _ => .readLoc h _ _

theorem Preserves.writeEa (h : Closed p R) (ea : EA) (sz : Size) (v : Word) (hea : p.Target ea) :
    Preserves R (Machine.writeEa ea sz v) :=
  .bindYields h (.resolve h _ _ _ hea.side) (resolve_fits _ _ _) fun _ hl => .writeLoc h _ (hea.loc hl) _ _

theorem Preserves.controlAddress (h : Closed p R) (ea : EA) (hea : ∀ n ∈ sideRegs ea, p.areg n) :
    Preserves R (Machine.controlAddress ea) :=
  .bind h (.resolve h _ _ _ hea) fun _ => .bind h (.addressOf h _) fun _ => .pure h _

/-- A write of a location, then flags computed from the ones before it. -/
theorem Preserves.writeThenFlags (h : Closed p R) (loc : Loc) (hl : p.loc loc) (sz : Size) (v : Word) (s : State) (f : Flags)
    (hf : p.flags s.params s.flags f) :
    R s (leftState ((do Machine.writeLoc loc sz v; Machine.modifyState fun t => t.setFlags f : M Unit) s)) := by
  have h1 := Preserves.writeLoc h loc hl sz v s
  cases hs : Machine.writeLoc loc sz v s with
  | ok a t =>
    rw [bind_ok hs]
    rw [hs] at h1
    have hk := writeLoc_kept hs
    refine h.trans h1 (h.flags t f ?_)
    rw [hk.2, State.flags, hk.1]
    exact hf
  | error e t =>
    rw [bind_error hs]
    rw [hs] at h1
    exact h1

theorem Preserves.modifyEa (h : Closed p R) (ea : EA) (sz : Size) (f : State → Word → Word × Flags) (hea : p.Target ea)
    (hf : ∀ s d, p.flags s.params s.flags (f s d).2) : Preserves R (Machine.modifyEa ea sz f) :=
  .bindYields h (.resolve h _ _ _ hea.side) (resolve_fits _ _ _) fun _ hl => .bind h (.readLoc h _ _) fun d => fun s =>
    Preserves.writeThenFlags h _ (hea.loc hl) _ _ s _ (hf s d)

theorem Preserves.combineDn (h : Closed p R) (dn : Fin 8) (ea : EA) (sz : Size) (f : State → Word → Word × Flags)
    (hea : ∀ n ∈ sideRegs ea, p.areg n) (hdn : p.dreg dn) (hf : ∀ s d, p.flags s.params s.flags (f s d).2) :
    Preserves R (Machine.combineDn dn ea sz f) :=
  .bind h (.readEa h _ _ hea) fun d => .modifyState fun s => h.trans (h.dreg s dn sz _ hdn) (h.flags _ _ (hf s d))

theorem Preserves.compareEa (h : Closed p R) (ea : EA) (sz : Size) (f : State → Word → Flags)
    (hea : ∀ n ∈ sideRegs ea, p.areg n) (hf : ∀ s d, p.flags s.params s.flags (f s d)) :
    Preserves R (Machine.compareEa ea sz f) :=
  .bind h (.readEa h _ _ hea) fun d => .modifyState fun s => h.flags s _ (hf s d)

theorem Preserves.extendedOperands (h : Closed p R) (mode : XMode) (sz : Size) (rx ry : Fin 8)
    (ha : mode = .preDec → p.areg rx ∧ p.areg ry) : Preserves R (Machine.extendedOperands mode sz rx ry) := by
  cases mode
  · exact .bind h (.getState h) fun _ => .pure h _
  · have hx : ∀ n ∈ sideRegs (.preDec rx), p.areg n := fun n hn => by
      rw [List.mem_singleton.mp hn]; exact (ha rfl).1
    have hy : ∀ n ∈ sideRegs (.preDec ry), p.areg n := fun n hn => by
      rw [List.mem_singleton.mp hn]; exact (ha rfl).2
    exact .bind h (.readEa h _ _ hy) fun _ => .bind h (.resolve h _ _ _ hx) fun _ => .bind h (.readLoc h _ _) fun _ => .pure h _

/-- The outcome of an instruction over what its body left: what a completed, trapped, faulted or halted
instruction does to that state. -/
theorem instruction_cases (body : M Unit) (s : State) :
    (∃ t, body s = .ok () t ∧ instruction body s = .next (traceAfter (srT1 s.sr) t)) ∨
    (∃ k aux t, body s = .error (.fault k aux) t ∧ instruction body s = .next (raiseIrq k aux { t with pc := t.pcStart })) ∨
    (∃ k t, body s = .error (.trap k) t ∧ instruction body s = .next (raiseIrq k 0#64 t)) ∨
    (∃ t, body s = .error .halted t ∧ instruction body s = .next t) ∨
    (∃ f t, body s = .error (.stuck f) t ∧ instruction body s = .fault f) := by
  cases h : body s with
  | ok a t => exact .inl ⟨t, rfl, instruction_ok h⟩
  | error e t =>
    cases e with
    | fault k aux => exact .inr (.inl ⟨k, aux, t, rfl, instruction_fault h⟩)
    | trap k => exact .inr (.inr (.inl ⟨k, t, rfl, instruction_trap h⟩))
    | halted => exact .inr (.inr (.inr (.inl ⟨t, rfl, instruction_halted h⟩)))
    | stuck f => exact .inr (.inr (.inr (.inr ⟨f, t, rfl, by simp [instruction, h, settle]⟩)))

end Sys2Proof.Machine
end

