-- ==== Sys2Proof/Laws/Body.lean ====
section
/-! SUPPORT. Every meaning is one operation run to its end: `bodyOf` names it, so that a claim about all
instructions is proved by cases on the instruction. -/

namespace Sys2Proof.Machine

/-- The operation an instruction's meaning runs. -/
def bodyOf (i : Instr) : M Unit :=
  match i with
  | .oriCcr => ccrImmediate fun v i => v ||| i
  | .oriSr => privileged (srImmediate fun v i => v ||| i)
  | .andiCcr => ccrImmediate fun v i => v &&& i
  | .andiSr => privileged (srImmediate fun v i => v &&& i)
  | .eoriCcr => ccrImmediate fun v i => v ^^^ i
  | .eoriSr => privileged (srImmediate fun v i => v ^^^ i)
  | .movep dir sz dn an => movepBody dir sz dn an
  | .btstReg dn ea => dynamicBit dn >>= bitTest ea
  | .bchgReg dn ea => dynamicBit dn >>= bitChange ea flipBit
  | .bclrReg dn ea => dynamicBit dn >>= bitChange ea clearBit
  | .bsetReg dn ea => dynamicBit dn >>= bitChange ea setBit
  | .btstImm ea => staticBit >>= bitTest ea
  | .bchgImm ea => staticBit >>= bitChange ea flipBit
  | .bclrImm ea => staticBit >>= bitChange ea clearBit
  | .bsetImm ea => staticBit >>= bitChange ea setBit
  | .ori sz ea => logicImmediate sz ea fun d i => d ||| i
  | .andi sz ea => logicImmediate sz ea fun d i => d &&& i
  | .subi sz ea => subiBody sz ea
  | .addi sz ea => addiBody sz ea
  | .eori sz ea => logicImmediate sz ea fun d i => d ^^^ i
  | .cmpi sz ea => cmpiBody sz ea
  | .moveB src dst => moveBody .byte src dst
  | .moveaL an src => moveaBody .long an src
  | .moveL src dst => moveBody .long src dst
  | .moveaW an src => moveaBody .word an src
  | .moveW src dst => moveBody .word src dst
  | .illegal => raiseFault .illegalInstruction 0#64
  | .reset => privileged (modifyState fun t => { t with outputs := .resetDevices :: t.outputs })
  | .nop => pure ()
  | .stop => privileged stopBody
  | .rte => privileged returnFromException
  | .rts => rtsBody
  | .trapv => trapvBody
  | .rtr => rtrBody
  | .trap v => raiseTrap (.trap v)
  | .link an => linkBody an
  | .unlk an => unlkBody an
  | .moveToUsp an => privileged (modifyState fun t => { t with usp := t.areg an })
  | .moveFromUsp an => privileged (modifyState fun t => t.setAreg an t.usp)
  | .jsr ea => jsrBody ea
  | .jmp ea => jmpBody ea
  | .swap dn => modifyState fun t => (t.setDreg dn .long (swapHalves (t.dreg dn))).setFlags (logicFlags .long (swapHalves (t.dreg dn)) t.flags)
  | .extW dn => modifyState fun t => (t.setDreg dn .word (extByte (t.dreg dn))).setFlags (logicFlags .word (extByte (t.dreg dn)) t.flags)
  | .extL dn => modifyState fun t => (t.setDreg dn .long (sextLow (t.dreg dn))).setFlags (logicFlags .long (sextLow (t.dreg dn)) t.flags)
  | .pea ea => peaBody ea
  | .movemToMem sz ea => movemToMemBody sz ea
  | .movemToReg sz ea => movemToRegBody sz ea
  | .nbcd ea => nbcdBody ea
  | .moveFromSr ea => moveFromSrBody ea
  | .moveToCcr ea => moveToCcrBody ea
  | .moveToSr ea => privileged (moveToSrBody ea)
  | .tas ea => tasBody ea
  | .negx sz ea => modifyEa ea sz fun t d => subxOp sz d 0#32 t.flags
  | .clr sz ea => clrBody sz ea
  | .neg sz ea => modifyEa ea sz fun t d => subOp sz d 0#32 t.flags
  | .not sz ea => modifyEa ea sz fun t d => logicOp sz (trunc sz (~~~d)) t.flags
  | .tst sz ea => compareEa ea sz fun t v => logicFlags sz v t.flags
  | .chk dn ea => chkBody dn ea
  | .lea an ea => leaBody an ea
  | .dbcc cond dn => dbccBody cond dn
  | .scc cond ea => sccBody cond ea
  | .addq field sz ea => addqBody field sz ea
  | .subq field sz ea => subqBody field sz ea
  | .bra d8 => branchBody .t d8
  | .bsr d8 => bsrBody d8
  | .bcc cond d8 => branchBody cond d8
  | .moveq dn d8 => modifyState fun t => (t.setDreg dn .long (sext8 d8)).setFlags (logicFlags .long (sext8 d8) t.flags)
  | .divu dn ea => divideBody dn ea divUnsigned
  | .divs dn ea => divideBody dn ea divSigned
  | .sbcd mode rx ry => bcdBody bcdSub mode rx ry
  | .orToDn dn sz ea => combineDn dn ea sz fun t v => logicOp sz (trunc sz (t.dreg dn) ||| v) t.flags
  | .orToEa dn sz ea => modifyEa ea sz fun t d => logicOp sz (d ||| trunc sz (t.dreg dn)) t.flags
  | .suba an sz ea => subaBody an sz ea
  | .subx mode sz rx ry => subxBody mode sz rx ry
  | .subToDn dn sz ea => combineDn dn ea sz fun t v => subOp sz v (trunc sz (t.dreg dn)) t.flags
  | .subToEa dn sz ea => modifyEa ea sz fun t d => subOp sz (trunc sz (t.dreg dn)) d t.flags
  | .lineA _ => raiseFault .line1010Emulator 0#64
  | .cmpa an sz ea => compareEa ea sz fun t v => cmpOp .long (addrOperand sz v) (t.areg an) t.flags
  | .cmpm sz ax ay => cmpmBody sz ax ay
  | .cmp dn sz ea => compareEa ea sz fun t v => cmpOp sz v (trunc sz (t.dreg dn)) t.flags
  | .eor dn sz ea => modifyEa ea sz fun t d => logicOp sz (d ^^^ trunc sz (t.dreg dn)) t.flags
  | .mulu dn ea => muluBody dn ea
  | .muls dn ea => mulsBody dn ea
  | .abcd mode rx ry => bcdBody bcdAdd mode rx ry
  | .exgDD rx ry => modifyState fun t => (t.setDreg rx .long (t.dreg ry)).setDreg ry .long (t.dreg rx)
  | .exgAA rx ry => modifyState fun t => (t.setAreg rx (t.areg ry)).setAreg ry (t.areg rx)
  | .exgDA dx ay => modifyState fun t => (t.setDreg dx .long (t.areg ay)).setAreg ay (t.dreg dx)
  | .andToDn dn sz ea => combineDn dn ea sz fun t v => logicOp sz (trunc sz (t.dreg dn) &&& v) t.flags
  | .andToEa dn sz ea => modifyEa ea sz fun t d => logicOp sz (d &&& trunc sz (t.dreg dn)) t.flags
  | .adda an sz ea => addaBody an sz ea
  | .addx mode sz rx ry => addxBody mode sz rx ry
  | .addToDn dn sz ea => combineDn dn ea sz fun t v => addOp sz v (trunc sz (t.dreg dn)) t.flags
  | .addToEa dn sz ea => modifyEa ea sz fun t d => addOp sz (trunc sz (t.dreg dn)) d t.flags
  | .asrMem ea => shiftMem .arith .right ea
  | .aslMem ea => shiftMem .arith .left ea
  | .lsrMem ea => shiftMem .logical .right ea
  | .lslMem ea => shiftMem .logical .left ea
  | .roxrMem ea => shiftMem .rotateX .right ea
  | .roxlMem ea => shiftMem .rotateX .left ea
  | .rorMem ea => shiftMem .rotate .right ea
  | .rolMem ea => shiftMem .rotate .left ea
  | .asrReg count sz dn => shiftReg .arith .right count sz dn
  | .aslReg count sz dn => shiftReg .arith .left count sz dn
  | .lsrReg count sz dn => shiftReg .logical .right count sz dn
  | .lslReg count sz dn => shiftReg .logical .left count sz dn
  | .roxrReg count sz dn => shiftReg .rotateX .right count sz dn
  | .roxlReg count sz dn => shiftReg .rotateX .left count sz dn
  | .rorReg count sz dn => shiftReg .rotate .right count sz dn
  | .rolReg count sz dn => shiftReg .rotate .left count sz dn
  | .lineF _ => raiseFault .line1111Emulator 0#64

theorem exec_eq_body (i : Instr) (s : State) : exec i s = instruction (bodyOf i) s := by cases i <;> rfl

/-! ### What an instruction's operation is permitted -/

/-- The forms that may store to memory. -/
def mayStore : Instr → Bool
  | .oriCcr | .oriSr | .andiCcr | .andiSr | .eoriCcr | .eoriSr | .btstReg _ _ | .btstImm _ | .cmpi _ _ => false
  | .movep dir _ _ _ => match dir with | .toReg => false | .toMem => true
  | .bchgReg _ ea | .bclrReg _ ea | .bsetReg _ ea | .bchgImm ea | .bclrImm ea | .bsetImm ea => inMemory ea
  | .ori _ ea | .andi _ ea | .subi _ ea | .addi _ ea | .eori _ ea => inMemory ea
  | .moveB _ dst | .moveL _ dst | .moveW _ dst => inMemory dst
  | .link _ | .jsr _ | .pea _ | .bsr _ | .movemToMem _ _ => true
  | .nbcd ea | .moveFromSr ea | .tas ea | .scc _ ea => inMemory ea
  | .negx _ ea | .clr _ ea | .neg _ ea | .not _ ea => inMemory ea
  | .addq _ _ ea | .subq _ _ ea => inMemory ea
  | .sbcd mode _ _ | .abcd mode _ _ | .subx mode _ _ _ | .addx mode _ _ _ => match mode with | .dataRegs => false | .preDec => true
  | .orToEa _ _ ea | .andToEa _ _ ea | .subToEa _ _ ea | .addToEa _ _ ea | .eor _ _ ea => inMemory ea
  | .asrMem ea | .aslMem ea | .lsrMem ea | .lslMem ea | .roxrMem ea | .roxlMem ea | .rorMem ea | .rolMem ea => inMemory ea
  | .moveaL _ _ | .moveaW _ _ | .illegal | .reset | .nop | .stop | .rte | .rts | .trapv | .rtr | .trap _ => false
  | .unlk _ | .moveToUsp _ | .moveFromUsp _ | .jmp _ | .swap _ | .extW _ | .extL _ | .movemToReg _ _ => false
  | .moveToCcr _ | .moveToSr _ | .tst _ _ | .chk _ _ | .lea _ _ | .dbcc _ _ | .bra _ | .bcc _ _ | .moveq _ _ => false
  | .divu _ _ | .divs _ _ | .mulu _ _ | .muls _ _ => false
  | .orToDn _ _ _ | .andToDn _ _ _ | .subToDn _ _ _ | .addToDn _ _ _ => false
  | .suba _ _ _ | .adda _ _ _ | .cmpa _ _ _ | .cmpm _ _ _ | .cmp _ _ _ => false
  | .lineA _ | .lineF _ | .exgDD _ _ | .exgAA _ _ | .exgDA _ _ => false
  | .asrReg _ _ _ | .aslReg _ _ _ | .lsrReg _ _ _ | .lslReg _ _ _ => false
  | .roxrReg _ _ _ | .roxlReg _ _ _ | .rorReg _ _ _ | .rolReg _ _ _ => false


/-- The instructions that write CCR whole. -/
def writesCcr : Instr → Bool
  | .oriCcr | .andiCcr | .eoriCcr | .moveToCcr _ | .rtr => true
  | _ => false

/-- The instructions that write SR whole. -/
def writesSr : Instr → Bool
  | .oriSr | .andiSr | .eoriSr | .moveToSr _ | .stop | .rte => true
  | _ => false

/-- The updates an instruction may make. -/
def permitsOf (i : Instr) : Permits :=
  { dreg := fun n => n ∈ dregsWritten i
    areg := fun n => n ∈ aregsWritten i
    flags := fun ps old new => (flagsWritten ps.rotateUpdatesX i).Keeps old new
    ccr := writesCcr i = true
    store := mayStore i = true
    sr := writesSr i = true
    usp := ∃ n, i = .moveToUsp n
    stop := i = .stop }

/-! ### Which flags the computations keep -/

theorem keeps_all (old new : Flags) : FlagSet.all.Keeps old new :=
  ⟨nofun, nofun, nofun, nofun, nofun⟩

theorem keeps_exceptX {old new : Flags} (hx : new.x = old.x) : FlagSet.exceptX.Keeps old new :=
  ⟨fun _ => hx, nofun, nofun, nofun, nofun⟩

theorem keeps_logic (sz : Size) (r : Word) (old : Flags) : FlagSet.exceptX.Keeps old (logicFlags sz r old) := keeps_exceptX rfl

theorem keeps_cmp (sz : Size) (src dst r : Word) (old : Flags) : FlagSet.exceptX.Keeps old (cmpFlags sz src dst r old) :=
  keeps_exceptX rfl

theorem keeps_z (old : Flags) (z : Bool) : FlagSet.zOnly.Keeps old { old with z := z } :=
  ⟨fun _ => rfl, fun _ => rfl, nofun, fun _ => rfl, fun _ => rfl⟩

theorem keeps_rotate (b : Bool) (sz : Size) (dir : ShiftDir) (count : Nat) (v : Word) (old : Flags) :
    (if b then FlagSet.all else FlagSet.exceptX).Keeps old (shiftOp sz .rotate dir count b v old).2 := by
  cases b
  · refine keeps_exceptX ?_
    show (if count = 0 then old.x else if false = true then _ else old.x) = old.x
    split <;> rfl
  · exact keeps_all _ _

/-! ### The operations of the meanings -/

variable {p : Permits} {R : State → State → Prop}

theorem extended_target {mode : XMode} {rx : Fin 8} (hd : mode = .dataRegs → p.dreg rx) (ha : mode = .preDec → p.areg rx)
    (hs : mode = .preDec → p.store) : p.Target (extendedTarget mode rx) := by
  cases mode
  · exact ⟨fun n hn => List.mem_singleton.mp hn ▸ hd rfl, (nofun), (nofun)⟩
  · exact ⟨nofun, fun n hn => List.mem_singleton.mp hn ▸ ha rfl, fun _ => hs rfl⟩

theorem Preserves.ccrImmediate (h : Closed p R) (hc : p.ccr) (op : Half → Half → Half) : Preserves R (Machine.ccrImmediate op) :=
  .bind h (.fetchWord h) fun _ => .modifyState fun s => h.ccr s _ hc

theorem Preserves.movepLoad (h : Closed p R) (sz : Size) (a : Word) : Preserves R (Machine.movepLoad sz a) := by
  cases sz
  · exact .bind h (.memRead h _ _ _) fun _ => .bind h (.memRead h _ _ _) fun _ => .pure h _
  · exact .bind h (.memRead h _ _ _) fun _ => .bind h (.memRead h _ _ _) fun _ => .pure h _
  · exact .bind h (.memRead h _ _ _) fun _ => .bind h (.memRead h _ _ _) fun _ => .bind h (.memRead h _ _ _) fun _ =>
      .bind h (.memRead h _ _ _) fun _ => .pure h _

theorem Preserves.movepStore (h : Closed p R) (hs : p.store) (sz : Size) (a v : Word) : Preserves R (Machine.movepStore sz a v) := by
  cases sz
  · exact .bind h (.memWrite h hs _ _ _) fun _ => .memWrite h hs _ _ _
  · exact .bind h (.memWrite h hs _ _ _) fun _ => .memWrite h hs _ _ _
  · exact .bind h (.memWrite h hs _ _ _) fun _ => .bind h (.memWrite h hs _ _ _) fun _ => .bind h (.memWrite h hs _ _ _) fun _ =>
      .memWrite h hs _ _ _

theorem Preserves.movepBody (h : Closed p R) (dir : MovepDir) (sz : Size) (dn an : Fin 8) (hd : dir = .toReg → p.dreg dn)
    (hs : dir = .toMem → p.store) : Preserves R (Machine.movepBody dir sz dn an) := by
  refine .bind h (.fetchWord h) fun _ => .bind h (.getState h) fun _ => ?_
  cases dir
  · exact .bind h (.movepLoad h _ _) fun _ => .modifyState fun s => h.dreg s _ _ _ (hd rfl)
  · exact .movepStore h (hs rfl) _ _ _

theorem Preserves.setZ (h : Closed p R) (hf : ∀ ps old z, p.flags ps old { old with z := z }) (g : State → Bool) :
    Preserves R (Machine.modifyState fun s => s.setZ (g s)) := .modifyState fun s => h.flags s _ (hf _ _ _)

theorem Preserves.bitTest (h : Closed p R) (ea : EA) (n : Word) (hea : ∀ n ∈ sideRegs ea, p.areg n)
    (hf : ∀ ps old z, p.flags ps old { old with z := z }) : Preserves R (Machine.bitTest ea n) :=
  .bind h (.readEa h _ _ hea) fun _ => .setZ h hf _

theorem Preserves.bitChange (h : Closed p R) (ea : EA) (f : Word → Word → Word) (n : Word) (hea : p.Target ea)
    (hf : ∀ ps old z, p.flags ps old { old with z := z }) : Preserves R (Machine.bitChange ea f n) :=
  .bindYields h (.resolve h _ _ _ hea.side) (resolve_fits _ _ _) fun _ hl => .bind h (.readLoc h _ _) fun _ =>
    .bind h (.setZ h hf _) fun _ => .writeLoc h _ (hea.loc hl) _ _

theorem Preserves.dynamicBit (h : Closed p R) (dn : Fin 8) : Preserves R (Machine.dynamicBit dn) :=
  .bind h (.getState h) fun _ => .pure h _

theorem Preserves.staticBit (h : Closed p R) : Preserves R Machine.staticBit := .bind h (.fetchWord h) fun _ => .pure h _

theorem Preserves.logicImmediate (h : Closed p R) (sz : Size) (ea : EA) (op : Word → Word → Word) (hea : p.Target ea)
    (hf : ∀ ps old r, p.flags ps old (logicFlags sz r old)) : Preserves R (Machine.logicImmediate sz ea op) :=
  .bind h (.immediate h _) fun _ => .modifyEa h _ _ _ hea fun _ _ => hf _ _ _

theorem Preserves.moveBody (h : Closed p R) (sz : Size) (src dst : EA) (hs : ∀ n ∈ sideRegs src, p.areg n) (hd : p.Target dst)
    (hf : ∀ ps old r, p.flags ps old (logicFlags sz r old)) : Preserves R (Machine.moveBody sz src dst) :=
  .bind h (.readEa h _ _ hs) fun _ => .bind h (.writeEa h _ _ _ hd) fun _ => .modifyState fun s => h.flags s _ (hf _ _ _)

theorem Preserves.moveaBody (h : Closed p R) (sz : Size) (an : Fin 8) (src : EA) (hs : ∀ n ∈ sideRegs src, p.areg n)
    (ha : p.areg an) : Preserves R (Machine.moveaBody sz an src) :=
  .bind h (.readEa h _ _ hs) fun _ => .modifyState fun s => h.areg s _ _ ha

theorem Preserves.linkBody (h : Closed p R) (an : Fin 8) (ha : p.areg an) (h7 : p.areg 7) (hs : p.store) :
    Preserves R (Machine.linkBody an) :=
  .bind h (.fetchWord h) fun _ => .bind h (.getState h) fun _ => .bind h (.memWrite h hs _ _ _) fun _ =>
    .bind h (.modifyState fun s => h.areg s _ _ h7) fun _ => .bind h (.modifyState fun s => h.areg s _ _ ha) fun _ =>
      .modifyState fun s => h.areg s _ _ h7

theorem Preserves.unlkBody (h : Closed p R) (an : Fin 8) (ha : p.areg an) (h7 : p.areg 7) : Preserves R (Machine.unlkBody an) :=
  .bind h (.getState h) fun _ => .bind h (.memRead h _ _ _) fun _ => .bind h (.modifyState fun s => h.areg s _ _ h7) fun _ =>
    .modifyState fun s => h.areg s _ _ ha

theorem Preserves.movemStoreUp (h : Closed p R) (hs : p.store) (sz : Size) (ks : List (Fin 16)) (a : Word) :
    Preserves R (Machine.movemStoreUp sz ks a) := by
  induction ks generalizing a with
  | nil => exact .pure h _
  | cons k rest ih => exact .bind h (.getState h) fun _ => .bind h (.memWrite h hs _ _ _) fun _ => ih _

theorem Preserves.movemStoreDown (h : Closed p R) (hs : p.store) (sz : Size) (ks : List (Fin 16)) (a : Word) :
    Preserves R (Machine.movemStoreDown sz ks a) := by
  induction ks generalizing a with
  | nil => exact .pure h _
  | cons k rest ih => exact .bind h (.getState h) fun _ => .bind h (.memWrite h hs _ _ _) fun _ => ih _

theorem Preserves.movemLoad (h : Closed p R) (hd : ∀ n, p.dreg n) (ha : ∀ n, p.areg n) (sz : Size) (sp : Space)
    (ks : List (Fin 16)) (a : Word) : Preserves R (Machine.movemLoad sz sp ks a) := by
  induction ks generalizing a with
  | nil => exact .pure h _
  | cons k rest ih =>
    refine .bind h (.memRead h _ _ _) fun v => .bind h (.modifyState fun s => ?_) fun _ => ih _
    unfold State.setRegOf
    split
    · exact h.dreg s _ _ _ (hd _)
    · exact h.areg s _ _ (ha _)

theorem Preserves.movemToMemBody (h : Closed p R) (sz : Size) (ea : EA) (hs : p.store) (hea : ∀ n ∈ sideRegs ea, p.areg n) :
    Preserves R (Machine.movemToMemBody sz ea) := by
  refine .bind h (.fetchWord h) fun m => ?_
  cases ea
  case preDec n =>
    exact .bind h (.getState h) fun _ => .bind h (.movemStoreDown h hs _ _ _) fun _ => .modifyState fun s =>
      h.areg s _ _ (hea n (List.mem_singleton_self n))
  all_goals
    exact .bind h (.resolve h _ _ _ hea) fun _ => .bind h (.addressOf h _) fun _ => .bind h (.movemStoreUp h hs _ _ _) fun _ => .pure h _

theorem Preserves.movemToRegBody (h : Closed p R) (hd : ∀ n, p.dreg n) (ha : ∀ n, p.areg n) (sz : Size) (ea : EA) :
    Preserves R (Machine.movemToRegBody sz ea) := by
  refine .bind h (.fetchWord h) fun m => .bind h (.resolve h _ _ _ fun n _ => ha n) fun _ => .bind h (.addressOf h _) fun _ =>
    .bind h (.movemLoad h hd ha _ _ _ _) fun _ => ?_
  cases ea
  case postInc n => exact .modifyState fun s => h.areg s _ _ (ha n)
  all_goals exact .pure h _

theorem Preserves.bcdResult (h : Closed p R) (f : Byte → Byte → Bool → Byte × Bool) (s d : Byte) (x : Bool) :
    Preserves R (Machine.bcdResult f s d x) :=
  .ite (.pure h _) (.bind h (.drawByte h) fun _ => .bind h (.drawBit h) fun _ => .pure h _)

theorem Preserves.bcdFinish (h : Closed p R) (dst : Loc) (r : Byte × Bool) (hl : p.loc dst) (hf : ∀ ps old new, p.flags ps old new) :
    Preserves R (Machine.bcdFinish dst r) :=
  .bind h (.writeLoc h _ hl _ _) fun _ => .bind h (.drawBit h) fun _ => .bind h (.drawBit h) fun _ =>
    .modifyState fun s => h.flags s _ (hf _ _ _)

theorem Preserves.nbcdBody (h : Closed p R) (ea : EA) (hea : p.Target ea) (hf : ∀ ps old new, p.flags ps old new) :
    Preserves R (Machine.nbcdBody ea) :=
  .bindYields h (.resolve h _ _ _ hea.side) (resolve_fits _ _ _) fun _ hl => .bind h (.readLoc h _ _) fun _ =>
    .bind h (.getState h) fun _ => .bind h (.bcdResult h _ _ _ _) fun _ => .bcdFinish h _ _ (hea.loc hl) hf

theorem Preserves.bcdBody (h : Closed p R) (f : Byte → Byte → Bool → Byte × Bool) (mode : XMode) (rx ry : Fin 8)
    (hx : p.Target (extendedTarget mode rx)) (hy : mode = .preDec → p.areg ry) (hf : ∀ ps old new, p.flags ps old new) :
    Preserves R (Machine.bcdBody f mode rx ry) :=
  .bindYields h (.extendedOperands h _ _ _ _ fun e => ⟨hx.areg rx (by subst e; exact List.mem_singleton_self _), hy e⟩)
    (extendedOperands_yields _ _ _ _) fun _ hl => .bind h (.getState h) fun _ => .bind h (.bcdResult h _ _ _ _) fun _ =>
      .bcdFinish h _ _ (hx.loc hl) hf

theorem Preserves.addxBody (h : Closed p R) (mode : XMode) (sz : Size) (rx ry : Fin 8)
    (hx : p.Target (extendedTarget mode rx)) (hy : mode = .preDec → p.areg ry) (hf : ∀ ps old new, p.flags ps old new) :
    Preserves R (Machine.addxBody mode sz rx ry) :=
  .bindYields h (.extendedOperands h _ _ _ _ fun e => ⟨hx.areg rx (by subst e; exact List.mem_singleton_self _), hy e⟩)
    (extendedOperands_yields _ _ _ _) fun _ hl => .bind h (.getState h) fun _ => .bind h (.writeLoc h _ (hx.loc hl) _ _) fun _ =>
      .modifyState fun s => h.flags s _ (hf _ _ _)

theorem Preserves.subxBody (h : Closed p R) (mode : XMode) (sz : Size) (rx ry : Fin 8)
    (hx : p.Target (extendedTarget mode rx)) (hy : mode = .preDec → p.areg ry) (hf : ∀ ps old new, p.flags ps old new) :
    Preserves R (Machine.subxBody mode sz rx ry) :=
  .bindYields h (.extendedOperands h _ _ _ _ fun e => ⟨hx.areg rx (by subst e; exact List.mem_singleton_self _), hy e⟩)
    (extendedOperands_yields _ _ _ _) fun _ hl => .bind h (.getState h) fun _ => .bind h (.writeLoc h _ (hx.loc hl) _ _) fun _ =>
      .modifyState fun s => h.flags s _ (hf _ _ _)

theorem Preserves.addqBody (h : Closed p R) (field : Fin 8) (sz : Size) (ea : EA) (hea : p.Target ea)
    (hf : ea.isAreg = false → ∀ ps old new, p.flags ps old new) : Preserves R (Machine.addqBody field sz ea) := by
  cases ea
  case areg n => exact .modifyState fun s => h.areg s _ _ (hea.areg n (List.mem_singleton_self n))
  all_goals exact .modifyEa h _ _ _ hea fun _ _ => hf rfl _ _ _

theorem Preserves.subqBody (h : Closed p R) (field : Fin 8) (sz : Size) (ea : EA) (hea : p.Target ea)
    (hf : ea.isAreg = false → ∀ ps old new, p.flags ps old new) : Preserves R (Machine.subqBody field sz ea) := by
  cases ea
  case areg n => exact .modifyState fun s => h.areg s _ _ (hea.areg n (List.mem_singleton_self n))
  all_goals exact .modifyEa h _ _ _ hea fun _ _ => hf rfl _ _ _

theorem Preserves.chkFlags (h : Closed p R) (hf : ∀ ps old new, new.x = old.x → p.flags ps old new) (n : Bool) :
    Preserves R (Machine.chkFlags n) :=
  .bind h (.drawBit h) fun _ => .bind h (.drawBit h) fun _ => .bind h (.drawBit h) fun _ => .modifyState fun s =>
    h.flags s _ (hf _ _ _ rfl)

theorem Preserves.chkBody (h : Closed p R) (dn : Fin 8) (ea : EA) (hea : ∀ n ∈ sideRegs ea, p.areg n)
    (hf : ∀ ps old new, new.x = old.x → p.flags ps old new) : Preserves R (Machine.chkBody dn ea) :=
  .bind h (.readEa h _ _ hea) fun _ => .bind h (.getState h) fun _ =>
    .ite (.bind h (.chkFlags h hf _) fun _ => .raiseTrap h _)
      (.ite (.bind h (.chkFlags h hf _) fun _ => .raiseTrap h _) (.bind h (.drawBit h) fun _ => .chkFlags h hf _))

theorem Preserves.divideBody (h : Closed p R) (dn : Fin 8) (ea : EA) (f : Word → Word → Option Word)
    (hea : ∀ n ∈ sideRegs ea, p.areg n) (hdn : p.dreg dn) (hf : ∀ ps old new, new.x = old.x → p.flags ps old new) :
    Preserves R (Machine.divideBody dn ea f) := by
  refine .bind h (.readEa h _ _ hea) fun _ => .bind h (.getState h) fun _ => .ite ?_ ?_
  · exact .bind h (.drawBit h) fun _ => .bind h (.drawBit h) fun _ => .bind h (.drawBit h) fun _ =>
      .bind h (.modifyState fun s => h.flags s _ (hf _ _ _ rfl)) fun _ => .raiseTrap h _
  · split
    · exact .bind h (.drawBit h) fun _ => .bind h (.drawBit h) fun _ => .modifyState fun s => h.flags s _ (hf _ _ _ rfl)
    · exact .modifyState fun s => h.trans (h.dreg s _ _ _ hdn) (h.flags _ _ (hf _ _ _ rfl))

theorem Preserves.branchDisp (h : Closed p R) (d8 : Byte) : Preserves R (Machine.branchDisp d8) :=
  .ite (.bind h (.fetchWord h) fun _ => .pure h _) (.pure h _)

theorem Preserves.branchBody (h : Closed p R) (cond : Cond) (d8 : Byte) : Preserves R (Machine.branchBody cond d8) := by
  refine .bind h (.getState h) fun _ => .bind h (.branchDisp h _) fun _ => .modifyState fun s => ?_
  show R s (if _ then _ else _)
  split
  · exact h.pc s _
  · exact h.refl s

theorem Preserves.dbccBody (h : Closed p R) (cond : Cond) (dn : Fin 8) (hdn : p.dreg dn) :
    Preserves R (Machine.dbccBody cond dn) := by
  refine .bind h (.getState h) fun b => .bind h (.fetchWord h) fun w => .modifyState fun s => ?_
  show R s (if _ then _ else (if _ then _ else _))
  split
  · exact h.refl s
  · split
    · exact h.dreg s _ _ _ hdn
    · exact h.trans (h.dreg s _ _ _ hdn) (h.pc _ _)

theorem Preserves.shiftReg (h : Closed p R) (mode : ShiftMode) (dir : ShiftDir) (count : ShiftCount) (sz : Size) (dn : Fin 8)
    (hdn : p.dreg dn) (hf : ∀ ps old c v, p.flags ps old (shiftOp sz mode dir c ps.rotateUpdatesX v old).2) :
    Preserves R (Machine.shiftReg mode dir count sz dn) :=
  .modifyState fun s => h.trans (h.dreg s dn sz _ hdn) (h.flags _ _ (hf _ _ _ _))

theorem Preserves.shiftMem (h : Closed p R) (mode : ShiftMode) (dir : ShiftDir) (ea : EA) (hea : p.Target ea)
    (hf : ∀ ps old c v, p.flags ps old (shiftOp .word mode dir c ps.rotateUpdatesX v old).2) :
    Preserves R (Machine.shiftMem mode dir ea) :=
  .modifyEa h _ _ _ hea fun _ _ => hf _ _ _ _

/-- Every unprivileged instruction keeps what its updates keep. -/
theorem Preserves.body (i : Instr) (h : Closed (permitsOf i) R) (hi : isPrivileged i = false) : Preserves R (bodyOf i) := by
  have flagged : ∀ (dn : Fin 8) (sz : Size) (f : State → Word) (g : State → Flags), dn ∈ dregsWritten i →
      (∀ s : State, (flagsWritten s.params.rotateUpdatesX i).Keeps s.flags (g s)) →
      Preserves R (Machine.modifyState fun t => (t.setDreg dn sz (f t)).setFlags (g t)) := fun dn sz f g hd hf =>
    .modifyState fun s => h.trans (h.dreg s dn sz (f s) hd) (h.flags _ (g s) (hf s))
  have one : ∀ n : Fin 8, n ∈ [n] := fun n => List.mem_singleton_self n
  cases i with
  | oriCcr => exact .ccrImmediate h rfl _
  | oriSr => simp [isPrivileged] at hi
  | andiCcr => exact .ccrImmediate h rfl _
  | andiSr => simp [isPrivileged] at hi
  | eoriCcr => exact .ccrImmediate h rfl _
  | eoriSr => simp [isPrivileged] at hi
  | movep dir _ _ _ =>
    exact .movepBody h _ _ _ _ (fun e => by subst e; exact one _) fun e => by subst e; rfl
  | btstReg _ _ => exact .bind h (.dynamicBit h _) fun _ => .bitTest h _ _ (fun _ hn => hn) (fun _ _ _ => keeps_z _ _)
  | bchgReg _ _ => exact .bind h (.dynamicBit h _) fun _ => .bitChange h _ _ _ ⟨fun _ hn => hn, fun _ hn => hn, fun hn => hn⟩ (fun _ _ _ => keeps_z _ _)
  | bclrReg _ _ => exact .bind h (.dynamicBit h _) fun _ => .bitChange h _ _ _ ⟨fun _ hn => hn, fun _ hn => hn, fun hn => hn⟩ (fun _ _ _ => keeps_z _ _)
  | bsetReg _ _ => exact .bind h (.dynamicBit h _) fun _ => .bitChange h _ _ _ ⟨fun _ hn => hn, fun _ hn => hn, fun hn => hn⟩ (fun _ _ _ => keeps_z _ _)
  | btstImm _ => exact .bind h (.staticBit h) fun _ => .bitTest h _ _ (fun _ hn => hn) (fun _ _ _ => keeps_z _ _)
  | bchgImm _ => exact .bind h (.staticBit h) fun _ => .bitChange h _ _ _ ⟨fun _ hn => hn, fun _ hn => hn, fun hn => hn⟩ (fun _ _ _ => keeps_z _ _)
  | bclrImm _ => exact .bind h (.staticBit h) fun _ => .bitChange h _ _ _ ⟨fun _ hn => hn, fun _ hn => hn, fun hn => hn⟩ (fun _ _ _ => keeps_z _ _)
  | bsetImm _ => exact .bind h (.staticBit h) fun _ => .bitChange h _ _ _ ⟨fun _ hn => hn, fun _ hn => hn, fun hn => hn⟩ (fun _ _ _ => keeps_z _ _)
  | ori _ _ => exact .logicImmediate h _ _ _ ⟨fun _ hn => hn, fun _ hn => hn, fun hn => hn⟩ (fun _ _ _ => keeps_logic _ _ _)
  | andi _ _ => exact .logicImmediate h _ _ _ ⟨fun _ hn => hn, fun _ hn => hn, fun hn => hn⟩ (fun _ _ _ => keeps_logic _ _ _)
  | subi _ _ => exact .bind h (.immediate h _) fun _ => .modifyEa h _ _ _ ⟨fun _ hn => hn, fun _ hn => hn, fun hn => hn⟩ fun _ _ => keeps_all _ _
  | addi _ _ => exact .bind h (.immediate h _) fun _ => .modifyEa h _ _ _ ⟨fun _ hn => hn, fun _ hn => hn, fun hn => hn⟩ fun _ _ => keeps_all _ _
  | eori _ _ => exact .logicImmediate h _ _ _ ⟨fun _ hn => hn, fun _ hn => hn, fun hn => hn⟩ (fun _ _ _ => keeps_logic _ _ _)
  | cmpi _ _ => exact .bind h (.immediate h _) fun _ => .compareEa h _ _ _ (fun _ hn => hn) fun _ _ => keeps_cmp _ _ _ _ _
  | moveB _ _ => exact .moveBody h _ _ _ (fun _ hn => List.mem_append_left _ hn) ⟨fun _ hn => hn, fun _ hn => List.mem_append_right _ hn, fun hn => hn⟩ (fun _ _ _ => keeps_logic _ _ _)
  | moveaL _ _ => exact .moveaBody h _ _ _ (fun _ hn => List.mem_cons_of_mem _ hn) List.mem_cons_self
  | moveL _ _ => exact .moveBody h _ _ _ (fun _ hn => List.mem_append_left _ hn) ⟨fun _ hn => hn, fun _ hn => List.mem_append_right _ hn, fun hn => hn⟩ (fun _ _ _ => keeps_logic _ _ _)
  | moveaW _ _ => exact .moveaBody h _ _ _ (fun _ hn => List.mem_cons_of_mem _ hn) List.mem_cons_self
  | moveW _ _ => exact .moveBody h _ _ _ (fun _ hn => List.mem_append_left _ hn) ⟨fun _ hn => hn, fun _ hn => List.mem_append_right _ hn, fun hn => hn⟩ (fun _ _ _ => keeps_logic _ _ _)
  | illegal => exact .raiseFault h _ _
  | reset => simp [isPrivileged] at hi
  | nop => exact .pure h _
  | stop => simp [isPrivileged] at hi
  | rte => simp [isPrivileged] at hi
  | rts => exact .bind h (.pop h (one 7) _) fun _ => .modifyState fun s => h.pc s _
  | trapv => exact .bind h (.getState h) fun _ => .ite (.raiseTrap h _) (.pure h _)
  | rtr => exact .bind h (.pop h (one 7) _) fun _ => .bind h (.modifyState fun s => h.ccr s _ rfl) fun _ => .bind h (.pop h (one 7) _) fun _ => .modifyState fun s => h.pc s _
  | trap _ => exact .raiseTrap h _
  | link _ => exact .linkBody h _ List.mem_cons_self (List.mem_cons_of_mem _ (one 7)) rfl
  | unlk _ => exact .unlkBody h _ List.mem_cons_self (List.mem_cons_of_mem _ (one 7))
  | moveToUsp _ => simp [isPrivileged] at hi
  | moveFromUsp _ => simp [isPrivileged] at hi
  | jsr _ => exact .bind h (.controlAddress h _ fun _ hn => List.mem_cons_of_mem _ hn) fun _ => .bind h (.getState h) fun _ => .bind h (.push h rfl List.mem_cons_self _ _) fun _ => .modifyState fun s => h.pc s _
  | jmp _ => exact .bind h (.controlAddress h _ fun _ hn => hn) fun _ => .modifyState fun s => h.pc s _
  | swap _ => exact flagged _ _ _ _ (one _) fun _ => keeps_logic _ _ _
  | extW _ => exact flagged _ _ _ _ (one _) fun _ => keeps_logic _ _ _
  | extL _ => exact flagged _ _ _ _ (one _) fun _ => keeps_logic _ _ _
  | pea _ => exact .bind h (.controlAddress h _ fun _ hn => List.mem_cons_of_mem _ hn) fun _ => .push h rfl List.mem_cons_self _ _
  | movemToMem _ _ => exact .movemToMemBody h _ _ rfl fun _ hn => hn
  | movemToReg _ _ => exact .movemToRegBody h (fun n => List.mem_finRange n) (fun n => List.mem_finRange n) _ _
  | nbcd _ => exact .nbcdBody h _ ⟨fun _ hn => hn, fun _ hn => hn, fun hn => hn⟩ (fun _ _ _ => keeps_all _ _)
  | moveFromSr ea =>
    have target : (permitsOf (.moveFromSr ea)).Target ea := ⟨fun _ hn => hn, fun _ hn => hn, fun hn => hn⟩
    exact .bindYields h (.resolve h _ _ _ target.side) (resolve_fits _ _ _) fun _ hl => .bind h (.getState h) fun _ =>
      .writeLoc h _ (target.loc hl) _ _
  | moveToCcr _ => exact .bind h (.readEa h _ _ (fun _ hn => hn)) fun _ => .modifyState fun s => h.ccr s _ rfl
  | moveToSr _ => simp [isPrivileged] at hi
  | tas ea =>
    have target : (permitsOf (.tas ea)).Target ea := ⟨fun _ hn => hn, fun _ hn => hn, fun hn => hn⟩
    exact .bindYields h (.resolve h _ _ _ target.side) (resolve_fits _ _ _) fun _ hl => .bind h (.readLoc h _ _) fun _ =>
      .bind h (.modifyState fun s => h.flags s _ (keeps_logic _ _ _)) fun _ => .writeLoc h _ (target.loc hl) _ _
  | negx _ _ => exact .modifyEa h _ _ _ ⟨fun _ hn => hn, fun _ hn => hn, fun hn => hn⟩ fun _ _ => keeps_all _ _
  | clr _ _ => exact .bind h (.writeEa h _ _ _ ⟨fun _ hn => hn, fun _ hn => hn, fun hn => hn⟩) fun _ => .modifyState fun s => h.flags s _ (keeps_logic _ _ _)
  | neg _ _ => exact .modifyEa h _ _ _ ⟨fun _ hn => hn, fun _ hn => hn, fun hn => hn⟩ fun _ _ => keeps_all _ _
  | not _ _ => exact .modifyEa h _ _ _ ⟨fun _ hn => hn, fun _ hn => hn, fun hn => hn⟩ fun _ _ => keeps_logic _ _ _
  | tst _ _ => exact .compareEa h _ _ _ (fun _ hn => hn) fun _ _ => keeps_logic _ _ _
  | chk _ _ => exact .chkBody h _ _ (fun _ hn => hn) (fun _ _ _ hx => keeps_exceptX hx)
  | lea _ _ => exact .bind h (.controlAddress h _ fun _ hn => List.mem_cons_of_mem _ hn) fun _ => .modifyState fun s => h.areg s _ _ List.mem_cons_self
  | dbcc _ _ => exact .dbccBody h _ _ (one _)
  | scc c ea =>
    have target : (permitsOf (.scc c ea)).Target ea := ⟨fun _ hn => hn, fun _ hn => hn, fun hn => hn⟩
    exact .bindYields h (.resolve h _ _ _ target.side) (resolve_fits _ _ _) fun _ hl => .bind h (.getState h) fun _ =>
      .writeLoc h _ (target.loc hl) _ _
  | addq _ _ ea =>
    exact .addqBody h _ _ _ ⟨fun _ hn => hn, fun _ hn => hn, fun hn => hn⟩ fun e ps old new => by
      show (if ea.isAreg then FlagSet.none else FlagSet.all).Keeps old new
      rw [e]; exact keeps_all _ _
  | subq _ _ ea =>
    exact .subqBody h _ _ _ ⟨fun _ hn => hn, fun _ hn => hn, fun hn => hn⟩ fun e ps old new => by
      show (if ea.isAreg then FlagSet.none else FlagSet.all).Keeps old new
      rw [e]; exact keeps_all _ _
  | bra _ => exact .branchBody h _ _
  | bsr _ => exact .bind h (.getState h) fun _ => .bind h (.branchDisp h _) fun _ => .bind h (.getState h) fun _ => .bind h (.push h rfl (one 7) _ _) fun _ => .modifyState fun s => h.pc s _
  | bcc _ _ => exact .branchBody h _ _
  | moveq _ _ => exact flagged _ _ _ _ (one _) fun _ => keeps_logic _ _ _
  | divu _ _ => exact .divideBody h _ _ _ (fun _ hn => hn) (one _) (fun _ _ _ hx => keeps_exceptX hx)
  | divs _ _ => exact .divideBody h _ _ _ (fun _ hn => hn) (one _) (fun _ _ _ hx => keeps_exceptX hx)
  | sbcd mode _ _ =>
    exact .bcdBody h _ mode _ _ (extended_target (fun e => by subst e; exact one _) (fun e => by subst e; exact List.mem_cons_of_mem _ (one _)) fun e => by subst e; rfl)
      (fun e => by subst e; exact List.mem_cons_self) (fun _ _ _ => keeps_all _ _)
  | orToDn _ _ _ => exact .combineDn h _ _ _ _ (fun _ hn => hn) (one _) fun _ _ => keeps_logic _ _ _
  | orToEa _ _ _ => exact .modifyEa h _ _ _ ⟨fun _ hn => hn, fun _ hn => hn, fun hn => hn⟩ fun _ _ => keeps_logic _ _ _
  | suba _ _ _ => exact .bind h (.readEa h _ _ fun _ hn => List.mem_cons_of_mem _ hn) fun _ => .modifyState fun s => h.areg s _ _ List.mem_cons_self
  | subx mode _ _ _ =>
    exact .subxBody h mode _ _ _ (extended_target (fun e => by subst e; exact one _) (fun e => by subst e; exact List.mem_cons_of_mem _ (one _)) fun e => by subst e; rfl)
      (fun e => by subst e; exact List.mem_cons_self) (fun _ _ _ => keeps_all _ _)
  | subToDn _ _ _ => exact .combineDn h _ _ _ _ (fun _ hn => hn) (one _) fun _ _ => keeps_all _ _
  | subToEa _ _ _ => exact .modifyEa h _ _ _ ⟨fun _ hn => hn, fun _ hn => hn, fun hn => hn⟩ fun _ _ => keeps_all _ _
  | lineA _ => exact .raiseFault h _ _
  | cmpa _ _ _ => exact .compareEa h _ _ _ (fun _ hn => hn) fun _ _ => keeps_cmp _ _ _ _ _
  | cmpm _ _ _ =>
    exact .bind h (.readEa h _ _ fun _ hn => List.mem_singleton.mp hn ▸ List.mem_cons_self) fun _ =>
      .compareEa h _ _ _ (fun _ hn => List.mem_cons_of_mem _ hn) fun _ _ => keeps_cmp _ _ _ _ _
  | cmp _ _ _ => exact .compareEa h _ _ _ (fun _ hn => hn) fun _ _ => keeps_cmp _ _ _ _ _
  | eor _ _ _ => exact .modifyEa h _ _ _ ⟨fun _ hn => hn, fun _ hn => hn, fun hn => hn⟩ fun _ _ => keeps_logic _ _ _
  | mulu _ _ => exact .bind h (.readEa h _ _ (fun _ hn => hn)) fun _ => .modifyState fun s => h.trans (h.dreg s _ _ _ (one _)) (h.flags _ _ (keeps_logic _ _ _))
  | muls _ _ => exact .bind h (.readEa h _ _ (fun _ hn => hn)) fun _ => .modifyState fun s => h.trans (h.dreg s _ _ _ (one _)) (h.flags _ _ (keeps_logic _ _ _))
  | abcd mode _ _ =>
    exact .bcdBody h _ mode _ _ (extended_target (fun e => by subst e; exact one _) (fun e => by subst e; exact List.mem_cons_of_mem _ (one _)) fun e => by subst e; rfl)
      (fun e => by subst e; exact List.mem_cons_self) (fun _ _ _ => keeps_all _ _)
  | exgDD _ _ => exact .modifyState fun s => h.trans (h.dreg s _ _ _ List.mem_cons_self) (h.dreg _ _ _ _ (List.mem_cons_of_mem _ (one _)))
  | exgAA _ _ => exact .modifyState fun s => h.trans (h.areg s _ _ List.mem_cons_self) (h.areg _ _ _ (List.mem_cons_of_mem _ (one _)))
  | exgDA _ _ => exact .modifyState fun s => h.trans (h.dreg s _ _ _ (one _)) (h.areg _ _ _ (one _))
  | andToDn _ _ _ => exact .combineDn h _ _ _ _ (fun _ hn => hn) (one _) fun _ _ => keeps_logic _ _ _
  | andToEa _ _ _ => exact .modifyEa h _ _ _ ⟨fun _ hn => hn, fun _ hn => hn, fun hn => hn⟩ fun _ _ => keeps_logic _ _ _
  | adda _ _ _ => exact .bind h (.readEa h _ _ fun _ hn => List.mem_cons_of_mem _ hn) fun _ => .modifyState fun s => h.areg s _ _ List.mem_cons_self
  | addx mode _ _ _ =>
    exact .addxBody h mode _ _ _ (extended_target (fun e => by subst e; exact one _) (fun e => by subst e; exact List.mem_cons_of_mem _ (one _)) fun e => by subst e; rfl)
      (fun e => by subst e; exact List.mem_cons_self) (fun _ _ _ => keeps_all _ _)
  | addToDn _ _ _ => exact .combineDn h _ _ _ _ (fun _ hn => hn) (one _) fun _ _ => keeps_all _ _
  | addToEa _ _ _ => exact .modifyEa h _ _ _ ⟨fun _ hn => hn, fun _ hn => hn, fun hn => hn⟩ fun _ _ => keeps_all _ _
  | asrMem _ => exact .shiftMem h _ _ _ ⟨fun _ hn => hn, fun _ hn => hn, fun hn => hn⟩ fun _ _ _ _ => keeps_all _ _
  | aslMem _ => exact .shiftMem h _ _ _ ⟨fun _ hn => hn, fun _ hn => hn, fun hn => hn⟩ fun _ _ _ _ => keeps_all _ _
  | lsrMem _ => exact .shiftMem h _ _ _ ⟨fun _ hn => hn, fun _ hn => hn, fun hn => hn⟩ fun _ _ _ _ => keeps_all _ _
  | lslMem _ => exact .shiftMem h _ _ _ ⟨fun _ hn => hn, fun _ hn => hn, fun hn => hn⟩ fun _ _ _ _ => keeps_all _ _
  | roxrMem _ => exact .shiftMem h _ _ _ ⟨fun _ hn => hn, fun _ hn => hn, fun hn => hn⟩ fun _ _ _ _ => keeps_all _ _
  | roxlMem _ => exact .shiftMem h _ _ _ ⟨fun _ hn => hn, fun _ hn => hn, fun hn => hn⟩ fun _ _ _ _ => keeps_all _ _
  | rorMem _ => exact .shiftMem h _ _ _ ⟨fun _ hn => hn, fun _ hn => hn, fun hn => hn⟩ fun _ _ _ _ => keeps_rotate _ _ _ _ _ _
  | rolMem _ => exact .shiftMem h _ _ _ ⟨fun _ hn => hn, fun _ hn => hn, fun hn => hn⟩ fun _ _ _ _ => keeps_rotate _ _ _ _ _ _
  | asrReg _ _ _ => exact .shiftReg h _ _ _ _ _ (one _) fun _ _ _ _ => keeps_all _ _
  | aslReg _ _ _ => exact .shiftReg h _ _ _ _ _ (one _) fun _ _ _ _ => keeps_all _ _
  | lsrReg _ _ _ => exact .shiftReg h _ _ _ _ _ (one _) fun _ _ _ _ => keeps_all _ _
  | lslReg _ _ _ => exact .shiftReg h _ _ _ _ _ (one _) fun _ _ _ _ => keeps_all _ _
  | roxrReg _ _ _ => exact .shiftReg h _ _ _ _ _ (one _) fun _ _ _ _ => keeps_all _ _
  | roxlReg _ _ _ => exact .shiftReg h _ _ _ _ _ (one _) fun _ _ _ _ => keeps_all _ _
  | rorReg _ _ _ => exact .shiftReg h _ _ _ _ _ (one _) fun _ _ _ _ => keeps_rotate _ _ _ _ _ _
  | rolReg _ _ _ => exact .shiftReg h _ _ _ _ _ (one _) fun _ _ _ _ => keeps_rotate _ _ _ _ _ _
  | lineF _ => exact .raiseFault h _ _

theorem Preserves.privileged (h : Closed p R) {m : M Unit} (hm : Preserves R m) : Preserves R (Machine.privileged m) :=
  .bind h (.getState h) fun _ => .ite hm (.raiseFault h _ _)

theorem Preserves.srImmediate (h : ClosedPrivileged p R) (hs : p.sr) (op : Half → Half → Half) : Preserves R (Machine.srImmediate op) :=
  .bind h.toClosed (.fetchWord h.toClosed) fun _ => .modifyState fun s => h.sr s _ hs

theorem Preserves.returnFromException (h : ClosedReturn p R) (hs : p.sr) (h7 : p.areg 7) : Preserves R Machine.returnFromException := by
  have hc := h.toClosed
  have frame : Preserves R Machine.returnFromException.restoreFrame :=
    .bind hc (.pop hc h7 _) fun a => .bind hc (.pop hc h7 _) fun v => .modifyState fun s =>
      h.trans (h.sr s (v.setWidth 16) hs) (h.trans (h.pc _ a) (h.inactive _))
  refine .bind hc (.getState hc) fun s => ?_
  split
  · exact .ite (fun t => h.halt t) frame
  · exact frame

/-- Every instruction but RTE keeps what its updates keep. -/
theorem Preserves.bodyExceptRte (i : Instr) (h : ClosedPrivileged (permitsOf i) R) (hi : i ≠ .rte) : Preserves R (bodyOf i) := by
  by_cases hp : isPrivileged i = false
  · exact .body i h.toClosed hp
  · have hc := h.toClosed
    cases i
    case rte => exact absurd rfl hi
    all_goals first
      | (exact absurd rfl hp)
      | exact .privileged hc (.srImmediate h rfl _)
      | exact .privileged hc (.modifyState fun s => h.usp s _ ⟨_, rfl⟩)
      | exact .privileged hc (.modifyState fun s => h.areg s _ _ (List.mem_singleton_self _))
      | exact .privileged hc (.modifyState fun s => hc.outputs s _)
      | exact .privileged hc (.bind hc (.readEa hc _ _ fun _ hn => hn) fun _ => .modifyState fun s => h.sr s _ rfl)
      | exact .privileged hc (.bind hc (.fetchWord hc) fun _ => .modifyState fun s => h.trans (h.sr s _ rfl) (h.stop _ rfl))

/-- Every instruction keeps what its updates keep. -/
theorem Preserves.anyBody (i : Instr) (h : ClosedReturn (permitsOf i) R) : Preserves R (bodyOf i) := by
  by_cases hi : i = .rte
  · subst hi
    exact .privileged h.toClosed (.returnFromException h rfl (List.mem_singleton_self 7))
  · exact .bodyExceptRte i h.toClosedPrivileged hi

end Sys2Proof.Machine
end

