-- ==== Sys2Proof/Laws/Exceptions.lean ====
section
/-! SUPPORT. Taking an exception: what Enter leaves when its accesses go through, what Raise and CheckPending
do, and that each keeps the invariant. -/

namespace Sys2Proof.Machine

/-! ### Enter -/

/-- The standard frame and the vector fetch (60_exceptions.md R409): two pushes and a read. -/
def enterTail (k : IrqKind) (aux : Aux) (oldSr : Half) (oldPc : Word) : M Unit := do
  push .word (oldSr.setWidth 32)
  push .long oldPc
  let target ← memRead .data .long (vectorAddress k)
  modifyState fun s => { s with pc := target, active := some (k, aux), run := .running }

theorem enterSequence_eq (k : IrqKind) (aux : Aux) (s : State) :
    enterSequence k aux s =
      (if irqGroup k = 0 then pushGroup0Words aux >>= fun _ => enterTail k aux s.sr s.pc else enterTail k aux s.sr s.pc)
        { s with sr := srEntered s.sr } := by
  unfold enterSequence
  rw [getState_bind, modifyState_bind]
  by_cases h : irqGroup k = 0
  · simp only [h, if_true]; rfl
  · simp only [h, if_false]; rfl

theorem writable_congr {s t : State} (h : t.map = s.map) (a : Word) (sz : Size) : t.writable a sz ↔ s.writable a sz := by
  simp [State.writable, h]

theorem readable_congr {s t : State} (h : t.map = s.map) (a : Word) (sz : Size) : t.readable a sz ↔ s.readable a sz := by
  simp [State.readable, h]

/-- A push in supervisor mode moves SSP and stores there. -/
theorem push_supervisor {s : State} {sz : Size} {v : Word} (hs : s.supervisor = true)
    (h : s.writable (s.ssp - sizeWord sz) sz) :
    push sz v s = .ok () { s with ssp := s.ssp - sizeWord sz, mem := writeMem s.mem (s.ssp - sizeWord sz) sz v } := by
  have e : s.sp = s.ssp := by simp [State.sp, hs]
  rw [push_writable (e ▸ h), e]
  simp [State.setSp, hs]

theorem enterTail_ok {k : IrqKind} {aux : Aux} {oldSr : Half} {oldPc : Word} {s : State} (hs : s.supervisor = true)
    (h1 : s.writable (s.ssp - 2#32) .word) (h2 : s.writable (s.ssp - 6#32) .long)
    (h3 : s.readable (vectorAddress k) .long) :
    let m := writeMem (writeMem s.mem (s.ssp - 2#32) .word (oldSr.setWidth 32)) (s.ssp - 6#32) .long oldPc
    enterTail k aux oldSr oldPc s =
      .ok () { s with ssp := s.ssp - 6#32, mem := m, pc := readMem m (vectorAddress k) .long, active := some (k, aux), run := .running } := by
  intro m
  unfold enterTail
  rw [bind_ok (push_supervisor hs h1)]
  have e6 : s.ssp - sizeWord .word - sizeWord .long = s.ssp - 6#32 := by
    simp [sizeWord, sizeBytes, BitVec.sub_sub]
  rw [bind_ok (push_supervisor (sz := .long) (by exact hs) (by
    show s.writable (s.ssp - sizeWord .word - sizeWord .long) .long
    rw [e6]
    exact h2))]
  simp only [e6]
  rw [bind_ok (memRead_readable (sp := .data) (sz := .long) (addr := vectorAddress k) (by exact h3))]
  rfl

/-- Enter of a kind outside group 0 when its accesses go through (60_exceptions.md R406 to R410, R415). -/
theorem enter_standard {k : IrqKind} {aux : Aux} {s : State} (hk : irqGroup k ≠ 0) (h1 : s.writable (s.ssp - 2#32) .word)
    (h2 : s.writable (s.ssp - 6#32) .long) (h3 : s.readable (vectorAddress k) .long) :
    let m := writeMem (writeMem s.mem (s.ssp - 2#32) .word (s.sr.setWidth 32)) (s.ssp - 6#32) .long s.pc
    enter k aux s =
      { s with sr := srEntered s.sr, ssp := s.ssp - 6#32, mem := m, pc := readMem m (vectorAddress k) .long,
               active := some (k, aux), run := .running } := by
  intro m
  have h := enterTail_ok (k := k) (aux := aux) (oldSr := s.sr) (oldPc := s.pc) (s := { s with sr := srEntered s.sr })
    (by simp [State.supervisor]) h1 h2 h3
  unfold enter
  rw [enterSequence_eq, if_neg hk, h]

theorem pushGroup0Words_ok {aux : Aux} {s : State} (hs : s.supervisor = true) (h1 : s.writable (s.ssp - 2#32) .word)
    (h2 : s.writable (s.ssp - 4#32) .word) (h3 : s.writable (s.ssp - 6#32) .word) (h4 : s.writable (s.ssp - 8#32) .word) :
    let m1 := writeMem s.mem (s.ssp - 2#32) .word ((aux.extractLsb' 48 16).setWidth 32)
    let m2 := writeMem m1 (s.ssp - 4#32) .word ((aux.extractLsb' 32 16).setWidth 32)
    let m3 := writeMem m2 (s.ssp - 6#32) .word ((aux.extractLsb' 16 16).setWidth 32)
    pushGroup0Words aux s =
      .ok () { s with ssp := s.ssp - 8#32, mem := writeMem m3 (s.ssp - 8#32) .word ((aux.extractLsb' 0 16).setWidth 32) } := by
  intro m1 m2 m3
  have e4 : s.ssp - sizeWord .word - sizeWord .word = s.ssp - 4#32 := by simp [sizeWord, sizeBytes, BitVec.sub_sub]
  have e6 : s.ssp - 4#32 - sizeWord .word = s.ssp - 6#32 := by simp [sizeWord, sizeBytes, BitVec.sub_sub]
  have e8 : s.ssp - 6#32 - sizeWord .word = s.ssp - 8#32 := by simp [sizeWord, sizeBytes, BitVec.sub_sub]
  unfold pushGroup0Words
  rw [bind_ok (push_supervisor hs h1), bind_ok (push_supervisor (by exact hs) (by
    show s.writable (s.ssp - sizeWord .word - sizeWord .word) .word
    rw [e4]; exact h2))]
  simp only [e4]
  rw [bind_ok (push_supervisor (by exact hs) (by
    show s.writable (s.ssp - 4#32 - sizeWord .word) .word
    rw [e6]; exact h3))]
  simp only [e6]
  rw [push_supervisor (by exact hs) (by
    show s.writable (s.ssp - 6#32 - sizeWord .word) .word
    rw [e8]; exact h4)]
  simp only [e8]
  rfl

/-- Enter of a group-0 kind when its accesses go through (60_exceptions.md R406 to R410, R415). -/
theorem enter_group0 {k : IrqKind} {aux : Aux} {s : State} (hk : irqGroup k = 0) (h1 : s.writable (s.ssp - 2#32) .word)
    (h2 : s.writable (s.ssp - 4#32) .word) (h3 : s.writable (s.ssp - 6#32) .word) (h4 : s.writable (s.ssp - 8#32) .word)
    (h5 : s.writable (s.ssp - 10#32) .word) (h6 : s.writable (s.ssp - 14#32) .long) (h7 : s.readable (vectorAddress k) .long) :
    let m1 := writeMem s.mem (s.ssp - 2#32) .word ((aux.extractLsb' 48 16).setWidth 32)
    let m2 := writeMem m1 (s.ssp - 4#32) .word ((aux.extractLsb' 32 16).setWidth 32)
    let m3 := writeMem m2 (s.ssp - 6#32) .word ((aux.extractLsb' 16 16).setWidth 32)
    let m4 := writeMem m3 (s.ssp - 8#32) .word ((aux.extractLsb' 0 16).setWidth 32)
    let m := writeMem (writeMem m4 (s.ssp - 10#32) .word (s.sr.setWidth 32)) (s.ssp - 14#32) .long s.pc
    enter k aux s =
      { s with sr := srEntered s.sr, ssp := s.ssp - 14#32, mem := m, pc := readMem m (vectorAddress k) .long,
               active := some (k, aux), run := .running } := by
  intro m1 m2 m3 m4 m
  have hs : State.supervisor { s with sr := srEntered s.sr } = true := by simp [State.supervisor]
  have hw := pushGroup0Words_ok (aux := aux) (s := { s with sr := srEntered s.sr }) hs h1 h2 h3 h4
  have e2 : s.ssp - 8#32 - 2#32 = s.ssp - 10#32 := by simp [BitVec.sub_sub]
  have e6 : s.ssp - 8#32 - 6#32 = s.ssp - 14#32 := by simp [BitVec.sub_sub]
  unfold enter
  rw [enterSequence_eq, if_pos hk, bind_ok hw, enterTail_ok (by exact hs) (by
      show s.writable (s.ssp - 8#32 - 2#32) .word
      rw [e2]; exact h5) (by
      show s.writable (s.ssp - 8#32 - 6#32) .long
      rw [e6]; exact h6) (by exact h7)]
  simp only [e2, e6]
  rfl

/-! ### Raise and CheckPending -/

theorem raiseIrq_enter {k : IrqKind} {aux : Aux} {s : State} (h : s.outranks k = false) : raiseIrq k aux s = enter k aux s := by
  simp [raiseIrq, h]

theorem raiseIrq_queue {k : IrqKind} {aux : Aux} {s : State} (h : s.outranks k = true)
    (hp : s.pending.length ≠ s.params.pendingDepth) : raiseIrq k aux s = { s with pending := (k, aux) :: s.pending } := by
  simp [raiseIrq, h, hp]

theorem raiseIrq_overflow {k : IrqKind} {aux : Aux} {s : State} (h : s.outranks k = true)
    (hp : s.pending.length = s.params.pendingDepth) : raiseIrq k aux s = { s with run := .halted } := by
  simp [raiseIrq, h, hp]

/-- The three things Raise can do. -/
theorem raiseIrq_cases (k : IrqKind) (aux : Aux) (s : State) :
    (s.outranks k = false ∧ raiseIrq k aux s = enter k aux s) ∨
    (s.outranks k = true ∧ s.pending.length ≠ s.params.pendingDepth ∧ raiseIrq k aux s = { s with pending := (k, aux) :: s.pending }) ∨
    (s.outranks k = true ∧ s.pending.length = s.params.pendingDepth ∧ raiseIrq k aux s = { s with run := .halted }) := by
  cases h : s.outranks k
  · exact .inl ⟨rfl, raiseIrq_enter h⟩
  · by_cases hp : s.pending.length = s.params.pendingDepth
    · exact .inr (.inr ⟨rfl, hp, raiseIrq_overflow h hp⟩)
    · exact .inr (.inl ⟨rfl, hp, raiseIrq_queue h hp⟩)

/-- The two things CheckPending can do. -/
theorem checkPending_cases (s : State) :
    checkPending s = s ∨
    ∃ k aux rest, s.pending = (k, aux) :: rest ∧ s.outranks k = false ∧ checkPending s = enter k aux { s with pending := rest } := by
  unfold checkPending
  split
  · exact .inl rfl
  · rename_i k aux rest hp
    cases h : s.outranks k
    · exact .inr ⟨k, aux, rest, hp, h, by simp⟩
    · exact .inl (by simp)

/-! ### Relations kept by taking an exception -/

/-- The updates of Enter: pushes, and reads. -/
def Permits.entry : Permits :=
  { dreg := fun _ => False, areg := fun n => n = 7, flags := fun _ _ _ => False, ccr := False, store := True,
    sr := False, usp := False, stop := False }

/-- A relation kept by every update of Enter of a kind. -/
structure ClosedEntry (k : IrqKind) (R : State → State → Prop) : Prop extends Closed .entry R where
  taken : ∀ s aux, R s { s with active := some (k, aux), run := .running }
  halt : ∀ s, R s { s with run := .halted }

/-- What Enter does after SR has been set. -/
theorem enter_related {k : IrqKind} {R : State → State → Prop} (h : ClosedEntry k R) (aux : Aux) (s : State) :
    R { s with sr := srEntered s.sr } (enter k aux s) := by
  have hc := h.toClosed
  have tail : ∀ sr pc, Preserves R (enterTail k aux sr pc) := fun _ _ =>
    .bind hc (.push hc trivial rfl _ _) fun _ => .bind hc (.push hc trivial rfl _ _) fun _ => .bind hc (.memRead hc _ _ _) fun a =>
      .modifyState fun s => hc.trans (hc.pc s a) (h.taken _ aux)
  have words : Preserves R (pushGroup0Words aux) :=
    .bind hc (.push hc trivial rfl _ _) fun _ => .bind hc (.push hc trivial rfl _ _) fun _ =>
      .bind hc (.push hc trivial rfl _ _) fun _ => .push hc trivial rfl _ _
  have hs : R { s with sr := srEntered s.sr } (leftState (enterSequence k aux s)) := by
    rw [enterSequence_eq]
    split
    · exact Preserves.bind hc words (fun _ => tail _ _) _
    · exact tail _ _ _
  unfold enter
  split
  · rename_i t e; rw [e] at hs; exact hs
  · rename_i a t e; rw [e] at hs; exact h.trans hs (h.halt t)

/-! ### The invariant -/

theorem status_iff (sr mask : Half) : sr &&& ~~~mask = 0#16 ↔ ∀ i, sr.getLsbD i = true → mask.getLsbD i = true := by
  constructor
  · intro h i hi
    by_cases hi16 : i < 16
    · have := congrArg (fun v => BitVec.getLsbD v i) h
      simp only [BitVec.getLsbD_and, BitVec.getLsbD_not, hi16, decide_true, Bool.true_and, hi, BitVec.getLsbD_zero] at this
      simpa using this
    · rw [BitVec.getLsbD_of_ge _ _ (by omega)] at hi
      cases hi
  · intro h
    apply BitVec.eq_of_getLsbD_eq
    intro i hi
    simp only [BitVec.getLsbD_and, BitVec.getLsbD_not, hi, decide_true, Bool.true_and, BitVec.getLsbD_zero]
    cases hs : sr.getLsbD i
    · rfl
    · simp [h i hs]

/-- A mask the spec allows holds every bit that a rule other than a write of SR sets. -/
theorem validParams_mask {p : Params} (h : validParams p = true) (i : Nat) (hi : (0x271F#16).getLsbD i = true) :
    p.srMask.getLsbD i = true := by
  have h1 : p.srMask &&& 0x271F#16 = 0x271F#16 := by
    have := (Bool.and_eq_true_iff.mp h).2
    exact eq_of_beq this
  have := congrArg (fun v => BitVec.getLsbD v i) h1
  simp only [BitVec.getLsbD_and, hi, Bool.and_true] at this
  exact this

theorem ccr_mask {p : Params} (h : validParams p = true) (i : Nat) (hi : i < 5) : p.srMask.getLsbD i = true := by
  refine validParams_mask h i ?_
  have : i = 0 ∨ i = 1 ∨ i = 2 ∨ i = 3 ∨ i = 4 := by omega
  rcases this with rfl | rfl | rfl | rfl | rfl <;> rfl

/-- Nothing of the invariant depends on the registers, pc, the counters or the platform's outputs. -/
theorem State.Inv.of_eq {s t : State} (h : s.Inv) (hm : t.mem = s.mem) (hsr : t.sr = s.sr) (hp : t.pending = s.pending)
    (ha : t.active = s.active) (hps : t.params = s.params) : t.Inv :=
  { memory := by rw [hm]; exact h.memory
    status := by rw [hsr, hps]; exact h.status
    bounded := by rw [hp, hps]; exact h.bounded
    queued := by rw [hp]; exact h.queued
    entered := by rw [ha]; exact h.entered
    parameters := by rw [hps]; exact h.parameters }

theorem State.Inv.withSr {s : State} (h : s.Inv) (v : Half) (hv : ∀ i, v.getLsbD i = true → s.params.srMask.getLsbD i = true) :
    State.Inv { s with sr := v } :=
  { memory := h.memory
    status := (status_iff _ _).mpr hv
    bounded := h.bounded
    queued := h.queued
    entered := h.entered
    parameters := h.parameters }

theorem State.Inv.setFlags {s : State} (h : s.Inv) (f : Flags) : (s.setFlags f).Inv := by
  refine h.withSr _ fun i hi => ?_
  simp only [srWithFlags, BitVec.getLsbD_or, BitVec.getLsbD_and, Bool.or_eq_true, Bool.and_eq_true] at hi
  rcases hi with ⟨h1, _⟩ | h2
  · exact (status_iff _ _).mp h.status i h1
  · by_cases h5 : i < 5
    · exact ccr_mask h.parameters i h5
    · rw [bitsOfFlags_getLsbD_high f i (by omega)] at h2
      cases h2

theorem State.Inv.writeCcr {s : State} (h : s.Inv) (v : Half) : (s.writeCcr v).Inv := by
  refine h.withSr _ fun i hi => ?_
  simp only [srWithCcr, BitVec.getLsbD_or, BitVec.getLsbD_and, Bool.or_eq_true, Bool.and_eq_true] at hi
  rcases hi with ⟨h1, _⟩ | ⟨_, h2⟩
  · exact (status_iff _ _).mp h.status i h1
  · by_cases h5 : i < 5
    · exact ccr_mask h.parameters i h5
    · exfalso
      by_cases h16 : i < 16
      · have : i = 5 ∨ i = 6 ∨ i = 7 ∨ i = 8 ∨ i = 9 ∨ i = 10 ∨ i = 11 ∨ i = 12 ∨ i = 13 ∨ i = 14 ∨ i = 15 := by omega
        rcases this with rfl | rfl | rfl | rfl | rfl | rfl | rfl | rfl | rfl | rfl | rfl <;> exact absurd h2 (by decide)
      · rw [BitVec.getLsbD_of_ge _ _ (by omega)] at h2
        cases h2

theorem State.Inv.writeSr {s : State} (h : s.Inv) (v : Half) : (s.writeSr v).Inv := by
  refine h.withSr _ fun i hi => ?_
  simp only [BitVec.getLsbD_and, Bool.and_eq_true] at hi
  exact hi.2

theorem State.Inv.entering {s : State} (h : s.Inv) : State.Inv { s with sr := srEntered s.sr } := by
  refine h.withSr _ fun i hi => ?_
  simp only [srEntered, BitVec.getLsbD_or, BitVec.getLsbD_and, Bool.or_eq_true, Bool.and_eq_true] at hi
  rcases hi with ⟨h1, _⟩ | h2
  · exact (status_iff _ _).mp h.status i h1
  · have : i = 13 := by
      by_cases h16 : i < 16
      · by_contra hne
        have : i = 0 ∨ i = 1 ∨ i = 2 ∨ i = 3 ∨ i = 4 ∨ i = 5 ∨ i = 6 ∨ i = 7 ∨ i = 8 ∨ i = 9 ∨ i = 10 ∨ i = 11 ∨ i = 12 ∨ i = 14 ∨
          i = 15 := by omega
        rcases this with rfl | rfl | rfl | rfl | rfl | rfl | rfl | rfl | rfl | rfl | rfl | rfl | rfl | rfl | rfl <;>
          exact absurd h2 (by decide)
      · rw [BitVec.getLsbD_of_ge _ _ (by omega)] at h2
        cases h2
    exact this ▸ validParams_mask h.parameters 13 rfl

theorem inv_closed : Closed .all fun s t : State => s.Inv → t.Inv where
  refl _ h := h
  trans f g h := g (f h)
  pc _ _ h := h.of_eq rfl rfl rfl rfl rfl
  dreg _ _ _ _ _ h := h.of_eq rfl rfl rfl rfl rfl
  areg s n v _ h := h.of_eq (setAreg_mem s n v) (setAreg_sr s n v) (setAreg_pending s n v) (setAreg_active s n v) (setAreg_params s n v)
  flags _ f _ h := h.setFlags f
  ccr _ v _ h := h.writeCcr v
  read _ _ _ h := h.of_eq rfl rfl rfl rfl rfl
  store _ a b _ h :=
    { memory := wf_poke _ h.memory a b
      status := h.status
      bounded := h.bounded
      queued := h.queued
      entered := h.entered
      parameters := h.parameters }

theorem inv_closedReturn : ClosedReturn .all fun s t : State => s.Inv → t.Inv where
  toClosed := inv_closed
  sr _ v _ h := h.writeSr v
  usp _ _ _ h := h.of_eq rfl rfl rfl rfl rfl
  stop _ _ h := h.of_eq rfl rfl rfl rfl rfl
  halt _ h := h.of_eq rfl rfl rfl rfl rfl
  inactive _ h :=
    { memory := h.memory
      status := h.status
      bounded := h.bounded
      queued := h.queued
      entered := rfl
      parameters := h.parameters }

theorem inv_closedEntry (k : IrqKind) (hk : k ≠ .reset) : ClosedEntry k fun s t : State => s.Inv → t.Inv where
  toClosed := inv_closed.of_all
  taken _ aux h :=
    { memory := h.memory
      status := h.status
      bounded := h.bounded
      queued := h.queued
      entered := by simp [notReset, hk]
      parameters := h.parameters }
  halt _ h := h.of_eq rfl rfl rfl rfl rfl

theorem inv_enter (k : IrqKind) (hk : k ≠ .reset) (aux : Aux) {s : State} (h : s.Inv) : (enter k aux s).Inv :=
  enter_related (inv_closedEntry k hk) aux s h.entering

theorem inv_raiseIrq (k : IrqKind) (hk : k ≠ .reset) (aux : Aux) {s : State} (h : s.Inv) : (raiseIrq k aux s).Inv := by
  rcases raiseIrq_cases k aux s with ⟨_, e⟩ | ⟨_, hp, e⟩ | ⟨_, _, e⟩ <;> rw [e]
  · exact inv_enter k hk aux h
  · exact
      { memory := h.memory
        status := h.status
        bounded := by
          have := h.bounded
          simp only [List.length_cons]
          omega
        queued := by
          have := h.queued
          simp only [List.all_cons, Bool.and_eq_true]
          exact ⟨by simp [notReset, hk], this⟩
        entered := h.entered
        parameters := h.parameters }
  · exact h.of_eq rfl rfl rfl rfl rfl

theorem inv_checkPending {s : State} (h : s.Inv) : (checkPending s).Inv := by
  rcases checkPending_cases s with e | ⟨k, aux, rest, hp, _, e⟩ <;> rw [e]
  · exact h
  · have hq := h.queued
    rw [hp] at hq
    simp only [List.all_cons, Bool.and_eq_true, notReset, bne_iff_ne] at hq
    refine inv_enter k hq.1 aux ?_
    exact
      { memory := h.memory
        status := h.status
        bounded := by
          have := h.bounded
          rw [hp] at this
          simp only [List.length_cons] at this
          show rest.length ≤ s.params.pendingDepth
          omega
        queued := hq.2
        entered := h.entered
        parameters := h.parameters }

end Sys2Proof.Machine
end

