-- ==== Sys2Proof/Laws/NeverStuck.lean ====
section
/-! SUPPORT. No well-formed instruction reaches the model's own stop: which locations an operand of a class
resolves to, and that every access to them goes through or faults as the spec says. -/

namespace Sys2Proof.Machine

variable {α β : Type}

/-- An abort of a well-formed instruction, over the state it leaves: not the model's own stop, no request of
the RESET kind, and HALTED where it says so. -/
def Abort.ordinary (t : State) : Abort → Prop
  | .fault k _ | .trap k => k ≠ .reset
  | .halted => t.run = .halted
  | .stuck _ => False

/-- An operation that never ends in the model's own stop, nor asks for the RESET kind. -/
def NeverStuck (m : M α) : Prop := ∀ s e t, m s = .error e t → e.ordinary t

theorem NeverStuck.pure (a : α) : NeverStuck (pure a : M α) := fun _ _ _ h => by cases h

theorem NeverStuck.bindYields {Q : α → Prop} {m : M α} {f : α → M β} (hm : NeverStuck m) (hq : Yields Q m)
    (hf : ∀ a, Q a → NeverStuck (f a)) : NeverStuck (m >>= f) := by
  intro s g t h
  cases hs : m s with
  | ok a u =>
    rw [bind_ok hs] at h
    exact hf a (hq s a u hs) u g t h
  | error e u =>
    have hm' := hm s e u hs
    rw [bind_error hs] at h
    cases h
    exact hm'

theorem NeverStuck.bind {m : M α} {f : α → M β} (hm : NeverStuck m) (hf : ∀ a, NeverStuck (f a)) : NeverStuck (m >>= f) :=
  .bindYields (Q := fun _ => True) hm (fun _ _ _ _ => trivial) fun a _ => hf a

theorem NeverStuck.ite {c : Prop} [Decidable c] {m m' : M α} (h : NeverStuck m) (h' : NeverStuck m') :
    NeverStuck (if c then m else m') := by split <;> assumption

theorem NeverStuck.getState : NeverStuck Machine.getState := fun _ _ _ h => by cases h
theorem NeverStuck.modifyState (f : State → State) : NeverStuck (Machine.modifyState f) := fun _ _ _ h => by cases h
theorem NeverStuck.raiseFault {k : IrqKind} (aux : Aux) (hk : k ≠ .reset := by simp) : NeverStuck (Machine.raiseFault k aux : M α) :=
  fun _ _ _ h => by cases h; exact hk
theorem NeverStuck.raiseTrap {k : IrqKind} (hk : k ≠ .reset := by simp) : NeverStuck (Machine.raiseTrap k : M α) :=
  fun _ _ _ h => by cases h; exact hk
theorem NeverStuck.drawBit : NeverStuck Machine.drawBit := fun _ _ _ h => by cases h
theorem NeverStuck.drawByte : NeverStuck Machine.drawByte := fun _ _ _ h => by cases h

theorem NeverStuck.memRead (sp : Space) (sz : Size) (a : Word) : NeverStuck (Machine.memRead sp sz a) := by
  intro s f t h
  rcases memRead_cases sp sz a s with ⟨v, d, o, e⟩ | e <;> rw [e] at h <;> cases h
  exact nofun

theorem NeverStuck.memWrite (sz : Size) (a v : Word) : NeverStuck (Machine.memWrite sz a v) := by
  intro s f t h
  rcases memWrite_cases sz a v s with e | ⟨o, e⟩ | e <;> rw [e] at h <;> cases h
  exact nofun

theorem NeverStuck.fetchWord : NeverStuck Machine.fetchWord := by
  intro s f t h
  rcases fetchWord_cases s with ⟨v, d, o, e⟩ | e <;> rw [e] at h <;> cases h
  exact nofun

theorem NeverStuck.fetchLong : NeverStuck Machine.fetchLong := .bind .fetchWord fun _ => .bind .fetchWord fun _ => .pure _

theorem NeverStuck.push (sz : Size) (v : Word) : NeverStuck (Machine.push sz v) :=
  .bind (.modifyState _) fun _ => .bind .getState fun _ => .memWrite _ _ _

theorem NeverStuck.pop (sz : Size) : NeverStuck (Machine.pop sz) :=
  .bind .getState fun _ => .bind (.memRead _ _ _) fun _ => .bind (.modifyState _) fun _ => .pure _

theorem NeverStuck.immediate (sz : Size) : NeverStuck (Machine.immediate sz) := by
  cases sz
  · exact .bind .fetchWord fun _ => .pure _
  · exact .bind .fetchWord fun _ => .pure _
  · exact .fetchLong

theorem NeverStuck.fetchDisp (d : DispSize) : NeverStuck (Machine.fetchDisp d) := by
  cases d
  · exact .pure _
  · exact .bind .fetchWord fun _ => .pure _
  · exact .fetchLong

theorem NeverStuck.fullIndexed (b : Word) (x : IndexReg) (is : Bool) (bd : DispSize) (ind : Indirection) :
    NeverStuck (Machine.fullIndexed b x is bd ind) := by
  refine .bind (.fetchDisp _) fun _ => .bind .getState fun _ => ?_
  cases ind
  · exact .pure _
  · exact .bind (.fetchDisp _) fun _ => .bind (.memRead _ _ _) fun _ => .pure _
  · exact .bind (.fetchDisp _) fun _ => .bind (.memRead _ _ _) fun _ => .pure _

theorem NeverStuck.indexed (b : Word) : NeverStuck (Machine.indexed b) := by
  refine .bind .fetchWord fun e => .bind .getState fun s => ?_
  split
  · exact .pure _
  · split
    · exact .raiseFault _
    · exact .fullIndexed _ _ _ _ _
  · exact .raiseFault _

theorem NeverStuck.resolve (ea : EA) (sz : Size) (apply : Bool) : NeverStuck (Machine.resolve ea sz apply) := by
  cases ea
  · exact .pure _
  · exact .pure _
  · exact .bind .getState fun _ => .pure _
  · exact .bind .getState fun _ => .bind (.modifyState _) fun _ => .pure _
  · exact .bind .getState fun _ => .bind (.modifyState _) fun _ => .pure _
  · exact .bind .fetchWord fun _ => .bind .getState fun _ => .pure _
  · exact .bind .getState fun _ => .bind (.indexed _) fun _ => .pure _
  · exact .bind .fetchWord fun _ => .pure _
  · exact .bind .fetchLong fun _ => .pure _
  · exact .bind .getState fun _ => .bind .fetchWord fun _ => .pure _
  · exact .bind .getState fun _ => .bind (.indexed _) fun _ => .pure _
  · exact .bind (.immediate _) fun _ => .pure _

/-! ### Accesses to a location -/

theorem NeverStuck.readLoc (loc : Loc) (sz : Size) : NeverStuck (Machine.readLoc loc sz) := by
  cases loc
  · exact .bind .getState fun _ => .pure _
  · exact .bind .getState fun _ => .pure _
  · exact .memRead _ _ _
  · exact .pure _

/-- A location of a data-alterable operand can be written at every size. -/
theorem NeverStuck.writeLoc {ea : EA} (hea : ea.inClass .dataAlterable = true) (loc : Loc) (hl : loc.fits ea) (sz : Size) (v : Word) :
    NeverStuck (Machine.writeLoc loc sz v) := by
  cases ea <;> simp only [EA.inClass, EA.isAlterable, EA.isAreg, Bool.and_false, Bool.false_and, Bool.not_true,
    Bool.false_eq_true] at hea
  case dreg n => cases hl; exact .modifyState _
  all_goals
    obtain ⟨a, rfl⟩ := hl
    exact .memWrite _ _ _

theorem NeverStuck.addressOf {ea : EA} (hea : ea.inClass .memory = true) (hi : ea ≠ .imm) (loc : Loc) (hl : loc.fits ea) :
    NeverStuck (Machine.addressOf loc) := by
  cases ea <;> simp only [EA.inClass, EA.isReg, Bool.not_true, Bool.false_eq_true] at hea
  case imm => exact absurd rfl hi
  all_goals
    obtain ⟨a, rfl⟩ := hl
    exact .pure _

/-! ### The shapes the meanings share -/

theorem NeverStuck.readEa (ea : EA) (sz : Size) : NeverStuck (Machine.readEa ea sz) :=
  .bind (.resolve _ _ _) fun _ => .readLoc _ _

theorem NeverStuck.writeEa {ea : EA} (hea : ea.inClass .dataAlterable = true) (sz : Size) (v : Word) :
    NeverStuck (Machine.writeEa ea sz v) :=
  .bindYields (.resolve _ _ _) (resolve_fits _ _ _) fun _ hl => .writeLoc hea _ hl _ _

theorem control_memory {ea : EA} (h : ea.inClass .control = true) : ea.inClass .memory = true ∧ ea ≠ .imm := by
  cases ea <;> simp [EA.inClass, EA.isControl, EA.isReg] at h ⊢

theorem memoryAlterable_dataAlterable {ea : EA} (h : ea.inClass .memoryAlterable = true) : ea.inClass .dataAlterable = true := by
  cases ea <;> simp [EA.inClass, EA.isAlterable, EA.isReg, EA.isAreg] at h ⊢

theorem NeverStuck.controlAddress {ea : EA} (hea : ea.inClass .control = true) : NeverStuck (Machine.controlAddress ea) :=
  .bindYields (.resolve _ _ _) (resolve_fits _ _ _) fun _ hl =>
    .bind (.addressOf (control_memory hea).1 (control_memory hea).2 _ hl) fun _ => .pure _

theorem NeverStuck.modifyEa {ea : EA} (hea : ea.inClass .dataAlterable = true) (sz : Size) (f : State → Word → Word × Flags) :
    NeverStuck (Machine.modifyEa ea sz f) :=
  .bindYields (.resolve _ _ _) (resolve_fits _ _ _) fun _ hl => .bind (.readLoc _ _) fun _ => .bind .getState fun _ =>
    .bind (.writeLoc hea _ hl _ _) fun _ => .modifyState _

theorem NeverStuck.combineDn (dn : Fin 8) (ea : EA) (sz : Size) (f : State → Word → Word × Flags) :
    NeverStuck (Machine.combineDn dn ea sz f) := .bind (.readEa _ _) fun _ => .modifyState _

theorem NeverStuck.compareEa (ea : EA) (sz : Size) (f : State → Word → Flags) : NeverStuck (Machine.compareEa ea sz f) :=
  .bind (.readEa _ _) fun _ => .modifyState _

theorem NeverStuck.extendedOperands (mode : XMode) (sz : Size) (rx ry : Fin 8) :
    NeverStuck (Machine.extendedOperands mode sz rx ry) := by
  cases mode
  · exact .bind .getState fun _ => .pure _
  · exact .bind (.readEa _ _) fun _ => .bind (.resolve _ _ _) fun _ => .bind (.readLoc _ _) fun _ => .pure _

theorem NeverStuck.writeExtended (mode : XMode) (rx : Fin 8) (loc : Loc)
    (hl : loc.fits (extendedTarget mode rx)) (sz : Size) (v : Word) :
    NeverStuck (Machine.writeLoc loc sz v) := by
  cases mode
  · exact .writeLoc (ea := .dreg rx) rfl _ hl _ _
  · exact .writeLoc (ea := .preDec rx) rfl _ hl _ _

/-! ### The bodies -/

theorem NeverStuck.movepLoad (sz : Size) (a : Word) : NeverStuck (Machine.movepLoad sz a) := by
  cases sz
  · exact .bind (.memRead _ _ _) fun _ => .bind (.memRead _ _ _) fun _ => .pure _
  · exact .bind (.memRead _ _ _) fun _ => .bind (.memRead _ _ _) fun _ => .pure _
  · exact .bind (.memRead _ _ _) fun _ => .bind (.memRead _ _ _) fun _ => .bind (.memRead _ _ _) fun _ =>
      .bind (.memRead _ _ _) fun _ => .pure _

theorem NeverStuck.movepStore (sz : Size) (a v : Word) : NeverStuck (Machine.movepStore sz a v) := by
  cases sz
  · exact .bind (.memWrite _ _ _) fun _ => .memWrite _ _ _
  · exact .bind (.memWrite _ _ _) fun _ => .memWrite _ _ _
  · exact .bind (.memWrite _ _ _) fun _ => .bind (.memWrite _ _ _) fun _ => .bind (.memWrite _ _ _) fun _ => .memWrite _ _ _

theorem NeverStuck.movepBody (dir : MovepDir) (sz : Size) (dn an : Fin 8) : NeverStuck (Machine.movepBody dir sz dn an) := by
  refine .bind .fetchWord fun _ => .bind .getState fun _ => ?_
  cases dir
  · exact .bind (.movepLoad _ _) fun _ => .modifyState _
  · exact .movepStore _ _ _

theorem NeverStuck.bitTest (ea : EA) (n : Word) : NeverStuck (Machine.bitTest ea n) := .bind (.readEa _ _) fun _ => .modifyState _

theorem NeverStuck.bitChange {ea : EA} (hea : ea.inClass .dataAlterable = true) (f : Word → Word → Word) (n : Word) :
    NeverStuck (Machine.bitChange ea f n) :=
  .bindYields (.resolve _ _ _) (resolve_fits _ _ _) fun _ hl => .bind (.readLoc _ _) fun _ => .bind (.modifyState _) fun _ =>
    .writeLoc hea _ hl _ _

theorem NeverStuck.dynamicBit (dn : Fin 8) : NeverStuck (Machine.dynamicBit dn) := .bind .getState fun _ => .pure _
theorem NeverStuck.staticBit : NeverStuck Machine.staticBit := .bind .fetchWord fun _ => .pure _

theorem NeverStuck.movemStoreUp (sz : Size) (ks : List (Fin 16)) (a : Word) : NeverStuck (Machine.movemStoreUp sz ks a) := by
  induction ks generalizing a with
  | nil => exact .pure _
  | cons k rest ih => exact .bind .getState fun _ => .bind (.memWrite _ _ _) fun _ => ih _

theorem NeverStuck.movemStoreDown (sz : Size) (ks : List (Fin 16)) (a : Word) : NeverStuck (Machine.movemStoreDown sz ks a) := by
  induction ks generalizing a with
  | nil => exact .pure _
  | cons k rest ih => exact .bind .getState fun _ => .bind (.memWrite _ _ _) fun _ => ih _

theorem NeverStuck.movemLoad (sz : Size) (sp : Space) (ks : List (Fin 16)) (a : Word) : NeverStuck (Machine.movemLoad sz sp ks a) := by
  induction ks generalizing a with
  | nil => exact .pure _
  | cons k rest ih => exact .bind (.memRead _ _ _) fun _ => .bind (.modifyState _) fun _ => ih _

theorem NeverStuck.movemToMemBody {ea : EA} (hea : ea.inClass .controlAlterableOrPreDec = true) (sz : Size) :
    NeverStuck (Machine.movemToMemBody sz ea) := by
  refine .bind .fetchWord fun m => ?_
  have tail : ea.inClass .memory = true ∧ ea ≠ .imm := by
    cases ea <;> simp [EA.inClass, EA.isControl, EA.isAlterable, EA.isReg] at hea ⊢
  cases ea
  case preDec n => exact .bind .getState fun _ => .bind (.movemStoreDown _ _ _) fun _ => .modifyState _
  all_goals
    exact .bindYields (.resolve _ _ _) (resolve_fits _ _ _) fun _ hl => .bind (.addressOf tail.1 tail.2 _ hl) fun _ =>
      .bind (.movemStoreUp _ _ _) fun _ => .pure _

theorem NeverStuck.movemToRegBody {ea : EA} (hea : ea.inClass .controlOrPostInc = true) (sz : Size) :
    NeverStuck (Machine.movemToRegBody sz ea) := by
  have tail : ea.inClass .memory = true ∧ ea ≠ .imm := by
    cases ea <;> simp [EA.inClass, EA.isControl, EA.isReg] at hea ⊢
  refine .bind .fetchWord fun m => .bindYields (.resolve _ _ _) (resolve_fits _ _ _) fun _ hl =>
    .bind (.addressOf tail.1 tail.2 _ hl) fun _ => .bind (.movemLoad _ _ _ _) fun _ => ?_
  cases ea
  case postInc n => exact .modifyState _
  all_goals exact .pure _

theorem NeverStuck.bcdResult (f : Byte → Byte → Bool → Byte × Bool) (s d : Byte) (x : Bool) :
    NeverStuck (Machine.bcdResult f s d x) := .ite (.pure _) (.bind .drawByte fun _ => .bind .drawBit fun _ => .pure _)

theorem NeverStuck.bcdFinish {ea : EA} (hea : ea.inClass .dataAlterable = true) (dst : Loc) (hl : dst.fits ea) (r : Byte × Bool) :
    NeverStuck (Machine.bcdFinish dst r) :=
  .bind (.writeLoc hea _ hl _ _) fun _ => .bind .drawBit fun _ => .bind .drawBit fun _ => .modifyState _

theorem NeverStuck.nbcdBody {ea : EA} (hea : ea.inClass .dataAlterable = true) : NeverStuck (Machine.nbcdBody ea) :=
  .bindYields (.resolve _ _ _) (resolve_fits _ _ _) fun _ hl => .bind (.readLoc _ _) fun _ => .bind .getState fun _ =>
    .bind (.bcdResult _ _ _ _) fun _ => .bcdFinish hea _ hl _

theorem NeverStuck.bcdBody (f : Byte → Byte → Bool → Byte × Bool) (mode : XMode) (rx ry : Fin 8) :
    NeverStuck (Machine.bcdBody f mode rx ry) := by
  refine .bindYields (.extendedOperands _ _ _ _) (extendedOperands_yields _ _ _ _) fun p hl => .bind .getState fun _ =>
    .bind (.bcdResult _ _ _ _) fun _ => ?_
  cases mode
  · exact .bcdFinish (ea := .dreg rx) rfl _ hl _
  · exact .bcdFinish (ea := .preDec rx) rfl _ hl _

theorem NeverStuck.addxBody (mode : XMode) (sz : Size) (rx ry : Fin 8) : NeverStuck (Machine.addxBody mode sz rx ry) :=
  .bindYields (.extendedOperands _ _ _ _) (extendedOperands_yields _ _ _ _) fun _ hl => .bind .getState fun _ =>
    .bind (.writeExtended _ _ _ hl _ _) fun _ => .modifyState _

theorem NeverStuck.subxBody (mode : XMode) (sz : Size) (rx ry : Fin 8) : NeverStuck (Machine.subxBody mode sz rx ry) :=
  .bindYields (.extendedOperands _ _ _ _) (extendedOperands_yields _ _ _ _) fun _ hl => .bind .getState fun _ =>
    .bind (.writeExtended _ _ _ hl _ _) fun _ => .modifyState _

theorem alterable_cases {ea : EA} (h : ea.inClass .alterable = true) : (∃ n, ea = .areg n) ∨ ea.inClass .dataAlterable = true := by
  cases ea <;> simp [EA.inClass, EA.isAlterable, EA.isAreg] at h ⊢

theorem NeverStuck.addqBody {ea : EA} (hea : ea.inClass .alterable = true) (field : Fin 8) (sz : Size) :
    NeverStuck (Machine.addqBody field sz ea) := by
  rcases alterable_cases hea with ⟨n, rfl⟩ | h
  · exact .modifyState _
  · cases ea
    case areg n => exact .modifyState _
    all_goals exact .modifyEa h _ _

theorem NeverStuck.subqBody {ea : EA} (hea : ea.inClass .alterable = true) (field : Fin 8) (sz : Size) :
    NeverStuck (Machine.subqBody field sz ea) := by
  rcases alterable_cases hea with ⟨n, rfl⟩ | h
  · exact .modifyState _
  · cases ea
    case areg n => exact .modifyState _
    all_goals exact .modifyEa h _ _

theorem NeverStuck.chkFlags (n : Bool) : NeverStuck (Machine.chkFlags n) :=
  .bind .drawBit fun _ => .bind .drawBit fun _ => .bind .drawBit fun _ => .modifyState _

theorem NeverStuck.chkBody (dn : Fin 8) (ea : EA) : NeverStuck (Machine.chkBody dn ea) :=
  .bind (.readEa _ _) fun _ => .bind .getState fun _ =>
    .ite (.bind (.chkFlags _) fun _ => .raiseTrap)
      (.ite (.bind (.chkFlags _) fun _ => .raiseTrap) (.bind .drawBit fun _ => .chkFlags _))

theorem NeverStuck.divideBody (dn : Fin 8) (ea : EA) (f : Word → Word → Option Word) : NeverStuck (Machine.divideBody dn ea f) := by
  refine .bind (.readEa _ _) fun _ => .bind .getState fun _ => .ite ?_ ?_
  · exact .bind .drawBit fun _ => .bind .drawBit fun _ => .bind .drawBit fun _ => .bind (.modifyState _) fun _ => .raiseTrap
  · split
    · exact .bind .drawBit fun _ => .bind .drawBit fun _ => .modifyState _
    · exact .modifyState _

theorem NeverStuck.branchDisp (d8 : Byte) : NeverStuck (Machine.branchDisp d8) :=
  .ite (.bind .fetchWord fun _ => .pure _) (.pure _)

theorem NeverStuck.privileged {m : M Unit} (hm : NeverStuck m) : NeverStuck (Machine.privileged m) :=
  .bind .getState fun _ => .ite hm (.raiseFault _)

theorem NeverStuck.returnFromException : NeverStuck Machine.returnFromException := by
  have frame : NeverStuck Machine.returnFromException.restoreFrame :=
    .bind (.pop _) fun _ => .bind (.pop _) fun _ => .modifyState _
  refine .bind .getState fun s => ?_
  split
  · exact .ite (fun _ _ _ h => by cases h; rfl) frame
  · exact frame

/-- No well-formed instruction ends in the model's own stop. -/
theorem NeverStuck.body (i : Instr) (hwf : i.wf = true) : NeverStuck (bodyOf i) := by
  cases i with
  | oriCcr => exact .bind .fetchWord fun _ => .modifyState _
  | oriSr => exact .privileged (.bind .fetchWord fun _ => .modifyState _)
  | andiCcr => exact .bind .fetchWord fun _ => .modifyState _
  | andiSr => exact .privileged (.bind .fetchWord fun _ => .modifyState _)
  | eoriCcr => exact .bind .fetchWord fun _ => .modifyState _
  | eoriSr => exact .privileged (.bind .fetchWord fun _ => .modifyState _)
  | movep _ _ _ _ => exact .movepBody _ _ _ _
  | btstReg _ _ => exact .bind (.dynamicBit _) fun _ => .bitTest _ _
  | bchgReg _ _ => exact .bind (.dynamicBit _) fun _ => .bitChange hwf _ _
  | bclrReg _ _ => exact .bind (.dynamicBit _) fun _ => .bitChange hwf _ _
  | bsetReg _ _ => exact .bind (.dynamicBit _) fun _ => .bitChange hwf _ _
  | btstImm _ => exact .bind .staticBit fun _ => .bitTest _ _
  | bchgImm _ => exact .bind .staticBit fun _ => .bitChange hwf _ _
  | bclrImm _ => exact .bind .staticBit fun _ => .bitChange hwf _ _
  | bsetImm _ => exact .bind .staticBit fun _ => .bitChange hwf _ _
  | ori _ _ => exact .bind (.immediate _) fun _ => .modifyEa hwf _ _
  | andi _ _ => exact .bind (.immediate _) fun _ => .modifyEa hwf _ _
  | subi _ _ => exact .bind (.immediate _) fun _ => .modifyEa hwf _ _
  | addi _ _ => exact .bind (.immediate _) fun _ => .modifyEa hwf _ _
  | eori _ _ => exact .bind (.immediate _) fun _ => .modifyEa hwf _ _
  | cmpi _ _ => exact .bind (.immediate _) fun _ => .compareEa _ _ _
  | moveB _ _ => exact .bind (.readEa _ _) fun _ => .bind (.writeEa (Bool.and_eq_true_iff.mp hwf).2 _ _) fun _ => .modifyState _
  | moveaL _ _ => exact .bind (.readEa _ _) fun _ => .modifyState _
  | moveL _ _ => exact .bind (.readEa _ _) fun _ => .bind (.writeEa hwf _ _) fun _ => .modifyState _
  | moveaW _ _ => exact .bind (.readEa _ _) fun _ => .modifyState _
  | moveW _ _ => exact .bind (.readEa _ _) fun _ => .bind (.writeEa hwf _ _) fun _ => .modifyState _
  | illegal => exact .raiseFault _
  | reset => exact .privileged (.modifyState _)
  | nop => exact .pure _
  | stop => exact .privileged (.bind .fetchWord fun _ => .modifyState _)
  | rte => exact .privileged .returnFromException
  | rts => exact .bind (.pop _) fun _ => .modifyState _
  | trapv => exact .bind .getState fun _ => .ite (.raiseTrap) (.pure _)
  | rtr => exact .bind (.pop _) fun _ => .bind (.modifyState _) fun _ => .bind (.pop _) fun _ => .modifyState _
  | trap _ => exact .raiseTrap
  | link _ => exact .bind .fetchWord fun _ => .bind .getState fun _ => .bind (.memWrite _ _ _) fun _ => .bind (.modifyState _) fun _ => .bind (.modifyState _) fun _ => .modifyState _
  | unlk _ => exact .bind .getState fun _ => .bind (.memRead _ _ _) fun _ => .bind (.modifyState _) fun _ => .modifyState _
  | moveToUsp _ => exact .privileged (.modifyState _)
  | moveFromUsp _ => exact .privileged (.modifyState _)
  | jsr _ => exact .bind (.controlAddress hwf) fun _ => .bind .getState fun _ => .bind (.push _ _) fun _ => .modifyState _
  | jmp _ => exact .bind (.controlAddress hwf) fun _ => .modifyState _
  | swap _ => exact .modifyState _
  | extW _ => exact .modifyState _
  | extL _ => exact .modifyState _
  | pea _ => exact .bind (.controlAddress hwf) fun _ => .push _ _
  | movemToMem _ _ => exact .movemToMemBody (Bool.and_eq_true_iff.mp hwf).2 _
  | movemToReg _ _ => exact .movemToRegBody (Bool.and_eq_true_iff.mp hwf).2 _
  | nbcd _ => exact .nbcdBody hwf
  | moveFromSr _ => exact .bindYields (.resolve _ _ _) (resolve_fits _ _ _) fun _ hl => .bind .getState fun _ => .writeLoc hwf _ hl _ _
  | moveToCcr _ => exact .bind (.readEa _ _) fun _ => .modifyState _
  | moveToSr _ => exact .privileged (.bind (.readEa _ _) fun _ => .modifyState _)
  | tas _ => exact .bindYields (.resolve _ _ _) (resolve_fits _ _ _) fun _ hl => .bind (.readLoc _ _) fun _ => .bind (.modifyState _) fun _ => .writeLoc hwf _ hl _ _
  | negx _ _ => exact .modifyEa hwf _ _
  | clr _ _ => exact .bind (.writeEa hwf _ _) fun _ => .modifyState _
  | neg _ _ => exact .modifyEa hwf _ _
  | not _ _ => exact .modifyEa hwf _ _
  | tst _ _ => exact .compareEa _ _ _
  | chk _ _ => exact .chkBody _ _
  | lea _ _ => exact .bind (.controlAddress hwf) fun _ => .modifyState _
  | dbcc _ _ => exact .bind .getState fun _ => .bind .fetchWord fun _ => .modifyState _
  | scc _ _ => exact .bindYields (.resolve _ _ _) (resolve_fits _ _ _) fun _ hl => .bind .getState fun _ => .writeLoc hwf _ hl _ _
  | addq _ _ _ => exact .addqBody (Bool.and_eq_true_iff.mp hwf).1 _ _
  | subq _ _ _ => exact .subqBody (Bool.and_eq_true_iff.mp hwf).1 _ _
  | bra _ => exact .bind .getState fun _ => .bind (.branchDisp _) fun _ => .modifyState _
  | bsr _ => exact .bind .getState fun _ => .bind (.branchDisp _) fun _ => .bind .getState fun _ => .bind (.push _ _) fun _ => .modifyState _
  | bcc _ _ => exact .bind .getState fun _ => .bind (.branchDisp _) fun _ => .modifyState _
  | moveq _ _ => exact .modifyState _
  | divu _ _ => exact .divideBody _ _ _
  | divs _ _ => exact .divideBody _ _ _
  | sbcd _ _ _ => exact .bcdBody _ _ _ _
  | orToDn _ _ _ => exact .combineDn _ _ _ _
  | orToEa _ _ _ => exact .modifyEa (memoryAlterable_dataAlterable hwf) _ _
  | suba _ _ _ => exact .bind (.readEa _ _) fun _ => .modifyState _
  | subx _ _ _ _ => exact .subxBody _ _ _ _
  | subToDn _ _ _ => exact .combineDn _ _ _ _
  | subToEa _ _ _ => exact .modifyEa (memoryAlterable_dataAlterable hwf) _ _
  | lineA _ => exact .raiseFault _
  | cmpa _ _ _ => exact .compareEa _ _ _
  | cmpm _ _ _ => exact .bind (.readEa _ _) fun _ => .compareEa _ _ _
  | cmp _ _ _ => exact .compareEa _ _ _
  | eor _ _ _ => exact .modifyEa hwf _ _
  | mulu _ _ => exact .bind (.readEa _ _) fun _ => .modifyState _
  | muls _ _ => exact .bind (.readEa _ _) fun _ => .modifyState _
  | abcd _ _ _ => exact .bcdBody _ _ _ _
  | exgDD _ _ => exact .modifyState _
  | exgAA _ _ => exact .modifyState _
  | exgDA _ _ => exact .modifyState _
  | andToDn _ _ _ => exact .combineDn _ _ _ _
  | andToEa _ _ _ => exact .modifyEa (memoryAlterable_dataAlterable hwf) _ _
  | adda _ _ _ => exact .bind (.readEa _ _) fun _ => .modifyState _
  | addx _ _ _ _ => exact .addxBody _ _ _ _
  | addToDn _ _ _ => exact .combineDn _ _ _ _
  | addToEa _ _ _ => exact .modifyEa (memoryAlterable_dataAlterable hwf) _ _
  | asrMem _ => exact .modifyEa (memoryAlterable_dataAlterable hwf) _ _
  | aslMem _ => exact .modifyEa (memoryAlterable_dataAlterable hwf) _ _
  | lsrMem _ => exact .modifyEa (memoryAlterable_dataAlterable hwf) _ _
  | lslMem _ => exact .modifyEa (memoryAlterable_dataAlterable hwf) _ _
  | roxrMem _ => exact .modifyEa (memoryAlterable_dataAlterable hwf) _ _
  | roxlMem _ => exact .modifyEa (memoryAlterable_dataAlterable hwf) _ _
  | rorMem _ => exact .modifyEa (memoryAlterable_dataAlterable hwf) _ _
  | rolMem _ => exact .modifyEa (memoryAlterable_dataAlterable hwf) _ _
  | asrReg _ _ _ => exact .modifyState _
  | aslReg _ _ _ => exact .modifyState _
  | lsrReg _ _ _ => exact .modifyState _
  | lslReg _ _ _ => exact .modifyState _
  | roxrReg _ _ _ => exact .modifyState _
  | roxlReg _ _ _ => exact .modifyState _
  | rorReg _ _ _ => exact .modifyState _
  | rolReg _ _ _ => exact .modifyState _
  | lineF _ => exact .raiseFault _

/-- Every well-formed instruction answers a next state, whatever the state (60_exceptions.md R440). -/
theorem exec_answers_next (i : Instr) (hwf : i.wf = true) (s : State) : ∃ t, exec i s = .next t := by
  rw [exec_eq_body]
  rcases instruction_cases (bodyOf i) s with ⟨t, _, h⟩ | ⟨k, aux, t, _, h⟩ | ⟨k, t, _, h⟩ | ⟨t, _, h⟩ | ⟨f, t, hs, _⟩
  · exact ⟨_, h⟩
  · exact ⟨_, h⟩
  · exact ⟨_, h⟩
  · exact ⟨_, h⟩
  · exact absurd (NeverStuck.body i hwf s _ t hs) id

end Sys2Proof.Machine
end

