-- ==== Sys2Proof/Laws/Frames.lean ====
section
/-! SUPPORT. What taking an exception leaves unchanged, that a state from which nothing interrupted the
instruction is the one its operation left, and where an operation stores. -/

namespace Sys2Proof.Machine

variable {α β : Type}

/-! ### What taking an exception leaves -/

/-- What neither Enter nor Raise writes. -/
structure EntryKeeps (s t : State) : Prop where
  d : t.d = s.d
  a : t.a = s.a
  usp : t.usp = s.usp
  pcStart : t.pcStart = s.pcStart
  ir : t.ir = s.ir
  cycles : t.cycles = s.cycles
  countdown : t.countdown = s.countdown
  map : t.map = s.map
  params : t.params = s.params

theorem EntryKeeps.refl (s : State) : EntryKeeps s s := ⟨rfl, rfl, rfl, rfl, rfl, rfl, rfl, rfl, rfl⟩

theorem EntryKeeps.trans {s t u : State} (h : EntryKeeps s t) (g : EntryKeeps t u) : EntryKeeps s u :=
  ⟨g.d.trans h.d, g.a.trans h.a, g.usp.trans h.usp, g.pcStart.trans h.pcStart, g.ir.trans h.ir, g.cycles.trans h.cycles,
    g.countdown.trans h.countdown, g.map.trans h.map, g.params.trans h.params⟩

theorem entryKeeps_closed (k : IrqKind) :
    ClosedEntry k fun s t => s.supervisor = true → t.supervisor = true ∧ EntryKeeps s t ∧ t.pending = s.pending where
  refl s h := ⟨h, ⟨rfl, rfl, rfl, rfl, rfl, rfl, rfl, rfl, rfl⟩, rfl⟩
  trans f g h := ⟨(g (f h).1).1, (f h).2.1.trans (g (f h).1).2.1, (g (f h).1).2.2.trans (f h).2.2⟩
  pc s v h := ⟨h, ⟨rfl, rfl, rfl, rfl, rfl, rfl, rfl, rfl, rfl⟩, rfl⟩
  dreg _ _ _ _ h := h.elim
  areg s n v e h := by
    have e : n = 7 := e
    subst e
    exact ⟨by rw [setAreg_supervisor, h],
      ⟨setAreg_d s 7 v, by simp [State.setAreg], (setAreg_inactive s 7 v).1 h, setAreg_pcStart s 7 v, setAreg_ir s 7 v, setAreg_cycles s 7 v,
        setAreg_countdown s 7 v, setAreg_map s 7 v, setAreg_params s 7 v⟩, setAreg_pending s 7 v⟩
  flags _ _ h := h.elim
  ccr _ _ h := h.elim
  read s _ _ h := ⟨h, ⟨rfl, rfl, rfl, rfl, rfl, rfl, rfl, rfl, rfl⟩, rfl⟩
  store s _ _ _ h := ⟨h, ⟨rfl, rfl, rfl, rfl, rfl, rfl, rfl, rfl, rfl⟩, rfl⟩
  taken s _ h := ⟨h, ⟨rfl, rfl, rfl, rfl, rfl, rfl, rfl, rfl, rfl⟩, rfl⟩
  halt s h := ⟨h, ⟨rfl, rfl, rfl, rfl, rfl, rfl, rfl, rfl, rfl⟩, rfl⟩

theorem enter_keeps (k : IrqKind) (aux : Aux) (s : State) :
    EntryKeeps s (enter k aux s) ∧ (enter k aux s).pending = s.pending := by
  have h := (enter_related (entryKeeps_closed k) aux s (by simp [State.supervisor])).2
  exact ⟨⟨h.1.d, h.1.a, h.1.usp, h.1.pcStart, h.1.ir, h.1.cycles, h.1.countdown, h.1.map, h.1.params⟩, h.2⟩

theorem raiseIrq_keeps (k : IrqKind) (aux : Aux) (s : State) : EntryKeeps s (raiseIrq k aux s) := by
  rcases raiseIrq_cases k aux s with ⟨_, e⟩ | ⟨_, _, e⟩ | ⟨_, _, e⟩ <;> rw [e]
  · exact (enter_keeps k aux s).1
  · exact ⟨rfl, rfl, rfl, rfl, rfl, rfl, rfl, rfl, rfl⟩
  · exact ⟨rfl, rfl, rfl, rfl, rfl, rfl, rfl, rfl, rfl⟩

/-- Enter either halts or makes the interrupt the active one. -/
theorem enter_outcome (k : IrqKind) (aux : Aux) (s : State) :
    (enter k aux s).run = .halted ∨ (enter k aux s).active = some (k, aux) := by
  unfold enter
  cases h : enterSequence k aux s with
  | error e t => exact .inl rfl
  | ok a t =>
    right
    have tail : ∀ sr pc u v, enterTail k aux sr pc u = .ok () v → v.active = some (k, aux) := by
      intro sr pc u v h
      obtain ⟨_, _, _, h⟩ := bind_eq_ok h
      obtain ⟨_, _, _, h⟩ := bind_eq_ok h
      obtain ⟨_, _, _, h⟩ := bind_eq_ok h
      cases h
      rfl
    rw [enterSequence_eq] at h
    split at h
    · obtain ⟨_, _, _, h⟩ := bind_eq_ok h
      exact tail _ _ _ _ h
    · exact tail _ _ _ _ h

/-- Raise leaves a trace: the CORE halted, the request queued, or a new active interrupt. -/
theorem raiseIrq_interrupts (k : IrqKind) (aux : Aux) (s : State) :
    (raiseIrq k aux s).run = .halted ∨ (raiseIrq k aux s).pending ≠ s.pending ∨
    ((raiseIrq k aux s).active ≠ s.active ∧ (raiseIrq k aux s).active ≠ none) := by
  rcases raiseIrq_cases k aux s with ⟨h, e⟩ | ⟨_, _, e⟩ | ⟨_, _, e⟩ <;> rw [e]
  · rcases enter_outcome k aux s with hr | ha
    · exact .inl hr
    · refine .inr (.inr ⟨?_, by rw [ha]; exact nofun⟩)
      rw [ha]
      intro hc
      rw [State.outranks, ← hc] at h
      simp at h
  · refine .inr (.inl fun hc => ?_)
    have := congrArg List.length hc
    simp at this
  · exact .inl rfl

/-- Raise keeps what the pending stack held, and queues at most its own request, where there is room behind an active
interrupt of at least its priority (60_exceptions.md R405, R414). -/
theorem raiseIrq_pending (k : IrqKind) (aux : Aux) (s : State) :
    (raiseIrq k aux s).pending = s.pending ∨
    ∃ a x, (raiseIrq k aux s).pending = (k, aux) :: s.pending ∧ s.pending.length ≠ s.params.pendingDepth ∧ s.active = some (a, x) ∧
      (raiseIrq k aux s).active = s.active ∧ priority s.params k ≤ priority s.params a := by
  rcases raiseIrq_cases k aux s with ⟨_, e⟩ | ⟨h, hp, e⟩ | ⟨_, _, e⟩ <;> rw [e]
  · exact .inl (enter_keeps k aux s).2
  · unfold State.outranks at h
    split at h
    · rename_i a x ha
      exact .inr ⟨a, x, rfl, hp, ha, rfl, of_decide_eq_true h⟩
    · cases h
  · exact .inl rfl

/-- What an operation that aborts leaves as it was. -/
theorem control_closed (p : Permits) : ClosedPrivileged p fun s t => t.active = s.active ∧ t.pending = s.pending where
  refl _ := ⟨rfl, rfl⟩
  trans f g := ⟨g.1.trans f.1, g.2.trans f.2⟩
  pc _ _ := ⟨rfl, rfl⟩
  dreg _ _ _ _ _ := ⟨rfl, rfl⟩
  areg s n v _ := ⟨setAreg_active s n v, setAreg_pending s n v⟩
  flags _ _ _ := ⟨rfl, rfl⟩
  ccr _ _ _ := ⟨rfl, rfl⟩
  read _ _ _ := ⟨rfl, rfl⟩
  store _ _ _ _ := ⟨rfl, rfl⟩
  sr _ _ _ := ⟨rfl, rfl⟩
  usp _ _ _ := ⟨rfl, rfl⟩
  stop _ _ := ⟨rfl, rfl⟩

/-- An RTE that aborts leaves the active interrupt and the pending stack. -/
theorem rte_abort {s t : State} {e : Abort} (h : bodyOf .rte s = .error e t) : t.active = s.active ∧ t.pending = s.pending := by
  have pops : Preserves (fun s t : State => t.active = s.active ∧ t.pending = s.pending)
      (do let a ← pop .long; let v ← pop .word; pure (a, v) : M (Word × Word)) :=
    have hc := (control_closed .all).toClosed
    .bind hc (.pop hc trivial _) fun _ => .bind hc (.pop hc trivial _) fun _ => .pure hc _
  have frame : ∀ {e t}, returnFromException.restoreFrame s = .error e t → t.active = s.active ∧ t.pending = s.pending := by
    intro e t h
    have hp := pops s
    cases h1 : pop .long s with
    | error e1 t1 =>
      rw [bind_error h1] at hp
      rw [show returnFromException.restoreFrame s = .error e1 t1 from bind_error h1] at h
      cases h
      exact hp
    | ok a u =>
      rw [bind_ok h1] at hp
      rw [show returnFromException.restoreFrame s = _ from bind_ok h1] at h
      cases h2 : pop .word u with
      | error e2 t2 =>
        rw [bind_error h2] at h hp
        cases h
        exact hp
      | ok v w =>
        rw [bind_ok h2] at h
        cases h
  by_cases hs : s.supervisor = true
  · rw [show bodyOf .rte s = returnFromException s from privileged_supervisor hs] at h
    rcases ha : s.active with _ | ⟨k, aux⟩
    · rw [returnFromException_none ha] at h
      exact ha ▸ frame h
    · by_cases h0 : irqGroup k = 0
      · rw [returnFromException_group0 ha h0] at h
        cases h
        exact ⟨ha, rfl⟩
      · rw [returnFromException_some ha h0] at h
        exact ha ▸ frame h
  · rw [show bodyOf .rte s = _ from privileged_user (by simpa using hs)] at h
    cases h
    exact ⟨rfl, rfl⟩

/-- An operation that aborts leaves the active interrupt and the pending stack. -/
theorem body_abort {i : Instr} {s t : State} {e : Abort} (h : bodyOf i s = .error e t) :
    t.active = s.active ∧ t.pending = s.pending := by
  by_cases hi : i = .rte
  · subst hi; exact rte_abort h
  · have := Preserves.bodyExceptRte i (control_closed _) hi s
    rw [h] at this
    exact this

/-- An instruction whose next state shows no exception is one whose operation completed, and its next state
is what the operation left. -/
theorem uninterrupted_ok {i : Instr} (hwf : i.wf = true) {s t : State} (h : exec i s = .next t) (hu : Uninterrupted s t) :
    bodyOf i s = .ok () t := by
  have raised : ∀ k aux (u : State), u.active = s.active → u.pending = s.pending → t = raiseIrq k aux u → False := by
    intro k aux u ha hp e
    rcases raiseIrq_interrupts k aux u with h1 | h1 | ⟨h1, h2⟩
    · exact hu.alive (e ▸ h1)
    · exact h1 (by rw [← e, hu.pending, hp])
    · rcases hu.active with h3 | h3
      · exact h1 (by rw [← e, h3, ha])
      · exact h2 (by rw [← e, h3])
  rw [exec_eq_body] at h
  rcases instruction_cases (bodyOf i) s with ⟨u, hb, e⟩ | ⟨k, aux, u, hb, e⟩ | ⟨k, u, hb, e⟩ | ⟨u, hb, e⟩ | ⟨f, u, hb, e⟩ <;> rw [e] at h
  · cases h
    rw [hu.untraced, traceAfter_false]
    exact hb
  · cases h
    exact (raised k aux { u with pc := u.pcStart } (body_abort hb).1 (body_abort hb).2 rfl).elim
  · cases h
    exact (raised k 0#64 u (body_abort hb).1 (body_abort hb).2 rfl).elim
  · cases h
    exact absurd (NeverStuck.body i hwf s _ _ hb) hu.alive
  · cases h

end Sys2Proof.Machine
end

