-- ==== Sys2Proof/Laws/Operands.lean ====
section
/-! SUPPORT. What the shapes that the meanings share do with an operand a claim describes. -/

namespace Sys2Proof.Machine

variable {ea : EA} {sz : Size} {s t u : State} {d r v : Word}

theorem Reads.readEa (h : Reads ea sz s v u) : Machine.readEa ea sz s = .ok v u := by
  obtain ⟨_, _, h1, h2⟩ := h
  exact readEa_ok h1 h2

theorem Writes.writeEa (h : Writes ea sz s v t) : Machine.writeEa ea sz v s = .ok () t := by
  obtain ⟨_, _, h1, h2⟩ := h
  exact writeEa_ok h1 h2

theorem Updates.modifyEa {f : State → Word → Word × Flags} (h : Updates ea sz s d u r t) (hf : (f u d).1 = r) :
    Machine.modifyEa ea sz f s = .ok () (t.setFlags (f u d).2) := by
  obtain ⟨_, _, h1, h2, h3⟩ := h
  exact modifyEa_ok h1 h2 (hf ▸ h3)

/-- The updates that leave SR. -/
def Permits.statusFree : Permits := { Permits.all with flags := fun _ _ _ => False, ccr := False }

theorem status_closed : Closed .statusFree fun s t : State => t.sr = s.sr where
  refl _ := rfl
  trans f g := g.trans f
  pc _ _ := rfl
  dreg _ _ _ _ _ := rfl
  areg s n v _ := setAreg_sr s n v
  flags _ _ h := h.elim
  ccr _ _ h := h.elim
  read _ _ _ := rfl
  store _ _ _ _ := rfl

/-- Resolving an operand leaves SR. -/
theorem resolve_sr {ap : Bool} {loc : Loc} (h : resolve ea sz ap s = .ok loc t) : t.sr = s.sr := by
  have := Preserves.resolve status_closed ea sz ap (fun _ _ => trivial) s
  rwa [h] at this

/-! ### Operands that fault -/

/-- The updates that resolving and reading an operand makes. -/
def Permits.operand : Permits :=
  { dreg := fun _ => False, areg := fun _ => True, flags := fun _ _ _ => False, ccr := False, store := False,
    sr := False, usp := False, stop := False }

theorem operand_closed : Closed .operand fun s t : State => t.sr = s.sr ∧ t.d = s.d ∧ t.mem = s.mem where
  refl _ := ⟨rfl, rfl, rfl⟩
  trans f g := ⟨g.1.trans f.1, g.2.1.trans f.2.1, g.2.2.trans f.2.2⟩
  pc _ _ := ⟨rfl, rfl, rfl⟩
  dreg _ _ _ _ h := h.elim
  areg s n v _ := ⟨setAreg_sr s n v, setAreg_d s n v, setAreg_mem s n v⟩
  flags _ _ h := h.elim
  ccr _ _ h := h.elim
  read _ _ _ := ⟨rfl, rfl, rfl⟩
  store _ _ _ h := h.elim

/-- Resolving an operand leaves SR, the data registers and memory. -/
theorem resolve_keeps {ap : Bool} {loc : Loc} (h : resolve ea sz ap s = .ok loc t) : t.sr = s.sr ∧ t.d = s.d ∧ t.mem = s.mem := by
  have := Preserves.resolve operand_closed ea sz ap (fun _ _ => trivial) s
  rwa [h] at this

/-- So does resolving and reading it. -/
theorem Reads.keeps (h : Reads ea sz s v u) : u.sr = s.sr ∧ u.d = s.d ∧ u.mem = s.mem := by
  have := Preserves.readEa operand_closed ea sz (fun _ _ => trivial) s
  rwa [h.readEa] at this

/-- A read of a location that faults changes nothing (20_memory.md R79). -/
theorem readLoc_fault {loc : Loc} {k : IrqKind} {aux : Aux} (h : readLoc loc sz s = .error (.fault k aux) t) : t = s := by
  cases loc with
  | mem a sp =>
    rcases memRead_cases sp sz a s with ⟨w, d, o, e⟩ | e
    · cases e.symm.trans h
    · cases e.symm.trans h
      rfl
  | _ => cases h

/-- A write of a location that faults changes nothing (20_memory.md R79). -/
theorem writeLoc_fault {loc : Loc} {k : IrqKind} {aux : Aux} (h : writeLoc loc sz v s = .error (.fault k aux) t) : t = s := by
  rcases loc with n | n | ⟨a, sp⟩ | w
  · cases h
  · cases sz <;> cases h
  · cases sp
    · rcases memWrite_cases sz a v s with e | ⟨o, e⟩ | e
      · cases e.symm.trans h
      · cases e.symm.trans h
      · cases e.symm.trans h
        rfl
    · cases h
  · cases h

theorem readEa_error {loc : Loc} {e : Abort} (h1 : resolve ea sz true s = .ok loc u) (h2 : readLoc loc sz u = .error e t) :
    Machine.readEa ea sz s = .error e t := by
  unfold Machine.readEa
  rw [bind_ok h1, h2]

theorem writeEa_error {loc : Loc} {e : Abort} (h1 : resolve ea sz true s = .ok loc u) (h2 : writeLoc loc sz v u = .error e t) :
    Machine.writeEa ea sz v s = .error e t := by
  unfold Machine.writeEa
  rw [bind_ok h1, h2]

end Sys2Proof.Machine
end

