-- ==== Sys2Proof/Laws/Stores.lean ====
section
/-! SUPPORT. Where an instruction stores: the operation of an instruction that completes changes no byte
outside the cells `storesAt` computes. -/

namespace Sys2Proof.Machine

variable {α β : Type}

/-- An operation that completes changes no byte outside the cells a plan computes from the same state. -/
def StoresWithin (m : M α) (plan : M (List (Word × Size))) : Prop :=
  ∀ s a t, m s = .ok a t →
    ∃ cells u, plan s = .ok cells u ∧ ∀ b, (∀ c ∈ cells, b ∉ coveredBy c.1 c.2) → peek t.mem b = peek s.mem b

/-- The updates of an operation that does not store. -/
def Permits.reading : Permits := { Permits.all with store := False }

theorem mem_closed {p : Permits} (hs : ¬p.store) : ClosedReturn p fun s t => t.mem = s.mem where
  refl _ := rfl
  trans f g := g.trans f
  pc _ _ := rfl
  dreg _ _ _ _ _ := rfl
  areg s n v _ := setAreg_mem s n v
  flags _ _ _ := rfl
  ccr _ _ _ := rfl
  read _ _ _ := rfl
  store _ _ _ h := (hs h).elim
  sr _ _ _ := rfl
  usp _ _ _ := rfl
  stop _ _ := rfl
  halt _ := rfl
  inactive _ := rfl

/-- An operation that leaves memory alone. -/
abbrev Quiet (m : M α) : Prop := Preserves (fun s t => t.mem = s.mem) m

theorem reading_closed : Closed .reading fun s t : State => t.mem = s.mem := (mem_closed (p := .reading) id).toClosed

theorem quiet_ok {m : M α} (h : Quiet m) {s t : State} {a : α} (hs : m s = .ok a t) : t.mem = s.mem := by
  have := h s
  rwa [hs] at this

theorem StoresWithin.quiet {m : M α} (h : Quiet m) : StoresWithin m (pure []) :=
  fun s _ _ hs => ⟨[], s, rfl, fun b _ => by rw [quiet_ok h hs]⟩

/-- A first part that both share and that does not store. -/
theorem StoresWithin.bind {m : M α} {f : α → M β} {g : α → M (List (Word × Size))} (hm : Quiet m)
    (hf : ∀ a, StoresWithin (f a) (g a)) : StoresWithin (m >>= f) (m >>= g) := by
  intro s b t h
  obtain ⟨a, u, h1, h2⟩ := bind_eq_ok h
  obtain ⟨cells, w, h3, h4⟩ := hf a u b t h2
  exact ⟨cells, w, by rw [bind_ok h1, h3], fun x hx => by rw [h4 x hx, quiet_ok hm h1]⟩

/-- A first part that does not store, after which the cells are known. -/
theorem StoresWithin.skip {m : M α} {f : α → M β} {cells : List (Word × Size)} (hm : Quiet m)
    (hf : ∀ a, StoresWithin (f a) (pure cells)) : StoresWithin (m >>= f) (pure cells) := by
  intro s b t h
  obtain ⟨a, u, h1, h2⟩ := bind_eq_ok h
  obtain ⟨cells', w, h3, h4⟩ := hf a u b t h2
  cases h3
  exact ⟨cells, s, rfl, fun x hx => by rw [h4 x hx, quiet_ok hm h1]⟩

/-- A last part that does not store. -/
theorem StoresWithin.after {m : M α} {f : α → M β} {plan : M (List (Word × Size))} (hm : StoresWithin m plan)
    (hf : ∀ a, Quiet (f a)) : StoresWithin (m >>= f) plan := by
  intro s b t h
  obtain ⟨a, u, h1, h2⟩ := bind_eq_ok h
  obtain ⟨cells, w, h3, h4⟩ := hm s a u h1
  exact ⟨cells, w, h3, fun x hx => by rw [quiet_ok (hf a) h2, h4 x hx]⟩

theorem StoresWithin.ofState {f : State → M β} {plan : M (List (Word × Size))} (hf : ∀ a, StoresWithin (f a) plan) :
    StoresWithin (getState >>= f) plan := fun s b t h => hf s s b t h

theorem StoresWithin.memWrite (sz : Size) (a v : Word) : StoresWithin (Machine.memWrite sz a v) (pure [(a, sz)]) := by
  intro s _ t h
  refine ⟨[(a, sz)], s, rfl, fun b hb => ?_⟩
  have hb := hb (a, sz) (List.mem_singleton_self _)
  rcases memWrite_cases sz a v s with e | ⟨o, e⟩ | e <;> rw [e] at h <;> cases h
  · exact peek_writeMem_outside _ _ _ _ _ hb
  · exact peek_storePlain_outside _ _ _ _ _ _ hb

theorem StoresWithin.writeLoc (loc : Loc) (sz : Size) (v : Word) :
    StoresWithin (Machine.writeLoc loc sz v) (pure (loc.cells sz)) := by
  rcases loc with n | n | ⟨a, sp⟩ | w
  · exact .quiet fun _ => rfl
  · refine .quiet fun s => ?_
    cases sz
    · rfl
    · rfl
    · exact setAreg_mem s n v
  · cases sp
    · exact .memWrite sz a v
    · exact fun _ _ _ h => by cases h
  · exact .quiet fun _ => rfl

theorem StoresWithin.push (v : Word) : StoresWithin (Machine.push .long v) pushCells := by
  intro s _ t h
  have h : Machine.memWrite .long (s.setSp (s.sp - 4#32)).sp v (s.setSp (s.sp - 4#32)) = .ok () t := h
  obtain ⟨cells, u, h1, h2⟩ := StoresWithin.memWrite _ _ _ _ _ _ h
  cases h1
  refine ⟨_, s, rfl, fun b hb => ?_⟩
  rw [h2 b (by rwa [setSp_sp]), setSp_mem]

/-! ### The shapes the meanings share -/

theorem quiet_resolve (ea : EA) (sz : Size) (apply : Bool) : Quiet (resolve ea sz apply) :=
  .resolve reading_closed _ _ _ fun _ _ => trivial
theorem quiet_readLoc (loc : Loc) (sz : Size) : Quiet (readLoc loc sz) := .readLoc reading_closed _ _
theorem quiet_readEa (ea : EA) (sz : Size) : Quiet (readEa ea sz) := .readEa reading_closed _ _ fun _ _ => trivial
theorem quiet_getState : Quiet getState := .getState reading_closed
theorem quiet_fetchWord : Quiet fetchWord := .fetchWord reading_closed
theorem quiet_immediate (sz : Size) : Quiet (immediate sz) := .immediate reading_closed sz
theorem quiet_setFlags (g : State → Flags) : Quiet (modifyState fun s => s.setFlags (g s)) := fun _ => rfl

/-- An operand resolved, then an operation that stores to the location. -/
theorem StoresWithin.target {ea : EA} {sz : Size} {f : Loc → M β} (hf : ∀ loc, StoresWithin (f loc) (pure (loc.cells sz))) :
    StoresWithin (resolve ea sz true >>= f) (targetCells ea sz) := .bind (quiet_resolve _ _ _) hf

theorem StoresWithin.writeEa (ea : EA) (sz : Size) (v : Word) : StoresWithin (Machine.writeEa ea sz v) (targetCells ea sz) :=
  .target fun _ => .writeLoc _ _ _

theorem StoresWithin.modifyEa (ea : EA) (sz : Size) (f : State → Word → Word × Flags) :
    StoresWithin (Machine.modifyEa ea sz f) (targetCells ea sz) :=
  .target fun _ => .skip (quiet_readLoc _ _) fun _ => .ofState fun _ => .after (.writeLoc _ _ _) fun _ => quiet_setFlags _

theorem StoresWithin.bitChange (ea : EA) (f : Word → Word → Word) (n : Word) :
    StoresWithin (Machine.bitChange ea f n) (targetCells ea (bitSize ea)) :=
  .target fun _ => .skip (quiet_readLoc _ _) fun _ => .skip (quiet_setFlags _) fun _ => .writeLoc _ _ _

theorem StoresWithin.moveBody (sz : Size) (src dst : EA) :
    StoresWithin (Machine.moveBody sz src dst) (do let _ ← readEa src sz; targetCells dst sz) :=
  .bind (quiet_readEa _ _) fun _ => .after (.writeEa _ _ _) fun _ => quiet_setFlags _

theorem StoresWithin.bcdFinish (loc : Loc) (r : Byte × Bool) : StoresWithin (Machine.bcdFinish loc r) (pure (loc.cells .byte)) :=
  .after (.writeLoc _ _ _) fun _ => .bind reading_closed (.drawBit reading_closed) fun _ =>
    .bind reading_closed (.drawBit reading_closed) fun _ => quiet_setFlags _

theorem StoresWithin.bcdEnd (loc : Loc) (f : Byte → Byte → Bool → Byte × Bool) (v d : Byte) :
    StoresWithin (do let s ← getState; let r ← Machine.bcdResult f v d s.flags.x; Machine.bcdFinish loc r) (pure (loc.cells .byte)) :=
  .ofState fun _ => .skip (.bcdResult reading_closed _ _ _ _) fun _ => .bcdFinish _ _

theorem StoresWithin.extended {mode : XMode} {sz : Size} {rx ry : Fin 8} {f : Word × Word × Loc → M β}
    (hf : ∀ p, StoresWithin (f p) (pure (p.2.2.cells sz))) :
    StoresWithin (extendedOperands mode sz rx ry >>= f) (extendedCells mode sz rx ry) := by
  cases mode
  · exact .ofState fun s => hf (_, _, .dreg rx)
  · intro s b t h
    simp only [extendedOperands, bind_assoc, pure_bind] at h
    exact StoresWithin.bind (quiet_readEa _ _) (fun v => .target fun loc => .skip (quiet_readLoc _ _) fun d => hf (v, d, loc)) s b t h

theorem StoresWithin.movepStore (sz : Size) (a v : Word) : StoresWithin (Machine.movepStore sz a v) (pure (movepCells sz a)) := by
  have two : ∀ {m : M Unit} {cells : List (Word × Size)} {c : Word × Size} {w : Word},
      StoresWithin m (pure cells) → StoresWithin (do Machine.memWrite c.2 c.1 w; m : M Unit) (pure (c :: cells)) := by
    intro m cells c w hm s b t h
    obtain ⟨_, u, h1, h2⟩ := bind_eq_ok h
    obtain ⟨_, _, e, h3⟩ := StoresWithin.memWrite _ _ _ _ _ _ h1
    cases e
    obtain ⟨_, _, e, h4⟩ := hm _ _ _ h2
    cases e
    refine ⟨_, s, rfl, fun x hx => ?_⟩
    rw [h4 x fun y hy => hx y (List.mem_cons_of_mem _ hy), h3 x fun y hy => by
      rw [List.mem_singleton.mp hy]; exact hx c List.mem_cons_self]
  cases sz
  · exact two (c := (a, .byte)) (.memWrite _ _ _)
  · exact two (c := (a, .byte)) (.memWrite _ _ _)
  · exact two (c := (a, .byte)) (two (c := (a + 2#32, .byte)) (two (c := (a + 4#32, .byte)) (.memWrite _ _ _)))

theorem StoresWithin.movemStoreUp (sz : Size) (ks : List (Fin 16)) (a : Word) :
    StoresWithin (Machine.movemStoreUp sz ks a) (pure (upCells sz ks.length a)) := by
  induction ks generalizing a with
  | nil => exact .quiet fun _ => rfl
  | cons k rest ih =>
    intro s b t h
    obtain ⟨_, u, h1, h2⟩ := bind_eq_ok (m := Machine.memWrite sz a (trunc sz (s.regOf k))) h
    obtain ⟨_, _, e, h3⟩ := StoresWithin.memWrite _ _ _ _ _ _ h1
    cases e
    obtain ⟨_, _, e, h4⟩ := ih (a + sizeWord sz) _ _ _ h2
    cases e
    refine ⟨_, s, rfl, fun x hx => ?_⟩
    rw [h4 x fun y hy => hx y (List.mem_cons_of_mem _ hy), h3 x fun y hy => by
      rw [List.mem_singleton.mp hy]; exact hx (a, sz) List.mem_cons_self]

theorem StoresWithin.movemStoreDown (sz : Size) (ks : List (Fin 16)) (a : Word) :
    StoresWithin (Machine.movemStoreDown sz ks a) (pure (downCells sz ks.length a)) := by
  induction ks generalizing a with
  | nil => exact .quiet fun _ => rfl
  | cons k rest ih =>
    intro s b t h
    obtain ⟨_, u, h1, h2⟩ := bind_eq_ok (m := Machine.memWrite sz (a - sizeWord sz) (trunc sz (s.regOf k.rev))) h
    obtain ⟨_, _, e, h3⟩ := StoresWithin.memWrite _ _ _ _ _ _ h1
    cases e
    obtain ⟨_, _, e, h4⟩ := ih (a - sizeWord sz) _ _ _ h2
    cases e
    refine ⟨_, s, rfl, fun x hx => ?_⟩
    rw [h4 x fun y hy => hx y (List.mem_cons_of_mem _ hy), h3 x fun y hy => by
      rw [List.mem_singleton.mp hy]; exact hx (a - sizeWord sz, sz) List.mem_cons_self]

/-- Where every instruction stores. -/
theorem body_stores (i : Instr) : StoresWithin (bodyOf i) (storesAt i) := by
  have quietBody : ∀ j : Instr, mayStore j = false → StoresWithin (bodyOf j) (pure []) := fun j hj =>
    .quiet (Preserves.anyBody j (mem_closed (by simp [permitsOf, hj])))
  cases i
  case movep dir sz dn an =>
    cases dir
    · exact quietBody _ rfl
    · exact .bind quiet_fetchWord fun _ => .bind quiet_getState fun _ => .movepStore _ _ _
  case bchgReg dn ea => exact .ofState fun _ => .bitChange _ _ _
  case bclrReg dn ea => exact .ofState fun _ => .bitChange _ _ _
  case bsetReg dn ea => exact .ofState fun _ => .bitChange _ _ _
  case bchgImm ea => exact .bind (.staticBit reading_closed) fun _ => .bitChange _ _ _
  case bclrImm ea => exact .bind (.staticBit reading_closed) fun _ => .bitChange _ _ _
  case bsetImm ea => exact .bind (.staticBit reading_closed) fun _ => .bitChange _ _ _
  case ori sz ea => exact .bind (quiet_immediate _) fun _ => .modifyEa _ _ _
  case andi sz ea => exact .bind (quiet_immediate _) fun _ => .modifyEa _ _ _
  case subi sz ea => exact .bind (quiet_immediate _) fun _ => .modifyEa _ _ _
  case addi sz ea => exact .bind (quiet_immediate _) fun _ => .modifyEa _ _ _
  case eori sz ea => exact .bind (quiet_immediate _) fun _ => .modifyEa _ _ _
  case moveB => exact .moveBody _ _ _
  case moveL => exact .moveBody _ _ _
  case moveW => exact .moveBody _ _ _
  case link an =>
    refine .bind quiet_fetchWord fun _ => .bind quiet_getState fun _ => .after (.memWrite _ _ _) fun _ s => ?_
    show State.mem (State.setAreg (State.setAreg (State.setAreg s _ _) _ _) _ _) = s.mem
    rw [setAreg_mem, setAreg_mem, setAreg_mem]
  case jsr ea =>
    exact .bind (.controlAddress reading_closed _ fun _ _ => trivial) fun _ => .ofState fun _ => .after (.push _) fun _ _ => rfl
  case pea ea => exact .bind (.controlAddress reading_closed _ fun _ _ => trivial) fun _ => .push _
  case bsr d8 => exact .ofState fun _ => .bind (.branchDisp reading_closed _) fun _ => .ofState fun _ => .after (.push _) fun _ _ => rfl
  case movemToMem sz ea =>
    refine .bind quiet_fetchWord fun m => ?_
    cases ea
    case preDec n => exact .bind quiet_getState fun _ => .after (.movemStoreDown _ _ _) fun _ s => setAreg_mem s _ _
    all_goals
      exact .bind (quiet_resolve _ _ _) fun _ => .bind (.addressOf reading_closed _) fun _ =>
        .after (.movemStoreUp _ _ _) fun _ _ => rfl
  case nbcd ea => exact .target fun _ => .skip (quiet_readLoc _ _) fun _ => .bcdEnd _ _ _ _
  case tas ea => exact .target fun _ => .skip (quiet_readLoc _ _) fun _ => .skip (quiet_setFlags _) fun _ => .writeLoc _ _ _
  case scc c ea => exact .target fun _ => .ofState fun _ => .writeLoc _ _ _
  case moveFromSr ea => exact .target fun _ => .ofState fun _ => .writeLoc _ _ _
  case negx => exact .modifyEa _ _ _
  case neg => exact .modifyEa _ _ _
  case not => exact .modifyEa _ _ _
  case clr => exact .after (.writeEa _ _ _) fun _ => quiet_setFlags _
  case addq f sz ea => 
    cases ea
    case areg n => exact .quiet fun s => setAreg_mem s _ _
    all_goals exact .modifyEa _ _ _
  case subq f sz ea => 
    cases ea
    case areg n => exact .quiet fun s => setAreg_mem s _ _
    all_goals exact .modifyEa _ _ _
  case sbcd => exact .extended fun _ => .bcdEnd _ _ _ _
  case abcd => exact .extended fun _ => .bcdEnd _ _ _ _
  case addx => exact .extended fun _ => .ofState fun _ => .after (.writeLoc _ _ _) fun _ => quiet_setFlags _
  case subx => exact .extended fun _ => .ofState fun _ => .after (.writeLoc _ _ _) fun _ => quiet_setFlags _
  case orToEa => exact .modifyEa _ _ _
  case andToEa => exact .modifyEa _ _ _
  case subToEa => exact .modifyEa _ _ _
  case addToEa => exact .modifyEa _ _ _
  case eor => exact .modifyEa _ _ _
  case asrMem => exact .modifyEa _ _ _
  case aslMem => exact .modifyEa _ _ _
  case lsrMem => exact .modifyEa _ _ _
  case lslMem => exact .modifyEa _ _ _
  case roxrMem => exact .modifyEa _ _ _
  case roxlMem => exact .modifyEa _ _ _
  case rorMem => exact .modifyEa _ _ _
  case rolMem => exact .modifyEa _ _ _
  all_goals exact quietBody _ rfl

end Sys2Proof.Machine
end

