-- ==== Sys2Proof/Laws/Step.lean ====
section
/-! SUPPORT. What a step does, said once: the fetch, the instruction or the exception, the end of the step; and
that a relation kept by each of these is kept by a step. -/

namespace Sys2Proof.Machine

theorem wordAtPc_bytes (s : State) : peek s.mem s.pc ++ peek s.mem (s.pc + 1#32) = s.wordAtPc := by
  unfold State.wordAtPc readMem valueAt; simp

/-- The fetch of the opword when plain memory answers it. -/
theorem fetchOpword_ok {s : State} (h : s.readable s.pc .word) :
    fetchOpword s.beginStep = .ok s.wordAtPc { s with pcStart := s.pc, ir := s.wordAtPc, pc := s.pc + 2#32 } := by
  unfold fetchOpword
  rw [bind_ok (fetchWord_readable (s := s.beginStep) h)]
  rfl

/-- An instruction that the decoder answers is well formed. -/
theorem decodeOpword_wf {w : Half} {i : Instr} (h : decodeOpword w = some i) : i.wf = true := by
  unfold decodeOpword at h
  generalize Decode.rowsOf (nibbleAt w 12) = rows at h
  induction rows with
  | nil => cases h
  | cons r rest ih =>
    unfold firstRow at h
    split at h
    · rename_i j hj
      cases h
      unfold Row.select at hj
      split at hj
      · split at hj
        · split at hj <;> simp_all
        · cases hj
      · cases hj
    · exact ih h

theorem step_running {s : State} (h : s.run = .running) : step s = stepRunning s := by unfold step; rw [h]

theorem finishStep_next {cost : Nat} {o : Host.Outcome State Fault Refusal} {t : State} (h : finishStep cost o = .next t) :
    ∃ u, o = .next u ∧ t = u.endStep cost := by
  cases o <;> cases h
  exact ⟨_, rfl, rfl⟩

/-- The three things a step of a RUNNING CORE can do before its end: run an instruction, raise the illegal
instruction, or raise a fault of its fetch. -/
theorem stepRunning_cases {s t : State} (h : stepRunning s = .next t) :
    ∃ u cost, t = u.endStep cost ∧
      ((∃ w v i, fetchOpword s.beginStep = .ok w v ∧ decodeOpword w = some i ∧ exec i v = .next u) ∨
       (∃ w v, fetchOpword s.beginStep = .ok w v ∧ u = raiseIrq .illegalInstruction 0#64 { v with pc := v.pcStart }) ∨
       (∃ k aux v, fetchOpword s.beginStep = .error (.fault k aux) v ∧ k ≠ .reset ∧ u = raiseIrq k aux { v with pc := v.pcStart })) := by
  have hn : NeverStuck fetchOpword := .bind .fetchWord fun _ => .bind (.modifyState _) fun _ => .pure _
  have hf : ∀ a v, fetchOpword s.beginStep = .error a v → ∃ k aux, a = .fault k aux := by
    intro a v ha
    unfold fetchOpword at ha
    rcases fetchWord_cases s.beginStep with ⟨_, _, _, e⟩ | e
    · rw [bind_ok e] at ha; cases ha
    · rw [bind_error e] at ha; cases ha; exact ⟨_, _, rfl⟩
  unfold stepRunning at h
  split at h
  · rename_i w v hw
    split at h
    · rename_i i hi
      obtain ⟨u, hu, rfl⟩ := finishStep_next h
      exact ⟨u, _, rfl, .inl ⟨w, v, i, hw, hi, hu⟩⟩
    · obtain ⟨u, hu, rfl⟩ := finishStep_next h
      cases hu
      exact ⟨_, _, rfl, .inr (.inl ⟨w, v, hw, rfl⟩)⟩
  · rename_i a v ha
    obtain ⟨k, aux, rfl⟩ := hf _ _ ha
    obtain ⟨u, hu, rfl⟩ := finishStep_next h
    cases hu
    exact ⟨_, _, rfl, .inr (.inr ⟨k, aux, v, ha, hn _ _ _ ha, rfl⟩)⟩

/-- A relation kept by everything a step is made of. -/
structure ClosedStep (R : State → State → Prop) : Prop extends ClosedReturn .all R where
  raise : ∀ k aux s, k ≠ .reset → R s (raiseIrq k aux s)
  latch : ∀ s w, R s { s with pcStart := s.pc, ir := w }
  opword : ∀ s w, R s { s with ir := w }
  check : ∀ s, R s (checkPending s)
  cost : ∀ s n, R s { s with cycles := n }

variable {R : State → State → Prop}

theorem instruction_related (h : ClosedStep R) {i : Instr} (hi : i.wf = true) {s t : State} (hs : exec i s = .next t) : R s t := by
  have hb := Preserves.anyBody i h.toClosedReturn.of_all s
  have trace : ∀ b u, R u (traceAfter b u) := by
    intro b u
    cases b
    · exact h.refl u
    · exact h.raise _ _ u (by simp)
  rw [exec_eq_body] at hs
  rcases instruction_cases (bodyOf i) s with ⟨u, e, e'⟩ | ⟨k, aux, u, e, e'⟩ | ⟨k, u, e, e'⟩ | ⟨u, e, e'⟩ | ⟨f, u, e, e'⟩ <;>
    rw [e'] at hs <;> cases hs <;> rw [e] at hb
  · exact h.trans hb (trace _ u)
  · exact h.trans hb (h.trans (h.pc u _) (h.raise _ _ _ (NeverStuck.body i hi _ _ _ e)))
  · exact h.trans hb (h.raise _ _ _ (NeverStuck.body i hi _ _ _ e))
  · exact hb

/-- A relation kept by everything a step is made of is kept by a step. -/
theorem step_related (h : ClosedStep R) {s t : State} (hs : step s = .next t) : R s t := by
  have hc := h.toClosed
  have fetch : Preserves R fetchOpword := .bind hc (.fetchWord hc) fun _ => .bind hc (.modifyState fun s => h.opword s _) fun _ => .pure hc _
  have ends : ∀ (u : State) n, R u (u.endStep n) := by
    intro u n
    unfold State.endStep
    dsimp only
    split
    · exact h.cost u _
    · exact h.trans (h.cost u _) (h.check _)
    · exact h.trans (h.cost u _) (h.check _)
  unfold step at hs
  split at hs
  · cases hs; exact h.refl s
  · cases hs; exact h.check s
  · obtain ⟨u, n, rfl, hu⟩ := stepRunning_cases hs
    have h0 : R s s.beginStep := h.latch s 0#16
    have h1 := fetch s.beginStep
    refine h.trans ?_ (ends u n)
    rcases hu with ⟨w, v, i, e, hi, hx⟩ | ⟨w, v, e, rfl⟩ | ⟨k, aux, v, e, hk, rfl⟩ <;> rw [e] at h1
    · exact h.trans h0 (h.trans h1 (instruction_related h (decodeOpword_wf hi) hx))
    · exact h.trans h0 (h.trans h1 (h.trans (h.pc v _) (h.raise _ _ _ (by simp))))
    · exact h.trans h0 (h.trans h1 (h.trans (h.pc v _) (h.raise _ _ _ hk)))

end Sys2Proof.Machine
end

