-- ==== Sys2Proof/Tests/Slice0.lean ====
section
/-! SUPPORT. Tests and witnesses. Expected values are those of spec/95_test_vectors.md (the vector's name stands
in the test's name) and words are written from the encodings of 30_encoding.md; no value is the model's own. -/

namespace Sys2Proof.Tests

open Sys2Proof Sys2Proof.Machine

/-! ### Well-formedness: each check refuses an ill-formed term -/

theorem test_wf_data_refuses_address_register : Instr.wf (.mulu 0 (.areg 1)) = false := by decide
theorem test_wf_data_alterable_refuses_pc_relative : Instr.wf (.addi .word .pcDisp) = false := by decide
theorem test_wf_data_alterable_refuses_address_register : Instr.wf (.clr .word (.areg 0)) = false := by decide
theorem test_wf_btst_static_refuses_immediate : Instr.wf (.btstImm .imm) = false := by decide
theorem test_wf_byte_source_refuses_address_register : Instr.wf (.moveB (.areg 0) (.dreg 0)) = false := by decide
theorem test_wf_move_destination_refuses_immediate : Instr.wf (.moveW (.dreg 0) .imm) = false := by decide
theorem test_wf_control_refuses_postincrement : Instr.wf (.jsr (.postInc 0)) = false := by decide
theorem test_wf_control_refuses_data_register : Instr.wf (.lea 0 (.dreg 0)) = false := by decide
theorem test_wf_movem_store_refuses_postincrement : Instr.wf (.movemToMem .word (.postInc 0)) = false := by decide
theorem test_wf_movem_load_refuses_predecrement : Instr.wf (.movemToReg .long (.preDec 0)) = false := by decide
theorem test_wf_movem_refuses_byte : Instr.wf (.movemToMem .byte (.ind 0)) = false := by decide
theorem test_wf_movep_refuses_byte : Instr.wf (.movep .toReg .byte 0 0) = false := by decide
theorem test_wf_alterable_refuses_pc_index : Instr.wf (.addq 1 .long .pcIndex) = false := by decide
theorem test_wf_addq_byte_refuses_address_register : Instr.wf (.addq 1 .byte (.areg 0)) = false := by decide
theorem test_wf_bcc_refuses_true : Instr.wf (.bcc .t 0#8) = false := by decide
theorem test_wf_bcc_refuses_false : Instr.wf (.bcc .f 0#8) = false := by decide
theorem test_wf_memory_alterable_refuses_data_register : Instr.wf (.addToEa 0 .byte (.dreg 0)) = false := by decide
theorem test_wf_adda_refuses_byte : Instr.wf (.adda 0 .byte (.dreg 0)) = false := by decide
theorem test_wf_cmp_byte_refuses_address_register : Instr.wf (.cmp 0 .byte (.areg 0)) = false := by decide
theorem test_wf_shift_memory_refuses_data_register : Instr.wf (.aslMem (.dreg 0)) = false := by decide
theorem test_wf_index_refuses_suppressed_postindex : (IndexWord.full ⟨false, 0, false, 0⟩ false true .word (.post .null)).wf = false := by
  decide

/-! ### Decoding: every constructor from a word written out bit by bit -/

/-- Every opword decodes to the instruction beside it. -/
def decodesTo (l : List (Half × Instr)) : Bool := l.all fun p => decodeOpword p.1 == some p.2

/-- Every opword is no instruction. -/
def undecoded (l : List Half) : Bool := l.all fun e => decodeOpword e == none

theorem test_decode_line_0_immediates : decodesTo
    [(0b0000000000111100#16, .oriCcr),
     (0b0000000001111100#16, .oriSr),
     (0b0000001000111100#16, .andiCcr),
     (0b0000001001111100#16, .andiSr),
     (0b0000101000111100#16, .eoriCcr),
     (0b0000101001111100#16, .eoriSr),
     (0b0000000000000011#16, .ori .byte (.dreg 3)),
     (0b0000001001010010#16, .andi .word (.ind 2)),
     (0b0000010010011001#16, .subi .long (.postInc 1)),
     (0b0000011000100111#16, .addi .byte (.preDec 7)),
     (0b0000101001101110#16, .eori .word (.disp 6)),
     (0b0000110010110101#16, .cmpi .long (.index 5))] = true := by
  decide +kernel

theorem test_decode_line_0_bits : decodesTo
    [(0b0000011100001010#16, .movep .toReg .word 3 2),
     (0b0000011111001010#16, .movep .toMem .long 3 2),
     (0b0000011100111100#16, .btstReg 3 .imm),
     (0b0000011101000101#16, .bchgReg 3 (.dreg 5)),
     (0b0000011110010101#16, .bclrReg 3 (.ind 5)),
     (0b0000011111111001#16, .bsetReg 3 .absLong),
     (0b0000100000111010#16, .btstImm .pcDisp),
     (0b0000100001000111#16, .bchgImm (.dreg 7)),
     (0b0000100010111000#16, .bclrImm .absShort),
     (0b0000100011100001#16, .bsetImm (.preDec 1))] = true := by
  decide +kernel

theorem test_decode_lines_1_to_3 : decodesTo
    [(0b0001010011000001#16, .moveB (.dreg 1) (.postInc 2)),
     (0b0010011001001100#16, .moveaL 3 (.areg 4)),
     (0b0010010101111011#16, .moveL .pcIndex (.disp 2)),
     (0b0011111001111100#16, .moveaW 7 .imm),
     (0b0011001111001111#16, .moveW (.areg 7) .absLong)] = true := by
  decide +kernel

theorem test_decode_line_4_fixed : decodesTo
    [(0b0100101011111100#16, .illegal),
     (0b0100111001110000#16, .reset),
     (0b0100111001110001#16, .nop),
     (0b0100111001110010#16, .stop),
     (0b0100111001110011#16, .rte),
     (0b0100111001110101#16, .rts),
     (0b0100111001110110#16, .trapv),
     (0b0100111001110111#16, .rtr),
     (0b0100111001001101#16, .trap 13),
     (0b0100111001010110#16, .link 6),
     (0b0100111001011101#16, .unlk 5),
     (0b0100111001100011#16, .moveToUsp 3),
     (0b0100111001101100#16, .moveFromUsp 4)] = true := by
  decide +kernel

theorem test_decode_line_4_operands : decodesTo
    [(0b0100111010010010#16, .jsr (.ind 2)),
     (0b0100111011111011#16, .jmp .pcIndex),
     (0b0100100001000110#16, .swap 6),
     (0b0100100010000101#16, .extW 5),
     (0b0100100011000100#16, .extL 4),
     (0b0100100001111000#16, .pea .absShort),
     (0b0100100011100111#16, .movemToMem .long (.preDec 7)),
     (0b0100110010011001#16, .movemToReg .word (.postInc 1)),
     (0b0100100000000011#16, .nbcd (.dreg 3)),
     (0b0100000011010100#16, .moveFromSr (.ind 4)),
     (0b0100010011111100#16, .moveToCcr .imm),
     (0b0100011011000010#16, .moveToSr (.dreg 2)),
     (0b0100101011011110#16, .tas (.postInc 6))] = true := by
  decide +kernel

theorem test_decode_line_4_sized : decodesTo
    [(0b0100000000000001#16, .negx .byte (.dreg 1)),
     (0b0100001001010011#16, .clr .word (.ind 3)),
     (0b0100010010100101#16, .neg .long (.preDec 5)),
     (0b0100011001111001#16, .not .word .absLong),
     (0b0100101010110010#16, .tst .long (.index 2)),
     (0b0100010110111010#16, .chk 2 .pcDisp),
     (0b0100011111101001#16, .lea 3 (.disp 1))] = true := by
  decide +kernel

theorem test_decode_lines_5_to_7 : decodesTo
    [(0b0101001011001110#16, .dbcc .hi 6),
     (0b0101111111011001#16, .scc .le (.postInc 1)),
     (0b0101000000000101#16, .addq 0 .byte (.dreg 5)),
     (0b0101111101001010#16, .subq 7 .word (.areg 2)),
     (0b0110000000000000#16, .bra 0#8),
     (0b0110000111111110#16, .bsr 0xFE#8),
     (0b0110110100010010#16, .bcc .lt 0x12#8),
     (0b0111101010000001#16, .moveq 5 0x81#8)] = true := by
  decide +kernel

theorem test_decode_lines_8_and_9 : decodesTo
    [(0b1000010011000011#16, .divu 2 (.dreg 3)),
     (0b1000111111111100#16, .divs 7 .imm),
     (0b1000011100000100#16, .sbcd .dataRegs 3 4),
     (0b1000011001111010#16, .orToDn 3 .word .pcDisp),
     (0b1000011110010110#16, .orToEa 3 .long (.ind 6)),
     (0b1001010011001101#16, .suba 2 .word (.areg 5)),
     (0b1001111110001001#16, .subx .preDec .long 7 1),
     (0b1001001001001010#16, .subToDn 1 .word (.areg 2)),
     (0b1001001100100011#16, .subToEa 1 .byte (.preDec 3))] = true := by
  decide +kernel

theorem test_decode_lines_10_11_15 : decodesTo
    [(0b1010000100100011#16, .lineA 0x123#12),
     (0b1111111011011100#16, .lineF 0xEDC#12),
     (0b1011001111000111#16, .cmpa 1 .long (.dreg 7)),
     (0b1011011101001100#16, .cmpm .word 3 4),
     (0b1011101010111100#16, .cmp 5 .long .imm),
     (0b1011010100000110#16, .eor 2 .byte (.dreg 6))] = true := by
  decide +kernel

theorem test_decode_line_12 : decodesTo
    [(0b1100001011010011#16, .mulu 1 (.ind 3)),
     (0b1100010111000110#16, .muls 2 (.dreg 6)),
     (0b1100100100001011#16, .abcd .preDec 4 3),
     (0b1100001101000101#16, .exgDD 1 5),
     (0b1100001101001101#16, .exgAA 1 5),
     (0b1100001110001101#16, .exgDA 1 5),
     (0b1100110000010001#16, .andToDn 6 .byte (.ind 1)),
     (0b1100110101011001#16, .andToEa 6 .word (.postInc 1))] = true := by
  decide +kernel

theorem test_decode_line_13 : decodesTo
    [(0b1101011011111000#16, .adda 3 .word .absShort),
     (0b1101010101000001#16, .addx .dataRegs .word 2 1),
     (0b1101000010001111#16, .addToDn 0 .long (.areg 7)),
     (0b1101000100010111#16, .addToEa 0 .byte (.ind 7))] = true := by
  decide +kernel

theorem test_decode_line_14_memory : decodesTo
    [(0b1110000011010000#16, .asrMem (.ind 0)),
     (0b1110000111011001#16, .aslMem (.postInc 1)),
     (0b1110001011100010#16, .lsrMem (.preDec 2)),
     (0b1110001111101011#16, .lslMem (.disp 3)),
     (0b1110010011110100#16, .roxrMem (.index 4)),
     (0b1110010111111000#16, .roxlMem .absShort),
     (0b1110011011111001#16, .rorMem .absLong),
     (0b1110011111010101#16, .rolMem (.ind 5))] = true := by
  decide +kernel

theorem test_decode_line_14_registers : decodesTo
    [(0b1110001000000011#16, .asrReg (.imm 1) .byte 3),
     (0b1110010101100100#16, .aslReg (.reg 2) .word 4),
     (0b1110000010001101#16, .lsrReg (.imm 0) .long 5),
     (0b1110011100101110#16, .lslReg (.reg 3) .byte 6),
     (0b1110100001010111#16, .roxrReg (.imm 4) .word 7),
     (0b1110101110110000#16, .roxlReg (.reg 5) .long 0),
     (0b1110110000011001#16, .rorReg (.imm 6) .byte 1),
     (0b1110111101111010#16, .rolReg (.reg 7) .word 2)] = true := by
  decide +kernel

/-- DC1 to DC7, DC9, DC13, DC15 to DC20, DC22, DC23, DC26 to DC28, DC31 to DC33, DC37, DC38, DC40, DC41. -/
theorem test_decode_refusals : undecoded
    [0x4848, 0x4E7A, 0x4E74, 0x49C0, 0xC180, 0x0E00, 0x00C0, 0x4AFB, 0x4898, 0x4CA0, 0x4C00, 0x42C0, 0x4100, 0x4EFC, 0x4E98, 0x4EA0,
     0x1040, 0x1008, 0xD008, 0x5208, 0x7100, 0x80C8, 0xC0C8, 0x8140, 0xC1C8, 0xE0C0, 0xE8C0, 0x083C, 0x0C3A, 0x0A3D, 0x46FD] = true := by
  decide +kernel

/-- Extension words of 30_encoding.md R104 and R105: a brief one, a full one, and two that are reserved. -/
theorem test_decode_index_words :
    decodeIndexWord 0b1101101011111110#16 = .brief ⟨true, 5, true, 1⟩ 0xFE#8 ∧
    decodeIndexWord 0b0001000110100110#16 = .full ⟨false, 1, false, 0⟩ true false .word (.post .word) ∧
    decodeIndexWord 0b0000000100000000#16 = .reserved ∧ decodeIndexWord 0b0000000100101000#16 = .reserved := by decide

/-- The words of the table, the first one in the low bits; the missing words are 0. -/
theorem test_decode_table_word :
    decodeTableWord 16 0x4E71 = some .nop ∧ decodeTableWord 32 0x80000600 = some (.addi .byte (.dreg 0)) ∧
    decodeTableWord 16 0x4E74 = none := by decide +kernel

/-! ### One step each -/

/-- The vectors' machine: SSP 0x8000, USP 0x4000, pc 0x1000, supervisor mode. -/
def base : State := { State.reset with ssp := 0x8000#32, usp := 0x4000#32, pc := 0x1000#32 }

def State.withCode (s : State) (words : List Half) : State := { s with mem := pokeBytes s.mem s.pc (words.flatMap bytesOfHalf) }
def State.withD (s : State) (n : Fin 8) (v : Word) : State := s.setDreg n .long v
def State.withA (s : State) (n : Fin 8) (v : Word) : State := s.setAreg n v
def State.withMem (s : State) (a : Word) (sz : Size) (v : Word) : State := { s with mem := writeMem s.mem a sz v }
def State.withSr (s : State) (v : Half) : State := { s with sr := v }

/-- The state an outcome gives; a stop gives a state no test expects. -/
def nextOf : Host.Outcome State Fault Refusal → State
  | .next s => s
  | .fault _ | .refused _ => { State.reset with pc := 0xDEADDEAD#32 }

/-- The state after one step over some words. -/
def go (words : List Half) (s : State) : State := nextOf (step (State.withCode s words))

/-- A check of the state a step leaves. -/
def ends (t : State) (check : State → Bool) : Bool := check t

def ccrOf (s : State) : Half := s.sr &&& 0x1F#16

/-- A vector over D0, D1 and SR: what D0 and X N Z V C become. -/
def vector (words : List Half) (d0 d1 : Word) (sr : Half) (r : Word) (xnzvc : Half) : Bool :=
  let s := go words (State.withSr (State.withD (State.withD base 0 d0) 1 d1) sr)
  s.dreg 0 == r && ccrOf s == xnzvc

/-- AM1, AM2, S1, AM5, AM6, AM7, AM9, AM10, AM12, AM14, AM16. -/
theorem test_add_sub :
    vector [0xD001] 0x80 0x80 0x2700 0 0b10111 = true ∧
    vector [0xD041] 0x7FFF 1 0x2700 0x8000 0b01010 = true ∧
    vector [0x0600, 0x0001] 0x1234567F 0 0x0000 0x12345680 0b01010 = true ∧
    vector [0x9001] 0 1 0x2700 0xFF 0b11001 = true ∧
    vector [0xB041] 5 7 0x2710 5 0b11001 = true ∧
    vector [0x0C00, 0x0080] 0x7F 0 0x2700 0x7F 0b01011 = true ∧
    vector [0xD181] 0xFFFFFFFF 0 0x2714 0 0b10101 = true ∧
    vector [0xD101] 0 0 0x2700 0 0b00000 = true ∧
    vector [0x4480] 0x80000000 0 0x2700 0x80000000 0b11011 = true ∧
    vector [0x4000] 0 0 0x2704 0 0b00100 = true ∧
    vector [0x5000] 0xF8 0 0x2700 0 0b10101 = true := by
  decide +kernel

/-- AM19, AM20, AM21, AM24, AM26, AM28. -/
theorem test_mul_div_ext :
    vector [0xC0C1] 0xFFFF 0xFFFF 0x2700 0xFFFE0001 0b01000 = true ∧
    vector [0xC1C1] 0x8000 0x8000 0x2700 0x40000000 0b00000 = true ∧
    vector [0x80C1] 100 7 0x2700 0x0002000E 0b00000 = true ∧
    vector [0x81C1] 0xFFFFFFF9 2 0x2700 0xFFFFFFFD 0b01000 = true ∧
    vector [0x4880] 0x12345680 0 0x2700 0x1234FF80 0b01000 = true ∧
    vector [0x4240] 0x12345678 0 0x2700 0x12340000 0b00100 = true := by
  decide +kernel

/-- S4, SH4, SH6, SH9, SH10, SH11. -/
theorem test_shifts :
    vector [0xE500] 0x40 0 0x2700 0 0b10111 = true ∧
    vector [0xE320] 0xFF 9 0x2700 0 0b00110 = true ∧
    vector [0xE2A0] 0x80000000 40 0x2700 0xFFFFFFFF 0b11001 = true ∧
    vector [0xE3A8] 0xFFFFFFFF 33 0x2710 0 0b00100 = true ∧
    vector [0xE008] 0x80 0 0x2700 0 0b10101 = true ∧
    vector [0xE2A8] 5 0 0x2711 5 0b10000 = true := by
  decide +kernel

/-- SH12, SH16, SH17, S3, SH20. -/
theorem test_rotates :
    vector [0xE378] 0x8001 16 0x2710 0x8001 0b11001 = true ∧
    vector [0xE618] 1 0 0x2700 0x20 0b00000 = true ∧
    vector [0xE330] 0x55 9 0x2710 0x55 0b10001 = true ∧
    vector [0xE330] 0x55 0 0x2710 0x55 0b10001 = true ∧
    vector [0xE210] 1 0 0x2710 0x80 0b11001 = true := by
  decide +kernel

/-- DM1, LG10, LG4, LG8, LG9. -/
theorem test_moves_and_logic :
    vector [0x303C, 0x8000] 0x12345678 0 0x2700 0x12348000 0b01000 = true ∧
    vector [0xC081] 0 5 0x2713 0 0b10100 = true ∧
    vector [0x8001] 1 0x80 0x2700 0x81 0b01000 = true ∧
    vector [0x0A80, 0xFFFF, 0xFFFF] 0x0F0F0F0F 0 0x2700 0xF0F0F0F0 0b01000 = true ∧
    vector [0x4600] 0x1234560F 0 0x2700 0x123456F0 0b01000 = true := by
  decide +kernel

/-- BB2, BB5, BB6, BB14. -/
theorem test_bits :
    vector [0x0300] 0 35 0x2700 0 0b00100 = true ∧
    vector [0x0380] 0x80000000 31 0x2704 0 0b00000 = true ∧
    vector [0x08C0, 0x0007] 0 0 0x2700 0x80 0b00100 = true ∧
    vector [0x4AC0] 0x12345681 0 0x2704 0x12345681 0b01000 = true := by
  decide +kernel

/-- BB7, BB9, BB10, AM22. -/
theorem test_decimal_and_division :
    ends (go [0xC101] (State.withD (State.withD base 0 0x45) 1 0x38)) (fun t => t.dreg 0 == 0x83) = true ∧
    ends (go [0x8101] (State.withD (State.withD base 0 0) 1 1)) (fun t => t.dreg 0 == 0x99) = true ∧
    ends (go [0x4800] (State.withD base 0 0x25)) (fun t => t.dreg 0 == 0x75) = true ∧
    ends (go [0x80C1] (State.withD (State.withD base 0 0x100000) 1 1)) (fun t => t.dreg 0 == 0x100000) = true := by
  decide +kernel

/-- AM11, S2, AM30, S9. -/
theorem test_memory_operands :
    ends (go [0x9109] (State.withSr (State.withMem (State.withMem (State.withA (State.withA base 0 0x2001) 1 0x3001) 0x2000 .byte 1) 0x3000 .byte 1) 0x2710)) (fun t => t.areg 0 == 0x2000 && t.areg 1 == 0x3000 && readMem t.mem 0x2000 .byte == 0xFF && ccrOf t == 0b11001) = true ∧
    ends (go [0x90FC, 0x0001] (State.withA base 0 0xFFFF0000)) (fun t => t.areg 0 == 0xFFFEFFFF) = true ∧
    ends (go [0xB108] (State.withMem (State.withA base 0 0x2000) 0x2000 .word 0x0102)) (fun t => t.areg 0 == 0x2002 && ccrOf t == 0) = true ∧
    ends (go [0x1F00] (State.withD base 0 0xAB)) (fun t => t.areg 7 == 0x7FFE && readMem t.mem 0x7FFE .byte == 0xAB) = true := by
  decide +kernel

/-- S10, EA3, EA16, P4. -/
theorem test_addressing :
    ends (go [0x3030, 0x1100] (State.withMem (State.withD base 0 7) 16 .long 0x1800)) (fun t => t.dreg 0 == 7 && t.pc == 0x1800 && readMem t.mem 0x7FFA .long == 0x1000) = true ∧
    ends (go [0x3030, 0x1602] (State.withMem (State.withMem (State.withD (State.withA base 0 0x2000) 1 0x10004) 0x2006 .word 0x2006) 0x2022 .word 0x2022)) (fun t => t.dreg 0 == 0x2006) = true ∧
    ends (go [0x20D8] (State.withMem (State.withA base 0 0x2000) 0x2000 .long 0x12345678)) (fun t => t.areg 0 == 0x2008 && readMem t.mem 0x2004 .long == 0x12345678) = true ∧
    ends (go [0x3010] (State.withMem (State.withA base 0 0x2001) 12 .long 0x1800)) (fun t => t.active == some (.addressError, 0x001D000020013010) && t.pc == 0x1800 && t.ssp == 0x7FF2) = true := by
  decide +kernel

/-- DM7, DM8, DM6, DM10. -/
theorem test_movem_movep :
    ends (go [0x48E0, 0x0080] (State.withA base 0 0x2000)) (fun t => readMem t.mem 0x1FFC .long == 0x2000 && t.areg 0 == 0x1FFC) = true ∧
    ends (go [0x4CD8, 0x0100] (State.withMem (State.withA base 0 0x2000) 0x2000 .long 0x12345678)) (fun t => t.areg 0 == 0x2004) = true ∧
    ends (go [0x4C98, 0x0002] (State.withMem (State.withA base 0 0x2000) 0x2000 .word 0x8001)) (fun t => t.dreg 1 == 0xFFFF8001 && t.areg 0 == 0x2002) = true ∧
    ends (go [0x01C8, 0x0000] (State.withD (State.withA base 0 0x2001) 0 0x11223344)) (fun t => peek t.mem 0x2001 == 0x11 && peek t.mem 0x2003 == 0x22 && peek t.mem 0x2005 == 0x33 && peek t.mem 0x2007 == 0x44) = true := by
  decide +kernel

/-- DM12, DM13, DM14, DM15, DM17, DM16, DM18. -/
theorem test_addresses_and_frames :
    ends (go [0x4857] (State.withA base 7 0x2000)) (fun t => readMem t.mem 0x1FFC .long == 0x2000 && t.areg 7 == 0x1FFC) = true ∧
    ends (go [0xC189] (State.withD (State.withA base 1 2) 0 1)) (fun t => t.dreg 0 == 2 && t.areg 1 == 1) = true ∧
    ends (go [0x4841] (State.withD base 1 0x12345678)) (fun t => t.dreg 1 == 0x56781234) = true ∧
    ends (go [0x4E56, 0xFFF8] (State.withA (State.withA base 6 0x2000) 7 0x3000)) (fun t => readMem t.mem 0x2FFC .long == 0x2000 && t.areg 6 == 0x2FFC && t.areg 7 == 0x2FF4) = true ∧
    ends (go [0x4E57, 0x0000] (State.withA base 7 0x3000)) (fun t => readMem t.mem 0x2FFC .long == 0x2FFC && t.areg 7 == 0x2FFC) = true ∧
    ends (go [0x4E5E] (State.withMem (State.withA base 6 0x2FFC) 0x2FFC .long 0x2000)) (fun t => t.areg 6 == 0x2000 && t.areg 7 == 0x3000) = true ∧
    ends (go [0x2F00] (State.withD (State.withSr base 0x0000) 0 0x55)) (fun t => t.usp == 0x3FFC && t.ssp == 0x8000 && readMem t.mem 0x3FFC .long == 0x55) = true := by
  decide +kernel

/-- PC3, PC5, PC1, PC7, PC9, PC14, PC16. -/
theorem test_branches :
    ends (go [0x60FE] base) (fun t => t.pc == 0x1000) = true ∧
    ends (go [0x6110] (State.withA base 7 0x2000)) (fun t => readMem t.mem 0x1FFC .long == 0x1002 && t.areg 7 == 0x1FFC && t.pc == 0x1012) = true ∧
    ends (go [0x6700, 0x0010] (State.withSr base 0x2704)) (fun t => t.pc == 0x1012) = true ∧
    ends (go [0x51C8, 0xFFFE] (State.withD base 0 0xABCD0000)) (fun t => t.dreg 0 == 0xABCDFFFF && t.pc == 0x1004) = true ∧
    ends (go [0x57C0] (State.withSr (State.withD base 0 0x12345600) 0x2704)) (fun t => t.dreg 0 == 0x123456FF) = true ∧
    ends (go [0x4EB9, 0x0000, 0x4000] (State.withA base 7 0x2000)) (fun t => readMem t.mem 0x1FFC .long == 0x1006 && t.pc == 0x4000) = true ∧
    ends (go [0x4E77] (State.withMem (State.withMem (State.withA base 7 0x1FFA) 0x1FFA .word 0x001F) 0x1FFC .long 0x1002)) (fun t => t.pc == 0x1002 && t.areg 7 == 0x2000 && t.sr == 0x271F) = true := by
  decide +kernel

/-- SC1, SC2, SC3, SC15, SC21, SC25, EX17. -/
theorem test_system :
    ends (go [0x46FC, 0x0000] base) (fun t => t.sr == 0 && t.areg 7 == 0x4000) = true ∧
    ends (go [0x46FC, 0xFFFF] base) (fun t => t.sr == 0xF71F) = true ∧
    ends (go [0x46FC, 0x0000] (State.withMem (State.withSr base 0x0000) 32 .long 0x1600)) (fun t => t.pc == 0x1600 && readMem t.mem 0x7FFA .long == 0x1000) = true ∧
    ends (go [0x4E72, 0x2000] base) (fun t => t.sr == 0x2000 && t.run == .stopped && t.pc == 0x1004) = true ∧
    ends (go [0x4E4F] (State.withMem base 188 .long 0x1700)) (fun t => t.pc == 0x1700 && readMem t.mem 0x7FFA .long == 0x1002) = true ∧
    ends (go [0x4181] (State.withD (State.withD base 0 2) 1 3)) (fun t => t.pc == 0x1002 && t.dreg 0 == 2) = true ∧
    ends (go [0x4E71] (State.withMem (State.withSr base 0xA700) 36 .long 0x1200)) (fun t => t.pc == 0x1200 && readMem t.mem 0x7FFA .long == 0x1002 && t.sr == 0x2700 && readMem t.mem 0x7FFE .word == 0xA700) = true := by
  decide +kernel

/-- SC16, SC18, P6, EA4, and the host's interface: its word is the next instruction the step runs. -/
theorem test_returns_requests_and_fetch :
    ends (go [0x4E73] { State.withMem base 0x7FFA .long 0x1000 with ssp := 0x7FFA, active := some (.trap 0, 0) })
      (fun t => t.pc == 0x1000 && t.sr == 0 && t.ssp == 0x8000 && t.active == none) = true ∧
    (go [0x4E73] { base with active := some (.addressError, 0) }).run = .halted ∧
    ends (raiseInput (.autovector 2) 0 { State.withMem base 108 .long 0x1400 with run := .stopped, sr := 0x2000, pc := 0x1004 })
      (fun t => t.pc == 0x1400 && t.run == .running && readMem t.mem 0x7FFA .long == 0x1004) = true ∧
    (go [0x3030, 0x1602] { State.withMem (State.withD (State.withA base 0 0x2000) 1 0x10004) 0x2022 .word 0x2022 with
      params := { Params.default with cpuModel := .mc68020Ea } }).dreg 0 = 0x2022 ∧
    (nextOf (step (State.reset.withFetchWord 16 0x76FF))).dreg 3 = 0xFFFFFFFF := by decide +kernel

/-! ### Witnesses: states and operands that meet the hypotheses of a statement, clause by clause -/

def user : State := State.withSr base 0#16

/-- The vectors' machine with one region of the platform's memory. -/
def mapped (addr size : Nat) (kind : RegionKind) : State := { base with map := [⟨addr, size, kind⟩] }

theorem base_inv : base.Inv := ⟨by decide, by decide, by decide, by decide, by decide, by decide +kernel⟩
theorem base_uninterrupted : Uninterrupted base base := ⟨rfl, .inl rfl, rfl, by decide⟩
theorem reads_dreg (n : Fin 8) (sz : Size) (s : State) : Reads (.dreg n) sz s (trunc sz (s.dreg n)) s := ⟨_, _, rfl, rfl⟩
theorem updates_long (r : Word) : ∃ t, Updates (.ind 0) .long base 0#32 base r t := ⟨_, _, _, rfl, rfl, rfl⟩

theorem witness_DecodeEncodeRoundTrip :
    Instr.wf (.lineF 0xFFF#12) = true ∧ IndexWord.wf (.full ⟨true, 7, true, 3⟩ true true .long (.pre .long)) = true := by decide

theorem witness_DecodedWordsReencode : decodeOpword 0xFFFF#16 = some (.lineF 0xFFF#12) ∧ decodeIndexWord 0x0110#16 ≠ .reserved := by
  decide

theorem witness_StepRunsDecodedInstruction :
    let s := State.withCode base [0x4E71#16]
    s.run = .running ∧ s.readable s.pc .word ∧ decode [peek s.mem s.pc, peek s.mem (s.pc + 1#32)] = .ok .nop ∧
      ∃ t, exec .nop { s with pcStart := s.pc, ir := s.wordAtPc, pc := s.pc + 2#32 } = .next t :=
  ⟨rfl, ⟨rfl, rfl⟩, rfl, _, rfl⟩

theorem witness_OutcomesAreSettled :
    (pure () : M Unit) base = .ok () base ∧ (raiseFault .addressError 0#64 : M Unit) base = .error (.fault .addressError 0#64) base ∧
      (raiseTrap .chkChk2 : M Unit) base = .error (.trap .chkChk2) base ∧
      haltCore base = .error .halted { base with run := .halted } := ⟨rfl, rfl, rfl, rfl⟩

theorem witness_FetchAndDecodeFaults :
    (base.run = .running ∧ (0xFFFFFFFF#32).getLsbD 0 = true) ∧
    (let s := State.withCode base [0x4E74#16]
     s.run = .running ∧ s.readable s.pc .word ∧ decodeOpword s.wordAtPc = none) := ⟨⟨rfl, rfl⟩, rfl, ⟨rfl, rfl⟩, rfl⟩

theorem witness_RunStatesAndTicks :
    ({ base with run := .stopped } : State).run = .stopped ∧ ({ base with run := .halted } : State).run = .halted ∧
    base.run ≠ .halted ∧ 1 < ({ base with countdown := 2 } : State).countdown ∧
    (let s : State := { base with run := .stopped, countdown := 1 }
     s.run ≠ .halted ∧ s.countdown ≤ 1 ∧ step { s with countdown := 0 } = .next { s with countdown := 0 } ∧
     s.readable s.pc .word ∧ decodeOpword s.wordAtPc = some (.ori .byte (.dreg 0))) :=
  ⟨rfl, rfl, by decide, by decide, by decide, by decide, rfl, ⟨rfl, rfl⟩, rfl⟩

theorem witness_ResetTransition :
    (base.readable 0#32 .long ∧ base.readable 4#32 .long) ∧
    answerOf (mapped 3 1 .unmapped).map 0#32 .long false = .pageNotMapped ∧
    ((mapped 4 1 .unmapped).readable 0#32 .long ∧ answerOf (mapped 4 1 .unmapped).map 4#32 .long false = .pageNotMapped) :=
  ⟨⟨⟨rfl, rfl⟩, rfl, rfl⟩, rfl, ⟨rfl, rfl⟩, rfl⟩

theorem witness_InvKeptByStep : base.Inv ∧ ∃ t, step base = .next t := ⟨base_inv, _, rfl⟩
theorem witness_InvKeptByInputs : base.Inv ∧ ∃ t, tick base = .next t := ⟨base_inv, _, rfl⟩
theorem witness_UserModeIsolation : user.supervisor = false ∧ ∃ t, step user = .next t := ⟨rfl, _, rfl⟩

theorem witness_PrivilegedInUserMode :
    user.supervisor = false ∧ Instr.stop ∈ [Instr.oriSr, .andiSr, .eoriSr, .reset, .rte, .stop] := ⟨rfl, by decide⟩

theorem witness_RegisterWrites : (0 : Fin 8) ≠ 7 := by decide

theorem witness_BigEndianMemory : Memory.wf [] = true ∧ Memory.wf [(0xFFFFFFFF, 1#8)] = true := by decide

theorem witness_MemoryAccesses :
    (Size.word ≠ .byte ∧ (0xFFFFFFFF#32).getLsbD 0 = true) ∧
    (∃ b ∈ coveredBy 0x1000#32 .long, regionAt (mapped 0x1003 1 .unmapped).map b = some .unmapped) ∧
    (∃ b ∈ coveredBy 0x1000#32 .word, regionAt (mapped 0x1001 1 .writeProtected).map b = some .writeProtected) ∧
    (∃ e t, memRead .data .word 0x1001#32 base = .error e t) ∧ (∃ e t, memWrite .long 0x1001#32 0#32 base = .error e t) ∧
    base.readable 0xFFFFFFFE#32 .long ∧ base.writable 0xFFFFFFFF#32 .byte ∧ (∀ b ∈ coveredBy 0x1000#32 .long, regionAt base.map b = none) ∧
    base.readable base.pc .word ∧ base.writable (base.areg 7 - sizeWord .word) .word ∧ base.readable (base.areg 7) .long :=
  ⟨⟨by decide, rfl⟩, ⟨0x1003#32, by decide, rfl⟩, ⟨0x1001#32, by decide, rfl⟩, ⟨_, _, rfl⟩, ⟨_, _, rfl⟩, ⟨rfl, rfl⟩, ⟨rfl, rfl⟩,
    fun _ _ => rfl, ⟨rfl, rfl⟩, ⟨rfl, rfl⟩, ⟨rfl, rfl⟩⟩

/-- A long whose low word lies in a device region. -/
theorem witness_MemoryAccesses_device :
    let s := mapped 0x2002 2 .device
    (0x2000#32).getLsbD 0 = false ∧ (∃ b ∈ coveredBy 0x2000#32 .long, regionAt s.map b = some .device) ∧
      (∀ b ∈ coveredBy 0x2000#32 .long, regionAt s.map b ≠ some .unmapped ∧ regionAt s.map b ≠ some .writeProtected) ∧
      regionAt s.map (0x2000#32 + BitVec.ofNat 32 1) ≠ some .device ∧ Memory.wf s.mem = true := by
  refine ⟨rfl, ⟨0x2002#32, by decide, rfl⟩, fun b hb => ?_, nofun, rfl⟩
  simp only [coveredBy, List.mem_cons, List.not_mem_nil, or_false] at hb
  rcases hb with rfl | rfl | rfl | rfl <;> exact ⟨nofun, nofun⟩

/-- The plain bytes of such a long read as its latest write (20_memory.md R85). -/
theorem test_straddling_write_keeps_plain_bytes :
    let s := mapped 0x2002 2 .device
    (match memWrite .long 0x2000#32 0x11223344#32 s with
     | .ok _ t => (readMem t.mem 0x2000#32 .word, t.outputs)
     | .error _ _ => (0#32, [])) = (0x1122#32, [.deviceWrite 0x2000#32 .long 0x11223344#32]) := by decide

theorem witness_ResolvedOperands :
    base.readable base.pc .word ∧ base.readable (base.pc + 2#32) .word ∧ ∃ v u, immediate .long base = .ok v u :=
  ⟨⟨rfl, rfl⟩, ⟨rfl, rfl⟩, _, _, rfl⟩

theorem witness_IndexedAddresses :
    let brief := State.withCode base [0x18FE#16]
    let full (e : Half) : State := { State.withCode base [e] with params := { Params.default with cpuModel := .mc68020Ea } }
    (brief.readable brief.pc .word ∧ brief.wordAtPc.getLsbD 8 = false ∧ brief.params.cpuModel = .mc68000) ∧
    ((State.withCode base [0x1110#16]).wordAtPc.getLsbD 8 = true ∧ base.params.cpuModel = .mc68000) ∧
    decodeIndexWord (full 0x1100#16).wordAtPc = .reserved ∧
    ((full 0x0002#16).wordAtPc.getLsbD 8 = false ∧ (full 0x0002#16).params.cpuModel = .mc68020Ea) ∧
    (decodeIndexWord (full 0x1110#16).wordAtPc = .full ⟨false, 1, false, 0⟩ false false .null .none ∧
      ∃ d u, fetchDisp .null (full 0x1110#16) = .ok d u) ∧
    (decodeIndexWord (full 0x1122#16).wordAtPc = .full ⟨false, 1, false, 0⟩ false false .word (.pre .word) ∧
      ∃ d u e v p w, fetchDisp .word (full 0x1122#16) = .ok d u ∧ fetchDisp .word u = .ok e v ∧
        memRead .data .long 0x2000#32 v = .ok p w) ∧
    (decodeIndexWord (full 0x1137#16).wordAtPc = .full ⟨false, 1, false, 0⟩ false false .long (.post .long) ∧
      ∃ d u e v, fetchDisp .long (full 0x1137#16) = .ok d u ∧ fetchDisp .long u = .ok e v) ∧
    (∃ a t, indexed (base.areg 0) base = .ok a t) ∧ ∃ a t, indexed base.pc base = .ok a t :=
  ⟨⟨⟨rfl, rfl⟩, rfl, rfl⟩, ⟨rfl, rfl⟩, rfl, ⟨rfl, rfl⟩, ⟨rfl, _, _, rfl⟩, ⟨rfl, _, _, _, _, _, _, rfl, rfl, rfl⟩,
    ⟨rfl, _, _, _, _, rfl, rfl⟩, ⟨_, _, rfl⟩, _, _, rfl⟩

theorem witness_ShiftsAreArithmetic : 0 < 1 ∧ 63 < 64 := by decide
theorem witness_RotatesMoveBits : 0 < 1 ∧ 63 < 64 := by decide
theorem witness_BcdIsDecimal : validBcd 0x00#8 = true ∧ validBcd 0x99#8 = true := by decide

theorem witness_MoveResults (sz : Size) : ∃ t, Reads (.dreg 1) sz base (trunc sz 0#32) base ∧ Writes (.dreg 2) sz base (trunc sz 0#32) t :=
  ⟨_, reads_dreg 1 sz base, _, _, rfl, rfl⟩

/-- An operand at an unmapped address: a source that faults, and a destination that faults after its address register moved. -/
theorem witness_MoveResults_faults (sz : Size) :
    let s := mapped 0 4 .unmapped
    (∃ k aux, resolve (.ind 0) sz true s = .ok (.mem 0#32 .data) s ∧ readLoc (.mem 0#32 .data) sz s = .error (.fault k aux) s) ∧
    Reads (.dreg 1) sz s (trunc sz 0#32) s ∧
    ∃ u k aux, resolve (.postInc 0) sz true s = .ok (.mem 0#32 .data) u ∧ u.areg 0 ≠ s.areg 0 ∧
      writeLoc (.mem 0#32 .data) sz (trunc sz 0#32) u = .error (.fault k aux) u := by
  cases sz <;> exact ⟨⟨_, _, rfl, rfl⟩, reads_dreg 1 _ _, _, _, _, rfl, by decide, rfl⟩

theorem witness_MovemStores :
    let s := State.withCode base [0x8001#16]
    let u : State := { s with pc := 0x1002#32 }
    fetchWord s = .ok 0x8001#16 u ∧ Memory.wf u.mem = true ∧ (∀ n, EA.ind 0 ≠ .preDec n) ∧
      resolve (.ind 0) .long false u = .ok (.mem 0#32 .data) u ∧ (maskBits 0x8001#16).length = 2 ∧
      (∀ j, j < 2 → u.writable (0#32 + BitVec.ofNat 32 (j * sizeBytes .long)) .long) ∧
      ∀ j, j < 2 → u.writable (u.areg 7 - BitVec.ofNat 32 (2 * sizeBytes .long) + BitVec.ofNat 32 (j * sizeBytes .long)) .long := by
  refine ⟨rfl, rfl, nofun, rfl, by decide, fun j hj => ?_, fun j hj => ?_⟩ <;> interval_cases j <;> exact ⟨rfl, rfl⟩

theorem witness_MovemLoads :
    let s := State.withCode base [0x8001#16]
    let u : State := { s with pc := 0x1002#32 }
    fetchWord s = .ok 0x8001#16 u ∧ resolve (.ind 0) .word false u = .ok (.mem 0#32 .data) u ∧ (∀ n, EA.ind 0 ≠ .postInc n) ∧
      resolve (.postInc 7) .word false u = .ok (.mem 0x8000#32 .data) u ∧
      (∀ j, j < 2 → u.readable (0#32 + BitVec.ofNat 32 (j * sizeBytes .word)) .word) ∧
      (∀ j, j < 2 → u.readable (0x8000#32 + BitVec.ofNat 32 (j * sizeBytes .word)) .word) ∧
      (maskBits 0x8001#16)[0]?.map Fin.val = some 0 ∧ (1 : Fin 16) ∉ maskBits 0x8001#16 := by
  refine ⟨rfl, rfl, nofun, rfl, fun j hj => ?_, fun j hj => ?_, by decide, by decide⟩ <;> interval_cases j <;> exact ⟨rfl, rfl⟩

theorem witness_MovepTransfers :
    ∃ w u, fetchWord base = .ok w u ∧ (∀ k ∈ [0#32, 2#32, 4#32, 6#32], u.readable (u.areg 0 + sext16 w + k) .byte) ∧
      ∀ k ∈ [0#32, 2#32, 4#32, 6#32], u.writable (u.areg 0 + sext16 w + k) .byte :=
  ⟨_, _, rfl, fun _ _ => ⟨rfl, rfl⟩, fun _ _ => ⟨rfl, rfl⟩⟩

theorem witness_AddressesAndFrames :
    resolve (.ind 0) .long true base = .ok (.mem 0#32 .data) base ∧ base.writable (base.areg 7 - 4#32) .long ∧
      (∃ w u, fetchWord base = .ok w u ∧ u.writable (u.areg 7 - 4#32) .long) ∧ (6 : Fin 8) ≠ 7 ∧ base.readable (base.areg 6) .long ∧
      base.readable (base.areg 7) .long ∧
      ∃ w k aux u, fetchWord (mapped 0x7FFC 4 .unmapped) = .ok w u ∧ memWrite .long (u.areg 7 - 4#32) (u.areg 6) u = .error (.fault k aux) u :=
  ⟨rfl, ⟨rfl, rfl⟩, ⟨_, _, rfl, rfl, rfl⟩, by decide, ⟨rfl, rfl⟩, ⟨rfl, rfl⟩, _, _, _, _, rfl, rfl⟩

theorem witness_RegisterDestinations (sz : Size) : Reads (.dreg 1) sz base (trunc sz (base.dreg 1)) base := reads_dreg 1 sz base

/-- Whatever the result stored. -/
theorem witness_OperandDestinations (r : Word) : ∃ t, Updates (.ind 0) .long base 0#32 base r t := updates_long r

theorem witness_ImmediateOperations (r : Word) :
    ∃ i s0 t, immediate .long base = .ok i s0 ∧ Updates (.ind 0) .long s0 0#32 s0 r t :=
  ⟨_, _, _, rfl, _, _, rfl, rfl, rfl⟩

theorem witness_QuickAndAddressArithmetic (r : Word) :
    (EA.ind 0).isAreg = false ∧ (∃ t, Updates (.ind 0) .long base 0#32 base r t) ∧ Reads (.dreg 1) .word base 0#32 base ∧
      Reads (.areg 7) .long base 0x8000#32 base :=
  ⟨rfl, updates_long r, ⟨_, _, rfl, rfl⟩, _, _, rfl, rfl⟩

theorem witness_Comparisons :
    Reads (.dreg 1) .long base 0#32 base ∧ Reads (.areg 7) .word base 0x8000#32 base ∧
      (∃ i s0, immediate .word base = .ok i s0 ∧ Reads (.dreg 0) .word s0 0#32 s0) ∧
      ∃ i s0 v u, Reads (.postInc 0) .byte base i s0 ∧ Reads (.postInc 0) .byte s0 v u :=
  ⟨⟨_, _, rfl, rfl⟩, ⟨_, _, rfl, rfl⟩, ⟨_, _, rfl, _, _, rfl, rfl⟩, _, _, _, _, ⟨_, _, rfl, rfl⟩, _, _, rfl, rfl⟩

theorem witness_ExtendedArithmetic (r : Word) :
    ∃ v s0 d u t loc s1, Reads (.preDec 7) .byte base v s0 ∧ Updates (.preDec 7) .byte s0 d u r t ∧
      resolve (.preDec 7) .byte true s0 = .ok loc s1 ∧ readLoc loc .byte s1 = .ok d u :=
  ⟨_, _, _, _, _, _, _, ⟨_, _, rfl, rfl⟩, ⟨_, _, rfl, rfl, rfl⟩, rfl, rfl⟩

theorem witness_WriteOnlyOperands (v : Word) : ∃ t, Writes (.preDec 7) .byte base v t := ⟨_, _, _, rfl, rfl⟩

theorem witness_Products : Reads (.areg 7) .word base 0x8000#32 base := ⟨_, _, rfl, rfl⟩

/-- A zero divisor, the largest quotients that fit, the smallest that do not. -/
theorem witness_Quotients :
    Reads (.dreg 1) .word base 0#32 base ∧
    (let s := State.withD (State.withD base 0 0xFFFFFFFF#32) 1 0xFFFF#32
     Reads (.dreg 1) .word s 0xFFFF#32 s ∧ (s.dreg 0).toNat / 0xFFFF = 65537) ∧
    (let s := State.withD (State.withD base 0 0xFFFF#32) 1 1#32
     Reads (.dreg 1) .word s 1#32 s ∧ (s.dreg 0).toNat / 1 ≤ 65535 ∧ 32767 < (s.dreg 0).toInt.tdiv (signedAt .word 1#32)) ∧
    (let s := State.withD (State.withD base 0 0xFFFF8000#32) 1 1#32
     Reads (.dreg 1) .word s 1#32 s ∧ (s.dreg 0).toInt.tdiv (signedAt .word 1#32) = -32768) ∧
    (let s := State.withD (State.withD base 0 0xFFFF7FFF#32) 1 1#32
     Reads (.dreg 1) .word s 1#32 s ∧ (s.dreg 0).toInt.tdiv (signedAt .word 1#32) = -32769) :=
  ⟨⟨_, _, rfl, rfl⟩, ⟨⟨_, _, rfl, rfl⟩, by decide⟩, ⟨⟨_, _, rfl, rfl⟩, by decide, by decide⟩, ⟨⟨_, _, rfl, rfl⟩, by decide⟩,
    ⟨_, _, rfl, rfl⟩, by decide⟩

theorem witness_ShiftResults (r : Word) :
    (∃ d t, Updates (.ind 0) .word base d base r t) ∧ (base.dreg 1).toNat % 64 = 0 ∧
      ((State.withD base 1 64#32).dreg 1).toNat % 64 = 0 :=
  ⟨⟨_, _, _, _, rfl, rfl, rfl⟩, by decide, by decide⟩

theorem witness_BitOperations (f : Word → Word) (z : Bool) :
    Reads (.dreg 1) .long base 0#32 base ∧ Reads (.ind 0) .byte base 0#32 base ∧
      (∃ v t, readLoc (.mem 0#32 .data) .byte base = .ok v base ∧
        writeLoc (.mem 0#32 .data) .byte (f v) (base.setFlags { base.flags with z := z }) = .ok () t) ∧
      (∃ w u, fetchWord base = .ok w u) ∧
      (∃ t, writeLoc (.mem 0#32 .data) .byte (f 0#32) (base.setFlags (logicFlags .byte 0#32 base.flags)) = .ok () t) ∧
      (let s := mapped 0 1 .writeProtected
       resolve (.ind 0) .byte true s = .ok (.mem 0#32 .data) s ∧ readLoc (.mem 0#32 .data) .byte s = .ok 0#32 s ∧
       (∃ k aux t, writeLoc (.mem 0#32 .data) .byte (f 0#32) (s.setFlags { s.flags with z := z }) = .error (.fault k aux) t) ∧
       ∃ k aux t, writeLoc (.mem 0#32 .data) .byte (f 0#32) (s.setFlags (logicFlags .byte 0#32 s.flags)) = .error (.fault k aux) t) :=
  ⟨⟨_, _, rfl, rfl⟩, ⟨_, _, rfl, rfl⟩, ⟨_, _, rfl, rfl⟩, ⟨_, _, rfl⟩, ⟨_, rfl⟩, rfl, rfl, ⟨_, _, _, rfl⟩, _, _, _, rfl⟩

/-- Valid digits and an invalid one, register and memory operands, and a function that gives the state each store leaves. -/
theorem witness_DecimalInstructions :
    (∃ w : Word → Nat → State, ∀ r k, writeLoc (.dreg 0) .byte r { base with draws := k } = .ok () (w r k)) ∧
    (∃ w : Word → Nat → State, ∀ r k, writeLoc (.mem 0#32 .data) .byte r { base with draws := k } = .ok () (w r k)) ∧
    extendedOperands .dataRegs .byte 0 1 base = .ok (0#32, 0#32, .dreg 0) base ∧ (∃ p u, extendedOperands .preDec .byte 0 1 base = .ok p u) ∧
    (resolve (.ind 0) .byte true base = .ok (.mem 0#32 .data) base ∧ readLoc (.mem 0#32 .data) .byte base = .ok 0#32 base) ∧
    validBcd 0x99#8 = true ∧ validBcd 0x0A#8 = false :=
  ⟨⟨_, fun _ _ => rfl⟩, ⟨_, fun _ _ => rfl⟩, rfl, ⟨_, _, rfl⟩, ⟨rfl, rfl⟩, by decide, by decide⟩

theorem witness_Branches :
    (0x01#8 ≠ 0#8 ∧ (0x00#8 = 0#8 ∧ ∃ w u, fetchWord base = .ok w u)) ∧ condHolds base.flags .ne = true ∧ condHolds base.flags .eq = false ∧
      ((base.dreg 0).setWidth 16 : Half) = 0#16 ∧ (((State.withD base 0 0xABCD0001#32).dreg 0).setWidth 16 : Half) ≠ 0#16 :=
  ⟨⟨by decide, rfl, _, _, rfl⟩, rfl, rfl, rfl, by decide⟩

theorem witness_CallsAndReturns :
    (∃ w u, fetchWord base = .ok w u ∧ u.writable (u.areg 7 - 4#32) .long) ∧ base.writable (base.areg 7 - 4#32) .long ∧
      resolve (.ind 0) .long true base = .ok (.mem 0#32 .data) base ∧ base.readable (base.areg 7) .long ∧
      base.readable (base.areg 7) .word ∧ base.readable (base.areg 7 + 2#32) .long :=
  ⟨⟨_, _, rfl, rfl, rfl⟩, ⟨rfl, rfl⟩, rfl, ⟨rfl, rfl⟩, ⟨rfl, rfl⟩, ⟨rfl, rfl⟩⟩

theorem witness_StatusInstructions :
    Reads (.dreg 1) .word base 0#32 base ∧ base.supervisor = true ∧ ∃ i u, fetchWord base = .ok i u :=
  ⟨⟨_, _, rfl, rfl⟩, rfl, _, _, rfl⟩

theorem witness_SupervisorInstructions : base.supervisor = true ∧ ∃ i u, fetchWord base = .ok i u := ⟨rfl, _, _, rfl⟩

theorem witness_ReturnFromException :
    (base.supervisor = true ∧ (∀ k aux, base.active = some (k, aux) → irqGroup k ≠ 0) ∧ base.readable base.ssp .long ∧
      base.readable (base.ssp + 4#32) .word) ∧
    (let s : State := { base with active := some (.busError, 0#64) }
     s.supervisor = true ∧ s.active = some (.busError, 0#64) ∧ irqGroup .busError = 0) :=
  ⟨⟨rfl, nofun, ⟨rfl, rfl⟩, rfl, rfl⟩, rfl, rfl, rfl⟩

/-- Both bounds of CHK: -1 and 0, the bound itself and the value above it. -/
theorem witness_TrapInstructions :
    (State.withSr base 0x2702#16).flags.v = true ∧ base.flags.v = false ∧
    (let s := State.withD (State.withD base 0 0xFFFF#32) 1 3#32
     Reads (.dreg 1) .word s 3#32 s ∧ signedAt .word (s.dreg 0) < 0) ∧
    (let s := State.withD (State.withD base 0 4#32) 1 3#32
     Reads (.dreg 1) .word s 3#32 s ∧ 0 ≤ signedAt .word (s.dreg 0) ∧ signedAt .word 3#32 < signedAt .word (s.dreg 0)) ∧
    (let s := State.withD (State.withD base 0 3#32) 1 3#32
     Reads (.dreg 1) .word s 3#32 s ∧ 0 ≤ signedAt .word (s.dreg 0) ∧ signedAt .word (s.dreg 0) ≤ signedAt .word 3#32) :=
  ⟨rfl, rfl, ⟨⟨_, _, rfl, rfl⟩, by decide⟩, ⟨⟨_, _, rfl, rfl⟩, by decide, by decide⟩, ⟨_, _, rfl, rfl⟩, by decide, by decide⟩

theorem witness_EnterStandardFrame :
    irqGroup (.trap 15) ≠ 0 ∧ Memory.wf base.mem = true ∧ base.writable (base.ssp - 2#32) .word ∧ base.writable (base.ssp - 6#32) .long ∧
      base.readable (vectorAddress (.trap 15)) .long := ⟨by decide, rfl, ⟨rfl, rfl⟩, ⟨rfl, rfl⟩, rfl, rfl⟩

theorem witness_EnterGroup0Frame :
    irqGroup .addressError = 0 ∧ Memory.wf base.mem = true ∧ (∀ j ∈ [2, 4, 6, 8, 10], base.writable (base.ssp - BitVec.ofNat 32 j) .word) ∧
      base.writable (base.ssp - 14#32) .long ∧ base.readable (vectorAddress .addressError) .long := by
  refine ⟨rfl, rfl, fun j hj => ?_, ⟨rfl, rfl⟩, rfl, rfl⟩
  simp only [List.mem_cons, List.not_mem_nil, or_false] at hj
  rcases hj with rfl | rfl | rfl | rfl | rfl <;> exact ⟨rfl, rfl⟩

/-- A full and an empty pending stack behind a higher priority; no active interrupt; the lowest and the highest byte of a frame. -/
theorem witness_ControllerTransitions :
    (let s : State := { base with active := some (.trace, 0#64), pending := List.replicate 10 (.trap 0, 0#64) }
     s.active = some (.trace, 0#64) ∧ priority s.params (.trap 1) ≤ priority s.params .trace ∧ s.pending.length = s.params.pendingDepth) ∧
    base.pending.length ≠ base.params.pendingDepth ∧
    (∀ a x, base.active = some (a, x) → priority base.params a < priority base.params (.trap 1)) ∧ base.pending = [] ∧
    ({ base with pending := [(.trap 1, 0#64)] } : State).pending = (.trap 1, 0#64) :: [] ∧
    ({ base with ssp := 0x8001#32 } : State).ssp.getLsbD 0 = true ∧
    regionAt (mapped 0x7FFF 1 .unmapped).map (base.ssp - BitVec.ofNat 32 1) = some .unmapped ∧
    regionAt (mapped 0x7FFA 1 .writeProtected).map (base.ssp - BitVec.ofNat 32 6) = some .writeProtected ∧
    regionAt (mapped 0x7FF2 1 .unmapped).map (base.ssp - BitVec.ofNat 32 14) = some .unmapped ∧
    ∃ b ∈ coveredBy (vectorAddress (.trap 1)) .long, regionAt (mapped 135 1 .unmapped).map b = some .unmapped :=
  ⟨⟨rfl, by decide, rfl⟩, by decide, nofun, rfl, rfl, rfl, rfl, rfl, rfl, 135#32, by decide, rfl⟩

/-- The handler that does nothing but return. -/
theorem witness_RteUndoesEnter :
    let h := enter (.trap 0) 0#64 base
    irqGroup (.trap 0) ≠ 0 ∧ base.Inv ∧ base.writable (base.ssp - 2#32) .word ∧ base.writable (base.ssp - 6#32) .long ∧
      base.readable (vectorAddress (.trap 0)) .long ∧ h.supervisor = true ∧ srT1 h.sr = false ∧ h.active = some (.trap 0, 0#64) ∧
      h.readable (base.ssp - 6#32) .long ∧ h.readable (base.ssp - 2#32) .word :=
  ⟨by decide, base_inv, ⟨rfl, rfl⟩, ⟨rfl, rfl⟩, ⟨rfl, rfl⟩, rfl, rfl, rfl, ⟨rfl, rfl⟩, rfl, rfl⟩

theorem witness_RegisterFrame :
    Instr.wf .nop = true ∧ exec .nop base = .next base ∧ (0 : Fin 8) ∉ dregsWritten .nop ∧ (6 : Fin 8) ∉ aregsWritten .nop ∧
      (∀ n, Instr.nop ≠ .moveToUsp n) ∧ (7 : Fin 8) ∉ aregsWritten .nop ∧ Uninterrupted base base :=
  ⟨rfl, rfl, by decide, by decide, nofun, by decide, base_uninterrupted⟩

/-- A request queued behind an active interrupt. -/
theorem witness_StatusFrame_queue :
    let s : State := { base with active := some (.trace, 0#64) }
    Instr.wf (.trap 3) = true ∧ exec (.trap 3) s = .next { s with pending := [(.trap 3, 0#64)] } := ⟨rfl, rfl⟩

theorem witness_StatusFrame :
    Instr.wf .nop = true ∧ exec .nop base = .next base ∧ Uninterrupted base base ∧
      Instr.nop ∉ [Instr.oriSr, .andiSr, .eoriSr, .stop, .rte] ∧ (∀ ea, Instr.nop ≠ .moveToSr ea) ∧
      Instr.nop ∉ [Instr.oriCcr, .andiCcr, .eoriCcr, .rtr] ∧ (∀ ea, Instr.nop ≠ .moveToCcr ea) :=
  ⟨rfl, rfl, base_uninterrupted, by decide, nofun, by decide, nofun⟩

/-- An instruction that stores. -/
theorem witness_StoreFrame :
    ∃ t, Instr.wf (.clr .long (.ind 0)) = true ∧ exec (.clr .long (.ind 0)) base = .next t ∧ Uninterrupted base t :=
  ⟨_, rfl, rfl, rfl, .inl rfl, rfl, by decide⟩

end Sys2Proof.Tests
end

section
/-! PROOFS. The invariant of the machine under every input: the step (O11), reset, interrupt requests and the
clock tick (O12), and the state after reset (O9). -/

namespace Sys2Proof.Machine

/-! ### What CheckPending keeps -/

theorem checkPending_keeps (s : State) : EntryKeeps s (checkPending s) := by
  rcases checkPending_cases s with e | ⟨k, aux, rest, _, _, e⟩ <;> rw [e]
  · exact .refl s
  · have dequeued : EntryKeeps s { s with pending := rest } := ⟨rfl, rfl, rfl, rfl, rfl, rfl, rfl, rfl, rfl⟩
    exact dequeued.trans (enter_keeps k aux _).1

/-! ### The step -/

/-- Every part of a step keeps the invariant. -/
theorem inv_closedStep : ClosedStep fun s t : State => s.Inv → t.Inv where
  toClosedReturn := inv_closedReturn
  raise _ aux _ hk h := inv_raiseIrq _ hk aux h
  latch _ _ h := h.of_eq rfl rfl rfl rfl rfl
  opword _ _ h := h.of_eq rfl rfl rfl rfl rfl
  check _ h := inv_checkPending h
  cost _ _ h := h.of_eq rfl rfl rfl rfl rfl

/-- The parameters and the platform's memory map, which no step changes (assumption log 6, log 7). -/
def SameEnvironment (s t : State) : Prop := t.params = s.params ∧ t.map = s.map

theorem EntryKeeps.sameEnvironment {s t : State} (h : EntryKeeps s t) : SameEnvironment s t := ⟨h.params, h.map⟩

theorem sameEnvironment_closed : ClosedReturn .all SameEnvironment where
  refl _ := ⟨rfl, rfl⟩
  trans f g := ⟨g.1.trans f.1, g.2.trans f.2⟩
  pc _ _ := ⟨rfl, rfl⟩
  dreg _ _ _ _ _ := ⟨rfl, rfl⟩
  areg s n v _ := ⟨setAreg_params s n v, setAreg_map s n v⟩
  flags _ _ _ := ⟨rfl, rfl⟩
  ccr _ _ _ := ⟨rfl, rfl⟩
  read _ _ _ := ⟨rfl, rfl⟩
  store _ _ _ _ := ⟨rfl, rfl⟩
  sr _ _ _ := ⟨rfl, rfl⟩
  usp _ _ _ := ⟨rfl, rfl⟩
  stop _ _ := ⟨rfl, rfl⟩
  halt _ := ⟨rfl, rfl⟩
  inactive _ := ⟨rfl, rfl⟩

theorem sameEnvironment_closedStep : ClosedStep SameEnvironment where
  toClosedReturn := sameEnvironment_closed
  raise k aux s _ := (raiseIrq_keeps k aux s).sameEnvironment
  latch _ _ := ⟨rfl, rfl⟩
  opword _ _ := ⟨rfl, rfl⟩
  check s := (checkPending_keeps s).sameEnvironment
  cost _ _ := ⟨rfl, rfl⟩

/-- Settles O11: each part of a step keeps the invariant and the environment, so a step does. -/
theorem invKeptByStep : Obligations.InvKeptByStep := by
  intro s t hs hstep
  have henv : SameEnvironment s t := step_related sameEnvironment_closedStep hstep
  exact ⟨step_related inv_closedStep hstep hs, henv.1, henv.2⟩

/-! ### The other inputs -/

/-- The reset transition sets only SR bits that every valid SR_MASK holds. -/
theorem srAfterReset_subset (ccr : Byte) (i : Nat) (h : (srAfterReset ccr).getLsbD i = true) :
    (0x271F#16).getLsbD i = true := by
  rw [show 0x271F#16 = 0x2700#16 ||| 0x001F#16 by decide]
  simp only [srAfterReset, BitVec.getLsbD_or, BitVec.getLsbD_and, Bool.or_eq_true, Bool.and_eq_true] at h ⊢
  exact h.imp_right And.right

theorem State.Inv.resetting {s : State} (h : s.Inv) (fill : ResetFill) : (s.resetting fill).Inv where
  memory := h.memory
  status := (status_iff _ _).mpr fun i hi => validParams_mask h.parameters i (srAfterReset_subset _ i hi)
  bounded := Nat.zero_le _
  queued := rfl
  entered := rfl
  parameters := h.parameters

theorem inv_resetReads : Preserves (fun s t : State => s.Inv → t.Inv) resetReads :=
  have hc := inv_closed
  .bind hc (.memRead hc _ _ _) fun _ => .bind hc (.modifyState fun _ h => h.of_eq rfl rfl rfl rfl rfl) fun _ =>
    .bind hc (.memRead hc _ _ _) fun _ => .modifyState fun _ h => h.of_eq rfl rfl rfl rfl rfl

theorem inv_resetWith (fill : ResetFill) {s : State} (h : s.Inv) : (resetWith fill s).Inv := by
  have hreads := inv_resetReads _ (h.resetting fill)
  unfold resetWith
  cases e : resetReads (s.resetting fill) <;> rw [e] at hreads
  · exact hreads
  · exact State.Inv.of_eq hreads rfl rfl rfl rfl rfl

theorem inv_resetInput {s : State} (h : s.Inv) : (resetInput s).Inv :=
  inv_resetWith _ (h.of_eq rfl rfl rfl rfl rfl)

theorem inv_raiseInput (k : IrqKind) (aux : Aux) {s : State} (h : s.Inv) : (raiseInput k aux s).Inv := by
  unfold raiseInput
  split
  · exact inv_resetInput h
  · next hk =>
    split
    · exact h
    · exact inv_raiseIrq k hk aux h
    · exact inv_raiseIrq k hk aux h

theorem inv_tickRunning {s t : State} (h : s.Inv) (ht : tickRunning s = .next t) : t.Inv := by
  unfold tickRunning at ht
  split at ht
  · cases hstep : step s with
    | next u =>
      rw [hstep] at ht
      cases ht
      have hu : u.Inv := step_related inv_closedStep hstep h
      exact hu.of_eq rfl rfl rfl rfl rfl
    | fault f => rw [hstep] at ht; cases ht
    | refused r => rw [hstep] at ht; cases ht
  · cases ht
    exact h

theorem inv_tick {s t : State} (h : s.Inv) (ht : tick s = .next t) : t.Inv := by
  have counted : State.Inv { s with countdown := s.countdown - 1 } := h.of_eq rfl rfl rfl rfl rfl
  unfold tick at ht
  split at ht
  · cases ht
    exact h
  · exact inv_tickRunning counted ht
  · exact inv_tickRunning counted ht

/-- Settles O12: the reset input, every interrupt request and the clock tick each keep the invariant. -/
theorem invKeptByInputs : Obligations.InvKeptByInputs := fun _ h =>
  ⟨inv_resetInput h, fun k aux => inv_raiseInput k aux h, fun _ ht => inv_tick h ht⟩

/-! ### The state after reset -/

theorem validParams_default : validParams Params.default = true := by decide

theorem reset_inv : State.reset.Inv where
  memory := rfl
  status := by decide
  bounded := Nat.zero_le _
  queued := rfl
  entered := rfl
  parameters := validParams_default

/-- Settles O9: the fields of the reset state are read off, and its queue, memory and active interrupt are empty. -/
theorem resetState : Obligations.ResetState :=
  ⟨rfl, rfl, rfl, rfl, rfl, rfl, rfl, rfl, reset_inv⟩

end Sys2Proof.Machine
end

section
/-! PROOFS. The frame of every instruction over the registers (O58). -/

namespace Sys2Proof.Machine

variable {p : Permits} {α β : Type}

/-! ### Registers that no permitted update names -/

/-- The registers no permitted update names are kept; A7 stands for both stack pointers. -/
structure RegistersKept (p : Permits) (s t : State) : Prop where
  dreg : ∀ n, ¬p.dreg n → t.dreg n = s.dreg n
  areg : ∀ n : Fin 8, n ≠ 7 → ¬p.areg n → t.areg n = s.areg n
  usp : ¬p.usp → ¬p.areg 7 → t.usp = s.usp
  ssp : ¬p.areg 7 → t.ssp = s.ssp

/-- A stored address register is read off `a`, whatever the mode. -/
theorem areg_of_a_eq {s t : State} (h : t.a = s.a) {n : Fin 8} (hn : n ≠ 7) : t.areg n = s.areg n := by
  have hlt : n.val < 7 := by omega
  simp [State.areg, hlt, h]

/-- A write of a stored address register leaves both stack pointers. -/
theorem setAreg_stackPointers (s : State) {n : Fin 8} (hn : n ≠ 7) (v : Word) :
    (s.setAreg n v).usp = s.usp ∧ (s.setAreg n v).ssp = s.ssp := by
  have hlt : n.val < 7 := by omega
  simp [State.setAreg, hlt]

theorem RegistersKept.of_eq {s t : State} (hd : t.d = s.d) (ha : t.a = s.a) (husp : t.usp = s.usp) (hssp : t.ssp = s.ssp) :
    RegistersKept p s t where
  dreg n _ := by rw [State.dreg, State.dreg, hd]
  areg _ hn _ := areg_of_a_eq ha hn
  usp _ _ := husp
  ssp _ := hssp

theorem registersKept_closed (p : Permits) : ClosedReturn p (RegistersKept p) where
  refl _ := .of_eq rfl rfl rfl rfl
  trans f g :=
    { dreg := fun n h => (g.dreg n h).trans (f.dreg n h)
      areg := fun n hn h => (g.areg n hn h).trans (f.areg n hn h)
      usp := fun h h7 => (g.usp h h7).trans (f.usp h h7)
      ssp := fun h7 => (g.ssp h7).trans (f.ssp h7) }
  pc _ _ := .of_eq rfl rfl rfl rfl
  dreg s n sz v hn :=
    { dreg := fun m hm => dreg_setDreg_ne s n m sz v fun e => hm (e ▸ hn)
      areg := fun _ _ _ => rfl
      usp := fun _ _ => rfl
      ssp := fun _ => rfl }
  areg s n v hn :=
    { dreg := fun m _ => setAreg_dreg s n v m
      areg := fun m _ hm => areg_setAreg_ne s n v m fun e => hm (e ▸ hn)
      usp := fun _ h7 => (setAreg_stackPointers s (fun e => h7 (e ▸ hn)) v).1
      ssp := fun h7 => (setAreg_stackPointers s (fun e => h7 (e ▸ hn)) v).2 }
  flags _ _ _ := .of_eq rfl rfl rfl rfl
  ccr _ _ _ := .of_eq rfl rfl rfl rfl
  read _ _ _ := .of_eq rfl rfl rfl rfl
  store _ _ _ _ := .of_eq rfl rfl rfl rfl
  sr _ _ _ := .of_eq rfl rfl rfl rfl
  usp s v h :=
    { dreg := fun _ _ => rfl
      areg := fun _ hn _ => areg_of_a_eq (s := s) (t := { s with usp := v }) rfl hn
      usp := fun h' _ => absurd h h'
      ssp := fun _ => rfl }
  stop _ _ := .of_eq rfl rfl rfl rfl
  halt _ := .of_eq rfl rfl rfl rfl
  inactive _ := .of_eq rfl rfl rfl rfl

theorem body_registersKept (i : Instr) (s : State) : RegistersKept (permitsOf i) s (leftState (bodyOf i s)) :=
  Preserves.anyBody i (registersKept_closed _) s

/-! ### The latches and bookkeeping of the step, the parameters and the memory map -/

/-- What the step and the platform own, and no instruction writes. -/
structure BookkeepingKept (s t : State) : Prop where
  pcStart : t.pcStart = s.pcStart
  ir : t.ir = s.ir
  cycles : t.cycles = s.cycles
  countdown : t.countdown = s.countdown
  params : t.params = s.params
  map : t.map = s.map

theorem bookkeepingKept_closed : ClosedReturn .all BookkeepingKept where
  refl _ := ⟨rfl, rfl, rfl, rfl, rfl, rfl⟩
  trans f g := ⟨g.pcStart.trans f.pcStart, g.ir.trans f.ir, g.cycles.trans f.cycles, g.countdown.trans f.countdown,
    g.params.trans f.params, g.map.trans f.map⟩
  pc _ _ := ⟨rfl, rfl, rfl, rfl, rfl, rfl⟩
  dreg _ _ _ _ _ := ⟨rfl, rfl, rfl, rfl, rfl, rfl⟩
  areg s n v _ := ⟨setAreg_pcStart s n v, setAreg_ir s n v, setAreg_cycles s n v, setAreg_countdown s n v,
    setAreg_params s n v, setAreg_map s n v⟩
  flags _ _ _ := ⟨rfl, rfl, rfl, rfl, rfl, rfl⟩
  ccr _ _ _ := ⟨rfl, rfl, rfl, rfl, rfl, rfl⟩
  read _ _ _ := ⟨rfl, rfl, rfl, rfl, rfl, rfl⟩
  store _ _ _ _ := ⟨rfl, rfl, rfl, rfl, rfl, rfl⟩
  sr _ _ _ := ⟨rfl, rfl, rfl, rfl, rfl, rfl⟩
  usp _ _ _ := ⟨rfl, rfl, rfl, rfl, rfl, rfl⟩
  stop _ _ := ⟨rfl, rfl, rfl, rfl, rfl, rfl⟩
  halt _ := ⟨rfl, rfl, rfl, rfl, rfl, rfl⟩
  inactive _ := ⟨rfl, rfl, rfl, rfl, rfl, rfl⟩

theorem body_bookkeepingKept (i : Instr) (s : State) : BookkeepingKept s (leftState (bodyOf i s)) :=
  Preserves.anyBody i bookkeepingKept_closed.of_all s

/-! ### The stack pointer that the mode does not name -/

/-- The mode stays, and with it the stack pointer that A7 does not name. -/
structure InactiveKept (s t : State) : Prop where
  mode : t.supervisor = s.supervisor
  usp : s.supervisor = true → t.usp = s.usp
  ssp : s.supervisor = false → t.ssp = s.ssp

theorem InactiveKept.of_eq {s t : State} (hmode : t.supervisor = s.supervisor) (husp : t.usp = s.usp) (hssp : t.ssp = s.ssp) :
    InactiveKept s t := ⟨hmode, fun _ => husp, fun _ => hssp⟩

/-- As long as SR is not written whole and USP not by its name, the inactive stack pointer is out of reach. -/
theorem inactiveKept_closed (hsr : ¬p.sr) (husp : ¬p.usp) : ClosedPrivileged p InactiveKept where
  refl _ := .of_eq rfl rfl rfl
  trans f g :=
    { mode := g.mode.trans f.mode
      usp := fun h => (g.usp (f.mode.trans h)).trans (f.usp h)
      ssp := fun h => (g.ssp (f.mode.trans h)).trans (f.ssp h) }
  pc _ _ := .of_eq rfl rfl rfl
  dreg _ _ _ _ _ := .of_eq rfl rfl rfl
  areg s n v _ := ⟨setAreg_supervisor s n v, (setAreg_inactive s n v).1, (setAreg_inactive s n v).2⟩
  flags s f _ := .of_eq (setFlags_supervisor s f) rfl rfl
  ccr s v _ := .of_eq (writeCcr_supervisor s v) rfl rfl
  read _ _ _ := .of_eq rfl rfl rfl
  store _ _ _ _ := .of_eq rfl rfl rfl
  sr _ _ h := absurd h hsr
  usp _ _ h := absurd h husp
  stop _ _ := .of_eq rfl rfl rfl

/-- The instructions that write neither SR whole nor USP by its name keep the inactive stack pointer. -/
theorem body_inactiveKept {i : Instr} (hsr : writesSr i = false) (husp : ∀ n, i ≠ .moveToUsp n) :
    Preserves InactiveKept (bodyOf i) :=
  Preserves.bodyExceptRte i
    (inactiveKept_closed (by simp [permitsOf, hsr]) fun ⟨n, e⟩ => husp n e)
    (by rintro rfl; cases hsr)

/-! ### USP in supervisor mode -/

/-- An operation that starts in supervisor mode leaves USP, though it may leave the mode. -/
def KeepsUsp (m : M α) : Prop := ∀ s, s.supervisor = true → (leftState (m s)).usp = s.usp

theorem KeepsUsp.of_inactiveKept {m : M α} (h : Preserves InactiveKept m) : KeepsUsp m := fun s hs => (h s).usp hs

theorem KeepsUsp.modifyState {f : State → State} (h : ∀ s, (f s).usp = s.usp) : KeepsUsp (Machine.modifyState f) :=
  fun s _ => h s

/-- A first part that stays in supervisor mode. -/
theorem KeepsUsp.bind {m : M α} {f : α → M β} (hm : Preserves InactiveKept m) (hf : ∀ a, KeepsUsp (f a)) :
    KeepsUsp (m >>= f) := by
  intro s hs
  have first := hm s
  cases e : m s with
  | ok a t =>
    rw [e] at first
    rw [bind_ok e]
    exact (hf a t (first.mode.trans hs)).trans (first.usp hs)
  | error a t =>
    rw [e] at first
    rw [bind_error e]
    exact first.usp hs

theorem KeepsUsp.privileged {m : M Unit} (h : KeepsUsp m) : KeepsUsp (Machine.privileged m) := by
  intro s hs
  rw [privileged_supervisor hs]
  exact h s hs

/-- The updates of an operand access. -/
theorem operand_inactiveKept : Closed .operand InactiveKept := (inactiveKept_closed id id).toClosed

theorem KeepsUsp.srImmediate (op : Half → Half → Half) : KeepsUsp (Machine.srImmediate op) :=
  .bind (.fetchWord operand_inactiveKept) fun _ => .modifyState fun _ => rfl

theorem KeepsUsp.returnFromException : KeepsUsp Machine.returnFromException := by
  have h7 : Permits.operand.areg 7 := trivial
  have frame : KeepsUsp Machine.returnFromException.restoreFrame :=
    .bind (.pop operand_inactiveKept h7 _) fun _ => .bind (.pop operand_inactiveKept h7 _) fun _ => .modifyState fun _ => rfl
  refine .bind (.getState operand_inactiveKept) fun s => ?_
  split
  · split
    · exact fun _ _ => rfl
    · exact frame
  · exact frame

/-- The instructions that write SR whole write it last, so that in supervisor mode none of their accesses names USP. -/
theorem body_keepsUsp {i : Instr} (husp : ∀ n, i ≠ .moveToUsp n) : KeepsUsp (bodyOf i) := by
  cases hsr : writesSr i with
  | false => exact .of_inactiveKept (body_inactiveKept hsr husp)
  | true =>
    cases i
    case oriSr | andiSr | eoriSr => exact .privileged (.srImmediate _)
    case rte => exact .privileged .returnFromException
    case stop => exact .privileged (.bind (.fetchWord operand_inactiveKept) fun _ => .modifyState fun _ => rfl)
    case moveToSr ea =>
      exact .privileged (.bind (.readEa operand_inactiveKept _ _ fun _ _ => trivial) fun _ => .modifyState fun _ => rfl)
    all_goals cases hsr

/-! ### SSP in user mode -/

/-- A privileged instruction is its operation behind the check of the mode (48_system_control.md R350). -/
theorem bodyOf_privileged {i : Instr} (h : isPrivileged i = true) : ∃ m, bodyOf i = privileged m := by
  cases i
  case oriSr | andiSr | eoriSr | moveToSr | moveToUsp | moveFromUsp | reset | rte | stop => exact ⟨_, rfl⟩
  all_goals cases h

theorem isPrivileged_of_writesSr {i : Instr} (h : writesSr i = true) : isPrivileged i = true := by
  cases i
  case oriSr | andiSr | eoriSr | moveToSr | rte | stop => rfl
  all_goals cases h

theorem body_keepsSsp (i : Instr) {s : State} (hs : s.supervisor = false) : (leftState (bodyOf i s)).ssp = s.ssp := by
  cases hpriv : isPrivileged i with
  | true =>
    obtain ⟨m, e⟩ := bodyOf_privileged hpriv
    rw [e, privileged_user hs]
    rfl
  | false =>
    have hsr : writesSr i = false := Bool.eq_false_iff.mpr fun h => by simp [isPrivileged_of_writesSr h] at hpriv
    have husp : ∀ n, i ≠ .moveToUsp n := by rintro n rfl; cases hpriv
    exact (body_inactiveKept hsr husp s).ssp hs

/-! ### From the operation to the instruction -/

theorem traceAfter_keeps (b : Bool) (s : State) : EntryKeeps s (traceAfter b s) := by
  cases b
  · exact .refl s
  · exact raiseIrq_keeps _ _ s

/-- What settles an instruction's outcome writes only what Raise writes, and pc. -/
theorem exec_entryKeeps {i : Instr} {s t : State} (h : exec i s = .next t) : EntryKeeps (leftState (bodyOf i s)) t := by
  rw [exec_eq_body] at h
  rcases instruction_cases (bodyOf i) s with ⟨u, hb, e⟩ | ⟨k, aux, u, hb, e⟩ | ⟨k, u, hb, e⟩ | ⟨u, hb, e⟩ | ⟨f, u, hb, e⟩ <;>
    rw [e] at h <;> cases h <;> rw [hb]
  · exact traceAfter_keeps _ u
  · have restored : EntryKeeps u { u with pc := u.pcStart } := ⟨rfl, rfl, rfl, rfl, rfl, rfl, rfl, rfl, rfl⟩
    exact restored.trans (raiseIrq_keeps k aux _)
  · exact raiseIrq_keeps k _ u
  · exact .refl _

/-- Settles O58: the operation keeps the registers it does not name, the stack pointer the mode does not name and the
bookkeeping; taking an exception keeps all of these but SSP. -/
theorem registerFrame : Obligations.RegisterFrame := by
  intro i s t hwf hexec
  have registers := body_registersKept i s
  have bookkeeping := body_bookkeepingKept i s
  have entry := exec_entryKeeps hexec
  refine ⟨fun n hn => ?_, fun n h7 hn => ?_, fun husp hmode => ?_, fun hunint hmode => ?_,
    entry.pcStart.trans bookkeeping.pcStart, entry.ir.trans bookkeeping.ir, entry.cycles.trans bookkeeping.cycles,
    entry.countdown.trans bookkeeping.countdown, entry.params.trans bookkeeping.params, entry.map.trans bookkeeping.map⟩
  · have taken : t.dreg n = (leftState (bodyOf i s)).dreg n := by rw [State.dreg, State.dreg, entry.d]
    exact taken.trans (registers.dreg n hn)
  · exact (areg_of_a_eq entry.a h7).trans (registers.areg n h7 hn)
  · refine entry.usp.trans ?_
    rcases hmode with hsup | h7
    · exact body_keepsUsp husp s hsup
    · exact registers.usp (fun ⟨n, e⟩ => husp n e) h7
  · have completed : leftState (bodyOf i s) = t := by rw [uninterrupted_ok hwf hexec hunint]; rfl
    rw [← completed]
    rcases hmode with huser | h7
    · exact body_keepsSsp i huser
    · exact registers.ssp h7

end Sys2Proof.Machine
end

section
/-! PROOFS. Steps that run no instruction, and the instructions that only raise (O6). -/

namespace Sys2Proof.Machine

/-- An odd pc faults at a fetch, before the memory is asked (10_state.md R37; 20_memory.md R75). -/
theorem fetchOpword_odd {s : State} (h : s.pc.getLsbD 0 = true) :
    fetchOpword s = .error (.fault .addressError (s.addrAux s.pc false .program)) s := by
  have odd : misaligned s.pc .word = true := by simp [misaligned, h]
  have fault : memRead .program .word s.pc s = .error (.fault .addressError (s.addrAux s.pc false .program)) s := by
    simp [memRead, odd]
  have word : fetchWord s = .error (.fault .addressError (s.addrAux s.pc false .program)) s := by
    rw [fetchWord, getState_bind, bind_error fault]
  exact bind_error word

/-- The payload of a fault of the opword's fetch (60_exceptions.md R421). -/
theorem addrAux_beginStep (s : State) :
    s.beginStep.addrAux s.pc false .program = packAux (if s.supervisor then 0x0016#16 else 0x0012#16) s.pc 0#16 := by
  have mode : s.beginStep.supervisor = s.supervisor := rfl
  unfold State.addrAux
  rw [mode]
  cases s.supervisor <;> rfl

theorem stepRunning_fetchFault {s t : State} {k : IrqKind} {aux : Aux} (h : fetchOpword s.beginStep = .error (.fault k aux) t) :
    stepRunning s = .next ((raiseIrq k aux { t with pc := t.pcStart }).endStep Config.undecodedCost) := by
  unfold stepRunning
  rw [h]
  rfl

theorem stepRunning_undecoded {s t : State} {w : Half} (h : fetchOpword s.beginStep = .ok w t) (hw : decodeOpword w = none) :
    stepRunning s =
      .next ((raiseIrq .illegalInstruction 0#64 { t with pc := t.pcStart }).endStep Config.undecodedCost) := by
  unfold stepRunning
  rw [h]
  simp only [hw]
  rfl

theorem instruction_raiseFault (k : IrqKind) (aux : Aux) (s : State) :
    instruction (raiseFault k aux) s = .next (raiseIrq k aux { s with pc := s.pcStart }) :=
  instruction_fault (raiseFault_apply k aux s)

/-- Settles O6: the fetch at an odd pc, the opword that decodes to nothing, and the three forms whose meaning is a fault. -/
theorem fetchAndDecodeFaults : Obligations.FetchAndDecodeFaults := by
  refine ⟨fun s hrun hodd => ?_, fun s hrun hread hnone => ?_, fun s => instruction_raiseFault _ _ s,
    fun s _ => instruction_raiseFault _ _ s, fun s _ => instruction_raiseFault _ _ s⟩
  · rw [step_running hrun, stepRunning_fetchFault (fetchOpword_odd (s := s.beginStep) hodd)]
    exact congrArg (fun aux => Host.Outcome.next ((raiseIrq .addressError aux s.beginStep).endStep _)) (addrAux_beginStep s)
  · rw [step_running hrun, stepRunning_undecoded (fetchOpword_ok hread) hnone]

end Sys2Proof.Machine
end

section
/-! PROOFS. Writes of the registers and of the status register (O15, O16, O17). -/

namespace Sys2Proof.Machine

/-! ### The stack pointer that A7 names -/

/-- A7 is no stored address register but the active stack pointer (10_state.md R33). -/
theorem areg_seven (s : State) : s.areg 7 = s.sp := rfl

theorem setAreg_seven (s : State) (v : Word) : s.setAreg 7 v = s.setSp v := rfl

/-- Settles O15: A7 is the stack pointer the S bit selects. -/
theorem stackPointerNames : Obligations.StackPointerNames := by
  intro s v h
  refine ⟨rfl, ?_, ?_, ?_, ?_, writeSr_ssp s h, writeSr_usp s h, rfl⟩ <;> rw [setAreg_seven]
  · exact setSp_ssp s v
  · exact setSp_usp s v
  · exact setSp_d s v
  · exact setSp_a s v

/-! ### Writes of data registers -/

/-- A bit of a register after a write of its low part. -/
theorem insertLow_getLsbD (sz : Size) (old v : Word) {i : Nat} (hi : i < 32) :
    (insertLow sz old v).getLsbD i = if i < sizeBits sz then v.getLsbD i else old.getLsbD i := by
  have kept : (old &&& ~~~sizeMask sz) = old &&& ~~~(trunc sz (BitVec.allOnes 32)) := by
    rw [trunc, BitVec.allOnes_and]
  rw [insertLow, kept]
  simp only [BitVec.getLsbD_or, BitVec.getLsbD_and, BitVec.getLsbD_not, trunc_getLsbD, hi, BitVec.getLsbD_allOnes]
  by_cases hlow : i < sizeBits sz <;> simp [hlow]

theorem insertLow_byte (old v : Word) : insertLow .byte old v = old.extractLsb' 8 24 ++ v.extractLsb' 0 8 := by
  refine BitVec.eq_of_getLsbD_eq fun i hi => ?_
  rw [insertLow_getLsbD _ _ _ hi, BitVec.getLsbD_append]
  by_cases hlow : i < 8
  · simp [sizeBits, sizeBytes, hlow]
  · have high : i - 8 < 24 ∧ 8 + (i - 8) = i := by omega
    simp [sizeBits, sizeBytes, hlow, high]

theorem insertLow_word (old v : Word) : insertLow .word old v = old.extractLsb' 16 16 ++ v.extractLsb' 0 16 := by
  refine BitVec.eq_of_getLsbD_eq fun i hi => ?_
  rw [insertLow_getLsbD _ _ _ hi, BitVec.getLsbD_append]
  by_cases hlow : i < 16
  · simp [sizeBits, sizeBytes, hlow]
  · have high : i - 16 < 16 ∧ 16 + (i - 16) = i := by omega
    simp [sizeBits, sizeBytes, hlow, high]

/-- Settles O16: each write against each read of a register. -/
theorem registerWrites : Obligations.RegisterWrites := by
  intro s n m v
  refine ⟨areg_setAreg_same s n v, areg_setAreg_ne s n v m, setAreg_d s n v, ?_, ?_, ?_,
    fun sz => ⟨dreg_setDreg_ne s n m sz v, setDreg_areg s n sz v m, setDreg_sr s n sz v⟩⟩ <;> rw [dreg_setDreg_same]
  · exact insertLow_byte (s.dreg n) v
  · exact insertLow_word (s.dreg n) v
  · exact insertLow_long (s.dreg n) v

/-! ### Writes of the status register -/

theorem srWithCcr_low (sr v : Half) : (srWithCcr sr v).extractLsb' 0 8 = v.extractLsb' 0 8 &&& 0x1F#8 := by
  simp [srWithCcr, BitVec.extractLsb'_or, BitVec.extractLsb'_and]

theorem srWithCcr_high (sr v : Half) : (srWithCcr sr v).extractLsb' 8 8 = sr.extractLsb' 8 8 := by
  have high : (0xFF00#16).extractLsb' 8 8 = BitVec.allOnes 8 := by decide
  have low : (0x001F#16).extractLsb' 8 8 = 0#8 := by decide
  rw [srWithCcr, BitVec.extractLsb'_or, BitVec.extractLsb'_and, BitVec.extractLsb'_and, high, low, BitVec.and_allOnes,
    BitVec.and_zero, BitVec.or_zero]

/-- Settles O17: what each of the three writes leaves in SR. -/
theorem statusWrites : Obligations.StatusWrites := fun s v f =>
  ⟨writeSr_sr s v, rfl, srWithCcr_low s.sr v, srWithCcr_high s.sr v, setFlags_flags s f, srWithFlags_high s.sr f⟩

end Sys2Proof.Machine
end

section
/-! PROOFS. Big-endian memory (O18), and when an access faults and what it does otherwise (O19). -/

namespace Sys2Proof.Machine

/-! ### The parts of a value in memory -/

/-- An access gives a value of its size. -/
theorem trunc_valueAt (byteAt : Word → Byte) (addr : Word) (sz : Size) :
    trunc sz (valueAt byteAt addr sz) = valueAt byteAt addr sz := by
  cases sz
  · rw [trunc_byte_eq, valueAt, BitVec.setWidth_setWidth_of_le (byteAt addr) (by decide), BitVec.setWidth_eq]
  · rw [trunc_word_eq, valueAt, BitVec.setWidth_setWidth_of_le (byteAt addr ++ _) (by decide), BitVec.setWidth_eq]
  · exact trunc_long_eq _

theorem readMem_word_eq_or (m : Memory) (a : Word) :
    readMem m a .word = (readMem m a .byte <<< 8) ||| readMem m (a + 1#32) .byte :=
  BitVec.setWidth_append_eq_shiftLeft_setWidth_or (b := peek m a) (b' := peek m (a + 1#32))

theorem readMem_long_eq_or (m : Memory) (a : Word) :
    readMem m a .long = (readMem m a .word <<< 16) ||| readMem m (a + 2#32) .word := by
  have long : readMem m a .long =
      ((readMem m a .word <<< 8) ||| readMem m (a + 2#32) .byte) <<< 8 ||| readMem m (a + 3#32) .byte := by
    have parts := BitVec.setWidth_append_eq_shiftLeft_setWidth_or (w'' := 32)
      (b := peek m a ++ peek m (a + 1#32) ++ peek m (a + 2#32)) (b' := peek m (a + 3#32))
    rw [BitVec.setWidth_append_eq_shiftLeft_setWidth_or (b := peek m a ++ peek m (a + 1#32)), BitVec.setWidth_eq] at parts
    exact parts
  have low : readMem m (a + 2#32) .word = (readMem m (a + 2#32) .byte <<< 8) ||| readMem m (a + 3#32) .byte := by
    rw [readMem_word_eq_or, BitVec.add_assoc]
    rfl
  rw [long, low, BitVec.shiftLeft_or_distrib, BitVec.or_assoc, ← BitVec.shiftLeft_add]

/-- A byte of an access, the first one highest (20_memory.md R71, R72). -/
theorem readMem_byte_of_access (m : Memory) (a : Word) (sz : Size) {j : Nat} (hj : j < sizeBytes sz) :
    readMem m (a + BitVec.ofNat 32 j) .byte = trunc .byte (readMem m a sz >>> (8 * (sizeBytes sz - 1 - j))) := by
  show (peek m (a + BitVec.ofNat 32 j)).setWidth 32 = _
  rw [trunc_byte_eq, ← valueAt_byte (peek m) a sz j hj]
  rfl

theorem readMem_long_first_byte (m : Memory) (a : Word) : readMem m a .byte = readMem m a .long >>> 24 := by
  have first := readMem_byte_of_access m a .long (j := 0) (by decide)
  rw [BitVec.add_zero] at first
  rw [first]
  refine BitVec.eq_of_toNat_eq ?_
  simp only [trunc_toNat, BitVec.toNat_ushiftRight, Nat.shiftRight_eq_div_pow, sizeBits, sizeBytes]
  omega

theorem readMem_long_last_word (m : Memory) (a : Word) : readMem m (a + 2#32) .word = trunc .word (readMem m a .long) := by
  have low : ∀ x y : Word, trunc .word (x <<< 16 ||| y) = trunc .word y := by
    intro x y
    refine BitVec.eq_of_getLsbD_eq fun i _ => ?_
    rw [trunc_getLsbD, trunc_getLsbD, BitVec.getLsbD_or, BitVec.getLsbD_shiftLeft]
    by_cases h : i < 16 <;> simp [sizeBits, sizeBytes, h]
  rw [readMem_long_eq_or, low]
  exact (trunc_valueAt _ _ .word).symm

/-! ### The canonical form -/

/-- Nothing is listed above the address space. -/
theorem readByte_above_of_wfFrom {low : Nat} {m : Memory} (h : Memory.wfFrom low m = true) {a : Nat} (ha : 2 ^ 32 ≤ a) :
    m.readByte a = Memory.unlisted := by
  induction m generalizing low with
  | nil => rfl
  | cons e rest ih =>
    obtain ⟨k, b⟩ := e
    simp only [Memory.wfFrom, Bool.and_eq_true, decide_eq_true_eq] at h
    obtain ⟨⟨⟨_, hk⟩, _⟩, hrest⟩ := h
    rw [Memory.readByte, if_neg (by omega)]
    exact ih hrest

/-- Canonical memories that read the same at every 32-bit address are the same. -/
theorem wf_ext {m m' : Memory} (h : m.wf = true) (h' : m'.wf = true) (heq : ∀ b, peek m b = peek m' b) : m = m' := by
  refine wfFrom_ext 0 0 m m' h h' fun a => ?_
  rcases Nat.lt_or_ge a (2 ^ 32) with ha | ha
  · have hb := heq (BitVec.ofNat 32 a)
    rwa [peek, peek, BitVec.toNat_ofNat, Nat.mod_eq_of_lt ha] at hb
  · rw [readByte_above_of_wfFrom h ha, readByte_above_of_wfFrom h' ha]

/-- Settles O18: a store read back whole, by its parts and elsewhere. -/
theorem bigEndianMemory : Obligations.BigEndianMemory := by
  intro m a v hm
  have stored : readMem (writeMem m a .long v) a .long = v := by rw [readMem_writeMem_same m hm, trunc_long_eq]
  refine ⟨fun sz => ⟨readMem_writeMem_same m hm a sz v, wf_writeMem m hm a sz v, fun b => peek_writeMem_outside m a b sz v⟩,
    readMem_word_eq_or m a, readMem_long_eq_or m a, ?_, ?_, ?_, fun m' hm' heq => wf_ext hm' hm heq⟩
  · rw [readMem_long_first_byte, stored]
  · exact (readMem_byte_of_access _ a .long (j := 1) (by decide)).trans (by rw [stored]; rfl)
  · rw [readMem_long_last_word, stored]

/-! ### How the platform's memory answers -/

variable {s : State} {map : List Region} {sp : Space} {sz : Size} {a v : Word} {isWrite : Bool}

theorem misaligned_odd (hs : sz ≠ .byte) (ha : a.getLsbD 0 = true) : misaligned a sz = true := by
  rw [misaligned, ha, Bool.and_true]
  exact bne_iff_ne.mpr hs

theorem not_misaligned (h : sz = .byte ∨ a.getLsbD 0 = false) : misaligned a sz = false := by
  rcases h with rfl | h
  · rfl
  · rw [misaligned, h, Bool.and_false]

theorem covered_contains (map : List Region) (a : Word) (sz : Size) (k : RegionKind) :
    ((coveredBy a sz).map (regionAt map)).contains (some k) = true ↔ ∃ b ∈ coveredBy a sz, regionAt map b = some k := by
  simp

theorem answerOf_unmapped (h : ∃ b ∈ coveredBy a sz, regionAt map b = some .unmapped) :
    answerOf map a sz isWrite = .pageNotMapped :=
  if_pos ((covered_contains ..).mpr h)

theorem answerOf_writeProtected (h : ∃ b ∈ coveredBy a sz, regionAt map b = some .writeProtected) :
    answerOf map a sz true = .pageNotMapped ∨ answerOf map a sz true = .writeProtected := by
  have listed : (true && ((coveredBy a sz).map (regionAt map)).contains (some .writeProtected)) = true :=
    (covered_contains ..).mpr h
  unfold answerOf
  dsimp only
  rw [if_pos listed]
  split
  · exact .inl rfl
  · exact .inr rfl

theorem answerOf_plain (h : ∀ b ∈ coveredBy a sz, regionAt map b = none) : answerOf map a sz isWrite = .ram := by
  have absent : ∀ k, ((coveredBy a sz).map (regionAt map)).contains (some k) = false := by
    intro k
    rw [← Bool.not_eq_true, covered_contains]
    rintro ⟨b, hb, hk⟩
    rw [h b hb] at hk
    cases hk
  unfold answerOf
  simp only [absent, Bool.and_false, Bool.false_eq_true, if_false]

/-! ### When an access faults -/

/-- Why an access faults: an odd address, or a failure of the memory (20_memory.md R75, R78). -/
def AccessFails (s : State) (a : Word) (sz : Size) (isWrite : Bool) : Prop :=
  misaligned a sz = true ∨ answerOf s.map a sz isWrite = .pageNotMapped ∨ answerOf s.map a sz isWrite = .writeProtected

theorem memRead_of_accessFails (h : AccessFails s a sz false) :
    memRead sp sz a s = .error (.fault .addressError (s.addrAux a false sp)) s := by
  unfold memRead
  rcases h with h | h | h <;> simp [h]

theorem memWrite_of_accessFails (h : AccessFails s a sz true) :
    memWrite sz a v s = .error (.fault .addressError (s.addrAux a true .data)) s := by
  unfold memWrite
  rcases h with h | h | h <;> simp [h]

theorem accessFails_of_odd_or_unmapped
    (h : (sz ≠ .byte ∧ a.getLsbD 0 = true) ∨ ∃ b ∈ coveredBy a sz, regionAt s.map b = some .unmapped) :
    AccessFails s a sz isWrite :=
  h.imp (fun h => misaligned_odd h.1 h.2) fun h => .inl (answerOf_unmapped h)

theorem memRead_error {e : Abort} {t : State} (h : memRead sp sz a s = .error e t) :
    e = .fault .addressError (s.addrAux a false sp) ∧ t = s := by
  rcases memRead_cases sp sz a s with ⟨_, _, _, h'⟩ | h' <;> cases h.symm.trans h'
  exact ⟨rfl, rfl⟩

theorem memWrite_error {e : Abort} {t : State} (h : memWrite sz a v s = .error e t) :
    e = .fault .addressError (s.addrAux a true .data) ∧ t = s := by
  rcases memWrite_cases sz a v s with h' | ⟨_, h'⟩ | h' <;> cases h.symm.trans h'
  exact ⟨rfl, rfl⟩

/-! ### Accesses that touch a device -/

theorem isDevice_iff (map : List Region) (b : Word) : isDevice map b = true ↔ regionAt map b = some .device := beq_iff_eq

theorem not_isDevice_iff (map : List Region) (b : Word) : isDevice map b = false ↔ regionAt map b ≠ some .device := by
  rw [ne_eq, ← isDevice_iff, Bool.not_eq_true]

theorem memRead_touching_device (hm : misaligned a sz = false) (hd : ∃ b ∈ coveredBy a sz, regionAt s.map b = some .device)
    (hu : ∀ b ∈ coveredBy a sz, regionAt s.map b ≠ some .unmapped) :
    ∃ r d, memRead sp sz a s = .ok r { s with draws := d, outputs := .deviceRead a sz :: s.outputs } ∧ trunc sz r = r ∧
      ∀ j, j < sizeBytes sz → regionAt s.map (a + BitVec.ofNat 32 j) ≠ some .device →
        r.extractLsb' (8 * (sizeBytes sz - 1 - j)) 8 = peek s.mem (a + BitVec.ofNat 32 j) := by
  refine ⟨_, _, memRead_device hm (answerOf_device hd hu nofun), trunc_valueAt _ _ _, fun j hj hplain => ?_⟩
  rw [valueAt_byte _ _ _ _ hj, byteAnswered_plain ((not_isDevice_iff ..).mpr hplain)]

theorem memWrite_touching_device (hm : misaligned a sz = false) (hd : ∃ b ∈ coveredBy a sz, regionAt s.map b = some .device)
    (hok : ∀ b ∈ coveredBy a sz, regionAt s.map b ≠ some .unmapped ∧ regionAt s.map b ≠ some .writeProtected) :
    ∃ m', memWrite sz a v s = .ok () { s with mem := m', outputs := .deviceWrite a sz (trunc sz v) :: s.outputs } ∧
      (∀ b, regionAt s.map b = some .device → peek m' b = peek s.mem b) ∧
      (Memory.wf s.mem = true →
        Memory.wf m' = true ∧ ∀ b, regionAt s.map b ≠ some .device → peek m' b = peek (writeMem s.mem a sz v) b) := by
  have answer := answerOf_device (isWrite := true) hd (fun b hb => (hok b hb).1) fun _ b hb => (hok b hb).2
  exact ⟨_, memWrite_device hm answer, fun b hb => peek_storePlain_device ((isDevice_iff ..).mpr hb) _ _ _ _,
    fun hwf => ⟨wf_storePlain _ _ hwf _ _ _, fun b hb => peek_storePlain_plain ((not_isDevice_iff ..).mpr hb) hwf _ _ _⟩⟩

/-! ### Accesses through the stack pointer -/

theorem setSp_with_mem (s : State) (m : Memory) (w : Word) : { s with mem := m }.setSp w = { s.setSp w with mem := m } := by
  have mode : ({ s with mem := m } : State).supervisor = s.supervisor := rfl
  unfold State.setSp
  rw [mode]
  split <;> rfl

theorem push_eq_setAreg (h : s.writable (s.areg 7 - sizeWord sz) sz) :
    push sz v s = .ok () ({ s with mem := writeMem s.mem (s.areg 7 - sizeWord sz) sz v }.setAreg 7 (s.areg 7 - sizeWord sz)) := by
  rw [setAreg_seven, setSp_with_mem]
  exact push_writable h

/-- Settles O19: each way an access can go, by how the platform's memory answers it. -/
theorem memoryAccesses : Obligations.MemoryAccesses := by
  intro s a v sz sp fc readFmt writeFmt
  have readAux : s.addrAux a false sp = readFmt ++ a ++ s.ir := rfl
  have writeAux : s.addrAux a true .data = writeFmt ++ a ++ s.ir := rfl
  rw [← readAux, ← writeAux]
  exact ⟨fun h => ⟨memRead_of_accessFails (accessFails_of_odd_or_unmapped h),
      memWrite_of_accessFails (accessFails_of_odd_or_unmapped h)⟩,
    fun h => memWrite_of_accessFails (.inr (answerOf_writeProtected h)),
    fun _ _ => memRead_error, fun _ _ => memWrite_error, memRead_readable, memWrite_writable,
    fun hm h => ⟨⟨not_misaligned hm, answerOf_plain h⟩, not_misaligned hm, answerOf_plain h⟩,
    fun hm hd => ⟨memRead_touching_device (not_misaligned hm) hd, memWrite_touching_device (not_misaligned hm) hd⟩,
    fetchWord_readable, push_eq_setAreg, pop_readable⟩

end Sys2Proof.Machine
end

section
/-! PROOFS. The bytes of memory an instruction leaves unchanged (O60). -/

namespace Sys2Proof.Machine

/-- Settles O60: an instruction that nothing interrupted left the state its operation left, and the operation stores
within the cells computed. -/
theorem storeFrame : Obligations.StoreFrame := by
  intro i s t hwf hexec hunint
  have completed : bodyOf i s = .ok () t := uninterrupted_ok hwf hexec hunint
  exact body_stores i s () t completed

end Sys2Proof.Machine
end

section
/-! PROOFS. Operations into an operand: ADD, SUB, AND, OR, EOR, NEG, NEGX and NOT (O36). -/

namespace Sys2Proof.Machine

/-- An operation that changes an operand in its place, run to its end (20_memory.md R77). -/
theorem instruction_modifyEa {ea : EA} {sz : Size} {f : State → Word → Word × Flags} {s u t : State} {d : Word}
    (h : Updates ea sz s d u (f u d).1 t) :
    instruction (modifyEa ea sz f) s = .next (traceAfter (srT1 s.sr) (t.setFlags (f u d).2)) :=
  instruction_ok (h.modifyEa rfl)

/-- Settles O36: the meaning of each of the eight forms is one change of the operand in its place. -/
theorem operandDestinations : Obligations.OperandDestinations := by
  intro dn sz ea s u t d
  exact ⟨fun h => instruction_modifyEa h, fun h => instruction_modifyEa h, fun h => instruction_modifyEa h,
    fun h => instruction_modifyEa h, fun h => instruction_modifyEa h, fun h => instruction_modifyEa h,
    fun h => instruction_modifyEa h, fun h => instruction_modifyEa h⟩

end Sys2Proof.Machine
end

section
/-! PROOFS. The fields of an opword and of an extension word: what a reader of the decoder finds in a word is what the
encoder writes there. -/

namespace Sys2Proof

/-! ### Masks -/

theorem and_or_of_within {a m : Half} (n : Half) (within : a &&& m = a) : a &&& (m ||| n) = a := by
  rw [BitVec.and_or_distrib_left, within]
  ext i hi
  simp +contextual

theorem and_of_disjoint {a m n : Half} (within : a &&& m = a) (disjoint : m &&& n = 0#16) : a &&& n = 0#16 := by
  rw [← within, BitVec.and_assoc, disjoint, BitVec.and_zero]

theorem and_or_eq_or_iff {a b m n : Half} (ha : a &&& m = a) (hb : b &&& n = b) (disjoint : m &&& n = 0#16) (w : Half) :
    w &&& (m ||| n) = a ||| b ↔ w &&& m = a ∧ w &&& n = b := by
  have hab : a &&& n = 0#16 := and_of_disjoint ha disjoint
  have hba : b &&& m = 0#16 := and_of_disjoint hb (BitVec.and_comm m n ▸ disjoint)
  constructor
  · intro h
    constructor
    · calc w &&& m = w &&& (m ||| n) &&& m := by
            rw [BitVec.and_assoc, BitVec.and_comm (m ||| n), and_or_of_within n BitVec.and_self]
        _ = a := by rw [h, BitVec.and_or_distrib_right, ha, hba, BitVec.or_zero]
    · calc w &&& n = w &&& (m ||| n) &&& n := by
            rw [BitVec.and_assoc, BitVec.and_comm (m ||| n), BitVec.or_comm, and_or_of_within m BitVec.and_self]
        _ = b := by rw [h, BitVec.and_or_distrib_right, hb, hab, BitVec.zero_or]
  · rintro ⟨rfl, rfl⟩
    exact BitVec.and_or_distrib_left

/-! ### Fields of a word -/

/-- A mask/compare test (30_encoding.md R113). -/
structure BitTest where
  mask : Half
  bits : Half

def BitTest.Holds (t : BitTest) (w : Half) : Prop := w &&& t.mask = t.bits

/-- A test whose bits lie under its mask: some bits of a word, and what they spell. -/
structure BitField extends BitTest where
  within : bits &&& mask = bits

/-- Two fields side by side. -/
def BitField.merge (f g : BitField) : BitField where
  mask := f.mask ||| g.mask
  bits := f.bits ||| g.bits
  within := by
    rw [BitVec.and_or_distrib_right, and_or_of_within _ f.within, BitVec.or_comm f.mask, and_or_of_within _ g.within]

theorem BitField.holds_merge {f g : BitField} (disjoint : f.mask &&& g.mask = 0#16) (w : Half) :
    (f.merge g).Holds w ↔ f.Holds w ∧ g.Holds w :=
  and_or_eq_or_iff f.within g.within disjoint w

/-- The fields share no bit and leave none out. -/
def BitField.partition (f : BitField) : List BitField → Bool
  | [] => f.mask == BitVec.allOnes 16
  | g :: gs => f.mask &&& g.mask == 0#16 && (f.merge g).partition gs

/-- A word in which every field of a partition is found is the fields put together. -/
theorem BitField.holds_all_iff {f : BitField} {gs : List BitField} (h : f.partition gs = true) (w : Half) :
    (f.Holds w ∧ ∀ g ∈ gs, g.Holds w) ↔ (gs.foldl BitField.merge f).bits = w := by
  induction gs generalizing f with
  | nil =>
    have whole : f.mask = BitVec.allOnes 16 := by simpa only [BitField.partition, beq_iff_eq] using h
    simp only [BitTest.Holds, whole, BitVec.and_allOnes, List.not_mem_nil, false_imp_iff, implies_true,
      and_true, List.foldl_nil]
    exact eq_comm
  | cons g gs ih =>
    obtain ⟨disjoint, rest⟩ : f.mask &&& g.mask = 0#16 ∧ (f.merge g).partition gs = true := by
      simpa only [BitField.partition, Bool.and_eq_true, beq_iff_eq] using h
    rw [List.foldl_cons, ← ih rest, holds_merge disjoint, List.forall_mem_cons, and_assoc]

/-! ### What a reader of the decoder finds is what the encoder writes -/

theorem extract_eq_iff (w : Half) {lo len : Nat} (h : lo + len ≤ 16) (x : BitVec len) :
    w.extractLsb' lo len = x ↔ w &&& ((BitVec.allOnes len).setWidth 16 <<< lo) = x.setWidth 16 <<< lo := by
  constructor <;> intro e
  · subst e
    ext i hi
    by_cases below : i < lo
    · simp [below]
    · simp [below, Nat.add_sub_of_le (Nat.le_of_not_lt below), hi, Bool.and_comm]
  · ext i hi
    have same := congrArg (·.getLsbD (lo + i)) e
    have inWord : lo + i < 16 := by omega
    have : i < 16 := by omega
    simpa [inWord, hi, this] using same

/-- The low bits of a word. -/
def BitField.low {len : Nat} (x : BitVec len) : BitField where
  mask := (BitVec.allOnes len).setWidth 16
  bits := x.setWidth 16
  within := by rw [← BitVec.setWidth_and, BitVec.and_allOnes]

theorem setWidth_eq_iff (w : Half) {len : Nat} (h : len ≤ 16) (x : BitVec len) :
    w.setWidth len = x ↔ (BitField.low x).Holds w := by
  rw [BitVec.setWidth_eq_extractLsb' h, extract_eq_iff w (by omega), BitVec.shiftLeft_zero, BitVec.shiftLeft_zero]
  rfl

/-- One bit. -/
def BitField.bit (b : Bool) (k : Nat) : BitField where
  mask := 1#16 <<< k
  bits := bitIf b k
  within := by cases b <;> simp [bitIf]

theorem and_bit (w : Half) (k : Nat) : w &&& (1#16 <<< k) = bitIf (w.getLsbD k) k := by
  ext i hi
  by_cases here : k = i
  · subst here
    cases h : w.getLsbD k <;> simp_all [bitIf]
  · have bitClear : (1#16 <<< k)[i] = false := by simp; omega
    unfold bitIf
    split <;> simp [bitClear]

theorem and_twoBits (w : Half) (k : Nat) :
    w &&& (3#16 <<< k) = bitIf (w.getLsbD (k + 1)) (k + 1) ||| bitIf (w.getLsbD k) k := by
  rw [← and_bit, ← and_bit, ← BitVec.and_or_distrib_left]
  congr 1
  rw [Nat.add_comm, BitVec.shiftLeft_add, ← BitVec.shiftLeft_or_distrib]
  rfl

theorem getLsbD_eq_iff (w : Half) (b : Bool) {k : Nat} (hk : k < 16) : w.getLsbD k = b ↔ (BitField.bit b k).Holds w := by
  have bitSet : 1#16 <<< k ≠ 0#16 := by
    revert k
    decide
  show _ ↔ w &&& (1#16 <<< k) = bitIf b k
  rw [and_bit]
  cases w.getLsbD k <;> cases b <;> simp [bitIf, bitSet, bitSet.symm]

theorem setWidth_ofFin {len : Nat} (n : Fin (2 ^ len)) : (BitVec.ofFin n).setWidth 16 = BitVec.ofNat 16 n.val := by
  apply BitVec.eq_of_toNat_eq
  simp

/-- A number of `len` bits from bit `lo` on. -/
def BitField.number {len : Nat} (n : Fin (2 ^ len)) (lo : Nat) : BitField where
  mask := (BitVec.allOnes len).setWidth 16 <<< lo
  bits := BitVec.ofNat 16 n.val <<< lo
  within := by
    rw [← setWidth_ofFin, ← BitVec.shiftLeft_and_distrib, ← BitVec.setWidth_and, BitVec.and_allOnes]

theorem number_eq_iff (w : Half) {len lo : Nat} (h : lo + len ≤ 16) (n : Fin (2 ^ len)) :
    (w.extractLsb' lo len).toFin = n ↔ (BitField.number n lo).Holds w := by
  calc (w.extractLsb' lo len).toFin = n ↔ w.extractLsb' lo len = BitVec.ofFin n := BitVec.toFin_inj (y := BitVec.ofFin n)
    _ ↔ _ := by rw [extract_eq_iff w h, setWidth_ofFin n]; rfl

/-- A register number, or another 3-bit field (30_encoding.md R112). -/
def BitField.reg (n : Fin 8) (lo : Nat) : BitField := .number (len := 3) n lo

theorem regAt_eq_iff (w : Half) (n : Fin 8) {lo : Nat} (h : lo + 3 ≤ 16) : regAt w lo = n ↔ (BitField.reg n lo).Holds w :=
  number_eq_iff w h n

/-- A 4-bit field. -/
def BitField.nibble (n : Fin 16) (lo : Nat) : BitField := .number (len := 4) n lo

theorem nibbleAt_eq_iff (w : Half) (n : Fin 16) {lo : Nat} (h : lo + 4 ≤ 16) :
    nibbleAt w lo = n ↔ (BitField.nibble n lo).Holds w :=
  number_eq_iff w h n

/-- The standard size field (30_encoding.md R107). -/
def BitField.size (sz : Size) : BitField where
  mask := 0x00C0#16
  bits := bitsOfSize sz
  within := by cases sz <;> rfl

theorem sizeOf?_eq_some_iff (w : Half) (sz : Size) : sizeOf? w = some sz ↔ (BitField.size sz).Holds w := by
  show _ ↔ w &&& (3#16 <<< 6) = bitsOfSize sz
  rw [and_twoBits, sizeOf?]
  cases w.getLsbD 7 <;> cases w.getLsbD 6 <;> cases sz <;> decide

/-- A one-bit size field (30_encoding.md R107). -/
def BitField.oneBit (sz : Size) (k : Nat) : BitField where
  mask := 1#16 <<< k
  bits := bitsOfOneBit sz k
  within := by cases sz <;> simp [bitsOfOneBit]

theorem oneBitSize_eq_iff (w : Half) {sz : Size} (h : sz.wordOrLong = true) {k : Nat} (hk : k < 16) :
    oneBitSize w k = sz ↔ (BitField.oneBit sz k).Holds w := by
  cases sz with
  | byte => cases h
  | word => exact .trans (by simp [oneBitSize]) (getLsbD_eq_iff w false hk)
  | long => exact .trans (by simp [oneBitSize]) (getLsbD_eq_iff w true hk)

/-- The operands of the extended arithmetic (30_encoding.md R112). -/
def BitField.xMode (m : XMode) : BitField where
  mask := 0x0008#16
  bits := bitsOfXMode m
  within := by cases m <;> rfl

theorem xModeOf_eq_iff (w : Half) (m : XMode) : xModeOf w = m ↔ (BitField.xMode m).Holds w := by
  cases m with
  | dataRegs => exact .trans (by simp [xModeOf]) (getLsbD_eq_iff w false (k := 3) (by decide))
  | preDec => exact .trans (by simp [xModeOf]) (getLsbD_eq_iff w true (k := 3) (by decide))

/-- The direction of MOVEP. -/
def BitField.movepDir (dir : MovepDir) : BitField where
  mask := 0x0080#16
  bits := match dir with | .toReg => 0#16 | .toMem => 0x0080#16
  within := by cases dir <;> rfl

theorem movepDir_eq_iff (w : Half) (dir : MovepDir) :
    (if w.getLsbD 7 then MovepDir.toMem else .toReg) = dir ↔ (BitField.movepDir dir).Holds w := by
  cases dir with
  | toReg => exact .trans (by simp) (getLsbD_eq_iff w false (k := 7) (by decide))
  | toMem => exact .trans (by simp) (getLsbD_eq_iff w true (k := 7) (by decide))

/-- The condition (30_encoding.md R111). -/
def BitField.cond (c : Cond) : BitField := .nibble (codeOfCond c) 8

theorem condOfCode_eq_iff (code : Fin 16) (c : Cond) : condOfCode code = c ↔ code = codeOfCond c := by
  constructor
  · rintro rfl
    revert code
    decide
  · rintro rfl
    cases c <;> rfl

theorem condAt_eq_iff (w : Half) (c : Cond) : condAt w = c ↔ (BitField.cond c).Holds w := by
  rw [condAt, condOfCode_eq_iff, nibbleAt_eq_iff w _ (by decide)]
  rfl

/-- The standard EA field (30_encoding.md R102). -/
def BitField.ea (ea : EA) : BitField := (BitField.reg (modeOfEa ea) 3).merge (.reg (regOfEa ea) 0)

/-- The destination field of MOVE (30_encoding.md R102). -/
def BitField.dst (ea : EA) : BitField := (BitField.reg (regOfEa ea) 9).merge (.reg (modeOfEa ea) 6)

theorem eaOfFields_eq_some_iff (mode reg : Fin 8) (ea : EA) :
    eaOfFields mode reg = some ea ↔ mode = modeOfEa ea ∧ reg = regOfEa ea := by
  constructor
  · intro h
    unfold eaOfFields at h
    split at h
    any_goals split at h
    all_goals cases h
    all_goals exact ⟨rfl, rfl⟩
  · rintro ⟨rfl, rfl⟩
    cases ea <;> rfl

theorem eaAt_eq_some_iff (w : Half) (ea : EA) :
    eaOfFields (regAt w 3) (regAt w 0) = some ea ↔ (BitField.ea ea).Holds w := by
  rw [eaOfFields_eq_some_iff, regAt_eq_iff w _ (by decide), regAt_eq_iff w _ (by decide)]
  exact (BitField.holds_merge (show 7#16 <<< 3 &&& 7#16 <<< 0 = 0#16 by decide) w).symm

theorem dstAt_eq_some_iff (w : Half) (ea : EA) :
    eaOfFields (regAt w 6) (regAt w 9) = some ea ↔ (BitField.dst ea).Holds w := by
  rw [eaOfFields_eq_some_iff, regAt_eq_iff w _ (by decide), regAt_eq_iff w _ (by decide), and_comm]
  exact (BitField.holds_merge (show 7#16 <<< 9 &&& 7#16 <<< 6 = 0#16 by decide) w).symm

/-- The count of a register shift (30_encoding.md R128). -/
def BitField.count (c : ShiftCount) : BitField where
  mask := 7#16 <<< 9 ||| 1#16 <<< 5
  bits := bitsOfCount c
  within := by
    cases c with
    | imm n => exact and_or_of_within _ (BitField.reg n 9).within
    | reg n => exact ((BitField.reg n 9).merge (.bit true 5)).within

theorem countOf_eq_iff (w : Half) (c : ShiftCount) : countOf w = c ↔ (BitField.count c).Holds w := by
  have read (n : Fin 8) (b : Bool) : ((BitField.reg n 9).merge (.bit b 5)).Holds w ↔ regAt w 9 = n ∧ w.getLsbD 5 = b := by
    rw [BitField.holds_merge (show 7#16 <<< 9 &&& 1#16 <<< 5 = 0#16 by decide), ← regAt_eq_iff w _ (by decide),
      ← getLsbD_eq_iff w _ (by decide)]
  cases c with
  | imm n =>
    have same : (BitField.count (.imm n)).Holds w ↔ ((BitField.reg n 9).merge (.bit false 5)).Holds w :=
      iff_of_eq (congrArg (w &&& (7#16 <<< 9 ||| 1#16 <<< 5) = ·) BitVec.or_zero.symm)
    rw [same, read, countOf]
    cases w.getLsbD 5 <;> simp
  | reg n =>
    have same : (BitField.count (.reg n)).Holds w ↔ ((BitField.reg n 9).merge (.bit true 5)).Holds w := .rfl
    rw [same, read, countOf]
    cases w.getLsbD 5 <;> simp

end Sys2Proof
end

section
/-! PROOFS. The opcode table and the encoder are inverse: the opword of an instruction is made of the fixed bits of its
row and of fields that share no bit, so a row reads an instruction out of exactly the word that the encoder makes of
it; and no earlier row of the table takes that word. -/

namespace Sys2Proof

/-! ### The rows -/

/-- The opcode table, all lines in their order. -/
def Decode.table : List Row := (List.finRange 16).flatMap Decode.rowsOf

theorem Instr.ctorIdx_lt (i : Instr) : i.ctorIdx < Decode.table.length := by
  show i.ctorIdx < 110
  cases i <;> exact Nat.le_of_ble_eq_true rfl

/-- The row of an instruction: the constructors of `Instr` stand in the order of the table. -/
def Instr.row (i : Instr) : Row := Decode.table[i.ctorIdx]'i.ctorIdx_lt

theorem Instr.row_mem (i : Instr) : i.row ∈ Decode.table := List.getElem_mem _

theorem row_pattern_within : ∀ r ∈ Decode.table, r.pattern &&& r.mask = r.pattern := by decide +kernel

/-- The fixed bits of an instruction's opword. -/
def Instr.opcode (i : Instr) : BitField where
  mask := i.row.mask
  bits := i.row.pattern
  within := row_pattern_within _ i.row_mem

/-- The other bits of an instruction's opword, in the order in which the encoder puts them together
(30_encoding.md R116 to R129). -/
def Instr.fields : Instr → List BitField
  | .btstImm ea | .bchgImm ea | .bclrImm ea | .bsetImm ea | .jsr ea | .jmp ea | .pea ea | .nbcd ea | .moveFromSr ea
  | .moveToCcr ea | .moveToSr ea | .tas ea | .asrMem ea | .aslMem ea | .lsrMem ea | .lslMem ea | .roxrMem ea
  | .roxlMem ea | .rorMem ea | .rolMem ea => [.ea ea]
  | .btstReg n ea | .bchgReg n ea | .bclrReg n ea | .bsetReg n ea | .moveaL n ea | .moveaW n ea | .chk n ea | .lea n ea
  | .divu n ea | .divs n ea | .mulu n ea | .muls n ea => [.reg n 9, .ea ea]
  | .ori sz ea | .andi sz ea | .subi sz ea | .addi sz ea | .eori sz ea | .cmpi sz ea | .negx sz ea | .clr sz ea
  | .neg sz ea | .not sz ea | .tst sz ea => [.size sz, .ea ea]
  | .addq n sz ea | .subq n sz ea | .orToDn n sz ea | .orToEa n sz ea | .subToDn n sz ea | .subToEa n sz ea
  | .cmp n sz ea | .eor n sz ea | .andToDn n sz ea | .andToEa n sz ea | .addToDn n sz ea | .addToEa n sz ea =>
    [.reg n 9, .size sz, .ea ea]
  | .movemToMem sz ea | .movemToReg sz ea => [.oneBit sz 6, .ea ea]
  | .suba n sz ea | .cmpa n sz ea | .adda n sz ea => [.reg n 9, .oneBit sz 8, .ea ea]
  | .moveB src dst | .moveL src dst | .moveW src dst => [.dst dst, .ea src]
  | .link n | .unlk n | .moveToUsp n | .moveFromUsp n | .swap n | .extW n | .extL n => [.reg n 0]
  | .exgDD x y | .exgAA x y | .exgDA x y => [.reg x 9, .reg y 0]
  | .cmpm sz x y => [.reg x 9, .size sz, .reg y 0]
  | .sbcd m x y | .abcd m x y => [.reg x 9, .xMode m, .reg y 0]
  | .subx m sz x y | .addx m sz x y => [.reg x 9, .size sz, .xMode m, .reg y 0]
  | .movep dir sz dn an => [.reg dn 9, .movepDir dir, .oneBit sz 6, .reg an 0]
  | .asrReg c sz n | .aslReg c sz n | .lsrReg c sz n | .lslReg c sz n | .roxrReg c sz n | .roxlReg c sz n
  | .rorReg c sz n | .rolReg c sz n => [.count c, .size sz, .reg n 0]
  | .trap v => [.nibble v 0]
  | .dbcc c n => [.cond c, .reg n 0]
  | .scc c ea => [.cond c, .ea ea]
  | .bcc c d => [.cond c, .low d]
  | .bra d | .bsr d => [.low d]
  | .moveq n d => [.reg n 9, .low d]
  | .lineA p | .lineF p => [.low p]
  | .oriCcr | .oriSr | .andiCcr | .andiSr | .eoriCcr | .eoriSr | .illegal | .reset | .nop | .stop | .rte | .rts | .trapv
  | .rtr => []

theorem Instr.fields_partition (i : Instr) : i.opcode.partition i.fields = true := by
  cases i
  all_goals
    dsimp only [Instr.fields, Instr.opcode, BitField.partition, BitField.merge, BitField.reg, BitField.nibble,
      BitField.number, BitField.ea, BitField.dst, BitField.size, BitField.oneBit, BitField.xMode, BitField.movepDir,
      BitField.cond, BitField.count, BitField.low]
    conv in (occs := *) Instr.row _ => all_goals whnf
    decide

theorem encodeOpword_eq_fields (i : Instr) : encodeOpword i = (i.fields.foldl BitField.merge i.opcode).bits := by
  cases i
  case trap v =>
    show 0x4E40#16 ||| BitVec.ofNat 16 v.val = 0x4E40#16 ||| BitVec.ofNat 16 v.val <<< 0
    rw [BitVec.shiftLeft_zero]
  all_goals rfl

/-! ### What a row builds -/

theorem withEa_eq_some_iff {w : Half} {f : EA → Instr} {i : Instr} :
    withEa w f = some i ↔ ∃ ea, (BitField.ea ea).Holds w ∧ f ea = i := by
  rw [withEa]
  split <;> simp_all [← eaAt_eq_some_iff]

theorem withSize_eq_some_iff {w : Half} {f : Size → Instr} {i : Instr} :
    withSize w f = some i ↔ ∃ sz, (BitField.size sz).Holds w ∧ f sz = i := by
  rw [withSize]
  split <;> simp_all [← sizeOf?_eq_some_iff]

theorem withSizeEa_eq_some_iff {w : Half} {f : Size → EA → Instr} {i : Instr} :
    withSizeEa w f = some i ↔ ∃ sz, (BitField.size sz).Holds w ∧ ∃ ea, (BitField.ea ea).Holds w ∧ f sz ea = i := by
  rw [withSizeEa]
  split <;> simp_all [← sizeOf?_eq_some_iff, withEa_eq_some_iff]

theorem withEaDst_eq_some_iff {w : Half} {f : EA → EA → Instr} {i : Instr} :
    withEaDst w f = some i ↔ ∃ dst, (BitField.dst dst).Holds w ∧ ∃ src, (BitField.ea src).Holds w ∧ f src dst = i := by
  rw [withEaDst]
  split <;> simp_all [← dstAt_eq_some_iff, withEa_eq_some_iff]

theorem row_of_build : ∀ r ∈ Decode.table, ∀ w i, r.build w = some i → i.row = r := by
  have lines (n : Fin 16) : ∀ r ∈ Decode.rowsOf n, ∀ w i, r.build w = some i → i.row = r := by
    fin_cases n
    all_goals
      conv in Decode.rowsOf _ => whnf
      simp only [List.forall_mem_cons, List.not_mem_nil, false_imp_iff, implies_true, and_true, Option.some.injEq,
        withEa_eq_some_iff, withSize_eq_some_iff, withSizeEa_eq_some_iff, withEaDst_eq_some_iff, forall_exists_index,
        and_imp, forall_eq']
      repeat' apply And.intro
      all_goals
        intros
        subst_vars
        rfl
  intro r hr
  obtain ⟨n, -, hn⟩ := List.mem_flatMap.mp hr
  exact lines n r hn

theorem build_eq_some_iff {i : Instr} (h : i.wf = true) (w : Half) :
    i.row.build w = some i ↔ ∀ f ∈ i.fields, f.Holds w := by
  cases i
  all_goals
    conv in Instr.row _ => whnf
    simp only [Instr.wf, Bool.and_eq_true] at h
    simp [-BitVec.getLsbD_eq_getElem, Instr.fields, withEa_eq_some_iff, withSize_eq_some_iff, withSizeEa_eq_some_iff,
      withEaDst_eq_some_iff, regAt_eq_iff, xModeOf_eq_iff, movepDir_eq_iff, condAt_eq_iff, countOf_eq_iff, setWidth_eq_iff,
      nibbleAt_eq_iff, oneBitSize_eq_iff, h, and_comm, and_left_comm, and_assoc]

theorem Row.select_eq_some_iff {r : Row} {w : Half} {i : Instr} :
    r.select w = some i ↔ w &&& r.mask = r.pattern ∧ r.build w = some i ∧ i.wf = true := by
  rw [Row.select]
  split
  · cases r.build w with
    | none => simp
    | some j =>
      by_cases hj : j.wf = true
      · simp only [*, if_true, Option.some.injEq, true_and, iff_self_and]
        rintro rfl
        exact hj
      · simp only [*, if_false, Option.some.injEq, true_and, reduceCtorEq, false_iff, not_and]
        rintro rfl
        exact hj
  · simp [*]

/-- The row of an instruction answers it for the word that the encoder makes of it and for no other. -/
theorem row_select_eq_some_iff {i : Instr} {w : Half} :
    i.row.select w = some i ↔ i.wf = true ∧ encodeOpword i = w := by
  rw [Row.select_eq_some_iff, encodeOpword_eq_fields, ← BitField.holds_all_iff i.fields_partition]
  constructor
  · rintro ⟨hopcode, hbuild, hwf⟩
    exact ⟨hwf, hopcode, (build_eq_some_iff hwf w).mp hbuild⟩
  · rintro ⟨hwf, hopcode, hfields⟩
    exact ⟨hopcode, (build_eq_some_iff hwf w).mpr hfields, hwf⟩

/-! ### No earlier row takes an instruction's opword -/

/-- The two tests ask for different values of a bit that both test. -/
def BitTest.clash (t u : BitTest) : Bool := t.bits &&& u.mask != u.bits &&& t.mask

theorem BitTest.not_clash {t u : BitTest} {w : Half} (ht : t.Holds w) (hu : u.Holds w) : t.clash u = false := by
  simp only [Holds] at ht hu
  rw [clash, ← ht, ← hu, BitVec.and_assoc, BitVec.and_assoc, BitVec.and_comm t.mask, bne_self_eq_false]

/-- Two tests together fix the bits that a third one tests to what it asks for. -/
def BitTest.imply (t u v : BitTest) : Bool :=
  v.mask &&& (t.mask ||| u.mask) == v.mask && v.mask &&& (t.bits ||| u.bits) == v.bits

theorem BitTest.holds_of_imply {t u v : BitTest} {w : Half} (ht : t.Holds w) (hu : u.Holds w) (h : t.imply u v = true) :
    v.Holds w := by
  obtain ⟨hmask, hbits⟩ : v.mask &&& (t.mask ||| u.mask) = v.mask ∧ v.mask &&& (t.bits ||| u.bits) = v.bits := by
    simpa only [imply, Bool.and_eq_true, beq_iff_eq] using h
  simp only [Holds] at ht hu ⊢
  calc w &&& v.mask = v.mask &&& (w &&& t.mask ||| w &&& u.mask) := by
        rw [← BitVec.and_or_distrib_left, ← BitVec.and_assoc, BitVec.and_comm v.mask, BitVec.and_assoc, hmask]
    _ = v.bits := by rw [ht, hu, hbits]

/-- The size field holds no size (30_encoding.md R107). -/
def BitTest.noSize : BitTest := ⟨0x00C0#16, 0x00C0#16⟩

/-- The EA field names a register. -/
def BitTest.eaReg : BitTest := ⟨0x0030#16, 0x0000#16⟩

/-- The EA field names an address register. -/
def BitTest.eaAreg : BitTest := (BitField.reg 1 3).toBitTest

/-- The EA field is an immediate. -/
def BitTest.eaImm : BitTest := (BitField.ea .imm).toBitTest

/-- The destination field of MOVE names an address register. -/
def BitTest.dstAreg : BitTest := (BitField.reg 1 6).toBitTest

/-- What the fields of a well-formed instruction are not, where an earlier row of the table takes the word in which
they are. -/
def Instr.avoided : Instr → List BitTest
  | .btstReg _ _ | .bchgReg _ _ | .bclrReg _ _ | .bsetReg _ _ | .scc _ _ => [.eaAreg]
  | .ori _ _ | .andi _ _ | .eori _ _ | .tas _ => [.eaImm]
  | .moveL _ _ | .moveW _ _ => [.dstAreg]
  | .pea _ | .movemToMem _ _ => [.eaReg]
  | .tst _ _ => [.noSize, .eaImm]
  | .eor _ _ _ => [.noSize, .eaAreg]
  | .orToEa _ _ _ | .subToEa _ _ _ | .andToEa _ _ _ | .addToEa _ _ _ => [.noSize, .eaReg]
  | .negx _ _ | .neg _ _ | .not _ _ | .addq _ _ _ | .subq _ _ _ | .orToDn _ _ _ | .subx _ _ _ _ | .subToDn _ _ _
  | .cmpm _ _ _ | .cmp _ _ _ | .andToDn _ _ _ | .addx _ _ _ _ | .addToDn _ _ _ | .asrReg _ _ _ | .aslReg _ _ _
  | .lsrReg _ _ _ | .lslReg _ _ _ | .roxrReg _ _ _ | .roxlReg _ _ _ | .rorReg _ _ _ | .rolReg _ _ _ => [.noSize]
  | .bcc _ _ => [(BitField.cond .t).toBitTest, (BitField.cond .f).toBitTest]
  | _ => []

theorem clash_noSize (sz : Size) : (BitField.size sz).clash .noSize = true := by cases sz <;> rfl

theorem clash_eaReg (ea : EA) : (BitField.ea ea).clash .eaReg = !ea.isReg := by cases ea <;> decide +revert

theorem clash_eaAreg (ea : EA) : (BitField.ea ea).clash .eaAreg = !ea.isAreg := by cases ea <;> decide +revert

theorem clash_eaImm (ea : EA) : (BitField.ea ea).clash .eaImm = (ea != .imm) := by cases ea <;> decide +revert

theorem clash_dstAreg (ea : EA) : (BitField.dst ea).clash .dstAreg = !ea.isAreg := by cases ea <;> decide +revert

theorem clash_cond_t (c : Cond) : (BitField.cond c).clash (BitField.cond .t).toBitTest = (c != .t) := by cases c <;> rfl

theorem clash_cond_f (c : Cond) : (BitField.cond c).clash (BitField.cond .f).toBitTest = (c != .f) := by cases c <;> rfl

theorem EA.isReg_of_control {ea : EA} (h : ea.isControl = true) : ea.isReg = false := by
  cases ea <;> simp_all [EA.isReg, EA.isControl]

theorem EA.isReg_of_controlAlterableOrPreDec {ea : EA} (h : ea.inClass .controlAlterableOrPreDec = true) :
    ea.isReg = false := by
  cases ea <;> simp_all [EA.inClass, EA.isReg, EA.isControl]

theorem EA.ne_imm_of_alterable {ea : EA} (h : ea.isAlterable = true) : ea ≠ .imm := by
  rintro rfl
  cases h

theorem field_clash_of_avoided {i : Instr} (h : i.wf = true) : ∀ t ∈ i.avoided, ∃ f ∈ i.fields, f.clash t = true := by
  cases i
  case pea ea => simp [Instr.avoided, Instr.fields, clash_eaReg, EA.isReg_of_control h]
  case movemToMem sz ea =>
    obtain ⟨-, hea⟩ := Bool.and_eq_true_iff.mp h
    simp [Instr.avoided, Instr.fields, clash_eaReg, EA.isReg_of_controlAlterableOrPreDec hea]
  all_goals
    simp only [Instr.wf, EA.inClass, Bool.and_eq_true] at h
    simp [Instr.avoided, Instr.fields, clash_noSize, clash_eaReg, clash_eaAreg, clash_eaImm, clash_dstAreg, clash_cond_t,
      clash_cond_f, h, EA.ne_imm_of_alterable]

/-- The test of a row. -/
def Row.test (r : Row) : BitTest := ⟨r.mask, r.pattern⟩

/-- A row does not take the words that meet another row's test and avoid some values of its fields. -/
def Row.yields (r own : Row) (avoided : List BitTest) : Bool :=
  r.test.clash own.test || avoided.any (r.test.imply own.test)

theorem earlier_rows_yield (i : Instr) : ∀ r ∈ Decode.table.take i.ctorIdx, r.yields i.row i.avoided = true := by
  rw [← List.all_eq_true]
  cases i
  all_goals
    dsimp only [Instr.avoided, Instr.ctorIdx]
    conv in Instr.row _ => whnf
    decide +kernel

theorem earlier_row_select {i : Instr} {w : Half} (h : i.row.select w = some i) {r : Row}
    (hr : r ∈ Decode.table.take i.ctorIdx) : r.select w = none := by
  obtain ⟨hopcode, hbuild, hwf⟩ := Row.select_eq_some_iff.mp h
  have hfields := (build_eq_some_iff hwf w).mp hbuild
  rw [Row.select, if_neg]
  intro (taken : r.test.Holds w)
  have own : i.row.test.Holds w := hopcode
  rcases Bool.or_eq_true_iff.mp (earlier_rows_yield i r hr) with hclash | himply
  · simp [BitTest.not_clash taken own] at hclash
  · obtain ⟨t, ht, himply⟩ := List.any_eq_true.mp himply
    obtain ⟨f, hf, hclash⟩ := field_clash_of_avoided hwf t ht
    simp [BitTest.not_clash (hfields f hf) (BitTest.holds_of_imply taken own himply)] at hclash

/-! ### The dispatcher -/

theorem firstRow_eq_findSome? (w : Half) (rows : List Row) : firstRow w rows = rows.findSome? fun r => r.select w := by
  induction rows with
  | nil => rfl
  | cons r rest ih =>
    rw [firstRow, List.findSome?_cons, ih]
    cases r.select w <;> rfl

theorem row_line : ∀ n, ∀ r ∈ Decode.rowsOf n, r.mask &&& 0xF000#16 = 0xF000#16 ∧
    r.pattern &&& 0xF000#16 = BitVec.ofNat 16 n.val <<< 12 := by
  decide +kernel

theorem line_of_select {n : Fin 16} {r : Row} (hr : r ∈ Decode.rowsOf n) {w : Half} {i : Instr} (h : r.select w = some i) :
    nibbleAt w 12 = n := by
  obtain ⟨hopcode, -, -⟩ := Row.select_eq_some_iff.mp h
  obtain ⟨hmask, hpattern⟩ := row_line n r hr
  rw [nibbleAt_eq_iff w n (by decide)]
  calc w &&& 0xF000#16 = w &&& r.mask &&& 0xF000#16 := by rw [BitVec.and_assoc, hmask]
    _ = _ := by rw [hopcode, hpattern]; rfl

theorem firstRow_other_line {w : Half} {n : Fin 16} (h : nibbleAt w 12 ≠ n) : firstRow w (Decode.rowsOf n) = none := by
  rw [firstRow_eq_findSome?, List.findSome?_eq_none_iff]
  intro r hr
  rw [Option.eq_none_iff_forall_ne_some]
  exact fun i hselect => h (line_of_select hr hselect)

theorem firstRow_lines (w : Half) (lines : List (Fin 16)) :
    firstRow w (lines.flatMap Decode.rowsOf) = if nibbleAt w 12 ∈ lines then decodeOpword w else none := by
  induction lines with
  | nil => rfl
  | cons n ns ih =>
    have split : firstRow w ((n :: ns).flatMap Decode.rowsOf) =
        (firstRow w (Decode.rowsOf n)).or (firstRow w (ns.flatMap Decode.rowsOf)) := by
      simp only [firstRow_eq_findSome?, List.flatMap_cons, List.findSome?_append]
    rw [split, ih]
    by_cases h : nibbleAt w 12 = n
    · subst h
      have own : firstRow w (Decode.rowsOf (nibbleAt w 12)) = decodeOpword w := rfl
      rw [own]
      cases decodeOpword w <;> simp
    · simp [firstRow_other_line h, h]

theorem decodeOpword_eq_table (w : Half) : decodeOpword w = Decode.table.findSome? fun r => r.select w := by
  rw [← firstRow_eq_findSome?, Decode.table, firstRow_lines, if_pos (List.mem_finRange _)]

/-- An opword decodes to the well-formed instruction whose encoding it is. -/
theorem decodeOpword_eq_some_iff {w : Half} {i : Instr} : decodeOpword w = some i ↔ i.wf = true ∧ encodeOpword i = w := by
  rw [decodeOpword_eq_table, ← row_select_eq_some_iff]
  constructor
  · intro h
    obtain ⟨r, hr, hselect⟩ := List.exists_of_findSome?_eq_some h
    obtain ⟨-, hbuild, -⟩ := Row.select_eq_some_iff.mp hselect
    rwa [row_of_build r hr w i hbuild]
  · intro h
    rw [List.findSome?_eq_some_iff]
    refine ⟨Decode.table.take i.ctorIdx, i.row, Decode.table.drop (i.ctorIdx + 1), ?_, h,
      fun r hr => earlier_row_select h hr⟩
    rw [Instr.row, List.getElem_cons_drop, List.take_append_drop]

theorem decode_bytesOfHalf {w : Half} {i : Instr} (h : decodeOpword w = some i) (rest : List Byte) :
    decode (bytesOfHalf w ++ rest) = .ok i := by
  have whole : (w.extractLsb' 8 8 ++ w.extractLsb' 0 8 : Half) = w :=
    (BitVec.extractLsb'_append_extractLsb'_eq_extractLsb' (Nat.zero_add 8).symm).trans BitVec.extractLsb'_eq_self
  simp only [bytesOfHalf, List.cons_append, List.nil_append, decode]
  rw [whole, h]

theorem decode_encode {i : Instr} (h : i.wf = true) (rest : List Byte) : decode (encode i ++ rest) = .ok i :=
  decode_bytesOfHalf (decodeOpword_eq_some_iff.mpr ⟨h, rfl⟩) rest

end Sys2Proof
end

section
/-! PROOFS. The indexed extension words, field by field, and the statements about encoding and decoding (O1, O2, O3). -/

namespace Sys2Proof

/-! ### Indexed extension words -/

/-- The scale of an index register, bits 10 to 9 (30_encoding.md R104). -/
def BitField.scale (s : Fin 4) : BitField := .number (len := 2) s 9

theorem scale_eq_iff (e : Half) (s : Fin 4) : (indexRegOf e).scale = s ↔ (BitField.scale s).Holds e :=
  number_eq_iff (len := 2) e (lo := 9) (by decide) s

/-- The size of the base displacement (30_encoding.md R105). -/
def BitField.baseDisp (d : DispSize) : BitField where
  mask := 0x0030#16
  bits := bitsOfBaseDisp d
  within := by cases d <;> rfl

theorem baseDispOf_eq_some_iff (e : Half) (d : DispSize) : baseDispOf e = some d ↔ (BitField.baseDisp d).Holds e := by
  show _ ↔ e &&& (3#16 <<< 4) = bitsOfBaseDisp d
  rw [and_twoBits, baseDispOf]
  cases e.getLsbD 5 <;> cases e.getLsbD 4 <;> cases d <;> decide

/-- The memory indirection (30_encoding.md R105). -/
def BitField.indirection (ind : Indirection) : BitField where
  mask := 7#16
  bits := bitsOfIndirection ind
  within := by rcases ind with _ | (_ | _ | _) | (_ | _ | _) <;> rfl

theorem indirectionOf_eq_some_iff (e : Half) (x : IndexReg) (bs is : Bool) (bd : DispSize) (ind : Indirection) :
    indirectionOf e is = some ind ↔ (IndexWord.full x bs is bd ind).wf = true ∧ (BitField.indirection ind).Holds e := by
  have read : (BitField.indirection ind).Holds e ↔ bitsOfReg (regAt e 0) 0 = bitsOfIndirection ind := by
    have low : e &&& 7#16 = bitsOfReg (regAt e 0) 0 := (regAt_eq_iff e _ (lo := 0) (by decide)).mp rfl
    rw [← low]
    rfl
  obtain ⟨field, hfield⟩ : ∃ field, regAt e 0 = field := ⟨_, rfl⟩
  simp only [read, indirectionOf, hfield]
  clear read hfield e
  rcases ind with _ | (_ | _ | _) | (_ | _ | _)
  all_goals
    dsimp only [IndexWord.wf]
    decide +revert

/-- The fields of the index register below its kind, in the order in which the encoder puts them together. -/
def IndexReg.fields (x : IndexReg) : List BitField := [.reg x.reg 12, .bit x.isLong 11, .scale x.scale]

theorem indexRegOf_eq_iff (e : Half) (x : IndexReg) :
    indexRegOf e = x ↔ (BitField.bit x.isAddr 15).Holds e ∧ ∀ f ∈ x.fields, f.Holds e := by
  simp only [IndexReg.fields, List.forall_mem_cons, List.not_mem_nil, false_imp_iff, implies_true, and_true]
  rw [← getLsbD_eq_iff e _ (by decide), ← regAt_eq_iff e _ (by decide), ← getLsbD_eq_iff e _ (by decide), ← scale_eq_iff]
  cases x
  exact IndexReg.mk.injEq .. ▸ .rfl

/-- The format bit and the bit that a full word keeps 0 (30_encoding.md R105). -/
def BitField.fullFormat : BitField := ⟨⟨0x0108#16, 0x0100#16⟩, rfl⟩

theorem fullFormat_holds_iff (e : Half) : BitField.fullFormat.Holds e ↔ e.getLsbD 8 = true ∧ e.getLsbD 3 = false := by
  rw [getLsbD_eq_iff e _ (by decide), getLsbD_eq_iff e _ (by decide)]
  exact BitField.holds_merge (f := .bit true 8) (g := .bit false 3) rfl e

theorem decodeIndexWord_eq_brief_iff_reads {e : Half} {x : IndexReg} {d8 : Byte} :
    decodeIndexWord e = .brief x d8 ↔ indexRegOf e = x ∧ e.setWidth 8 = d8 ∧ e.getLsbD 8 = false := by
  unfold decodeIndexWord
  cases e.getLsbD 8 with
  | false => simp
  | true =>
    cases e.getLsbD 3 with
    | false => cases baseDispOf e <;> cases indirectionOf e (e.getLsbD 6) <;> simp
    | true => simp

theorem decodeIndexWord_eq_full_iff_reads {e : Half} {x : IndexReg} {bs is : Bool} {bd : DispSize} {ind : Indirection} :
    decodeIndexWord e = .full x bs is bd ind ↔ indexRegOf e = x ∧ (e.getLsbD 8 = true ∧ e.getLsbD 3 = false) ∧
      e.getLsbD 7 = bs ∧ e.getLsbD 6 = is ∧ baseDispOf e = some bd ∧ indirectionOf e is = some ind := by
  unfold decodeIndexWord
  cases e.getLsbD 8 with
  | false => simp
  | true =>
    cases e.getLsbD 3 with
    | true => simp
    | false =>
      by_cases his : e.getLsbD 6 = is
      · subst his
        cases baseDispOf e <;> cases indirectionOf e (e.getLsbD 6) <;> simp
      · cases baseDispOf e <;> cases indirectionOf e (e.getLsbD 6) <;> simp [-BitVec.getLsbD_eq_getElem, his]

/-- The fields of a brief word after its first bit. -/
def briefFields (x : IndexReg) (d8 : Byte) : List BitField := x.fields ++ [.low d8, .bit false 8]

theorem briefFields_partition (x : IndexReg) (d8 : Byte) :
    (BitField.bit x.isAddr 15).partition (briefFields x d8) = true := by
  dsimp only [briefFields, IndexReg.fields, List.cons_append, List.nil_append, BitField.partition, BitField.merge,
    BitField.reg, BitField.number, BitField.bit, BitField.scale, BitField.low]
  decide

theorem encodeIndexWord_brief (x : IndexReg) (d8 : Byte) :
    encodeIndexWord (.brief x d8) = ((briefFields x d8).foldl BitField.merge (.bit x.isAddr 15)).bits :=
  BitVec.or_zero.symm

theorem decodeIndexWord_eq_brief_iff {e : Half} {x : IndexReg} {d8 : Byte} :
    decodeIndexWord e = .brief x d8 ↔ encodeIndexWord (.brief x d8) = e := by
  rw [encodeIndexWord_brief, ← BitField.holds_all_iff (briefFields_partition x d8), briefFields, List.forall_mem_append,
    ← and_assoc, ← indexRegOf_eq_iff, decodeIndexWord_eq_brief_iff_reads]
  simp only [List.forall_mem_cons, List.not_mem_nil, false_imp_iff, implies_true, and_true]
  rw [← setWidth_eq_iff e (by decide), ← getLsbD_eq_iff e _ (by decide)]

/-- The fields of a full word after its first bit. -/
def fullFields (x : IndexReg) (bs is : Bool) (bd : DispSize) (ind : Indirection) : List BitField :=
  x.fields ++ [.fullFormat, .bit bs 7, .bit is 6, .baseDisp bd, .indirection ind]

theorem fullFields_partition (x : IndexReg) (bs is : Bool) (bd : DispSize) (ind : Indirection) :
    (BitField.bit x.isAddr 15).partition (fullFields x bs is bd ind) = true := by
  dsimp only [fullFields, IndexReg.fields, List.cons_append, List.nil_append, BitField.partition, BitField.merge,
    BitField.reg, BitField.number, BitField.bit, BitField.scale, BitField.fullFormat, BitField.baseDisp,
    BitField.indirection]
  decide

theorem encodeIndexWord_full (x : IndexReg) (bs is : Bool) (bd : DispSize) (ind : Indirection) :
    encodeIndexWord (.full x bs is bd ind) =
      ((fullFields x bs is bd ind).foldl BitField.merge (.bit x.isAddr 15)).bits := rfl

theorem decodeIndexWord_eq_full_iff {e : Half} {x : IndexReg} {bs is : Bool} {bd : DispSize} {ind : Indirection} :
    decodeIndexWord e = .full x bs is bd ind ↔
      (IndexWord.full x bs is bd ind).wf = true ∧ encodeIndexWord (.full x bs is bd ind) = e := by
  rw [encodeIndexWord_full, ← BitField.holds_all_iff (fullFields_partition x bs is bd ind), fullFields,
    List.forall_mem_append, ← and_assoc (b := ∀ f ∈ x.fields, _), ← indexRegOf_eq_iff, decodeIndexWord_eq_full_iff_reads]
  simp only [List.forall_mem_cons, List.not_mem_nil, false_imp_iff, implies_true, and_true]
  rw [fullFormat_holds_iff, ← getLsbD_eq_iff e _ (by decide), ← getLsbD_eq_iff e _ (by decide), ← baseDispOf_eq_some_iff,
    indirectionOf_eq_some_iff e x bs is bd]
  tauto

theorem decodeIndexWord_eq_iff {e : Half} {x : IndexWord} (h : x ≠ .reserved) :
    decodeIndexWord e = x ↔ x.wf = true ∧ encodeIndexWord x = e := by
  cases x with
  | brief x d8 => exact decodeIndexWord_eq_brief_iff.trans (iff_and_self.mpr fun _ => rfl)
  | full x bs is bd ind => exact decodeIndexWord_eq_full_iff
  | reserved => cases h rfl

/-! ### The obligations -/

/-- Settles O2: the row of an instruction reads it out of its own opword and no earlier row takes that word; an index
word is read field by field. -/
theorem decodeEncodeRoundTrip : Obligations.DecodeEncodeRoundTrip := by
  refine ⟨fun i rest h => decode_encode h rest, fun x h => (decodeIndexWord_eq_iff ?_).mpr ⟨h, rfl⟩⟩
  rintro rfl
  cases h

/-- Settles O3: the row that answers is the row of the instruction, and its fields leave no bit out. -/
theorem decodedWordsReencode : Obligations.DecodedWordsReencode :=
  ⟨fun _ _ h => decodeOpword_eq_some_iff.mp h, fun _ h => (decodeIndexWord_eq_iff h).mp rfl⟩

/-- Settles O1: each instruction is well formed and its encoding is the word written out; the last word is no
instruction's. -/
theorem decodeWrittenWords : Obligations.DecodeWrittenWords := by
  unfold Obligations.DecodeWrittenWords
  simp only [decodeOpword_eq_some_iff]
  decide

end Sys2Proof
end

section
/-! PROOFS. The indexed addressing modes: what each kind of extension word makes of a base (O21). -/

namespace Sys2Proof.Machine

variable {s t u v : State} {base d od p : Word} {e : Half} {x : IndexReg} {d8 : Byte} {bs is : Bool} {bd o : DispSize}
  {ind : Indirection}

/-! ### The index register -/

/-- The updates that a fetch of extension words makes: pc, and what a device that answers leaves. -/
def Permits.fetch : Permits :=
  { dreg := fun _ => False, areg := fun _ => False, flags := fun _ _ _ => False, ccr := False, store := False,
    sr := False, usp := False, stop := False }

theorem indexValue_closed : Closed .fetch fun s t : State => t.indexValue = s.indexValue where
  refl _ := rfl
  trans f g := g.trans f
  pc _ _ := rfl
  dreg _ _ _ _ h := h.elim
  areg _ _ _ h := h.elim
  flags _ _ h := h.elim
  ccr _ _ h := h.elim
  read _ _ _ := rfl
  store _ _ _ h := h.elim

/-- Fetching a displacement leaves every index register. -/
theorem fetchDisp_indexValue (h : fetchDisp bd s = .ok d t) : t.indexValue = s.indexValue := by
  have kept := Preserves.fetchDisp indexValue_closed bd s
  rwa [h] at kept

/-- Fetching a displacement leaves the index of a full word, its scale and its suppression included. -/
theorem fetchDisp_fullIndex (h : fetchDisp bd s = .ok d t) (x : IndexReg) (is : Bool) : t.fullIndex x is = s.fullIndex x is := by
  rw [State.fullIndex, State.fullIndex, fetchDisp_indexValue h]

/-! ### A full word (40_addressing_modes.md R156) -/

theorem fullIndexed_none (h : fetchDisp bd s = .ok d t) :
    fullIndexed base x is bd .none s = .ok (base + d + s.fullIndex x is) t := by
  rw [← fetchDisp_fullIndex h, fullIndexed, bind_ok h]
  rfl

/-- The pointer lies at the indexed address. -/
theorem fullIndexed_pre (h : fetchDisp bd s = .ok d t) (ho : fetchDisp o t = .ok od u)
    (hp : memRead .data .long (base + d + s.fullIndex x is) u = .ok p v) :
    fullIndexed base x is bd (.pre o) s = .ok (p + od) v := by
  rw [← fetchDisp_fullIndex h] at hp
  rw [fullIndexed, bind_ok h, getState_bind]
  simp only [bind_ok ho, bind_ok hp, pure_apply]

/-- The index is added to the pointer. -/
theorem fullIndexed_post (h : fetchDisp bd s = .ok d t) (ho : fetchDisp o t = .ok od u)
    (hp : memRead .data .long (base + d) u = .ok p v) :
    fullIndexed base x is bd (.post o) s = .ok (p + s.fullIndex x is + od) v := by
  rw [← fetchDisp_fullIndex h, fullIndexed, bind_ok h, getState_bind]
  simp only [bind_ok ho, bind_ok hp, pure_apply]

/-! ### The extension word (40_addressing_modes.md R149) -/

section indexed
variable (fetched : s.readable s.pc .word)
include fetched

theorem indexed_brief (h : decodeIndexWord s.wordAtPc = .brief x d8) :
    indexed base s = .ok (base + sext8 d8 + s.briefIndex x) { s with pc := s.pc + 2#32 } := by
  rw [indexed, bind_ok (fetchWord_readable fetched), getState_bind, h]
  rfl

theorem indexed_full_mc68000 (h : decodeIndexWord s.wordAtPc = .full x bs is bd ind) (model : s.params.cpuModel = .mc68000) :
    indexed base s = .error (.fault .illegalInstruction 0#64) { s with pc := s.pc + 2#32 } := by
  rw [indexed, bind_ok (fetchWord_readable fetched), getState_bind, h]
  simp only [model, raiseFault_apply]

theorem indexed_full_mc68020Ea (h : decodeIndexWord s.wordAtPc = .full x bs is bd ind)
    (model : s.params.cpuModel = .mc68020Ea) :
    indexed base s = fullIndexed (if bs then 0#32 else base) x is bd ind { s with pc := s.pc + 2#32 } := by
  rw [indexed, bind_ok (fetchWord_readable fetched), getState_bind, h]
  simp only [model]

theorem indexed_reserved (h : decodeIndexWord s.wordAtPc = .reserved) :
    indexed base s = .error (.fault .illegalInstruction 0#64) { s with pc := s.pc + 2#32 } := by
  rw [indexed, bind_ok (fetchWord_readable fetched), getState_bind, h]
  rfl

/-- On MC68000 every word that is not brief faults, an encoding or not. -/
theorem indexed_not_brief_mc68000 (format : s.wordAtPc.getLsbD 8 = true) (model : s.params.cpuModel = .mc68000) :
    indexed base s = .error (.fault .illegalInstruction 0#64) { s with pc := s.pc + 2#32 } := by
  cases h : decodeIndexWord s.wordAtPc with
  | brief x d8 =>
    obtain ⟨-, -, clear⟩ := decodeIndexWord_eq_brief_iff_reads.mp h
    cases format.symm.trans clear
  | full => exact indexed_full_mc68000 fetched h model
  | reserved => exact indexed_reserved fetched h

end indexed

theorem resolve_index {n : Fin 8} {sz : Size} {ap : Bool} {a : Word} (h : indexed (s.areg n) s = .ok a t) :
    resolve (.index n) sz ap s = .ok (.mem a .data) t := by
  rw [resolve, getState_bind, bind_ok h]
  rfl

/-- The base is the place of the extension word (40_addressing_modes.md R153). -/
theorem resolve_pcIndex {sz : Size} {ap : Bool} {a : Word} (h : indexed s.pc s = .ok a t) :
    resolve .pcIndex sz ap s = .ok (.mem a .program) t := by
  rw [resolve, getState_bind, bind_ok h]
  rfl

/-- Settles O21: the format bit and the CPU model choose the form of the address, the indirection where it is read from
memory. -/
theorem indexedAddresses : Obligations.IndexedAddresses := by
  intro s base fetched e u xn idx scaled
  refine ⟨fun format => ?_, indexed_not_brief_mc68000 fetched, indexed_reserved fetched, ?_, fun n sz ap a t => ?_⟩
  · have brief := indexed_brief (base := base) fetched (decodeIndexWord_eq_brief_iff_reads.mpr ⟨rfl, rfl, format⟩)
    refine ⟨fun model => ?_, fun model => ?_⟩ <;> rw [brief, State.briefIndex, model] <;> rfl
  · intro x bs is bd ind full model b i d1 u1 hd
    have index : u.fullIndex x is = i := by
      rw [← (decodeIndexWord_eq_full_iff_reads.mp full).1]
      rfl
    rw [indexed_full_mc68020Ea fetched full model, ← index]
    refine ⟨?_, ?_, ?_⟩
    · rintro rfl
      exact fullIndexed_none hd
    · rintro o d2 u2 p u3 rfl ho hp
      exact fullIndexed_pre hd ho hp
    · rintro o d2 u2 p u3 rfl ho hp
      exact fullIndexed_post hd ho hp
  · exact ⟨resolve_index, resolve_pcIndex⟩

end Sys2Proof.Machine
end

section
/-! PROOFS. The other addressing modes, and the accesses to a location (O20). -/

namespace Sys2Proof.Machine

variable {s t : State} {sz : Size} {ap : Bool} {v : Word} {n : Fin 8}

/-! ### Modes that name an address register (40_addressing_modes.md R144 to R147, R157) -/

theorem resolve_ind : resolve (.ind n) sz ap s = .ok (.mem (s.areg n) .data) s := rfl

theorem resolve_postInc : resolve (.postInc n) sz ap s =
    .ok (.mem (s.areg n) .data) (if ap then s.setAreg n (s.areg n + stepOf n sz) else s) := rfl

theorem resolve_preDec : resolve (.preDec n) sz ap s =
    .ok (.mem (s.areg n - stepOf n sz) .data) (if ap then s.setAreg n (s.areg n - stepOf n sz) else s) := rfl

/-! ### Modes with one extension word (R148, R150, R152) -/

section extension
variable (fetched : s.readable s.pc .word)
include fetched

theorem resolve_disp :
    resolve (.disp n) sz ap s = .ok (.mem (s.areg n + sext16 s.wordAtPc) .data) { s with pc := s.pc + 2#32 } := by
  rw [resolve, bind_ok (fetchWord_readable fetched)]
  rfl

theorem resolve_absShort :
    resolve .absShort sz ap s = .ok (.mem (sext16 s.wordAtPc) .data) { s with pc := s.pc + 2#32 } := by
  rw [resolve, bind_ok (fetchWord_readable fetched)]
  rfl

/-- The base of a PC-relative address is the place of its extension word. -/
theorem resolve_pcDisp :
    resolve .pcDisp sz ap s = .ok (.mem (s.pc + sext16 s.wordAtPc) .program) { s with pc := s.pc + 2#32 } := by
  rw [resolve, getState_bind, bind_ok (fetchWord_readable fetched)]
  rfl

/-- A byte is the low one of the word fetched (R154). -/
theorem immediate_byte :
    immediate .byte s = .ok (trunc .byte (s.wordAtPc.setWidth 32)) { s with pc := s.pc + 2#32 } := by
  rw [trunc_byte_eq, BitVec.setWidth_setWidth_of_le s.wordAtPc (by decide), immediate, bind_ok (fetchWord_readable fetched)]
  rfl

theorem immediate_word : immediate .word s = .ok (s.wordAtPc.setWidth 32) { s with pc := s.pc + 2#32 } := by
  rw [immediate, bind_ok (fetchWord_readable fetched)]
  rfl

end extension

/-! ### Modes with a long, and immediates (R151, R154) -/

theorem resolve_absLong (h : fetchLong s = .ok v t) : resolve .absLong sz ap s = .ok (.mem v .data) t := by
  rw [resolve, bind_ok h]
  rfl

theorem resolve_imm (h : immediate sz s = .ok v t) : resolve .imm sz ap s = .ok (.imm v) t := by
  rw [resolve, bind_ok h]
  rfl

/-- Settles O20: mode by mode, and location by location. -/
theorem resolvedOperands : Obligations.ResolvedOperands := by
  intro s sz n moved
  refine ⟨fun ap => ⟨rfl, rfl, resolve_ind⟩, resolve_postInc, resolve_postInc, resolve_preDec, resolve_preDec,
    fun fetched => ?_, fun ap v u => resolve_imm, fun a v sp => ?_⟩
  · intro w u
    refine ⟨fun ap => ⟨resolve_disp fetched, resolve_absShort fetched, resolve_pcDisp fetched⟩,
      immediate_byte fetched, immediate_word fetched, fun fetched' => ?_⟩
    intro long u2
    have two : fetchLong s = .ok long u2 := fetchLong_readable fetched fetched'
    exact ⟨fun ap => resolve_absLong two, two⟩
  · exact ⟨readLoc_dreg n sz s, readLoc_areg n sz s, rfl, readLoc_imm v sz s, writeLoc_dreg n sz v s, rfl, rfl⟩

end Sys2Proof.Machine
end

section
/-! PROOFS. The condition codes of the arithmetic operations (O22, O23, O24) and the condition table (O25). -/

namespace Sys2Proof.Machine

/-! ### An operand as a number -/

/-- The weight of the sign bit of a size; the numbers of the size are those below twice it. -/
def signWeight (sz : Size) : Nat := 2 ^ (sizeBits sz - 1)

theorem two_pow_sizeBits (sz : Size) : 2 ^ sizeBits sz = 2 * signWeight sz := by cases sz <;> rfl

theorem trunc_toNat_lt (sz : Size) (v : Word) : (trunc sz v).toNat < 2 * signWeight sz := by
  rw [trunc_toNat, ← two_pow_sizeBits]
  exact Nat.mod_lt _ (Nat.two_pow_pos _)

/-- The sign bit is set from its weight on. -/
theorem msb_eq_decide_le (sz : Size) (v : Word) : msb sz v = decide (signWeight sz ≤ (trunc sz v).toNat) := by
  rw [msb, BitVec.getLsbD, Nat.testBit_eq_decide_div_mod_eq, decide_eq_decide, trunc_toNat]
  cases sz <;> simp only [signWeight, sizeBits, sizeBytes] <;> omega

theorem signedAt_eq_ite (sz : Size) (v : Word) :
    signedAt sz v =
      if signWeight sz ≤ (trunc sz v).toNat then ((trunc sz v).toNat : Int) - 2 * signWeight sz else (trunc sz v).toNat := by
  have weight : (2 : Int) ^ sizeBits sz = 2 * signWeight sz := by exact_mod_cast two_pow_sizeBits sz
  simp only [signedAt, msb_eq_decide_le, decide_eq_true_eq, weight]

theorem msb_eq_decide_neg (sz : Size) (v : Word) : msb sz v = decide (signedAt sz v < 0) := by
  have bound := trunc_toNat_lt sz v
  rw [msb_eq_decide_le, decide_eq_decide, signedAt_eq_ite]
  split <;> omega

theorem signedAt_trunc (sz : Size) (v : Word) : signedAt sz (trunc sz v) = signedAt sz v := by
  rw [signedAt, signedAt, msb_trunc, trunc_trunc]

theorem isZero_eq_decide (sz : Size) (v : Word) : isZero sz v = decide ((trunc sz v).toNat = 0) := by
  rw [isZero, beq_eq_decide, decide_eq_decide]
  exact BitVec.toNat_inj.symm

/-! ### The sum of two operands and a carry in -/

variable (sz : Size) (a b : Word) (x : Bool)

theorem bitWord_toNat : (bitWord x).toNat = x.toNat := by cases x <;> rfl

theorem sum_toNat :
    (trunc sz (b + a + bitWord x)).toNat = ((trunc sz b).toNat + (trunc sz a).toNat + x.toNat) % 2 ^ sizeBits sz := by
  simp only [trunc_toNat, BitVec.toNat_add, bitWord_toNat]
  cases sz <;> simp only [sizeBits, sizeBytes] <;> omega

/-- No bit above the width reaches the sum. -/
theorem trunc_sum_trunc : trunc sz (trunc sz b + trunc sz a + bitWord x) = trunc sz (b + a + bitWord x) := by
  refine BitVec.eq_of_toNat_eq ?_
  rw [sum_toNat, sum_toNat, trunc_trunc, trunc_trunc]

/-- The sum fits and is the result, or it exceeds the result by one turn of the width. -/
theorem sum_wraps :
    let exact := (trunc sz b).toNat + (trunc sz a).toNat + x.toNat
    let r := (trunc sz (b + a + bitWord x)).toNat
    exact = r ∨ exact = r + 2 * signWeight sz := by
  intro exact r
  have ha := trunc_toNat_lt sz a
  have hb := trunc_toNat_lt sz b
  have hx := x.toNat_le
  have hr : r = exact % (2 * signWeight sz) := by rw [← two_pow_sizeBits]; exact sum_toNat sz a b x
  rcases Nat.lt_or_ge exact (2 * signWeight sz) with fits | exceeds
  · exact .inl (hr.trans (Nat.mod_eq_of_lt fits)).symm
  · right
    rw [Nat.mod_eq_sub_mod exceeds, Nat.mod_eq_of_lt (by omega)] at hr
    omega

theorem addCarry_eq_decide :
    addCarry (msb sz a) (msb sz b) (msb sz (b + a + bitWord x)) =
      decide (2 ^ sizeBits sz ≤ (trunc sz b).toNat + (trunc sz a).toNat + x.toNat) := by
  have ha := trunc_toNat_lt sz a
  have hb := trunc_toNat_lt sz b
  have hr := trunc_toNat_lt sz (b + a + bitWord x)
  have hx := x.toNat_le
  have wraps := sum_wraps sz a b x
  rw [Bool.eq_iff_iff]
  simp only [addCarry, msb_eq_decide_le, two_pow_sizeBits, Bool.or_eq_true, Bool.and_eq_true, Bool.not_eq_true',
    decide_eq_true_eq, decide_eq_false_iff_not]
  omega

theorem addOverflow_eq_decide :
    addOverflow (msb sz a) (msb sz b) (msb sz (b + a + bitWord x)) =
      decide (signedAt sz (b + a + bitWord x) ≠ signedAt sz b + signedAt sz a + x.toNat) := by
  have ha := trunc_toNat_lt sz a
  have hb := trunc_toNat_lt sz b
  have hr := trunc_toNat_lt sz (b + a + bitWord x)
  have hx := x.toNat_le
  have wraps := sum_wraps sz a b x
  rw [Bool.eq_iff_iff]
  simp only [addOverflow, msb_eq_decide_le, signedAt_eq_ite, Bool.or_eq_true, Bool.and_eq_true, Bool.not_eq_true',
    decide_eq_true_eq, decide_eq_false_iff_not]
  omega

/-- Settles O22: the exact sum is the result or exceeds it by one turn of the width. -/
theorem additionFlags : Obligations.AdditionFlags := by
  intro sz a b x old
  dsimp only
  rw [trunc_sum_trunc, signedAt_trunc, signedAt_trunc, signedAt_trunc, msb_trunc, ← sum_toNat]
  exact ⟨rfl, rfl, addCarry_eq_decide sz a b x, rfl, addOverflow_eq_decide sz a b x, msb_eq_decide_neg sz _,
    isZero_eq_decide sz _⟩

/-! ### The difference of two operands and a borrow in

The subtrahend, the difference and the borrow add up to the minuend, so a subtraction borrows and overflows as that
addition carries and overflows. -/

theorem subCarry_eq_addCarry (sm dm rm : Bool) : subCarry sm dm rm = addCarry sm rm dm := by
  cases sm <;> cases dm <;> cases rm <;> rfl

theorem subOverflow_eq_addOverflow (sm dm rm : Bool) : subOverflow sm dm rm = addOverflow sm rm dm := by
  cases sm <;> cases dm <;> cases rm <;> rfl

theorem difference_add : b - a - bitWord x + a + bitWord x = b := by
  rw [add_right_comm, BitVec.sub_add_cancel, BitVec.sub_add_cancel]

/-- No bit above the width reaches the difference. -/
theorem trunc_difference_trunc : trunc sz (trunc sz b - trunc sz a - bitWord x) = trunc sz (b - a - bitWord x) := by
  refine BitVec.eq_of_toNat_eq ?_
  simp only [trunc_toNat, BitVec.toNat_sub, bitWord_toNat]
  cases sz <;> simp only [sizeBits, sizeBytes] <;> omega

theorem subCarry_eq_decide :
    subCarry (msb sz a) (msb sz b) (msb sz (b - a - bitWord x)) =
      decide ((trunc sz b).toNat < (trunc sz a).toNat + x.toNat) := by
  have carry := addCarry_eq_decide sz a (b - a - bitWord x) x
  have wraps := sum_wraps sz a (b - a - bitWord x) x
  have hb := trunc_toNat_lt sz b
  have hr := trunc_toNat_lt sz (b - a - bitWord x)
  rw [difference_add] at carry wraps
  rw [subCarry_eq_addCarry, carry, decide_eq_decide, two_pow_sizeBits]
  omega

theorem subOverflow_eq_decide :
    subOverflow (msb sz a) (msb sz b) (msb sz (b - a - bitWord x)) =
      decide (signedAt sz (b - a - bitWord x) ≠ signedAt sz b - signedAt sz a - x.toNat) := by
  have overflow := addOverflow_eq_decide sz a (b - a - bitWord x) x
  rw [difference_add] at overflow
  rw [subOverflow_eq_addOverflow, overflow, decide_eq_decide]
  omega

/-- Settles O23: the subtraction is the addition of its difference to its subtrahend, read backwards. -/
theorem subtractionFlags : Obligations.SubtractionFlags := by
  intro sz a b x old
  dsimp only
  rw [trunc_difference_trunc, signedAt_trunc, signedAt_trunc, signedAt_trunc, msb_trunc]
  exact ⟨rfl, rfl, subCarry_eq_decide sz a b x, rfl, subOverflow_eq_decide sz a b x, msb_eq_decide_neg sz _,
    beq_eq_decide ..⟩

/-! ### The other flag rules and the condition table -/

/-- Settles O24: each rule is the flag update with the flags it names. -/
theorem otherFlagRules : Obligations.OtherFlagRules := fun _ _ _ _ _ => ⟨rfl, rfl, rfl, rfl⟩

/-- Settles O25: the table row by row; the signed conditions compare N and V. -/
theorem conditionTable : Obligations.ConditionTable := by
  intro f
  have same : (f.n == f.v) = decide (f.n = f.v) := beq_eq_decide ..
  have differ : (f.n != f.v) = decide (f.n ≠ f.v) := decide_not.symm
  exact ⟨rfl, rfl, rfl, rfl, rfl, rfl, rfl, rfl, rfl, rfl, rfl, rfl, same, differ,
    congrArg (!f.z && ·) same, congrArg (f.z || ·) differ⟩

end Sys2Proof.Machine
end

section
/-! PROOFS. The frame of every instruction over SR and the interrupt controller (O59). -/

namespace Sys2Proof.Machine

variable {p : Permits}

/-! ### The flags -/

theorem FlagSet.Keeps.of_eq {w : FlagSet} {old new : Flags} (h : new = old) : w.Keeps old new := by
  subst h
  exact ⟨fun _ => rfl, fun _ => rfl, fun _ => rfl, fun _ => rfl, fun _ => rfl⟩

theorem FlagSet.Keeps.trans {w : FlagSet} {f g h : Flags} (first : w.Keeps f g) (second : w.Keeps g h) : w.Keeps f h :=
  ⟨fun e => (second.x e).trans (first.x e), fun e => (second.n e).trans (first.n e), fun e => (second.z e).trans (first.z e),
    fun e => (second.v e).trans (first.v e), fun e => (second.c e).trans (first.c e)⟩

theorem flagsWritten_of_writesCcr {i : Instr} (h : writesCcr i = true) (b : Bool) : flagsWritten b i = .all := by
  cases i
  case oriCcr | andiCcr | eoriCcr | moveToCcr | rtr => rfl
  all_goals cases h

theorem flagsWritten_of_writesSr {i : Instr} (h : writesSr i = true) (b : Bool) : flagsWritten b i = .all := by
  cases i
  case oriSr | andiSr | eoriSr | moveToSr | stop | rte => rfl
  all_goals cases h

/-- The flags an instruction does not write are kept, and with them the parameters its flags depend on. -/
structure FlagsKept (i : Instr) (s t : State) : Prop where
  params : t.params = s.params
  flags : (flagsWritten s.params.rotateUpdatesX i).Keeps s.flags t.flags

theorem FlagsKept.of_eq {i : Instr} {s t : State} (hparams : t.params = s.params) (hsr : t.sr = s.sr) : FlagsKept i s t :=
  ⟨hparams, .of_eq (congrArg srFlags hsr)⟩

theorem FlagsKept.of_all {i : Instr} {s t : State} (hparams : t.params = s.params) (h : ∀ b, flagsWritten b i = .all) :
    FlagsKept i s t := ⟨hparams, h _ ▸ keeps_all s.flags t.flags⟩

theorem flagsKept_closed (i : Instr) : ClosedReturn (permitsOf i) (FlagsKept i) where
  refl _ := .of_eq rfl rfl
  trans f g := ⟨g.params.trans f.params, f.flags.trans (f.params ▸ g.flags)⟩
  pc _ _ := .of_eq rfl rfl
  dreg _ _ _ _ _ := .of_eq rfl rfl
  areg s n v _ := .of_eq (setAreg_params s n v) (setAreg_sr s n v)
  flags s f h := ⟨rfl, (setFlags_flags s f).symm ▸ h⟩
  ccr _ _ h := .of_all rfl (flagsWritten_of_writesCcr h)
  read _ _ _ := .of_eq rfl rfl
  store _ _ _ _ := .of_eq rfl rfl
  sr _ _ h := .of_all rfl (flagsWritten_of_writesSr h)
  usp _ _ _ := .of_eq rfl rfl
  stop _ _ := .of_eq rfl rfl
  halt _ := .of_eq rfl rfl
  inactive _ := .of_eq rfl rfl

/-! ### The bits of SR above the flags -/

/-- The bits of SR under a mask are kept where no permitted update writes one of them. -/
theorem srMask_closed {mask : Half} (hflags : ∀ sr f, srWithFlags sr f &&& mask = sr &&& mask)
    (hccr : p.ccr → ∀ sr v, srWithCcr sr v &&& mask = sr &&& mask) (hsr : ¬p.sr) :
    ClosedPrivileged p fun s t => t.sr &&& mask = s.sr &&& mask where
  refl _ := rfl
  trans f g := g.trans f
  pc _ _ := rfl
  dreg _ _ _ _ _ := rfl
  areg s n v _ := congrArg (· &&& mask) (setAreg_sr s n v)
  flags s f _ := hflags s.sr f
  ccr s v h := hccr h s.sr v
  read _ _ _ := rfl
  store _ _ _ _ := rfl
  sr _ _ h := absurd h hsr
  usp _ _ _ := rfl
  stop _ _ := rfl

theorem ne_rte_of_writesSr {i : Instr} (h : writesSr i = false) : i ≠ .rte := by
  rintro rfl
  cases h

theorem srWithFlags_highByte (sr : Half) (f : Flags) : srWithFlags sr f &&& 0xFF00#16 = sr &&& 0xFF00#16 := by
  have above : 0xFF00#16 = 0xFFE0#16 &&& 0xFF00#16 := by decide
  rw [above, ← BitVec.and_assoc, srWithFlags_high, BitVec.and_assoc]

theorem srWithCcr_highByte (sr v : Half) : srWithCcr sr v &&& 0xFF00#16 = sr &&& 0xFF00#16 := by
  have low : 0x001F#16 &&& 0xFF00#16 = 0#16 := by decide
  rw [srWithCcr, BitVec.and_or_distrib_right, BitVec.and_assoc, BitVec.and_assoc, low, BitVec.and_self, BitVec.and_zero,
    BitVec.or_zero]

theorem body_highByte {i : Instr} (hsr : writesSr i = false) (s : State) :
    (leftState (bodyOf i s)).sr &&& 0xFF00#16 = s.sr &&& 0xFF00#16 :=
  Preserves.bodyExceptRte i
    (srMask_closed srWithFlags_highByte (fun _ => srWithCcr_highByte) (by simp [permitsOf, hsr]))
    (ne_rte_of_writesSr hsr) s

theorem body_aboveFlags {i : Instr} (hsr : writesSr i = false) (hccr : writesCcr i = false) (s : State) :
    (leftState (bodyOf i s)).sr &&& 0xFFE0#16 = s.sr &&& 0xFFE0#16 :=
  Preserves.bodyExceptRte i
    (srMask_closed srWithFlags_high (fun h => by simp [permitsOf, hccr] at h) (by simp [permitsOf, hsr]))
    (ne_rte_of_writesSr hsr) s

theorem writesSr_eq_false {i : Instr} (h : i ∉ [.oriSr, .andiSr, .eoriSr, .stop, .rte]) (hmove : ∀ ea, i ≠ .moveToSr ea) :
    writesSr i = false := by
  cases i
  case oriSr | andiSr | eoriSr | stop | rte => simp at h
  case moveToSr ea => exact absurd rfl (hmove ea)
  all_goals rfl

theorem writesCcr_eq_false {i : Instr} (h : i ∉ [.oriCcr, .andiCcr, .eoriCcr, .rtr]) (hmove : ∀ ea, i ≠ .moveToCcr ea) :
    writesCcr i = false := by
  cases i
  case oriCcr | andiCcr | eoriCcr | rtr => simp at h
  case moveToCcr ea => exact absurd rfl (hmove ea)
  all_goals rfl

/-! ### The run state -/

/-- Where the CORE may not be stopped, an operation leaves the run state or halts it. -/
theorem runKept_closed (hstop : ¬p.stop) : ClosedReturn p fun s t => t.run = s.run ∨ t.run = .halted where
  refl _ := .inl rfl
  trans f g := g.elim (fun e => f.imp e.trans e.trans) .inr
  pc _ _ := .inl rfl
  dreg _ _ _ _ _ := .inl rfl
  areg s n v _ := .inl (setAreg_run s n v)
  flags _ _ _ := .inl rfl
  ccr _ _ _ := .inl rfl
  read _ _ _ := .inl rfl
  store _ _ _ _ := .inl rfl
  sr _ _ _ := .inl rfl
  usp _ _ _ := .inl rfl
  stop _ h := absurd h hstop
  halt _ := .inr rfl
  inactive _ := .inl rfl

/-! ### The interrupt controller -/

/-- What an operation leaves of the controller: the pending stack, and the active interrupt unless it clears it. -/
structure ControlKept (s t : State) : Prop where
  active : t.active = s.active ∨ t.active = none
  pending : t.pending = s.pending

theorem controlKept_closed : ClosedReturn .all ControlKept where
  refl _ := ⟨.inl rfl, rfl⟩
  trans f g := ⟨g.active.elim (fun e => f.active.imp e.trans e.trans) .inr, g.pending.trans f.pending⟩
  pc _ _ := ⟨.inl rfl, rfl⟩
  dreg _ _ _ _ _ := ⟨.inl rfl, rfl⟩
  areg s n v _ := ⟨.inl (setAreg_active s n v), setAreg_pending s n v⟩
  flags _ _ _ := ⟨.inl rfl, rfl⟩
  ccr _ _ _ := ⟨.inl rfl, rfl⟩
  read _ _ _ := ⟨.inl rfl, rfl⟩
  store _ _ _ _ := ⟨.inl rfl, rfl⟩
  sr _ _ _ := ⟨.inl rfl, rfl⟩
  usp _ _ _ := ⟨.inl rfl, rfl⟩
  stop _ _ := ⟨.inl rfl, rfl⟩
  halt _ := ⟨.inl rfl, rfl⟩
  inactive _ := ⟨.inr rfl, rfl⟩

theorem body_controlKept (i : Instr) (s : State) : ControlKept s (leftState (bodyOf i s)) :=
  Preserves.anyBody i controlKept_closed.of_all s

theorem body_active {i : Instr} (hi : i ≠ .rte) (s : State) : (leftState (bodyOf i s)).active = s.active :=
  (Preserves.bodyExceptRte i (control_closed _) hi s).1

/-- The pending stack is kept, or gains one request that waits behind the active interrupt (60_exceptions.md R405, R414). -/
def PendingKept (s t : State) : Prop :=
  t.pending = s.pending ∨
  ∃ k aux a x, t.pending = (k, aux) :: s.pending ∧ s.pending.length ≠ s.params.pendingDepth ∧ s.active = some (a, x) ∧
    t.active = s.active ∧ priority s.params k ≤ priority s.params a

theorem PendingKept.raiseIrq (k : IrqKind) (aux : Aux) (s : State) : PendingKept s (raiseIrq k aux s) :=
  (raiseIrq_pending k aux s).imp_right fun ⟨a, x, h⟩ => ⟨k, aux, a, x, h⟩

theorem PendingKept.traceAfter (b : Bool) (s : State) : PendingKept s (traceAfter b s) := by
  cases b
  · exact .inl rfl
  · exact .raiseIrq _ _ s

/-- What is queued after an operation waits behind the interrupt that was active before it: an operation that clears the
active interrupt leaves none to wait behind. -/
theorem ControlKept.pendingKept {s u t : State} (h : ControlKept s u) (hparams : u.params = s.params) (hq : PendingKept u t) :
    PendingKept s t := by
  rcases hq with kept | ⟨k, aux, a, x, hp, room, ha, hta, hle⟩
  · exact .inl (kept.trans h.pending)
  · have active : u.active = s.active := h.active.resolve_right fun e => by rw [e] at ha; cases ha
    rw [hparams] at room hle
    exact .inr ⟨k, aux, a, x, h.pending ▸ hp, h.pending ▸ room, active ▸ ha, hta.trans active, hle⟩

/-- Only what settles an instruction's outcome queues a request. -/
theorem exec_pendingKept {i : Instr} {s t : State} (h : exec i s = .next t) : PendingKept (leftState (bodyOf i s)) t := by
  rw [exec_eq_body] at h
  rcases instruction_cases (bodyOf i) s with ⟨u, hb, e⟩ | ⟨k, aux, u, hb, e⟩ | ⟨k, u, hb, e⟩ | ⟨u, hb, e⟩ | ⟨f, u, hb, e⟩ <;>
    rw [e] at h <;> cases h <;> rw [hb]
  · exact .traceAfter _ u
  · exact .raiseIrq k aux { u with pc := u.pcStart }
  · exact .raiseIrq k _ u
  · exact .inl rfl

/-- Settles O59: the operation leaves the pending stack, and the exception that may follow queues at most its own
request; without one, the next state is what the operation left. -/
theorem statusFrame : Obligations.StatusFrame := by
  intro i s t hwf hexec
  refine ⟨(body_controlKept i s).pendingKept (body_bookkeepingKept i s).params (exec_pendingKept hexec), fun hunint => ?_⟩
  have completed : leftState (bodyOf i s) = t := by rw [uninterrupted_ok hwf hexec hunint]; rfl
  have flags := Preserves.anyBody i (flagsKept_closed i) s
  rw [completed] at flags
  refine ⟨flags.flags, fun hsr hmoveSr => ?_, fun hrte => completed ▸ body_active hrte s, fun hstop => ?_⟩
  · have noSr := writesSr_eq_false hsr hmoveSr
    exact ⟨completed ▸ body_highByte noSr s, fun hccr hmoveCcr =>
      completed ▸ body_aboveFlags noSr (writesCcr_eq_false hccr hmoveCcr) s⟩
  · have run := Preserves.anyBody i (runKept_closed hstop) s
    rw [completed] at run
    exact run.resolve_right hunint.alive

end Sys2Proof.Machine
end

section
/-! PROOFS. The shift and rotate instructions (O44). -/

namespace Sys2Proof.Machine

/-- The register form, run to its end, at a count named by the claim. -/
theorem instruction_shiftReg {mode : ShiftMode} {dir : ShiftDir} {count : ShiftCount} {sz : Size} {dn : Fin 8} {s : State} {c : Nat}
    (hc : s.shiftCount count = c) :
    let r := shiftOp sz mode dir c s.params.rotateUpdatesX (s.dreg dn) s.flags
    instruction (shiftReg mode dir count sz dn) s = .next (traceAfter (srT1 s.sr) ((s.setDreg dn sz r.1).setFlags r.2)) := by
  subst hc
  exact instruction_ok rfl

/-- A count of 0 (42_shift_rotate.md R204): the loop does not turn. -/
theorem shiftOp_zero (sz : Size) (mode : ShiftMode) (dir : ShiftDir) (b : Bool) (v : Word) (old : Flags) :
    shiftOp sz mode dir 0 b v old =
      (trunc sz v,
       { x := old.x, n := msb sz v, z := trunc sz v == 0#32, v := false, c := mode == .rotateX && old.x }) := by
  simp [shiftOp, shiftEngine, shiftLoop, shiftFlags, isZero]

/-- Settles O44: each register form is one change of its register, each memory form one change of the operand in its
place. -/
theorem shiftResults : Obligations.ShiftResults := by
  intro count sz dn ea s cnt result shifted inMemory
  have hcnt : s.shiftCount count = cnt := by
    cases count with
    | imm f => simp only [cnt, State.shiftCount, Fin.ext_iff, Fin.val_zero]
    | reg r => rfl
  refine ⟨instruction_shiftReg hcnt, instruction_shiftReg hcnt, instruction_shiftReg hcnt, instruction_shiftReg hcnt,
    instruction_shiftReg hcnt, instruction_shiftReg hcnt, instruction_shiftReg hcnt, instruction_shiftReg hcnt,
    fun _ _ _ h => instruction_modifyEa h, fun _ _ _ h => instruction_modifyEa h, fun _ _ _ h => instruction_modifyEa h,
    fun _ _ _ h => instruction_modifyEa h, fun _ _ _ h => instruction_modifyEa h, fun _ _ _ h => instruction_modifyEa h,
    fun _ _ _ h => instruction_modifyEa h, fun _ _ _ h => instruction_modifyEa h, fun hzero mode dir => ?_⟩
  simp only [result, hzero]
  exact shiftOp_zero sz mode dir _ _ _

end Sys2Proof.Machine
end

section
/-! PROOFS. The shift/rotate engine as a stream of bits: each turn puts out the next bit of the stream and takes in the
one that stands a width further on. -/

namespace Sys2Proof.Machine

theorem sizeBits_pos (sz : Size) : 0 < sizeBits sz := by cases sz <;> decide

theorem sizeBits_le (sz : Size) : sizeBits sz ≤ 32 := by cases sz <;> decide

theorem bitWord_getLsbD (b : Bool) (i : Nat) : (bitWord b).getLsbD i = (decide (i = 0) && b) := by
  cases b <;> simp [bitWord]

theorem getLsbD_of_canonical {sz : Size} {v : Word} (h : trunc sz v = v) {i : Nat} (hi : sizeBits sz ≤ i) : v.getLsbD i = false := by
  rw [← h, trunc_getLsbD, decide_eq_false hi.not_gt, Bool.false_and]

theorem canonical_of_getLsbD {sz : Size} {v : Word} (h : ∀ i, sizeBits sz ≤ i → v.getLsbD i = false) : trunc sz v = v := by
  refine BitVec.eq_of_getLsbD_eq fun i _ => ?_
  rw [trunc_getLsbD]
  rcases Nat.lt_or_ge i (sizeBits sz) with low | high
  · rw [decide_eq_true low, Bool.true_and]
  · rw [h i high, Bool.and_false]

/-! ### One turn -/

/-- Where the bit stands that leaves after `j` others: a left shift puts out the sign bit first, a right shift bit 0. -/
def outPlace (sz : Size) (dir : ShiftDir) (j : Nat) : Nat :=
  match dir with
  | .left => sizeBits sz - 1 - j
  | .right => j

def outBit (sz : Size) (dir : ShiftDir) (v : Word) (j : Nat) : Bool := v.getLsbD (outPlace sz dir j)

theorem outPlace_outPlace {sz : Size} {i : Nat} (hi : i < sizeBits sz) (dir : ShiftDir) : outPlace sz dir (outPlace sz dir i) = i := by
  cases dir with
  | left => simp only [outPlace]; omega
  | right => rfl

theorem outPlace_lt {sz : Size} {i : Nat} (hi : i < sizeBits sz) (dir : ShiftDir) : outPlace sz dir i < sizeBits sz := by
  cases dir with
  | left => simp only [outPlace]; omega
  | right => exact hi

theorem outBit_outPlace {sz : Size} {i : Nat} (hi : i < sizeBits sz) (dir : ShiftDir) (v : Word) :
    outBit sz dir v (outPlace sz dir i) = v.getLsbD i := by
  rw [outBit, outPlace_outPlace hi]

theorem eq_zero_iff_outBit {sz : Size} {v : Word} (h : trunc sz v = v) (dir : ShiftDir) :
    v = 0#32 ↔ ∀ j < sizeBits sz, outBit sz dir v j = false := by
  constructor
  · rintro rfl j _
    exact BitVec.getLsbD_zero
  · intro clear
    refine BitVec.eq_of_getLsbD_eq fun i _ => ?_
    rw [BitVec.getLsbD_zero]
    rcases Nat.lt_or_ge i (sizeBits sz) with low | high
    · rw [← outBit_outPlace low dir, clear _ (outPlace_lt low dir)]
    · exact getLsbD_of_canonical h high

/-- The bit a turn takes in at the other end (42_shift_rotate.md R202). -/
def fedBit (sz : Size) (mode : ShiftMode) (dir : ShiftDir) (s : ShiftState) : Bool :=
  match mode, dir with
  | .arith, .left => false
  | .arith, .right => msb sz s.value
  | .logical, _ => false
  | .rotate, _ => outBit sz dir s.value 0
  | .rotateX, _ => s.x

theorem shiftOnce_left_value (sz : Size) (mode : ShiftMode) (s : ShiftState) :
    (shiftOnce sz mode .left s).value = trunc sz (s.value <<< 1) ||| bitWord (fedBit sz mode .left s) := by
  cases mode with
  | arith | logical => exact (BitVec.or_zero).symm
  | rotate | rotateX => rfl

theorem shiftOnce_right_value (sz : Size) (mode : ShiftMode) (s : ShiftState) :
    (shiftOnce sz mode .right s).value = (s.value >>> 1) ||| (bitWord (fedBit sz mode .right s) <<< (sizeBits sz - 1)) := by
  cases mode <;> rfl

theorem shiftOnce_last (sz : Size) (mode : ShiftMode) (dir : ShiftDir) (s : ShiftState) :
    (shiftOnce sz mode dir s).last = outBit sz dir s.value 0 := by
  cases dir <;> rfl

theorem shiftOnce_x_of_rotateX (sz : Size) (dir : ShiftDir) (s : ShiftState) :
    (shiftOnce sz .rotateX dir s).x = outBit sz dir s.value 0 := by
  cases dir <;> rfl

theorem shiftOnce_left_getLsbD (sz : Size) (mode : ShiftMode) (s : ShiftState) (i : Nat) :
    (shiftOnce sz mode .left s).value.getLsbD i =
      (decide (i < sizeBits sz) && if i = 0 then fedBit sz mode .left s else s.value.getLsbD (i - 1)) := by
  have hn := sizeBits_pos sz
  have hle := sizeBits_le sz
  rw [shiftOnce_left_value, BitVec.getLsbD_or, trunc_getLsbD, BitVec.getLsbD_shiftLeft, bitWord_getLsbD]
  by_cases h0 : i = 0
  · simp [h0, hn]
  · by_cases hi : i < sizeBits sz
    · simp [h0, hi, show i < 32 by omega, show ¬i < 1 by omega]
    · simp [h0, hi]

theorem shiftOnce_right_getLsbD {sz : Size} {s : ShiftState} (h : trunc sz s.value = s.value) (mode : ShiftMode) (i : Nat) :
    (shiftOnce sz mode .right s).value.getLsbD i =
      if i + 1 = sizeBits sz then fedBit sz mode .right s else s.value.getLsbD (i + 1) := by
  have hn := sizeBits_pos sz
  have hle := sizeBits_le sz
  rw [shiftOnce_right_value, BitVec.getLsbD_or, BitVec.getLsbD_ushiftRight, BitVec.getLsbD_shiftLeft, bitWord_getLsbD,
    Nat.add_comm 1 i]
  by_cases htop : i + 1 = sizeBits sz
  · simp [← htop, getLsbD_of_canonical h htop.ge, show i < 32 by omega]
  · have apart : ¬(i < 32 ∧ ¬i < sizeBits sz - 1 ∧ i - (sizeBits sz - 1) = 0) := by omega
    rw [if_neg htop]
    revert apart
    cases fedBit sz mode .right s <;> simp +contextual

theorem shiftOnce_canonical {sz : Size} {s : ShiftState} (h : trunc sz s.value = s.value) (mode : ShiftMode) (dir : ShiftDir) :
    trunc sz (shiftOnce sz mode dir s).value = (shiftOnce sz mode dir s).value := by
  refine canonical_of_getLsbD fun i hi => ?_
  cases dir with
  | left => rw [shiftOnce_left_getLsbD, decide_eq_false hi.not_gt, Bool.false_and]
  | right => rw [shiftOnce_right_getLsbD h, if_neg (by omega), getLsbD_of_canonical h (by omega)]

/-- A turn moves every bit one place on towards leaving, and the bit taken in stands last. -/
theorem shiftOnce_outBit {sz : Size} {s : ShiftState} (h : trunc sz s.value = s.value) (mode : ShiftMode) (dir : ShiftDir) {j : Nat}
    (hj : j < sizeBits sz) :
    outBit sz dir (shiftOnce sz mode dir s).value j =
      if j + 1 = sizeBits sz then fedBit sz mode dir s else outBit sz dir s.value (j + 1) := by
  cases dir with
  | left =>
    have place : sizeBits sz - 1 - j = 0 ↔ j + 1 = sizeBits sz := by omega
    rw [outBit, outPlace, shiftOnce_left_getLsbD, decide_eq_true (by omega), Bool.true_and]
    exact if_congr place rfl rfl
  | right => exact shiftOnce_right_getLsbD h mode j

/-! ### The loop -/

theorem shiftLoop_succ (sz : Size) (mode : ShiftMode) (dir : ShiftDir) (k : Nat) (s : ShiftState) :
    shiftLoop sz mode dir (k + 1) s = shiftOnce sz mode dir (shiftLoop sz mode dir k s) := by
  induction k generalizing s with
  | zero => rfl
  | succ k ih => exact ih _

theorem shiftEngine_succ (sz : Size) (mode : ShiftMode) (dir : ShiftDir) (k : Nat) (x : Bool) (v : Word) :
    shiftEngine sz mode dir (k + 1) x v = shiftOnce sz mode dir (shiftEngine sz mode dir k x v) :=
  shiftLoop_succ ..

/-- The bits the turns put out, one after another: the operand's own, then what was taken in for them. -/
def outStream (sz : Size) (mode : ShiftMode) (dir : ShiftDir) (v : Word) (x : Bool) (j : Nat) : Bool :=
  match mode, dir with
  | .arith, .right => outBit sz dir v (min j (sizeBits sz - 1))
  | .arith, .left | .logical, _ => decide (j < sizeBits sz) && outBit sz dir v j
  | .rotate, _ => outBit sz dir v (j % sizeBits sz)
  | .rotateX, _ => if j % (sizeBits sz + 1) < sizeBits sz then outBit sz dir v (j % (sizeBits sz + 1)) else x

theorem outStream_of_lt {sz : Size} {j : Nat} (hj : j < sizeBits sz) (mode : ShiftMode) (dir : ShiftDir) (v : Word) (x : Bool) :
    outStream sz mode dir v x j = outBit sz dir v j := by
  cases mode with
  | arith =>
    cases dir with
    | left => simp [outStream, hj]
    | right => rw [outStream, min_eq_left (by omega)]
  | logical => simp [outStream, hj]
  | rotate => rw [outStream, Nat.mod_eq_of_lt hj]
  | rotateX => rw [outStream, Nat.mod_eq_of_lt (by omega), if_pos hj]

theorem outStream_rotate_period (sz : Size) (dir : ShiftDir) (v : Word) (x : Bool) (j : Nat) :
    outStream sz .rotate dir v x (j + sizeBits sz) = outStream sz .rotate dir v x j := by
  simp [outStream]

theorem outStream_rotateX_period (sz : Size) (dir : ShiftDir) (v : Word) (x : Bool) (j : Nat) :
    outStream sz .rotateX dir v x (j + (sizeBits sz + 1)) = outStream sz .rotateX dir v x j := by
  simp [outStream]

theorem outStream_rotateX_width (sz : Size) (dir : ShiftDir) (v : Word) (x : Bool) :
    outStream sz .rotateX dir v x (sizeBits sz) = x := by
  simp [outStream]

/-- The engine after `k` turns stands at place `k` of the stream. -/
structure AtTurn (sz : Size) (mode : ShiftMode) (dir : ShiftDir) (stream : Nat → Bool) (k : Nat) (s : ShiftState) : Prop where
  canonical : trunc sz s.value = s.value
  bits : ∀ j < sizeBits sz, outBit sz dir s.value j = stream (k + j)
  carry : mode = .rotateX → s.x = stream (k + sizeBits sz)

theorem AtTurn.next_out {sz : Size} {mode : ShiftMode} {dir : ShiftDir} {stream : Nat → Bool} {k : Nat} {s : ShiftState}
    (h : AtTurn sz mode dir stream k s) : outBit sz dir s.value 0 = stream k :=
  h.bits 0 (sizeBits_pos sz)

theorem AtTurn.getLsbD {sz : Size} {mode : ShiftMode} {dir : ShiftDir} {stream : Nat → Bool} {k : Nat} {s : ShiftState}
    (h : AtTurn sz mode dir stream k s) {i : Nat} (hi : i < sizeBits sz) :
    s.value.getLsbD i = stream (k + outPlace sz dir i) := by
  rw [← outBit_outPlace hi dir, h.bits _ (outPlace_lt hi dir)]

/-- The bit taken in is the stream's, a width further on. -/
theorem AtTurn.next_in {sz : Size} {mode : ShiftMode} {dir : ShiftDir} {v : Word} {x : Bool} {k : Nat} {s : ShiftState}
    (h : AtTurn sz mode dir (outStream sz mode dir v x) k s) :
    fedBit sz mode dir s = outStream sz mode dir v x (k + sizeBits sz) := by
  have hn := sizeBits_pos sz
  cases mode with
  | arith =>
    cases dir with
    | left => simp [fedBit, outStream]
    | right =>
      have top : msb sz s.value = outStream sz .arith .right v x (k + (sizeBits sz - 1)) := h.bits _ (by omega)
      rw [fedBit, top, outStream, outStream, min_eq_right (by omega), min_eq_right (by omega)]
  | logical => simp [fedBit, outStream]
  | rotate => rw [outStream_rotate_period]; exact h.next_out
  | rotateX => exact h.carry rfl

theorem AtTurn.succ {sz : Size} {mode : ShiftMode} {dir : ShiftDir} {v : Word} {x : Bool} {k : Nat} {s : ShiftState}
    (h : AtTurn sz mode dir (outStream sz mode dir v x) k s) :
    AtTurn sz mode dir (outStream sz mode dir v x) (k + 1) (shiftOnce sz mode dir s) where
  canonical := shiftOnce_canonical h.canonical mode dir
  bits j hj := by
    rw [shiftOnce_outBit h.canonical mode dir hj, Nat.add_assoc, Nat.add_comm 1 j]
    split
    next top => rw [top]; exact h.next_in
    next lower => exact h.bits _ (by omega)
  carry hmode := by
    subst hmode
    rw [shiftOnce_x_of_rotateX, h.next_out, Nat.add_assoc, Nat.add_comm 1, outStream_rotateX_period]

theorem shiftEngine_atTurn (sz : Size) (mode : ShiftMode) (dir : ShiftDir) (k : Nat) (x : Bool) (v : Word) :
    AtTurn sz mode dir (outStream sz mode dir (trunc sz v) x) k (shiftEngine sz mode dir k x v) := by
  induction k with
  | zero =>
    refine ⟨trunc_trunc sz v, fun j hj => ?_, fun hmode => ?_⟩
    · rw [Nat.zero_add, outStream_of_lt hj]; rfl
    · subst hmode; rw [Nat.zero_add, outStream_rotateX_width]; rfl
  | succ k ih => exact shiftEngine_succ .. ▸ ih.succ

end Sys2Proof.Machine
end

section
/-! PROOFS. The shifts as arithmetic (O26). -/

namespace Sys2Proof.Machine

/-! ### What a shift or rotate answers, in terms of the stream -/

section answer

variable (sz : Size) (mode : ShiftMode) (dir : ShiftDir) {k : Nat} (b : Bool) (v : Word) (old : Flags)

theorem shiftEngine_canonical (k : Nat) (x : Bool) :
    trunc sz (shiftEngine sz mode dir k x v).value = (shiftEngine sz mode dir k x v).value :=
  (shiftEngine_atTurn sz mode dir k x v).canonical

theorem shiftEngine_getLsbD (k : Nat) (x : Bool) (i : Nat) :
    (shiftEngine sz mode dir k x v).value.getLsbD i =
      (decide (i < sizeBits sz) && outStream sz mode dir (trunc sz v) x (k + outPlace sz dir i)) := by
  rcases Nat.lt_or_ge i (sizeBits sz) with low | high
  · rw [(shiftEngine_atTurn sz mode dir k x v).getLsbD low, decide_eq_true low, Bool.true_and]
  · rw [getLsbD_of_canonical (shiftEngine_canonical ..) high, decide_eq_false high.not_gt, Bool.false_and]

variable {sz mode dir v} in
/-- The bits of a result are those the stream brings to its places, however they are named. -/
theorem shiftEngine_getLsbD_of_stream {x : Bool} {source : Nat → Bool}
    (h : ∀ i < sizeBits sz, outStream sz mode dir (trunc sz v) x (k + outPlace sz dir i) = source i) (i : Nat) :
    (shiftEngine sz mode dir k x v).value.getLsbD i = (decide (i < sizeBits sz) && source i) := by
  rw [shiftEngine_getLsbD]
  by_cases low : i < sizeBits sz
  · rw [h i low]
  · rw [decide_eq_false low, Bool.false_and, Bool.false_and]

/-- The last bit out is the one before the place the engine stands at. -/
theorem shiftEngine_last (hk : 0 < k) (x : Bool) :
    (shiftEngine sz mode dir k x v).last = outStream sz mode dir (trunc sz v) x (k - 1) := by
  obtain ⟨k, rfl⟩ := Nat.exists_eq_add_of_lt hk
  rw [Nat.zero_add, shiftEngine_succ, shiftOnce_last]
  exact (shiftEngine_atTurn sz mode dir k x v).next_out

/-- The flags after a count that is not 0 (42_shift_rotate.md R203, R205). -/
theorem shiftOp_flags (hk : 0 < k) :
    let r := (shiftOp sz mode dir k b v old).1
    let out := outStream sz mode dir (trunc sz v) old.x (k - 1)
    (shiftOp sz mode dir k b v old).2 =
      { x := if mode = .rotate ∧ b = false then old.x else out, n := msb sz r, z := r == 0#32,
        v := mode == .arith && (shiftEngine sz mode dir k old.x v).vflag, c := out } := by
  intro r out
  have last : (shiftEngine sz mode dir k old.x v).last = out := shiftEngine_last sz mode dir v hk old.x
  have zero : isZero sz r = (r == 0#32) := congrArg (· == 0#32) (shiftEngine_canonical ..)
  simp only [shiftOp, shiftFlags, hk.ne', if_false, last, Flags.mk.injEq, and_true]
  refine ⟨?_, rfl, zero⟩
  cases mode <;> cases b <;> rfl

end answer

/-! ### Numbers of a size -/

theorem signedAt_range (sz : Size) (v : Word) : -(signWeight sz : Int) ≤ signedAt sz v ∧ signedAt sz v < signWeight sz := by
  have bound := trunc_toNat_lt sz v
  rw [signedAt_eq_ite]
  split <;> omega

theorem signedAt_modEq (sz : Size) (v : Word) : signedAt sz v ≡ (trunc sz v).toNat [ZMOD 2 * signWeight sz] := by
  rw [signedAt_eq_ite]
  split
  · exact Int.sub_modulus_modEq_iff.mpr rfl
  · rfl

theorem signedAt_eq_toInt (sz : Size) (v : Word) : signedAt sz v = (v.setWidth (sizeBits sz)).toInt := by
  have low : sizeBits sz - 1 < sizeBits sz := Nat.sub_lt (sizeBits_pos sz) Nat.one_pos
  have sign : (v.setWidth (sizeBits sz)).msb = msb sz v := by
    rw [BitVec.msb_eq_getLsbD_last, BitVec.getLsbD_setWidth, decide_eq_true low, Bool.true_and, msb]
  rw [BitVec.toInt_eq_msb_cond, sign, BitVec.toNat_setWidth, ← trunc_toNat, Nat.cast_pow]
  rfl

/-! ### Shifts to the left -/

section left

variable (sz : Size) (k : Nat) (x : Bool) (v : Word)

theorem shiftEngine_left_value : (shiftEngine sz .logical .left k x v).value = trunc sz (trunc sz v <<< k) := by
  have hle := sizeBits_le sz
  refine BitVec.eq_of_getLsbD_eq fun i _ => ?_
  rw [trunc_getLsbD]
  refine shiftEngine_getLsbD_of_stream (source := (trunc sz v <<< k).getLsbD) (fun i low => ?_) i
  rw [BitVec.getLsbD_shiftLeft, decide_eq_true (low.trans_le hle), outStream, outBit, outPlace, outPlace]
  by_cases moved : i < k
  · rw [decide_eq_false (by omega), decide_eq_true moved]; rfl
  · have place : sizeBits sz - 1 - (k + (sizeBits sz - 1 - i)) = i - k := by omega
    rw [decide_eq_true (by omega), decide_eq_false moved, place]; rfl

/-- ASL moves the bits as LSL does: the two streams are one. -/
theorem shiftEngine_arith_left_value :
    (shiftEngine sz .arith .left k x v).value = (shiftEngine sz .logical .left k x v).value :=
  BitVec.eq_of_getLsbD_eq fun i _ => by rw [shiftEngine_getLsbD, shiftEngine_getLsbD]; rfl

theorem shiftEngine_left_toNat :
    (shiftEngine sz .logical .left k x v).value.toNat = (trunc sz v).toNat * 2 ^ k % 2 ^ sizeBits sz := by
  rw [shiftEngine_left_value, trunc_toNat, BitVec.toNat_shiftLeft, Nat.shiftLeft_eq,
    Nat.mod_mod_of_dvd _ (Nat.pow_dvd_pow 2 (sizeBits_le sz))]

/-- The signed result differs from the signed product by whole turns of the width. -/
theorem shiftEngine_left_modEq :
    signedAt sz (shiftEngine sz .arith .left k x v).value ≡ signedAt sz v * 2 ^ k [ZMOD 2 * signWeight sz] := by
  have turns : ((trunc sz v).toNat * 2 ^ k % (2 * signWeight sz) : Nat) ≡ (trunc sz v).toNat * 2 ^ k [ZMOD 2 * signWeight sz] := by
    push_cast
    exact Int.mod_modEq ..
  calc signedAt sz (shiftEngine sz .arith .left k x v).value
      ≡ (shiftEngine sz .arith .left k x v).value.toNat [ZMOD 2 * signWeight sz] := by
        conv => rhs; rw [← shiftEngine_canonical]
        exact signedAt_modEq ..
    _ ≡ (trunc sz v).toNat * 2 ^ k [ZMOD 2 * signWeight sz] := by
        rw [shiftEngine_arith_left_value, shiftEngine_left_toNat, two_pow_sizeBits]
        exact turns
    _ ≡ signedAt sz v * 2 ^ k [ZMOD 2 * signWeight sz] := (signedAt_modEq sz v).symm.mul_right _

/-- Doubling keeps the sign exactly when the double fits, and a number whose double fits is determined by its class. -/
theorem overflow_double {W a c p : Int} (hW : W = 2 ^ 7 ∨ W = 2 ^ 15 ∨ W = 2 ^ 31) (ha : -W ≤ a ∧ a < W) (hc : -W ≤ c ∧ c < W)
    (hap : a ≡ p [ZMOD 2 * W]) (hcp : c ≡ 2 * p [ZMOD 2 * W]) :
    c ≠ 2 * p ↔ a ≠ p ∨ (decide (c < 0) != decide (a < 0)) = true := by
  simp only [Int.ModEq, bne_iff_ne, ne_eq, decide_eq_decide] at *
  rcases hW with rfl | rfl | rfl <;> omega

/-- ASL's V (42_shift_rotate.md R206): the sign changed at some turn exactly when the product does not fit. -/
theorem shiftEngine_left_vflag :
    (shiftEngine sz .arith .left k x v).vflag =
      decide (signedAt sz (shiftEngine sz .arith .left k x v).value ≠ signedAt sz v * 2 ^ k) := by
  induction k with
  | zero => simp [shiftEngine, shiftLoop, signedAt_trunc]
  | succ k ih =>
    have before := shiftEngine_left_modEq sz k x v
    have after := shiftEngine_left_modEq sz (k + 1) x v
    have double : signedAt sz v * 2 ^ (k + 1) = 2 * (signedAt sz v * 2 ^ k) := by ring
    have turn : (shiftEngine sz .arith .left (k + 1) x v).vflag =
        ((shiftEngine sz .arith .left k x v).vflag ||
          (msb sz (shiftEngine sz .arith .left (k + 1) x v).value != msb sz (shiftEngine sz .arith .left k x v).value)) := by
      rw [shiftEngine_succ]; rfl
    rw [double] at after
    rw [turn, ih, double, msb_eq_decide_neg, msb_eq_decide_neg, Bool.eq_iff_iff, Bool.or_eq_true, decide_eq_true_eq,
      decide_eq_true_eq]
    refine (overflow_double ?_ (signedAt_range ..) (signedAt_range ..) before after).symm
    cases sz <;> simp [signWeight, sizeBits, sizeBytes]

end left

/-! ### Shifts to the right -/

section right

variable (sz : Size) (k : Nat) (x : Bool) (v : Word)

theorem shiftEngine_right_value : (shiftEngine sz .logical .right k x v).value = trunc sz v >>> k := by
  refine BitVec.eq_of_getLsbD_eq fun i _ => ?_
  rw [shiftEngine_getLsbD, BitVec.getLsbD_ushiftRight, outStream, outBit, outPlace, outPlace]
  by_cases inside : k + i < sizeBits sz
  · rw [decide_eq_true inside, decide_eq_true (by omega)]; rfl
  · rw [decide_eq_false inside, getLsbD_of_canonical (trunc_trunc sz v) (by omega), Bool.false_and, Bool.and_false]

theorem shiftEngine_arith_right_setWidth :
    (shiftEngine sz .arith .right k x v).value.setWidth (sizeBits sz) = (v.setWidth (sizeBits sz)).sshiftRight k := by
  refine BitVec.eq_of_getLsbD_eq fun i hi => ?_
  rw [BitVec.getLsbD_setWidth, shiftEngine_getLsbD, BitVec.getLsbD_sshiftRight, outStream, outBit, outPlace, outPlace,
    BitVec.msb_eq_getLsbD_last, decide_eq_true hi, decide_eq_false hi.not_ge, trunc_getLsbD, BitVec.getLsbD_setWidth,
    BitVec.getLsbD_setWidth]
  by_cases inside : k + i < sizeBits sz
  · rw [min_eq_left (by omega), if_pos inside]; rfl
  · rw [min_eq_right (by omega), if_neg inside]; rfl

/-- ASR divides rounding down. -/
theorem shiftEngine_arith_right_signedAt : signedAt sz (shiftEngine sz .arith .right k x v).value = signedAt sz v / 2 ^ k := by
  rw [signedAt_eq_toInt, shiftEngine_arith_right_setWidth, BitVec.toInt_sshiftRight, Int.shiftRight_eq_div_pow, Nat.cast_pow,
    ← signedAt_eq_toInt]
  rfl

/-- The sign bit of a result shifted right is the last place of the stream's window. -/
theorem msb_shiftEngine_right (mode : ShiftMode) :
    msb sz (shiftEngine sz mode .right k x v).value = outStream sz mode .right (trunc sz v) x (k + (sizeBits sz - 1)) :=
  (shiftEngine_atTurn sz mode .right k x v).getLsbD (Nat.sub_lt (sizeBits_pos sz) Nat.one_pos)

/-- Only a left shift can change the sign bit and set V. -/
theorem shiftEngine_right_vflag (mode : ShiftMode) : (shiftEngine sz mode .right k x v).vflag = false := by
  induction k with
  | zero => rfl
  | succ k ih => rw [shiftEngine_succ]; exact ih

end right

/-- Settles O26: the values and V are those of the engine, and the last bit out is read off the stream. -/
theorem shiftsAreArithmetic : Obligations.ShiftsAreArithmetic := by
  intro sz v k b old hk _ n w lost left aleft right aright
  have hn : 0 < n := sizeBits_pos sz
  have outLeft : outStream sz .logical .left w old.x (k - 1) = lost := by
    rw [outStream, outBit, outPlace, Nat.sub_sub, Nat.add_sub_cancel' hk]
    exact congrArg (· && w.getLsbD (n - k)) (decide_eq_decide.mpr (by omega))
  have outRight : outStream sz .logical .right w old.x (k - 1) = w.getLsbD (k - 1) := by
    rw [outStream, outBit, outPlace, ← trunc_getLsbD, trunc_trunc]
  have outArith : outStream sz .arith .right w old.x (k - 1) = w.getLsbD (min k n - 1) := by
    rw [outStream, outBit, outPlace, Nat.sub_min_sub_right]
  have positive : msb sz right.1 = false := by
    refine (msb_shiftEngine_right sz k old.x v .logical).trans ?_
    rw [outStream, decide_eq_false (by omega), Bool.false_and]
  have signKept : msb sz aright.1 = msb sz v := by
    refine (msb_shiftEngine_right sz k old.x v .arith).trans ?_
    rw [outStream, min_eq_right (by omega)]
    exact msb_trunc sz v
  have product : (shiftEngine sz .arith .left k old.x v).vflag = decide (signedAt sz aleft.1 ≠ signedAt sz v * 2 ^ k) :=
    shiftEngine_left_vflag ..
  have value : aleft.1 = left.1 := shiftEngine_arith_left_value ..
  have leftFlags : left.2 = { x := lost, n := msb sz left.1, z := left.1 == 0#32, v := false, c := lost } :=
    outLeft ▸ shiftOp_flags sz .logical .left b v old hk
  refine ⟨shiftEngine_left_toNat .., leftFlags, value, ?_, ?_, ?_, shiftEngine_arith_right_signedAt .., shiftEngine_canonical .., ?_⟩
  · rw [leftFlags, ← product, ← value, ← outLeft]
    exact shiftOp_flags sz .arith .left b v old hk
  · rw [← Nat.shiftRight_eq_div_pow, ← BitVec.toNat_ushiftRight]
    exact congrArg _ (shiftEngine_right_value ..)
  · refine (shiftOp_flags sz .logical .right b v old hk).trans ?_
    rw [positive, outRight]
    rfl
  · refine (shiftOp_flags sz .arith .right b v old hk).trans ?_
    rw [signKept, outArith, shiftEngine_right_vflag]
    rfl

end Sys2Proof.Machine
end

section
/-! PROOFS. The rotates as permutations of bits (O27). -/

namespace Sys2Proof.Machine

/-! ### ROL and ROR -/

section rotate

variable (sz : Size) (dir : ShiftDir) {k : Nat} (x : Bool) (v : Word)

theorem outStream_rotate_left {m i : Nat} (h : m + i + 1 = k + sizeBits sz) (hi : i < sizeBits sz) :
    outStream sz .rotate .left v x m = v.getLsbD ((i + sizeBits sz - k % sizeBits sz) % sizeBits sz) := by
  have place : sizeBits sz - 1 - m % sizeBits sz = (i + sizeBits sz - k % sizeBits sz) % sizeBits sz := by
    cases sz <;> simp only [sizeBits, sizeBytes] at * <;> omega
  exact congrArg v.getLsbD place

/-- The last bit out is the one that now stands where bits come in. -/
theorem outStream_rotate_last (hk : 0 < k) :
    outStream sz .rotate dir v x (k - 1) = outStream sz .rotate dir v x (k + (sizeBits sz - 1)) := by
  have hn := sizeBits_pos sz
  rw [← outStream_rotate_period]
  congr 1
  omega

/-- A rotate moves every bit to a place of its own, so it gives 0 of 0 alone. -/
theorem shiftEngine_rotate_eq_zero_iff (k : Nat) : (shiftEngine sz .rotate dir k x v).value = 0#32 ↔ trunc sz v = 0#32 := by
  have hn := sizeBits_pos sz
  have turn := shiftEngine_atTurn sz .rotate dir k x v
  rw [eq_zero_iff_outBit turn.canonical dir, eq_zero_iff_outBit (trunc_trunc sz v) dir]
  constructor
  · intro clear j hj
    have back : (k + (j + k * (sizeBits sz - 1)) % sizeBits sz) % sizeBits sz = j := by
      rw [Nat.add_mod_mod, show k + (j + k * (sizeBits sz - 1)) = j + k * (sizeBits sz - 1 + 1) by ring,
        Nat.sub_add_cancel hn, Nat.add_mul_mod_self_right, Nat.mod_eq_of_lt hj]
    have moved := turn.bits _ (Nat.mod_lt (j + k * (sizeBits sz - 1)) hn)
    rwa [clear _ (Nat.mod_lt _ hn), outStream, back, eq_comm] at moved
  · intro clear j hj
    rw [turn.bits j hj, outStream]
    exact clear _ (Nat.mod_lt _ hn)

/-- The flags of ROL and ROR: the last bit out is the one that came in last (42_shift_rotate.md R205, R210, R211). -/
theorem shiftOp_rotate_flags (hk : 0 < k) (b : Bool) (old : Flags) :
    let r := (shiftOp sz .rotate dir k b v old).1
    let out := outBit sz dir r (sizeBits sz - 1)
    (shiftOp sz .rotate dir k b v old).2 =
      { x := if b then out else old.x, n := msb sz r, z := trunc sz v == 0#32, v := false, c := out } := by
  intro r out
  have last : outStream sz .rotate dir (trunc sz v) old.x (k - 1) = out := by
    rw [outStream_rotate_last sz dir old.x _ hk]
    exact ((shiftEngine_atTurn sz .rotate dir k old.x v).bits _ (Nat.sub_lt (sizeBits_pos sz) Nat.one_pos)).symm
  have zero : (r == 0#32) = (trunc sz v == 0#32) := by
    rw [beq_eq_decide, beq_eq_decide, decide_eq_decide]
    exact shiftEngine_rotate_eq_zero_iff sz dir old.x v k
  refine (shiftOp_flags sz .rotate dir b v old hk).trans ?_
  rw [last, zero]
  cases b <;> rfl

end rotate

/-! ### ROXL and ROXR -/

/-- The ring of one place more than the width that ROXL and ROXR turn, X above the operand (42_shift_rotate.md R212, R213). -/
def ringBit (sz : Size) (v : Word) (x : Bool) (i : Nat) : Bool := if i < sizeBits sz then v.getLsbD i else x

section rotateX

variable (sz : Size) {k : Nat} (x : Bool) (v : Word)

theorem outStream_rotateX_right (m : Nat) : outStream sz .rotateX .right v x m = ringBit sz v x (m % (sizeBits sz + 1)) := rfl

theorem outStream_rotateX_left {m i : Nat} (h : m + i + 1 = k + sizeBits sz) (hi : i ≤ sizeBits sz) :
    outStream sz .rotateX .left v x m =
      ringBit sz v x ((i + (sizeBits sz + 1) - k % (sizeBits sz + 1)) % (sizeBits sz + 1)) := by
  have hn := sizeBits_pos sz
  generalize hp : (i + (sizeBits sz + 1) - k % (sizeBits sz + 1)) % (sizeBits sz + 1) = p
  generalize hq : m % (sizeBits sz + 1) = q
  have place : q < sizeBits sz ∧ p = sizeBits sz - 1 - q ∨ q = sizeBits sz ∧ p = sizeBits sz := by
    cases sz <;> simp only [sizeBits, sizeBytes] at * <;> omega
  rw [outStream, hq, ringBit, outBit, outPlace]
  rcases place with ⟨low, rfl⟩ | ⟨rfl, rfl⟩
  · rw [if_pos low, if_pos (by omega)]
  · rw [if_neg (lt_irrefl _), if_neg (lt_irrefl _)]

/-- One turn of the ring brings every bit back (42_shift_rotate.md R212, R213). -/
theorem shiftOp_rotateX_turn (dir : ShiftDir) (b : Bool) (old : Flags) :
    (shiftOp sz .rotateX dir (sizeBits sz + 1) b v old).1 = trunc sz v ∧
    (shiftOp sz .rotateX dir (sizeBits sz + 1) b v old).2.x = old.x := by
  constructor
  · refine BitVec.eq_of_getLsbD_eq fun i _ => ?_
    rw [← trunc_trunc sz v, trunc_getLsbD sz (trunc sz v)]
    refine shiftEngine_getLsbD_of_stream (fun i low => ?_) i
    rw [Nat.add_comm, outStream_rotateX_period, outStream_of_lt (outPlace_lt low dir), outBit_outPlace low]
  · rw [shiftOp_flags sz .rotateX dir b v old (Nat.succ_pos _)]
    exact outStream_rotateX_width ..

end rotateX

/-- Settles O27: each result bit is a place of the stream, and each stream repeats: after the width, or after the ring. -/
theorem rotatesMoveBits : Obligations.RotatesMoveBits := by
  intro sz v k b old hk _ n w rol ror
  have hn : 0 < n := sizeBits_pos sz
  refine ⟨fun i => ?_, fun i => ?_, ?_, shiftOp_rotate_flags sz .right v hk b old, ?_, ?_⟩
  · exact shiftEngine_getLsbD_of_stream
      (fun i low => outStream_rotate_left sz old.x w (by simp only [outPlace]; omega) low) i
  · rw [Nat.add_comm]
    exact shiftEngine_getLsbD ..
  · refine (shiftOp_rotate_flags sz .left v hk b old).trans ?_
    rw [outBit, outPlace, Nat.sub_self]
  · intro ring roxl roxr outLeft outRight
    have lastLeft : outStream sz .rotateX .left w old.x (k - 1) = outLeft :=
      outStream_rotateX_left sz old.x w (by omega) le_rfl
    have lastRight : outStream sz .rotateX .right w old.x (k - 1) = outRight := by
      rw [← outStream_rotateX_period, outStream_rotateX_right, show k - 1 + (n + 1) = n + k by omega]
      rfl
    refine ⟨fun i => ?_, fun i => ?_, ?_, ?_⟩
    · exact shiftEngine_getLsbD_of_stream
        (fun i low => outStream_rotateX_left sz old.x w (by simp only [outPlace]; omega) low.le) i
    · rw [Nat.add_comm]
      exact shiftEngine_getLsbD ..
    · rw [← lastLeft]
      exact shiftOp_flags sz .rotateX .left b v old hk
    · rw [← lastRight]
      exact shiftOp_flags sz .rotateX .right b v old hk
  · obtain ⟨valueLeft, xLeft⟩ := shiftOp_rotateX_turn sz v .left b old
    exact ⟨valueLeft, xLeft, shiftOp_rotateX_turn sz v .right b old⟩

end Sys2Proof.Machine
end

section
/-! PROOFS. MOVE and MOVEA (O29). -/

namespace Sys2Proof.Machine

variable {src dst : EA} {sz : Size} {an : Fin 8} {s t u : State} {v : Word}

/-- The source is read in the first state, the destination resolved in the state that read leaves. -/
theorem moveBody_ok (hsrc : Reads src sz s v u) (hdst : Writes dst sz u v t) :
    moveBody sz src dst s = .ok () (t.setFlags (logicFlags sz v t.flags)) := by
  rw [moveBody, bind_ok hsrc.readEa, bind_ok hdst.writeEa]
  rfl

theorem moveaBody_ok (h : Reads src sz s v u) : moveaBody sz an src s = .ok () (u.setAreg an (addrOperand sz v)) := by
  rw [moveaBody, bind_ok h.readEa]
  rfl

/-- An instruction that begins by reading an operand faults where the read does. -/
theorem exec_readEa_fault {i : Instr} {f : Word → M Unit} (hi : bodyOf i = readEa src sz >>= f) {loc : Loc} {k : IrqKind} {aux : Aux}
    (hloc : resolve src sz true s = .ok loc u) (hread : readLoc loc sz u = .error (.fault k aux) t) :
    exec i s = .next (raiseIrq k aux { t with pc := t.pcStart }) := by
  rw [exec_eq_body, hi]
  exact instruction_fault (bind_error (readEa_error hloc hread))

theorem exec_move_writeLoc_fault {i : Instr} (hi : bodyOf i = moveBody sz src dst) {loc : Loc} {r : State} {k : IrqKind} {aux : Aux}
    (hsrc : Reads src sz s v u) (hloc : resolve dst sz true u = .ok loc r) (hwrite : writeLoc loc sz v r = .error (.fault k aux) t) :
    exec i s = .next (raiseIrq k aux { t with pc := t.pcStart }) := by
  have fault : moveBody sz src dst s = .error (.fault k aux) t := by
    rw [moveBody, bind_ok hsrc.readEa]
    exact bind_error (writeEa_error hloc hwrite)
  rw [exec_eq_body, hi]
  exact instruction_fault fault

/-- Settles O29: an instruction that completes leaves what its two operands leave, and a faulting access adds nothing to what
resolving the operands left. -/
theorem moveResults : Obligations.MoveResults := by
  intro src dst an s u t v
  refine ⟨fun hsrc hdst => instruction_ok (moveBody_ok hsrc hdst), fun hsrc hdst => instruction_ok (moveBody_ok hsrc hdst),
    fun hsrc hdst => instruction_ok (moveBody_ok hsrc hdst), fun h => instruction_ok (moveaBody_ok h),
    fun h => instruction_ok (moveaBody_ok h), fun i sz listed loc r k aux w hloc hread => ?_,
    fun i sz listed loc r k aux w hsrc hloc hwrite => ?_⟩
  · have reads : ∃ f, bodyOf i = readEa src sz >>= f := by
      simp only [List.mem_cons, Prod.mk.injEq, List.not_mem_nil, or_false] at listed
      rcases listed with ⟨rfl, rfl⟩ | ⟨rfl, rfl⟩ | ⟨rfl, rfl⟩ | ⟨rfl, rfl⟩ | ⟨rfl, rfl⟩ <;> exact ⟨_, rfl⟩
    obtain ⟨f, hi⟩ := reads
    obtain ⟨hsr, hd, hmem⟩ := resolve_keeps hloc
    obtain rfl := readLoc_fault hread
    exact ⟨rfl, hsr, hd, hmem, exec_readEa_fault hi hloc hread⟩
  · have moves : bodyOf i = moveBody sz src dst := by
      simp only [List.mem_cons, Prod.mk.injEq, List.not_mem_nil, or_false] at listed
      rcases listed with ⟨rfl, rfl⟩ | ⟨rfl, rfl⟩ | ⟨rfl, rfl⟩ <;> rfl
    obtain ⟨hsr, hd, hmem⟩ := resolve_keeps hloc
    obtain ⟨hsr', hd', hmem'⟩ := hsrc.keeps
    obtain rfl := writeLoc_fault hwrite
    exact ⟨rfl, hsr.trans hsr', hd.trans hd', hmem.trans hmem', exec_move_writeLoc_fault moves hsrc hloc hwrite⟩

end Sys2Proof.Machine
end

section
/-! PROOFS. MOVEQ, SWAP, EXT and EXG (O30). -/

namespace Sys2Proof.Machine

/-- A byte sign-extended to a word is the low word of the byte sign-extended to a long (44_integer_arithmetic.md R270). -/
theorem extByte_eq_signExtend (v : Word) : extByte v = ((v.setWidth 8).signExtend 16).setWidth 32 := by
  rw [extByte, trunc_word_eq, sext8]
  congr 1
  refine BitVec.eq_of_getLsbD_eq fun i hi => ?_
  rw [BitVec.getLsbD_setWidth, BitVec.getLsbD_signExtend, BitVec.getLsbD_signExtend]
  simp [hi, Nat.lt_of_lt_of_le hi]

/-- Settles O30: the meaning of each form is one update of the registers; EXT.W's is the one that extends by two steps. -/
theorem registerMoves : Obligations.RegisterMoves := by
  intro s rx ry d8 x moved swapped extended extendedLong
  have low : extended = extByte x := (extByte_eq_signExtend x).symm
  rw [low]
  exact ⟨rfl, rfl, rfl, rfl, rfl, rfl, rfl⟩

end Sys2Proof.Machine
end

section
/-! PROOFS. MOVEM to memory (O31). -/

namespace Sys2Proof.Machine

/-! ### The bytes of an access -/

theorem readMem_congr {m m' : Memory} {a : Word} {sz : Size} (h : ∀ x ∈ coveredBy a sz, peek m x = peek m' x) :
    readMem m a sz = readMem m' a sz := by
  cases sz <;> simp_all [readMem, valueAt, coveredBy]

theorem mem_coveredBy_iff (x a : Word) (sz : Size) : x ∈ coveredBy a sz ↔ (x - a).toNat < sizeBytes sz := by
  cases sz <;> simp only [coveredBy, List.mem_cons, List.not_mem_nil, or_false, sizeBytes] <;> bv_omega

/-! ### The places of MOVEM -/

/-- The `j`-th place above an address (43_data_movement.md R223). -/
def movemPlace (sz : Size) (a : Word) (j : Nat) : Word := a + BitVec.ofNat 32 (j * sizeBytes sz)

@[simp] theorem movemPlace_zero (sz : Size) (a : Word) : movemPlace sz a 0 = a := by simp [movemPlace]

theorem movemPlace_succ (sz : Size) (a : Word) (j : Nat) : movemPlace sz a (j + 1) = movemPlace sz a j + sizeWord sz := by
  rw [movemPlace, movemPlace, Nat.succ_mul, BitVec.ofNat_add, ← BitVec.add_assoc, sizeWord]

theorem movemPlace_add_sizeWord (sz : Size) (a : Word) (j : Nat) : movemPlace sz (a + sizeWord sz) j = movemPlace sz a (j + 1) := by
  rw [movemPlace_succ, movemPlace, movemPlace]
  exact add_right_comm ..

/-- Two of MOVEM's places share no byte: there are at most 16, and the address space does not wrap within them. -/
theorem movemPlace_apart {sz : Size} {a x : Word} {i j : Nat} (hij : i ≠ j) (hi : i < 16) (hj : j < 16)
    (hx : x ∈ coveredBy (movemPlace sz a i) sz) : x ∉ coveredBy (movemPlace sz a j) sz := by
  rw [mem_coveredBy_iff] at hx ⊢
  cases sz <;> simp only [movemPlace, sizeBytes] at hx ⊢ <;> bv_omega

theorem length_maskBits_le (m : Half) : (maskBits m).length ≤ 16 :=
  (List.length_filter_le _ _).trans_eq List.length_finRange

/-! ### Registers stored at places apart -/

/-- The values of registers stand at their places, and the bytes of no place are as they were. -/
structure StoredAt (sz : Size) (place : Nat → Word) (value : Fin 16 → Word) (ks : List (Fin 16)) (old new : Memory) : Prop where
  held : ∀ j (h : j < ks.length), readMem new (place j) sz = trunc sz (value ks[j])
  kept : ∀ b, (∀ j, j < ks.length → b ∉ coveredBy (place j) sz) → peek new b = peek old b

variable {sz : Size} {place : Nat → Word} {value : Fin 16 → Word}

theorem StoredAt.nil (m : Memory) : StoredAt sz place value [] m m where
  held _ h := absurd h (Nat.not_lt_zero _)
  kept _ _ := rfl

/-- A register stored first stands if no later place shares a byte with its own. -/
theorem StoredAt.cons {k : Fin 16} {ks : List (Fin 16)} {old new : Memory} (hold : old.wf = true)
    (apart : ∀ j, j < ks.length → ∀ x ∈ coveredBy (place 0) sz, x ∉ coveredBy (place (j + 1)) sz)
    (rest : StoredAt sz (fun j => place (j + 1)) value ks (writeMem old (place 0) sz (trunc sz (value k))) new) :
    StoredAt sz place value (k :: ks) old new where
  held
    | 0, _ => by
      rw [readMem_congr fun x hx => rest.kept x fun j hj => apart j hj x hx, readMem_writeMem_same old hold, trunc_trunc]
      rfl
    | j + 1, h => rest.held j (Nat.lt_of_succ_lt_succ h)
  kept b hb := by
    rw [rest.kept b fun j hj => hb (j + 1) (Nat.succ_lt_succ hj), peek_writeMem_outside _ _ _ _ _ (hb 0 (Nat.succ_pos _))]

/-! ### The two orders of the transfers -/

theorem regOf_with_mem (s : State) (m : Memory) : State.regOf { s with mem := m } = s.regOf := rfl

/-- The transfers from an address upwards (R224). -/
theorem movemStoreUp_stored (ks : List (Fin 16)) {s : State} {a : Word} (hwf : Memory.wf s.mem = true) (hlen : ks.length ≤ 16)
    (writable : ∀ j, j < ks.length → s.writable (movemPlace sz a j) sz) :
    ∃ mem', movemStoreUp sz ks a s = .ok (movemPlace sz a ks.length) { s with mem := mem' } ∧
      StoredAt sz (movemPlace sz a) s.regOf ks s.mem mem' := by
  induction ks generalizing s a with
  | nil => exact ⟨s.mem, by rw [List.length_nil, movemPlace_zero]; rfl, .nil _⟩
  | cons k rest ih =>
    rw [List.length_cons] at hlen writable
    have here : s.writable a sz := by simpa using writable 0 (Nat.succ_pos _)
    have later : ∀ j, j < rest.length → s.writable (movemPlace sz (a + sizeWord sz) j) sz := fun j hj => by
      rw [movemPlace_add_sizeWord]
      exact writable (j + 1) (Nat.succ_lt_succ hj)
    obtain ⟨mem', run, stored⟩ := ih (s := { s with mem := writeMem s.mem a sz (trunc sz (s.regOf k)) })
      (wf_writeMem _ hwf _ _ _) (by omega) later
    refine ⟨mem', ?_, .cons hwf (fun j hj x => ?_) ?_⟩
    · rw [movemStoreUp, getState_bind, bind_ok (memWrite_writable here), run, movemPlace_add_sizeWord, List.length_cons]
    · exact movemPlace_apart (by omega) (by omega) (by omega)
    · simpa only [regOf_with_mem, ← movemPlace_add_sizeWord, movemPlace_zero] using stored

/-- The transfers downwards to an address: mask bit `k` stands for the register `15 - k` (R223, R224). -/
theorem movemStoreDown_stored (ks : List (Fin 16)) {s : State} (low : Word) (hwf : Memory.wf s.mem = true) (hlen : ks.length ≤ 16)
    (writable : ∀ j, j < ks.length → s.writable (movemPlace sz low j) sz) :
    ∃ mem', movemStoreDown sz ks (movemPlace sz low ks.length) s = .ok low { s with mem := mem' } ∧
      StoredAt sz (fun j => movemPlace sz low (ks.length - 1 - j)) (fun k => s.regOf k.rev) ks s.mem mem' := by
  induction ks generalizing s with
  | nil => exact ⟨s.mem, by rw [List.length_nil, movemPlace_zero]; rfl, .nil _⟩
  | cons k rest ih =>
    rw [List.length_cons] at hlen writable
    have here := writable rest.length (Nat.lt_succ_self _)
    have back : movemPlace sz low (rest.length + 1) - sizeWord sz = movemPlace sz low rest.length := by
      rw [movemPlace_succ, BitVec.add_sub_cancel]
    obtain ⟨mem', run, stored⟩ :=
      ih (s := { s with mem := writeMem s.mem (movemPlace sz low rest.length) sz (trunc sz (s.regOf k.rev)) })
        (wf_writeMem _ hwf _ _ _) (by omega) fun j hj => writable j (Nat.lt_succ_of_lt hj)
    refine ⟨mem', ?_, .cons hwf (fun j hj x => ?_) ?_⟩
    · rw [movemStoreDown, getState_bind, List.length_cons, back, bind_ok (memWrite_writable here), run]
    · rw [List.length_cons]
      exact movemPlace_apart (by omega) (by omega) (by omega)
    · simpa [regOf_with_mem, Nat.sub_sub, Nat.add_comm] using stored

/-! ### The instruction -/

variable {s u v : State} {m : Half} {ea : EA} {a : Word} {sp : Space}

/-- Every mode but `-(An)` stores upwards from the address it resolves to. -/
theorem movemToMemBody_up (hm : fetchWord s = .ok m u) (hea : ∀ n, ea ≠ .preDec n) (hloc : resolve ea sz false u = .ok (.mem a sp) v)
    {b : Word} {t : State} (run : movemStoreUp sz (maskBits m) a v = .ok b t) : movemToMemBody sz ea s = .ok () t := by
  have up : movemToMemBody sz ea s = (do let _ ← movemStoreUp sz (maskBits m) a; pure () : M Unit) v := by
    rw [movemToMemBody, bind_ok hm]
    cases ea
    case preDec n => exact absurd rfl (hea n)
    all_goals exact bind_ok hloc
  rw [up, bind_ok run]
  rfl

theorem movemToMemBody_down {n : Fin 8} (hm : fetchWord s = .ok m u) {low : Word} {t : State}
    (run : movemStoreDown sz (maskBits m) (u.areg n) u = .ok low t) : movemToMemBody sz (.preDec n) s = .ok () (t.setAreg n low) := by
  rw [movemToMemBody, bind_ok hm]
  exact bind_ok run

/-- Settles O31: the transfers of either order store at places apart. -/
theorem movemStores : Obligations.MovemStores := by
  intro s u m sz hm hwf count place
  refine ⟨fun ea a sp v hea hloc writable => ?_, fun n => ?_⟩
  · have hwf' : Memory.wf v.mem = true := by
      obtain ⟨_, _, hmem⟩ := resolve_keeps hloc
      rw [hmem]
      exact hwf
    obtain ⟨mem', run, stored⟩ := movemStoreUp_stored (maskBits m) hwf' (length_maskBits_le m) writable
    exact ⟨mem', instruction_ok (movemToMemBody_up hm hea hloc run), stored.held, stored.kept⟩
  · intro low writable
    obtain ⟨mem', run, stored⟩ := movemStoreDown_stored (maskBits m) low hwf (length_maskBits_le m) writable
    have start : movemPlace sz low (maskBits m).length = u.areg n := BitVec.sub_add_cancel ..
    rw [start] at run
    refine ⟨mem', instruction_ok (movemToMemBody_down hm run), stored.held, fun b hb => stored.kept b fun j _ => ?_⟩
    exact hb (count - 1 - j) (by omega)

end Sys2Proof.Machine
end

section
/-! PROOFS. MOVEM to registers (O32). -/

namespace Sys2Proof.Machine

/-! ### Registers by their number in a mask -/

section setRegOf
variable (s : State) (k : Fin 16) (v : Word)

@[simp] theorem setRegOf_mem : (s.setRegOf k v).mem = s.mem := by unfold State.setRegOf; split <;> simp
@[simp] theorem setRegOf_map : (s.setRegOf k v).map = s.map := by unfold State.setRegOf; split <;> simp
@[simp] theorem setRegOf_sr : (s.setRegOf k v).sr = s.sr := by unfold State.setRegOf; split <;> simp
@[simp] theorem setRegOf_pc : (s.setRegOf k v).pc = s.pc := by unfold State.setRegOf; split <;> simp

theorem regOf_setRegOf_same : (s.setRegOf k v).regOf k = v := by
  unfold State.regOf State.setRegOf
  split <;> simp

theorem regOf_setRegOf_ne {k' : Fin 16} (h : k' ≠ k) : (s.setRegOf k v).regOf k' = s.regOf k' := by
  unfold State.regOf State.setRegOf
  split <;> split
  · exact dreg_setDreg_ne _ _ _ _ _ (by simpa [Fin.ext_iff] using h)
  · exact setAreg_dreg ..
  · exact setDreg_areg ..
  · exact areg_setAreg_ne _ _ _ _ (by simp only [ne_eq, Fin.ext_iff] at h ⊢; omega)

end setRegOf

/-- An address register stands in a mask 8 places above its number (43_data_movement.md R223). -/
theorem setAreg_eq_setRegOf (s : State) (n : Fin 8) (v : Word) : s.setAreg n v = s.setRegOf (n.natAdd 8) v := by
  simp [State.setRegOf]

/-! ### The transfers -/

/-- The registers listed hold the values of their places, and nothing else of registers, memory, SR and pc has changed. -/
structure LoadedFrom (ks : List (Fin 16)) (value : Nat → Word) (s t : State) : Prop where
  held : ∀ j (h : j < ks.length), t.regOf ks[j] = value j
  kept : ∀ k, k ∉ ks → t.regOf k = s.regOf k
  mem : t.mem = s.mem
  sr : t.sr = s.sr
  pc : t.pc = s.pc

theorem LoadedFrom.nil (value : Nat → Word) (s : State) : LoadedFrom [] value s s :=
  ⟨fun _ h => absurd h (Nat.not_lt_zero _), fun _ _ => rfl, rfl, rfl, rfl⟩

/-- A register loaded first keeps its value if it is not listed again. -/
theorem LoadedFrom.cons {k : Fin 16} {ks : List (Fin 16)} {value : Nat → Word} {s t : State} (hk : k ∉ ks)
    (rest : LoadedFrom ks (fun j => value (j + 1)) (s.setRegOf k (value 0)) t) : LoadedFrom (k :: ks) value s t where
  held
    | 0, _ => (rest.kept k hk).trans (regOf_setRegOf_same ..)
    | j + 1, h => rest.held j (Nat.lt_of_succ_lt_succ h)
  kept k' hk' := by
    obtain ⟨hne, hrest⟩ := List.ne_and_not_mem_of_not_mem_cons hk'
    rw [rest.kept k' hrest, regOf_setRegOf_ne _ _ _ hne]
  mem := rest.mem.trans (setRegOf_mem ..)
  sr := rest.sr.trans (setRegOf_sr ..)
  pc := rest.pc.trans (setRegOf_pc ..)

theorem nodup_maskBits (m : Half) : (maskBits m).Nodup := (List.nodup_finRange 16).filter _

/-- What a transfer puts into a register (R225). -/
def movemValue (sz : Size) (m : Memory) (a : Word) (j : Nat) : Word := addrOperand sz (readMem m (movemPlace sz a j) sz)

variable {sz : Size} {sp : Space} {s u v : State} {m : Half} {ea : EA} {a b : Word}

theorem movemLoad_loaded {ks : List (Fin 16)} (hks : ks.Nodup)
    (readable : ∀ j, j < ks.length → s.readable (movemPlace sz a j) sz) :
    ∃ t, movemLoad sz sp ks a s = .ok (movemPlace sz a ks.length) t ∧ LoadedFrom ks (movemValue sz s.mem a) s t := by
  induction ks generalizing s a with
  | nil => exact ⟨s, by rw [List.length_nil, movemPlace_zero]; rfl, .nil _ s⟩
  | cons k rest ih =>
    obtain ⟨hk, hrest⟩ := List.nodup_cons.mp hks
    rw [List.length_cons] at readable
    have here : s.readable a sz := by simpa using readable 0 (Nat.succ_pos _)
    have later : ∀ j, j < rest.length →
        (s.setRegOf k (movemValue sz s.mem a 0)).readable (movemPlace sz (a + sizeWord sz) j) sz := fun j hj => by
      rw [movemPlace_add_sizeWord, readable_congr (setRegOf_map ..)]
      exact readable (j + 1) (Nat.succ_lt_succ hj)
    obtain ⟨t, run, loaded⟩ := ih hrest later
    refine ⟨t, ?_, .cons hk ?_⟩
    · rw [movemValue, movemPlace_zero] at run
      rw [movemLoad, bind_ok (memRead_readable here), modifyState_bind, run, movemPlace_add_sizeWord, List.length_cons]
    · have shift : movemValue sz s.mem (a + sizeWord sz) = fun j => movemValue sz s.mem a (j + 1) := by
        funext j
        rw [movemValue, movemPlace_add_sizeWord, movemValue]
      rwa [setRegOf_mem, shift] at loaded

/-! ### The instruction -/

/-- Every mode but `(An)+` leaves what the transfers leave. -/
theorem movemToRegBody_control (hm : fetchWord s = .ok m u) (hea : ∀ n, ea ≠ .postInc n)
    (hloc : resolve ea sz false u = .ok (.mem a sp) v) {t : State} (run : movemLoad sz sp (maskBits m) a v = .ok b t) :
    movemToRegBody sz ea s = .ok () t := by
  rw [movemToRegBody, bind_ok hm, bind_ok hloc]
  cases ea
  case postInc n => exact absurd rfl (hea n)
  all_goals exact bind_ok run

theorem movemToRegBody_postInc {n : Fin 8} (hm : fetchWord s = .ok m u)
    (hloc : resolve (.postInc n) sz false u = .ok (.mem a sp) v) {t : State} (run : movemLoad sz sp (maskBits m) a v = .ok b t) :
    movemToRegBody sz (.postInc n) s = .ok () (t.setAreg n b) := by
  rw [movemToRegBody, bind_ok hm, bind_ok hloc]
  exact bind_ok run

/-- Settles O32: each register is loaded once, and the write of the base register at the end touches no other. -/
theorem movemLoads : Obligations.MovemLoads := by
  intro s u v m sz ea a sp hm hloc count place loaded readable
  obtain ⟨t, run, after⟩ := movemLoad_loaded (sp := sp) (nodup_maskBits m) readable
  refine ⟨fun hea => ?_, ?_⟩
  · exact ⟨t, instruction_ok (movemToRegBody_control hm hea hloc run), after.held, after.kept, after.mem, after.sr, after.pc⟩
  · rintro n rfl
    have base : ∀ k : Fin 16, k.val ≠ 8 + n.val → (t.setAreg n (place count)).regOf k = t.regOf k := fun k hk => by
      rw [setAreg_eq_setRegOf]
      exact regOf_setRegOf_ne _ _ _ fun e => hk (congrArg Fin.val e)
    exact ⟨t.setAreg n (place count), instruction_ok (movemToRegBody_postInc hm hloc run), areg_setAreg_same ..,
      fun j h hj => (base _ hj).trans (after.held j h), fun k hk hn => (base k hn).trans (after.kept k hk),
      (setAreg_mem ..).trans after.mem, (setAreg_sr ..).trans after.sr, (setAreg_pc ..).trans after.pc⟩

end Sys2Proof.Machine
end

section
/-! PROOFS. MOVEP (O33). -/

namespace Sys2Proof.Machine

/-! ### Bytes at every second address -/

variable {s t u : State} {w : Half} {dn an : Fin 8} {sz : Size} {a v : Word}

/-- The byte of a value above its `i`-th bit, stored in a state whose memory has already been written. -/
theorem memWrite_byte_above (h : s.writable a .byte) (i : Nat) (m : Memory) :
    memWrite .byte a (v >>> i) { s with mem := m } = .ok () { s with mem := poke m a (v.extractLsb' i 8) } :=
  memWrite_writable (s := { s with mem := m }) h

theorem movepLoad_word (h0 : s.readable a .byte) (h2 : s.readable (a + 2#32) .byte) :
    movepLoad .word a s = .ok ((readMem s.mem a .byte <<< 8) ||| readMem s.mem (a + 2#32) .byte) s :=
  (bind_ok (memRead_readable h0)).trans (bind_ok (memRead_readable h2))

theorem movepLoad_long (h0 : s.readable a .byte) (h2 : s.readable (a + 2#32) .byte) (h4 : s.readable (a + 4#32) .byte)
    (h6 : s.readable (a + 6#32) .byte) :
    movepLoad .long a s =
      .ok ((readMem s.mem a .byte <<< 24) ||| (readMem s.mem (a + 2#32) .byte <<< 16) ||| (readMem s.mem (a + 4#32) .byte <<< 8) |||
        readMem s.mem (a + 6#32) .byte) s :=
  (bind_ok (memRead_readable h0)).trans <| (bind_ok (memRead_readable h2)).trans <|
    (bind_ok (memRead_readable h4)).trans (bind_ok (memRead_readable h6))

theorem movepStore_word (h0 : s.writable a .byte) (h2 : s.writable (a + 2#32) .byte) :
    movepStore .word a v s =
      .ok () { s with mem := poke (poke s.mem a (v.extractLsb' 8 8)) (a + 2#32) (v.extractLsb' 0 8) } :=
  (bind_ok (memWrite_byte_above h0 8 s.mem)).trans (memWrite_byte_above h2 0 _)

theorem movepStore_long (h0 : s.writable a .byte) (h2 : s.writable (a + 2#32) .byte) (h4 : s.writable (a + 4#32) .byte)
    (h6 : s.writable (a + 6#32) .byte) :
    movepStore .long a v s =
      .ok () { s with mem := poke (poke (poke (poke s.mem a (v.extractLsb' 24 8)) (a + 2#32) (v.extractLsb' 16 8)) (a + 4#32)
          (v.extractLsb' 8 8)) (a + 6#32) (v.extractLsb' 0 8) } :=
  (bind_ok (memWrite_byte_above h0 24 s.mem)).trans <| (bind_ok (memWrite_byte_above h2 16 _)).trans <|
    (bind_ok (memWrite_byte_above h4 8 _)).trans (memWrite_byte_above h6 0 _)

/-! ### The instruction -/

theorem movepBody_toReg (hw : fetchWord s = .ok w u) (h : movepLoad sz (u.areg an + sext16 w) u = .ok v t) :
    movepBody .toReg sz dn an s = .ok () (t.setDreg dn sz v) := by
  rw [movepBody, bind_ok hw]
  exact bind_ok h

theorem movepBody_toMem (hw : fetchWord s = .ok w u) (h : movepStore sz (u.areg an + sext16 w) (u.dreg dn) u = .ok () t) :
    movepBody .toMem sz dn an s = .ok () t := by
  rw [movepBody, bind_ok hw]
  exact h

/-- Settles O33: the displacement is fetched, and the bytes go one by one to or from every second address. -/
theorem movepTransfers : Obligations.MovepTransfers := by
  intro s u w dn an hw a x byte
  have first : byte 0 = readMem u.mem a .byte := by
    show readMem u.mem (a + 0#32) .byte = _
    rw [BitVec.add_zero]
  rw [first]
  exact ⟨fun h0 h2 => instruction_ok (movepBody_toReg hw (movepLoad_word h0 h2)),
    fun h0 h2 h4 h6 => instruction_ok (movepBody_toReg hw (movepLoad_long h0 h2 h4 h6)),
    fun h0 h2 => instruction_ok (movepBody_toMem hw (movepStore_word h0 h2)),
    fun h0 h2 h4 h6 => instruction_ok (movepBody_toMem hw (movepStore_long h0 h2 h4 h6))⟩

end Sys2Proof.Machine
end

section
/-! PROOFS. Operations that read an operand and write a data register or nothing but flags (O35, O39), and operations that
take an immediate first (O37). -/

namespace Sys2Proof.Machine

variable {sz : Size} {ea : EA} {s s0 u t : State} {i d v : Word}

/-! ### The shapes run to their end -/

theorem instruction_combineDn {dn : Fin 8} {f : State → Word → Word × Flags} (h : Reads ea sz s v u) :
    instruction (combineDn dn ea sz f) s = .next (traceAfter (srT1 s.sr) ((u.setDreg dn sz (f u v).1).setFlags (f u v).2)) :=
  instruction_ok (combineDn_ok h.readEa)

theorem instruction_compareEa {f : State → Word → Flags} (h : Reads ea sz s v u) :
    instruction (compareEa ea sz f) s = .next (traceAfter (srT1 s.sr) (u.setFlags (f u v))) :=
  instruction_ok (compareEa_ok h.readEa)

/-- A source read, and an operand resolved after it changed in its place. -/
theorem instruction_bind_modifyEa {m : M Word} {f : Word → State → Word → Word × Flags} (hi : m s = .ok i s0)
    (h : Updates ea sz s0 d u (f i u d).1 t) :
    instruction (m >>= fun i => modifyEa ea sz (f i)) s = .next (traceAfter (srT1 s.sr) (t.setFlags (f i u d).2)) :=
  instruction_ok ((bind_ok hi).trans (h.modifyEa rfl))

/-- A source read, and an operand resolved after it compared with it. -/
theorem instruction_bind_compareEa {m : M Word} {f : Word → State → Word → Flags} (hi : m s = .ok i s0)
    (h : Reads ea sz s0 v u) :
    instruction (m >>= fun i => compareEa ea sz (f i)) s = .next (traceAfter (srT1 s.sr) (u.setFlags (f i u v))) :=
  instruction_ok ((bind_ok hi).trans (compareEa_ok h.readEa))

/-! ### The obligations -/

/-- Settles O35: the meaning of each of the four forms combines the operand into the register. -/
theorem registerDestinations : Obligations.RegisterDestinations := by
  intro dn sz ea s u v h
  exact ⟨instruction_combineDn h, instruction_combineDn h, instruction_combineDn h, instruction_combineDn h⟩

/-- Settles O37: the meaning of each of the five forms fetches the immediate and then changes the operand in its place. -/
theorem immediateOperations : Obligations.ImmediateOperations := by
  intro sz ea s s0 u t i d hi
  exact ⟨fun h => instruction_bind_modifyEa hi h,
    fun h => instruction_bind_modifyEa hi h,
    fun h => instruction_bind_modifyEa hi h,
    fun h => instruction_bind_modifyEa hi h,
    fun h => instruction_bind_modifyEa hi h⟩

/-- CMPA compares all 32 bits (44_integer_arithmetic.md R264). -/
theorem exec_cmpa {an : Fin 8} (h : Reads ea sz s v u) :
    exec (.cmpa an sz ea) s =
      .next (traceAfter (srT1 s.sr)
        (u.setFlags (cmpFlags .long (addrOperand sz v) (u.areg an) (u.areg an - addrOperand sz v) u.flags))) := by
  rw [← trunc_long_eq (u.areg an - addrOperand sz v)]
  exact instruction_compareEa h

/-- Settles O39: every form is a comparison of its operand; CMPI and CMPM read their source before it. -/
theorem comparisons : Obligations.Comparisons := by
  intro n ay sz ea s s0 u i v
  exact ⟨fun h => ⟨instruction_compareEa h, instruction_compareEa h⟩, exec_cmpa, exec_cmpa,
    fun hi h => instruction_bind_compareEa hi h,
    fun hi h => instruction_bind_compareEa hi.readEa h⟩

end Sys2Proof.Machine
end

section
/-! PROOFS. ADDQ, SUBQ, ADDA and SUBA (O38). -/

namespace Sys2Proof.Machine

variable {q : Fin 8} {sz : Size} {ea : EA}

theorem quickValue_eq_ite (q : Fin 8) : quickValue q = if q.val = 0 then 8#32 else BitVec.ofNat 32 q.val := by
  simp only [quickValue, Fin.ext_iff, Fin.val_zero]

/-- An operand that is not an address register is changed in its place (44_integer_arithmetic.md R255). -/
theorem addqBody_of_not_areg (h : ea.isAreg = false) :
    addqBody q sz ea = modifyEa ea sz fun t d => addOp sz (quickValue q) d t.flags := by
  cases ea with
  | areg n => cases h
  | _ => rfl

/-- An operand that is not an address register is changed in its place (44_integer_arithmetic.md R261). -/
theorem subqBody_of_not_areg (h : ea.isAreg = false) :
    subqBody q sz ea = modifyEa ea sz fun t d => subOp sz (quickValue q) d t.flags := by
  cases ea with
  | areg n => cases h
  | _ => rfl

/-- A source read and the registers and flags changed by it. -/
theorem instruction_readEa_modifyState {s u : State} {v : Word} {f : Word → State → State} (h : Reads ea sz s v u) :
    instruction (readEa ea sz >>= fun v => modifyState (f v)) s = .next (traceAfter (srT1 s.sr) (f v u)) :=
  instruction_ok (bind_ok h.readEa)

/-- Settles O38: the quick forms by whether the operand is an address register, the address forms by the size of their
source. -/
theorem quickAndAddressArithmetic : Obligations.QuickAndAddressArithmetic := by
  intro q n an sz ea s u t d v
  rw [← quickValue_eq_ite q]
  refine ⟨instruction_ok (body := addqBody q sz (.areg n)) rfl, instruction_ok (body := subqBody q sz (.areg n)) rfl,
    fun hea h => ?_, fun hea h => ?_,
    fun h => ⟨instruction_readEa_modifyState h, instruction_readEa_modifyState h⟩,
    fun h => ⟨instruction_readEa_modifyState h, instruction_readEa_modifyState h⟩⟩
  · change instruction (addqBody q sz ea) s = _
    rw [addqBody_of_not_areg hea]
    exact instruction_modifyEa h
  · change instruction (subqBody q sz ea) s = _
    rw [subqBody_of_not_areg hea]
    exact instruction_modifyEa h

end Sys2Proof.Machine
end

section
/-! PROOFS. ADDX and SUBX (O40). -/

namespace Sys2Proof.Machine

variable {op : Size → Word → Word → Flags → Word × Flags} {mode : XMode} {sz : Size} {rx ry : Fin 8} {s s0 s1 t u : State}
  {v d : Word} {loc : Loc}

/-- The shape ADDX and SUBX share: `op` gives the result and the flags from the source, the destination and the flags
before. -/
def extendedUpdate (op : Size → Word → Word → Flags → Word × Flags) (mode : XMode) (sz : Size) (rx ry : Fin 8) :
    M Unit := do
  let (v, d, dst) ← extendedOperands mode sz rx ry
  let s ← getState
  writeLoc dst sz (op sz v d s.flags).1
  modifyState fun t => t.setFlags (op sz v d s.flags).2

theorem exec_addx : exec (.addx mode sz rx ry) s = instruction (extendedUpdate addxOp mode sz rx ry) s := rfl

theorem exec_subx : exec (.subx mode sz rx ry) s = instruction (extendedUpdate subxOp mode sz rx ry) s := rfl

theorem instruction_extendedUpdate (ho : extendedOperands mode sz rx ry s = .ok (v, d, loc) u)
    (hw : writeLoc loc sz (op sz v d u.flags).1 u = .ok () t) :
    instruction (extendedUpdate op mode sz rx ry) s = .next (traceAfter (srT1 s.sr) (t.setFlags (op sz v d u.flags).2)) := by
  refine instruction_ok ?_
  rw [extendedUpdate, bind_ok ho]
  exact bind_ok hw

theorem extendedOperands_dataRegs :
    extendedOperands .dataRegs sz rx ry s = .ok (trunc sz (s.dreg ry), trunc sz (s.dreg rx), .dreg rx) s := rfl

/-- The source's location is resolved and read before the destination's (44_integer_arithmetic.md R256). -/
theorem extendedOperands_preDec (hs : Reads (.preDec ry) sz s v s0) (hr : resolve (.preDec rx) sz true s0 = .ok loc s1)
    (hd : readLoc loc sz s1 = .ok d u) : extendedOperands .preDec sz rx ry s = .ok (v, d, loc) u := by
  rw [extendedOperands, bind_ok hs.readEa, bind_ok hr, bind_ok hd]
  rfl

theorem instruction_extendedUpdate_preDec (hs : Reads (.preDec ry) sz s v s0)
    (h : Updates (.preDec rx) sz s0 d u (op sz v d u.flags).1 t) :
    instruction (extendedUpdate op .preDec sz rx ry) s = .next (traceAfter (srT1 s.sr) (t.setFlags (op sz v d u.flags).2)) := by
  obtain ⟨_, _, hr, hd, hw⟩ := h
  exact instruction_extendedUpdate (extendedOperands_preDec hs hr hd) hw

/-- Settles O40: both forms are one extended update, of a register or of the destination's address. -/
theorem extendedArithmetic : Obligations.ExtendedArithmetic := by
  intro sz rx ry s
  simp only [exec_addx, exec_subx]
  exact ⟨⟨instruction_extendedUpdate extendedOperands_dataRegs rfl, instruction_extendedUpdate extendedOperands_dataRegs rfl⟩,
    fun _ _ _ _ _ hs => ⟨fun h => instruction_extendedUpdate_preDec hs h, fun h => instruction_extendedUpdate_preDec hs h⟩,
    extendedOperands_dataRegs, fun _ _ _ _ _ _ => extendedOperands_preDec⟩

end Sys2Proof.Machine
end

section
/-! PROOFS. CLR, Scc and MOVE from SR, which do not read their operand (O41). -/

namespace Sys2Proof.Machine

variable {sz : Size} {ea : EA} {s t : State}

theorem logicFlags_zero (sz : Size) (old : Flags) :
    logicFlags sz 0#32 old = { x := old.x, n := false, z := true, v := false, c := false } := by
  cases sz <;> rfl

/-- An operand written with a value that depends only on SR, which resolving the operand leaves. -/
theorem instruction_writeOfSr {f : Half → Word} (h : Writes ea sz s (f s.sr) t) :
    instruction (resolve ea sz true >>= fun loc => getState >>= fun s => writeLoc loc sz (f s.sr)) s =
      .next (traceAfter (srT1 s.sr) t) := by
  obtain ⟨loc, s1, hr, hw⟩ := h
  refine instruction_ok ?_
  rw [bind_ok hr, getState_bind, resolve_sr hr, hw]

/-- Settles O41: CLR writes a zero and its flags; what Scc and MOVE from SR write is read off SR. -/
theorem writeOnlyOperands : Obligations.WriteOnlyOperands := by
  intro sz ea c s t
  refine ⟨fun h => ?_, fun h => instruction_writeOfSr (f := fun sr => if condHolds (srFlags sr) c then 0xFF#32 else 0#32) h,
    fun h => instruction_writeOfSr (f := fun sr => sr.setWidth 32) h⟩
  rw [← logicFlags_zero sz t.flags]
  exact instruction_ok (bind_ok h.writeEa)

end Sys2Proof.Machine
end

section
/-! PROOFS. MULU and MULS (O42), DIVU and DIVS (O43). -/

namespace Sys2Proof.Machine

variable {ea : EA} {dn : Fin 8} {s u : State} {a v r : Word}

/-! ### Products -/

theorem trunc_word_eq_ofNat (v : Word) : trunc .word v = BitVec.ofNat 32 (v.toNat % 65536) := by
  have low : v.toNat % 65536 < 2 ^ 32 := by omega
  exact BitVec.eq_of_toNat_eq ((trunc_toNat .word v).trans (Nat.mod_eq_of_lt low).symm)

theorem mulUnsigned_eq_ofNat (d v : Word) : mulUnsigned d v = BitVec.ofNat 32 (d.toNat % 65536 * (v.toNat % 65536)) := by
  rw [BitVec.ofNat_mul, ← trunc_word_eq_ofNat, ← trunc_word_eq_ofNat, mulUnsigned]

theorem sextLow_eq_ofInt (v : Word) : sextLow v = BitVec.ofInt 32 (signedAt .word v) := by
  rw [signedAt_eq_toInt]
  rfl

theorem mulSigned_eq_ofInt (d v : Word) : mulSigned d v = BitVec.ofInt 32 (signedAt .word d * signedAt .word v) := by
  rw [BitVec.ofInt_mul, ← sextLow_eq_ofInt, ← sextLow_eq_ofInt, mulSigned]

/-- Settles O42: truncation gives the unsigned value of a word and sign extension its signed value. -/
theorem products : Obligations.Products := by
  intro dn ea s u v h
  dsimp only
  rw [← mulUnsigned_eq_ofNat, ← mulSigned_eq_ofInt]
  exact ⟨instruction_readEa_modifyState h, instruction_readEa_modifyState h⟩

/-! ### The two divisions -/

/-- The unsigned division in numbers (44_integer_arithmetic.md R273). -/
theorem divUnsigned_eq_ite (hv : v.toNat < 65536) (h0 : v ≠ 0#32) :
    divUnsigned a v =
      if 65535 < a.toNat / v.toNat then none
      else some (BitVec.ofNat 16 (a.toNat % v.toNat) ++ BitVec.ofNat 16 (a.toNat / v.toNat)) := by
  have pos : 0 < v.toNat := Nat.pos_of_ne_zero fun e => h0 (BitVec.eq_of_toNat_eq e)
  have rem : a.toNat % v.toNat < 65536 := (Nat.mod_lt _ pos).trans hv
  rw [divUnsigned, BitVec.toNat_udiv]
  by_cases big : 65535 < a.toNat / v.toNat
  · rw [if_pos big, if_pos big]
  · rw [if_neg big, if_neg big, Option.some_inj]
    refine BitVec.eq_of_toNat_eq ?_
    rw [BitVec.toNat_or, BitVec.toNat_shiftLeft, BitVec.toNat_umod, BitVec.toNat_udiv, BitVec.toNat_append, BitVec.toNat_ofNat,
      BitVec.toNat_ofNat, Nat.mod_eq_of_lt rem, Nat.mod_eq_of_lt (by omega : a.toNat / v.toNat < 2 ^ 16), Nat.shiftLeft_eq,
      Nat.mod_eq_of_lt (by omega)]

/-- The signed division in numbers (44_integer_arithmetic.md R274). -/
theorem divSigned_eq_ite :
    divSigned a v =
      if a.toInt.tdiv (signedAt .word v) < -32768 ∨ 32767 < a.toInt.tdiv (signedAt .word v) then none
      else some (BitVec.ofInt 16 (a.toInt.tmod (signedAt .word v)) ++ BitVec.ofInt 16 (a.toInt.tdiv (signedAt .word v))) := by
  rw [signedAt_eq_toInt, Int.tmod_def, Int.mul_comm]
  rfl

/-! ### The operation around a division -/

section divide

variable {divide : Word → Word → Option Word}

/-- A divisor of zero (60_exceptions.md R424). -/
theorem instruction_divideBody_zero (h : Reads ea .word s 0#32 u) :
    ∃ n z o k, instruction (divideBody dn ea divide) s =
      .next (raiseIrq .integerDivideByZero 0#64
        ({ u with draws := k }.setFlags { x := u.flags.x, n := n, z := z, v := o, c := false })) := by
  refine ⟨Config.freeBit u.draws, Config.freeBit (u.draws + 1), Config.freeBit (u.draws + 2), u.draws + 3, instruction_trap ?_⟩
  rw [divideBody, bind_ok h.readEa]
  rfl

theorem instruction_divideBody_overflow (h : Reads ea .word s v u) (h0 : v ≠ 0#32) (hd : divide (u.dreg dn) v = none) :
    ∃ n z k, instruction (divideBody dn ea divide) s =
      .next (traceAfter (srT1 s.sr)
        ({ u with draws := k }.setFlags { x := u.flags.x, n := n, z := z, v := true, c := false })) := by
  refine ⟨Config.freeBit u.draws, Config.freeBit (u.draws + 1), u.draws + 2, instruction_ok ?_⟩
  rw [divideBody, bind_ok h.readEa, getState_bind, if_neg h0, hd]
  rfl

theorem instruction_divideBody_fits (h : Reads ea .word s v u) (h0 : v ≠ 0#32) (hd : divide (u.dreg dn) v = some r) :
    instruction (divideBody dn ea divide) s =
      .next (traceAfter (srT1 s.sr) ((u.setDreg dn .long r).setFlags (logicFlags .word r u.flags))) := by
  refine instruction_ok ?_
  rw [divideBody, bind_ok h.readEa, getState_bind, if_neg h0, hd]
  rfl

end divide

/-- Settles O43: a zero divisor traps; otherwise the division in numbers says whether the quotient fits and what it is. -/
theorem quotients : Obligations.Quotients := by
  intro dn ea s u v h a uq sq ur sr overflowed trapped
  refine ⟨fun hv => ?_, fun h0 hv => ⟨fun fits => ?_, fun big => ?_, fun low high => ?_, fun big => ?_⟩⟩
  · subst hv
    exact ⟨instruction_divideBody_zero h, instruction_divideBody_zero h⟩
  · exact instruction_divideBody_fits h h0 ((divUnsigned_eq_ite hv h0).trans (if_neg fits.not_gt))
  · exact instruction_divideBody_overflow h h0 ((divUnsigned_eq_ite hv h0).trans (if_pos big))
  · exact instruction_divideBody_fits h h0 (divSigned_eq_ite.trans (if_neg (not_or.mpr ⟨low.not_gt, high.not_gt⟩)))
  · exact instruction_divideBody_overflow h h0 (divSigned_eq_ite.trans (if_pos big))

end Sys2Proof.Machine
end

section
/-! PROOFS. BCD addition and subtraction as decimal arithmetic (O28). -/

namespace Sys2Proof.Machine

/-! ### Two digits and their byte -/

theorem bcdValue_lt {b : Byte} (h : validBcd b = true) : bcdValue b < 100 := by
  simp only [validBcd, Bool.and_eq_true, decide_eq_true_eq] at h
  obtain ⟨tens, units⟩ := h
  rw [bcdValue]
  omega

theorem bcdByte_toNat {n : Nat} (h : n < 100) : (bcdByte n).toNat = n / 10 * 16 + n % 10 := by
  rw [bcdByte, BitVec.toNat_ofNat, Nat.mod_eq_of_lt (by omega)]

theorem bcdByte_tens {n : Nat} (h : n < 100) : ((bcdByte n).extractLsb' 4 4).toNat = n / 10 := by
  rw [BitVec.extractLsb'_toNat, bcdByte_toNat h, Nat.shiftRight_eq_div_pow]
  omega

theorem bcdByte_units {n : Nat} (h : n < 100) : ((bcdByte n).extractLsb' 0 4).toNat = n % 10 := by
  rw [BitVec.extractLsb'_toNat, bcdByte_toNat h, Nat.shiftRight_eq_div_pow]
  omega

theorem bcdValue_bcdByte {n : Nat} (h : n < 100) : bcdValue (bcdByte n) = n := by
  rw [bcdValue, bcdByte_tens h, bcdByte_units h]
  omega

theorem validBcd_bcdByte {n : Nat} (h : n < 100) : validBcd (bcdByte n) = true := by
  have tens : n / 10 ≤ 9 := by omega
  have units : n % 10 ≤ 9 := by omega
  simp [validBcd, bcdByte_tens h, bcdByte_units h, tens, units]

/-! ### The carry and the borrow -/

/-- A sum of two decimal bytes and a carry is its last two digits and the carry out. -/
theorem mod_hundred_add_carry {r : Nat} (h : r < 200) : r % 100 + 100 * (decide (99 < r)).toNat = r := by
  by_cases carry : 99 < r
  · rw [decide_eq_true carry, Bool.toNat_true]; omega
  · rw [decide_eq_false carry, Bool.toNat_false]; omega

/-- A difference of two decimal bytes and a borrow is the two digits kept less the borrow out. -/
theorem mod_hundred_sub_borrow {r : Int} (low : -100 ≤ r) (high : r < 100) :
    (((r + 100) % 100).toNat : Int) = r + 100 * (decide (r < 0)).toNat := by
  by_cases borrow : r < 0
  · rw [decide_eq_true borrow, Bool.toNat_true]; omega
  · rw [decide_eq_false borrow, Bool.toNat_false]; omega

/-- Settles O28: the two digits kept are below 100, so that their byte is valid and stands for them; the carry or borrow is
what keeping two digits drops. -/
theorem bcdIsDecimal : Obligations.BcdIsDecimal := by
  intro s d x hs hd
  have hs := bcdValue_lt hs
  have hd := bcdValue_lt hd
  have hx := Bool.toNat_le x
  have sum := mod_hundred_add_carry (r := bcdValue d + bcdValue s + x.toNat) (by omega)
  have diff := mod_hundred_sub_borrow (r := (bcdValue d : Int) - bcdValue s - x.toNat) (by omega) (by omega)
  have sumDigits : (bcdValue d + bcdValue s + x.toNat) % 100 < 100 := Nat.mod_lt _ (by decide)
  have diffDigits : (((bcdValue d : Int) - bcdValue s - x.toNat + 100) % 100).toNat < 100 := by omega
  rw [bcdAdd, bcdSub, bcdValue_bcdByte sumDigits, bcdValue_bcdByte diffDigits]
  dsimp only
  exact ⟨sum, validBcd_bcdByte sumDigits, by omega, validBcd_bcdByte diffDigits⟩

end Sys2Proof.Machine
end

section
/-! PROOFS. BTST, BCHG, BCLR, BSET and TAS (O45). -/

namespace Sys2Proof.Machine

variable {ea : EA} {s s0 s1 u : State} {m : M Word} {v r number : Word} {loc : Loc} {sz : Size}

/-- An instruction whose last act is a write: it completes with what the write leaves, or faults with what stood before the
write, which a fault leaves as it was. -/
theorem instruction_endsInWrite {body : M Unit} (h : body s = writeLoc loc sz r u) :
    (∀ t, writeLoc loc sz r u = .ok () t → instruction body s = .next (traceAfter (srT1 s.sr) t)) ∧
    (∀ k aux t, writeLoc loc sz r u = .error (.fault k aux) t →
      t = u ∧ instruction body s = .next (raiseIrq k aux { u with pc := u.pcStart })) := by
  refine ⟨fun t hw => instruction_ok (h.trans hw), fun k aux t hw => ?_⟩
  obtain rfl := writeLoc_fault hw
  exact ⟨rfl, instruction_fault (h.trans hw)⟩

theorem instruction_bitTest (hm : m s = .ok number s0) (h : Reads ea (bitSize ea) s0 v u) :
    instruction (m >>= bitTest ea) s = .next (traceAfter (srT1 s.sr) (u.setZ (!v.getLsbD (bitNumber ea number)))) := by
  refine instruction_ok ?_
  rw [bind_ok hm, bitTest, bind_ok h.readEa]
  rfl

theorem bind_bitChange_eq_writeLoc {f : Word → Word → Word} (hm : m s = .ok number s0)
    (hr : resolve ea (bitSize ea) true s0 = .ok loc s1) (hd : readLoc loc (bitSize ea) s1 = .ok v u) :
    (m >>= bitChange ea f) s =
      writeLoc loc (bitSize ea) (f v (1#32 <<< bitNumber ea number)) (u.setZ (!v.getLsbD (bitNumber ea number))) := by
  rw [bind_ok hm, bitChange, bind_ok hr, bind_ok hd]
  rfl

theorem tasBody_eq_writeLoc (hr : resolve ea .byte true s = .ok loc s1) (hd : readLoc loc .byte s1 = .ok v u) :
    tasBody ea s = writeLoc loc .byte (v ||| 0x80#32) (u.setFlags (logicFlags .byte v u.flags)) := by
  rw [tasBody, bind_ok hr, bind_ok hd]
  rfl

theorem staticBit_ok {w : Half} (h : fetchWord s = .ok w u) : staticBit s = .ok ((w.setWidth 8).setWidth 32) u := by
  rw [staticBit, bind_ok h]
  rfl

/-- Settles O45: a dynamic form has its number from a register, a static form from the word it fetches; BTST then reads its
operand, and the others end in a write with the flags already written. -/
theorem bitOperations : Obligations.BitOperations := by
  intro dn ea s s0 w sz tests settles changes
  have dynamic : dynamicBit dn s = .ok (s.dreg dn) s := rfl
  refine ⟨fun _ _ h => instruction_bitTest dynamic h,
    fun _ _ _ _ hr hd => instruction_endsInWrite (bind_bitChange_eq_writeLoc (f := flipBit) dynamic hr hd),
    fun _ _ _ _ hr hd => instruction_endsInWrite (bind_bitChange_eq_writeLoc (f := clearBit) dynamic hr hd),
    fun _ _ _ _ hr hd => instruction_endsInWrite (bind_bitChange_eq_writeLoc (f := setBit) dynamic hr hd), fun hw => ?_,
    fun _ _ _ _ hr hd => instruction_endsInWrite (tasBody_eq_writeLoc hr hd)⟩
  exact ⟨fun _ _ h => instruction_bitTest (staticBit_ok hw) h,
    fun _ _ _ _ hr hd => instruction_endsInWrite (bind_bitChange_eq_writeLoc (f := flipBit) (staticBit_ok hw) hr hd),
    fun _ _ _ _ hr hd => instruction_endsInWrite (bind_bitChange_eq_writeLoc (f := clearBit) (staticBit_ok hw) hr hd),
    fun _ _ _ _ hr hd => instruction_endsInWrite (bind_bitChange_eq_writeLoc (f := setBit) (staticBit_ok hw) hr hd)⟩

end Sys2Proof.Machine
end

section
/-! PROOFS. ABCD, SBCD and NBCD (O46). -/

namespace Sys2Proof.Machine

variable {f : Byte → Byte → Bool → Byte × Bool} {loc : Loc} {s u t : State} {a b : Byte}

/-- The result is the helper's on valid digits and any byte and carry otherwise; no more than the draws move. -/
theorem bcdResult_ok (f : Byte → Byte → Bool → Byte × Bool) (a b : Byte) (x : Bool) (u : State) :
    ∃ r k, ((validBcd a && validBcd b) = true → r = f a b x) ∧ bcdResult f a b x u = .ok r { u with draws := k } := by
  rw [bcdResult]
  by_cases valid : (validBcd a && validBcd b) = true
  · rw [if_pos valid]
    exact ⟨_, u.draws, fun _ => rfl, rfl⟩
  · rw [if_neg valid]
    exact ⟨_, u.draws + 2, fun h => absurd h valid, rfl⟩

theorem bcdFinish_ok {r : Byte × Bool} (h : writeLoc loc .byte (r.1.setWidth 32) s = .ok () t) :
    bcdFinish loc r s = .ok () ({ t with draws := t.draws + 2 }.setFlags
      (bcdFlags r.1 r.2 (Config.freeBit t.draws) (Config.freeBit (t.draws + 1)) t.flags)) := by
  rw [bcdFinish, bind_ok h]
  rfl

/-- A decimal instruction from where its operands are read, run to its end. -/
theorem instruction_bcdEnd {body : M Unit} {w : Word → Nat → State}
    (h : body s = (bcdResult f a b u.flags.x >>= bcdFinish loc) u)
    (hw : ∀ r k, writeLoc loc .byte r { u with draws := k } = .ok () (w r k)) :
    ∃ (r : Byte) (c n o : Bool) (k k' : Nat), ((validBcd a && validBcd b) = true → (r, c) = f a b u.flags.x) ∧
      instruction body s =
        .next (traceAfter (srT1 s.sr)
          ({ w (r.setWidth 32) k with draws := k' }.setFlags
            { x := c, n := n, z := (w (r.setWidth 32) k).flags.z && r == 0#8, v := o, c := c })) := by
  obtain ⟨r, k, hvalid, hresult⟩ := bcdResult_ok f a b u.flags.x u
  exact ⟨r.1, r.2, _, _, k, _, hvalid, instruction_ok (h.trans ((bind_ok hresult).trans (bcdFinish_ok (hw _ _))))⟩

theorem bcdBody_eq_end {mode : XMode} {rx ry : Fin 8} {v d : Word} (h : extendedOperands mode .byte rx ry s = .ok (v, d, loc) u) :
    bcdBody f mode rx ry s = (bcdResult f (lowByte v) (lowByte d) u.flags.x >>= bcdFinish loc) u := by
  rw [bcdBody, bind_ok h]
  rfl

theorem nbcdBody_eq_end {ea : EA} {s1 : State} {d : Word} (hr : resolve ea .byte true s = .ok loc s1)
    (hd : readLoc loc .byte s1 = .ok d u) :
    nbcdBody ea s = (bcdResult bcdSub (lowByte d) 0#8 u.flags.x >>= bcdFinish loc) u := by
  rw [nbcdBody, bind_ok hr, bind_ok hd]
  rfl

/-- Settles O46: the three forms end alike once their operands are read; the 0 that NBCD subtracts from has valid digits. -/
theorem decimalInstructions : Obligations.DecimalInstructions := by
  intro mode rx ry ea s finishes
  refine ⟨fun v d dst u h => ⟨fun _ hw => instruction_bcdEnd (bcdBody_eq_end h) hw,
    fun _ hw => instruction_bcdEnd (bcdBody_eq_end h) hw⟩, fun loc s1 d u hr hd _ hw => ?_⟩
  have zero : validBcd 0#8 = true := by decide
  have ends := instruction_bcdEnd (nbcdBody_eq_end hr hd) hw
  rw [zero, Bool.and_true] at ends
  exact ends

end Sys2Proof.Machine
end

section
/-! PROOFS. BRA, Bcc, DBcc and NOP (O47). -/

namespace Sys2Proof.Machine

variable {cond : Cond} {d8 : Byte} {dn : Fin 8} {s u : State} {disp : Word} {w : Half}

/-! ### The displacement of a branch -/

/-- What a branch takes as its displacement, and what taking it leaves: the opword's byte, or a word fetched when the byte
is 0 (47_program_control.md R331). -/
theorem branchDisp_ok (h : (d8 ≠ 0#8 ∧ disp = sext8 d8 ∧ u = s) ∨ (d8 = 0#8 ∧ ∃ w, fetchWord s = .ok w u ∧ disp = sext16 w)) :
    branchDisp d8 s = .ok disp u := by
  obtain ⟨nonzero, rfl, rfl⟩ | ⟨zero, w, hw, rfl⟩ := h
  · rw [branchDisp, if_neg nonzero]
    rfl
  · rw [branchDisp, if_pos zero]
    exact bind_ok hw

theorem instruction_branchBody_taken (hd : branchDisp d8 s = .ok disp u) (hc : condHolds u.flags cond = true) :
    instruction (branchBody cond d8) s = .next (traceAfter (srT1 s.sr) { u with pc := s.pc + disp }) := by
  refine instruction_ok ?_
  rw [branchBody, getState_bind, bind_ok hd, modifyState_apply, if_pos hc]

theorem instruction_branchBody_not_taken (hd : branchDisp d8 s = .ok disp u) (hc : condHolds u.flags cond = false) :
    instruction (branchBody cond d8) s = .next (traceAfter (srT1 s.sr) u) := by
  refine instruction_ok ?_
  rw [branchBody, getState_bind, bind_ok hd, modifyState_apply, if_neg (Bool.eq_false_iff.mp hc)]

/-! ### The counter of DBcc -/

/-- The counter is the low word alone (47_program_control.md R334). -/
theorem decrementWord_eq_setWidth (v : Word) : decrementWord v = (v.setWidth 16 - 1#16).setWidth 32 := by
  rw [decrementWord, trunc_word_eq]
  exact congrArg (BitVec.setWidth 32) (by bv_omega)

/-- The counter passes below 0 exactly from 0. -/
theorem decrementWord_eq_ffff_iff (v : Word) : decrementWord v = 0xFFFF#32 ↔ v.setWidth 16 = 0#16 := by
  rw [decrementWord_eq_setWidth]
  bv_omega

theorem instruction_dbccBody_holds (hw : fetchWord s = .ok w u) (hc : condHolds u.flags cond = true) :
    instruction (dbccBody cond dn) s = .next (traceAfter (srT1 s.sr) u) := by
  refine instruction_ok ?_
  rw [dbccBody, getState_bind, bind_ok hw, modifyState_apply, if_pos hc]

theorem instruction_dbccBody_expired (hw : fetchWord s = .ok w u) (hc : condHolds u.flags cond = false)
    (zero : (u.dreg dn).setWidth 16 = 0#16) :
    instruction (dbccBody cond dn) s =
      .next (traceAfter (srT1 s.sr) (u.setDreg dn .word (((u.dreg dn).setWidth 16 - 1#16).setWidth 32))) := by
  refine instruction_ok ?_
  rw [dbccBody, getState_bind, bind_ok hw, modifyState_apply, if_neg (Bool.eq_false_iff.mp hc),
    if_pos ((decrementWord_eq_ffff_iff _).mpr zero), decrementWord_eq_setWidth]

theorem instruction_dbccBody_loops (hw : fetchWord s = .ok w u) (hc : condHolds u.flags cond = false)
    (nonzero : (u.dreg dn).setWidth 16 ≠ 0#16) :
    instruction (dbccBody cond dn) s =
      .next (traceAfter (srT1 s.sr)
        { u.setDreg dn .word (((u.dreg dn).setWidth 16 - 1#16).setWidth 32) with pc := s.pc + sext16 w }) := by
  refine instruction_ok ?_
  rw [dbccBody, getState_bind, bind_ok hw, modifyState_apply, if_neg (Bool.eq_false_iff.mp hc),
    if_neg ((decrementWord_eq_ffff_iff _).not.mpr nonzero), decrementWord_eq_setWidth]

/-- Settles O47: BRA is the branch whose condition always holds; DBcc by its condition, then by whether its counter was 0. -/
theorem branches : Obligations.Branches := by
  intro c d8 dn s
  refine ⟨fun disp u h => ?_, fun w u hw => ?_, instruction_ok (body := pure ()) rfl⟩
  · have hd := branchDisp_ok h
    exact ⟨instruction_branchBody_taken (cond := .t) hd rfl, instruction_branchBody_taken hd, instruction_branchBody_not_taken hd⟩
  · exact ⟨instruction_dbccBody_holds hw, instruction_dbccBody_expired hw, instruction_dbccBody_loops hw⟩

end Sys2Proof.Machine
end

section
/-! PROOFS. BSR, JSR, JMP, RTS and RTR (O48). -/

namespace Sys2Proof.Machine

variable {d8 : Byte} {ea : EA} {s u : State} {a disp : Word} {sp : Space}

/-! ### Calls -/

/-- The state after a call has pushed its return address. -/
def State.pushedPc (u : State) : State :=
  { u with mem := writeMem u.mem (u.areg 7 - 4#32) .long u.pc }.setAreg 7 (u.areg 7 - 4#32)

theorem push_pc (h : u.writable (u.areg 7 - 4#32) .long) : push .long u.pc u = .ok () u.pushedPc :=
  push_eq_setAreg (sz := .long) h

theorem instruction_bsrBody (hd : branchDisp d8 s = .ok disp u) (hw : u.writable (u.areg 7 - 4#32) .long) :
    instruction (bsrBody d8) s = .next (traceAfter (srT1 s.sr) { u.pushedPc with pc := s.pc + disp }) := by
  refine instruction_ok ?_
  rw [bsrBody, getState_bind, bind_ok hd, getState_bind, bind_ok (push_pc hw)]
  rfl

theorem instruction_jsrBody (h : resolve ea .long true s = .ok (.mem a sp) u) (hw : u.writable (u.areg 7 - 4#32) .long) :
    instruction (jsrBody ea) s = .next (traceAfter (srT1 s.sr) { u.pushedPc with pc := a }) := by
  refine instruction_ok ?_
  rw [jsrBody, bind_ok (controlAddress_ok h), getState_bind, bind_ok (push_pc hw)]
  rfl

theorem instruction_jmpBody (h : resolve ea .long true s = .ok (.mem a sp) u) :
    instruction (jmpBody ea) s = .next (traceAfter (srT1 s.sr) { u with pc := a }) :=
  instruction_ok (bind_ok (controlAddress_ok h))

/-! ### Returns -/

theorem instruction_rtsBody (h : s.readable (s.areg 7) .long) :
    instruction rtsBody s =
      .next (traceAfter (srT1 s.sr) { s.setAreg 7 (s.areg 7 + 4#32) with pc := readMem s.mem (s.areg 7) .long }) :=
  instruction_ok (bind_ok (pop_readable h))

theorem setSp_writeCcr (s : State) (v : Half) (a : Word) : (s.writeCcr v).setSp a = (s.setSp a).writeCcr v := by
  rw [State.setSp, State.setSp, writeCcr_supervisor]
  split <;> rfl

/-- RTR's second pop, from what its first pop and its write of the condition codes leave (47_program_control.md R339). -/
theorem pop_long_after_ccr (h : s.readable (s.areg 7 + 2#32) .long) (v : Half) :
    pop .long ((s.setAreg 7 (s.areg 7 + 2#32)).writeCcr v) =
      .ok (readMem s.mem (s.areg 7 + 2#32) .long) ((s.setAreg 7 (s.areg 7 + 6#32)).writeCcr v) := by
  have popped : ((s.setAreg 7 (s.areg 7 + 2#32)).writeCcr v).sp = s.areg 7 + 2#32 := by
    rw [writeCcr_sp, setAreg_seven, setSp_sp]
  have readable : ((s.setAreg 7 (s.areg 7 + 2#32)).writeCcr v).readable ((s.setAreg 7 (s.areg 7 + 2#32)).writeCcr v).sp .long := by
    rwa [popped, State.readable, writeCcr_map, setAreg_map]
  rw [pop_readable readable, popped, setSp_writeCcr, setAreg_seven, setAreg_seven, setSp_setSp, writeCcr_mem, setSp_mem,
    BitVec.add_assoc]
  rfl

theorem instruction_rtrBody (hw : s.readable (s.areg 7) .word) (hl : s.readable (s.areg 7 + 2#32) .long) :
    instruction rtrBody s =
      .next (traceAfter (srT1 s.sr)
        { (s.setAreg 7 (s.areg 7 + 6#32)).writeCcr ((readMem s.mem (s.areg 7) .word).setWidth 16) with
          pc := readMem s.mem (s.areg 7 + 2#32) .long }) := by
  refine instruction_ok ?_
  rw [rtrBody, bind_ok (pop_readable hw), modifyState_bind]
  exact bind_ok (pop_long_after_ccr hl _)

/-- Settles O48: a call pushes the pc that its last word leaves, after its target is computed; RTR is two pops. -/
theorem callsAndReturns : Obligations.CallsAndReturns := fun _ _ _ =>
  ⟨fun _ _ h hw => instruction_bsrBody (branchDisp_ok h) hw,
    fun _ _ _ h => ⟨instruction_jmpBody h, instruction_jsrBody h⟩, instruction_rtsBody, instruction_rtrBody⟩

end Sys2Proof.Machine
end

section
/-! PROOFS. Privileged instructions in user mode (O14); SR and CCR (O49); MOVE USP, RESET and STOP (O50). -/

namespace Sys2Proof.Machine

variable {i : Instr} {m : M Unit} {s u : State} {w : Half}

/-! ### The check of the mode -/

/-- In user mode the check faults before the operation behind it begins (48_system_control.md R350). -/
theorem exec_privileged_user (hi : isPrivileged i = true) (hs : s.supervisor = false) :
    exec i s = .next (raiseIrq .privilegeViolation 0#64 { s with pc := s.pcStart }) := by
  obtain ⟨m, e⟩ := bodyOf_privileged hi
  rw [exec_eq_body, e]
  exact instruction_fault (privileged_user hs)

/-- In supervisor mode the check does nothing. -/
theorem instruction_privileged (hs : s.supervisor = true) : instruction (privileged m) s = instruction m s :=
  congrArg (settle (srT1 s.sr)) (privileged_supervisor hs)

/-- Settles O14: each of the nine forms is an operation behind the check of the mode. -/
theorem privilegedInUserMode : Obligations.PrivilegedInUserMode := by
  intro s hs i hi
  refine exec_privileged_user ?_ hs
  obtain hmem | ⟨_, rfl⟩ | ⟨_, rfl⟩ | ⟨_, rfl⟩ := hi
  · have listed : ∀ j ∈ [Instr.oriSr, .andiSr, .eoriSr, .reset, .rte, .stop], isPrivileged j = true := by decide
    exact listed i hmem
  · rfl
  · rfl
  · rfl

/-! ### Operations that take their one operand first, or none -/

theorem instruction_modifyState (f : State → State) (s : State) :
    instruction (modifyState f) s = .next (traceAfter (srT1 s.sr) (f s)) :=
  instruction_ok (modifyState_apply f s)

/-- An extension word fetched and the state changed by it. -/
theorem instruction_fetchWord_modifyState {f : Half → State → State} (h : fetchWord s = .ok w u) :
    instruction (fetchWord >>= fun w => modifyState (f w)) s = .next (traceAfter (srT1 s.sr) (f w u)) :=
  instruction_ok (bind_ok h)

theorem instruction_ccrImmediate (op : Half → Half → Half) (h : fetchWord s = .ok w u) :
    instruction (ccrImmediate op) s = .next (traceAfter (srT1 s.sr) (u.writeCcr (op u.sr w))) :=
  instruction_fetchWord_modifyState h

theorem instruction_privileged_srImmediate (op : Half → Half → Half) (hs : s.supervisor = true) (h : fetchWord s = .ok w u) :
    instruction (privileged (srImmediate op)) s = .next (traceAfter (srT1 s.sr) (u.writeSr (op u.sr w))) :=
  (instruction_privileged hs).trans (instruction_fetchWord_modifyState h)

/-- Settles O49: the value is the operand read or the immediate fetched; the forms that write SR are behind the check of
the mode. -/
theorem statusInstructions : Obligations.StatusInstructions := fun _ _ _ _ _ =>
  ⟨fun h => ⟨instruction_readEa_modifyState h, fun hs => (instruction_privileged hs).trans (instruction_readEa_modifyState h)⟩,
    fun h => ⟨instruction_ccrImmediate _ h, instruction_ccrImmediate _ h, instruction_ccrImmediate _ h,
      fun hs => ⟨instruction_privileged_srImmediate _ hs h, instruction_privileged_srImmediate _ hs h,
        instruction_privileged_srImmediate _ hs h⟩⟩⟩

/-- Settles O50: behind the check of the mode each is one change of the state, STOP's after its fetch. -/
theorem supervisorInstructions : Obligations.SupervisorInstructions := fun s _ _ _ hs =>
  ⟨(instruction_privileged hs).trans (instruction_modifyState _ s),
    (instruction_privileged hs).trans (instruction_modifyState _ s),
    (instruction_privileged hs).trans (instruction_modifyState _ s),
    fun h => (instruction_privileged hs).trans (instruction_fetchWord_modifyState h)⟩

end Sys2Proof.Machine
end

section
/-! PROOFS. TRAP, TRAPV and CHK (O52). -/

namespace Sys2Proof.Machine

variable {dn : Fin 8} {ea : EA} {s u : State} {bound : Word}

theorem instruction_trapvBody_overflow (h : s.flags.v = true) :
    instruction trapvBody s = .next (raiseIrq .ftrapTrapTrapv 0#64 s) := by
  refine instruction_trap ?_
  rw [trapvBody, getState_bind, if_pos h, raiseTrap_apply]

theorem instruction_trapvBody_no_overflow (h : s.flags.v = false) :
    instruction trapvBody s = .next (traceAfter (srT1 s.sr) s) := by
  refine instruction_ok ?_
  rw [trapvBody, getState_bind, if_neg (Bool.eq_false_iff.mp h), pure_apply]

/-! ### CHK -/

theorem sextLow_toInt (v : Word) : (sextLow v).toInt = signedAt .word v := by
  rw [signedAt_eq_toInt]
  exact BitVec.toInt_signExtend_of_le (by decide)

/-- What CHK leaves of `u`: N as given, X kept, the other flags open (48_system_control.md R366; log 5). -/
def FlaggedByChk (n : Bool) (u t : State) : Prop :=
  ∃ z o c k, t = { u with draws := k }.setFlags { x := u.flags.x, n := n, z := z, v := o, c := c }

theorem chkFlags_ok (n : Bool) (u : State) : ∃ t, FlaggedByChk n u t ∧ chkFlags n u = .ok () t :=
  ⟨_, ⟨_, _, _, _, rfl⟩, rfl⟩

/-- Below 0 (48_system_control.md R366). -/
theorem instruction_chkBody_negative (h : Reads ea .word s bound u) (neg : signedAt .word (u.dreg dn) < 0) :
    ∃ t, FlaggedByChk true u t ∧ instruction (chkBody dn ea) s = .next (raiseIrq .chkChk2 0#64 t) := by
  obtain ⟨t, flagged, ht⟩ := chkFlags_ok true u
  refine ⟨t, flagged, instruction_trap ?_⟩
  rw [chkBody, bind_ok h.readEa, getState_bind, sextLow_toInt, if_pos neg, bind_ok ht, raiseTrap_apply]

/-- Above the bound. -/
theorem instruction_chkBody_above (h : Reads ea .word s bound u) (nonneg : 0 ≤ signedAt .word (u.dreg dn))
    (above : signedAt .word bound < signedAt .word (u.dreg dn)) :
    ∃ t, FlaggedByChk false u t ∧ instruction (chkBody dn ea) s = .next (raiseIrq .chkChk2 0#64 t) := by
  obtain ⟨t, flagged, ht⟩ := chkFlags_ok false u
  refine ⟨t, flagged, instruction_trap ?_⟩
  rw [chkBody, bind_ok h.readEa, getState_bind, sextLow_toInt, sextLow_toInt, if_neg nonneg.not_gt, if_pos above, bind_ok ht,
    raiseTrap_apply]

/-- In bounds: N is drawn too. -/
theorem instruction_chkBody_within (h : Reads ea .word s bound u) (nonneg : 0 ≤ signedAt .word (u.dreg dn))
    (within : signedAt .word (u.dreg dn) ≤ signedAt .word bound) :
    ∃ n t, FlaggedByChk n u t ∧ instruction (chkBody dn ea) s = .next (traceAfter (srT1 s.sr) t) := by
  obtain ⟨t, flagged, ht⟩ := chkFlags_ok (Config.freeBit u.draws) { u with draws := u.draws + 1 }
  refine ⟨_, t, flagged, instruction_ok ?_⟩
  rw [chkBody, bind_ok h.readEa, getState_bind, sextLow_toInt, sextLow_toInt, if_neg nonneg.not_gt, if_neg within.not_gt,
    drawBit_bind, ht]

/-- Settles O52: TRAPV by V, CHK by which of its three ranges the register is in. -/
theorem trapInstructions : Obligations.TrapInstructions := fun v _ _ s =>
  ⟨instruction_trap (raiseTrap_apply (.trap v) s), instruction_trapvBody_overflow, instruction_trapvBody_no_overflow,
    fun _ _ h => ⟨instruction_chkBody_negative h, instruction_chkBody_above h, instruction_chkBody_within h⟩⟩

end Sys2Proof.Machine
end

section
/-! PROOFS. User mode reaches supervisor mode only by an interrupt (O13). -/

namespace Sys2Proof.Machine

variable {k : IrqKind} {aux : Aux} {s t u : State}

/-! ### The order of the requests -/

/-- A request does not wait when it beats the active interrupt, or none is active (60_exceptions.md R405). -/
theorem outranks_eq_false_iff :
    s.outranks k = false ↔ ∀ a x, s.active = some (a, x) → priority s.params a < priority s.params k := by
  unfold State.outranks
  split
  · next a x ha => simp [ha]
  · next ha => simp [ha]

/-! ### What user mode does not write -/

/-- What no operation in user mode writes: the high byte of SR, SSP, the active interrupt and the parameters. -/
structure Confined (s t : State) : Prop where
  highByte : t.sr &&& 0xFF00#16 = s.sr &&& 0xFF00#16
  ssp : t.ssp = s.ssp
  active : t.active = s.active
  params : t.params = s.params

theorem Confined.refl (s : State) : Confined s s := ⟨rfl, rfl, rfl, rfl⟩

theorem Confined.trans (h : Confined s t) (g : Confined t u) : Confined s u :=
  ⟨g.highByte.trans h.highByte, g.ssp.trans h.ssp, g.active.trans h.active, g.params.trans h.params⟩

/-- The mode is a bit of the high byte of SR (10_state.md R39). -/
theorem Confined.supervisor (h : Confined s t) : t.supervisor = s.supervisor := by
  have mode : ∀ v : State, v.supervisor = (v.sr &&& 0xFF00#16).getLsbD 13 := fun v => by simp [State.supervisor, srS]
  rw [mode, mode, h.highByte]

/-- A privileged instruction faults before it changes anything, and the others write neither SR whole nor the stack
pointer of the other mode. -/
theorem body_confined (i : Instr) (hs : s.supervisor = false) : Confined s (leftState (bodyOf i s)) := by
  cases hpriv : isPrivileged i with
  | true =>
    obtain ⟨m, e⟩ := bodyOf_privileged hpriv
    rw [e, privileged_user hs]
    exact .refl s
  | false =>
    have hsr : writesSr i = false := Bool.eq_false_iff.mpr fun h => by simp [isPrivileged_of_writesSr h] at hpriv
    exact ⟨body_highByte hsr s, body_keepsSsp i hs, body_active (ne_rte_of_writesSr hsr) s, (body_bookkeepingKept i s).params⟩

theorem fetchOpword_confined (s : State) : Confined s (leftState (fetchOpword s)) := by
  unfold fetchOpword
  rcases fetchWord_cases s with ⟨_, _, _, e⟩ | e
  · rw [bind_ok e]
    exact ⟨rfl, rfl, rfl, rfl⟩
  · rw [bind_error e]
    exact .refl s

/-! ### Interrupts -/

/-- The active interrupt beats the one that was active before, if one was. -/
structure Preempted (s t : State) : Prop where
  entered : ∃ k aux, t.active = some (k, aux) ∧ ∀ a x, s.active = some (a, x) → priority s.params a < priority s.params k
  params : t.params = s.params

theorem Preempted.active_ne (h : Preempted s t) : s.active ≠ t.active := by
  obtain ⟨k, aux, ht, beats⟩ := h.entered
  exact fun e => (beats k aux (e.trans ht)).false

/-- What a step from user mode leaves. -/
def UserStep (s t : State) : Prop := t.run = .halted ∨ Preempted s t ∨ Confined s t

theorem Confined.userStep (h : Confined s t) (g : UserStep t u) : UserStep s u := by
  rcases g with halted | g | g
  · exact .inl halted
  · refine .inr (.inl ⟨?_, g.params.trans h.params⟩)
    rw [← h.active, ← h.params]
    exact g.entered
  · exact .inr (.inr (h.trans g))

theorem Preempted.userStep (h : Preempted s t) (g : UserStep t u) : UserStep s u := by
  obtain ⟨k, aux, ht, beats⟩ := h.entered
  rcases g with halted | g | g
  · exact .inl halted
  · obtain ⟨k', aux', hu, beats'⟩ := g.entered
    have order : priority s.params k < priority s.params k' := h.params ▸ beats' k aux ht
    exact .inr (.inl ⟨⟨k', aux', hu, fun a x ha => (beats a x ha).trans order⟩, g.params.trans h.params⟩)
  · exact .inr (.inl ⟨⟨k, aux, g.active.trans ht, beats⟩, g.params.trans h.params⟩)

theorem UserStep.trans (h : UserStep s t) (alive : t.run ≠ .halted) (g : UserStep t u) : UserStep s u := by
  rcases h with halted | preempted | confined
  · exact absurd halted alive
  · exact preempted.userStep g
  · exact confined.userStep g

theorem userStep_enter (h : s.outranks k = false) : UserStep s (enter k aux s) := by
  rcases enter_outcome k aux s with halted | taken
  · exact .inl halted
  · exact .inr (.inl ⟨⟨k, aux, taken, outranks_eq_false_iff.mp h⟩, (enter_keeps k aux s).1.params⟩)

theorem userStep_raiseIrq (k : IrqKind) (aux : Aux) (s : State) : UserStep s (raiseIrq k aux s) := by
  rcases raiseIrq_cases k aux s with ⟨h, e⟩ | ⟨_, _, e⟩ | ⟨_, _, e⟩ <;> rw [e]
  · exact userStep_enter h
  · exact .inr (.inr ⟨rfl, rfl, rfl, rfl⟩)
  · exact .inl rfl

theorem userStep_checkPending (s : State) : UserStep s (checkPending s) := by
  rcases checkPending_cases s with e | ⟨k, aux, rest, _, h, e⟩ <;> rw [e]
  · exact .inr (.inr (.refl s))
  · have dequeued : Confined s { s with pending := rest } := ⟨rfl, rfl, rfl, rfl⟩
    exact dequeued.userStep (userStep_enter h)

/-! ### The step -/

theorem userStep_exec {i : Instr} (hs : s.supervisor = false) (h : exec i s = .next t) : UserStep s t := by
  have body := body_confined i hs
  rw [exec_eq_body] at h
  rcases instruction_cases (bodyOf i) s with ⟨u, hb, e⟩ | ⟨k, aux, u, hb, e⟩ | ⟨k, u, hb, e⟩ | ⟨u, hb, e⟩ | ⟨f, u, hb, e⟩ <;>
    rw [e] at h <;> cases h <;> rw [hb] at body
  · cases srT1 s.sr
    · exact .inr (.inr body)
    · exact body.userStep (userStep_raiseIrq .trace _ u)
  · have restored : Confined u { u with pc := u.pcStart } := ⟨rfl, rfl, rfl, rfl⟩
    exact (body.trans restored).userStep (userStep_raiseIrq k aux _)
  · exact body.userStep (userStep_raiseIrq k _ u)
  · exact .inr (.inr body)

/-- The end of a step adds what CheckPending does, unless the CORE has halted. -/
theorem UserStep.endStep (h : UserStep s t) (cost : Nat) : UserStep s (t.endStep cost) := by
  have counted : Confined t { t with cycles := t.cycles + cost } := ⟨rfl, rfl, rfl, rfl⟩
  have checked := counted.userStep (userStep_checkPending _)
  unfold State.endStep
  dsimp only
  split
  · next halted => exact .inl halted
  · next hrun => exact h.trans (by rw [hrun]; nofun) checked
  · next hrun => exact h.trans (by rw [hrun]; nofun) checked

theorem userStep_stepRunning (hs : s.supervisor = false) (h : stepRunning s = .next t) : UserStep s t := by
  have latched : Confined s s.beginStep := ⟨rfl, rfl, rfl, rfl⟩
  have fetched := latched.trans (fetchOpword_confined s.beginStep)
  have restored : ∀ v : State, Confined v { v with pc := v.pcStart } := fun _ => ⟨rfl, rfl, rfl, rfl⟩
  obtain ⟨u, cost, rfl, hu⟩ := stepRunning_cases h
  refine UserStep.endStep ?_ cost
  rcases hu with ⟨w, v, i, e, _, hexec⟩ | ⟨w, v, e, rfl⟩ | ⟨k, aux, v, e, _, rfl⟩ <;> rw [e] at fetched
  · exact fetched.userStep (userStep_exec (fetched.supervisor.trans hs) hexec)
  · exact (fetched.trans (restored v)).userStep (userStep_raiseIrq _ _ _)
  · exact (fetched.trans (restored v)).userStep (userStep_raiseIrq k aux _)

/-- Settles O13: an operation in user mode is confined, and after it the active interrupt changes only to one that beats it. -/
theorem userModeIsolation : Obligations.UserModeIsolation := by
  intro s t hs hstep
  have outcome : UserStep s t := by
    unfold step at hstep
    split at hstep
    · cases hstep
      exact .inr (.inr (.refl s))
    · cases hstep
      exact userStep_checkPending s
    · exact userStep_stepRunning hs hstep
  rcases outcome with halted | preempted | confined
  · exact .inr (.inl halted)
  · obtain ⟨k, aux, taken, _⟩ := preempted.entered
    exact .inl ⟨k, aux, taken, preempted.active_ne⟩
  · exact .inr (.inr ⟨confined.supervisor.trans hs, confined.highByte, confined.ssp⟩)

end Sys2Proof.Machine
end

section
/-! PROOFS. A step always answers a next state (O8), what it runs (O4) and how it settles an outcome (O5). -/

namespace Sys2Proof.Machine

variable {s t v : State} {i : Instr} {w : Half} {k : IrqKind} {aux : Aux}

theorem finishStep_of_next {cost : Nat} {o : Host.Outcome State Fault Refusal} (h : o = .next t) :
    finishStep cost o = .next (t.endStep cost) := congrArg (finishStep cost) h

theorem stepRunning_decoded (h : fetchOpword s.beginStep = .ok w v) (hw : decodeOpword w = some i) :
    stepRunning s = finishStep (cycleCost i) (exec i v) := by
  unfold stepRunning
  rw [h]
  simp only [hw]

/-- The opword's fetch aborts only by a fault. -/
theorem fetchOpword_error {e : Abort} (h : fetchOpword s = .error e v) : ∃ k aux, e = .fault k aux := by
  unfold fetchOpword at h
  rcases fetchWord_cases s with ⟨_, _, _, e⟩ | e
  · rw [bind_ok e] at h
    cases h
  · rw [bind_error e] at h
    cases h
    exact ⟨_, _, rfl⟩

theorem stepRunning_answers_next (s : State) : ∃ t, stepRunning s = .next t := by
  cases h : fetchOpword s.beginStep with
  | ok w v =>
    cases hw : decodeOpword w with
    | some i =>
      obtain ⟨t, ht⟩ := exec_answers_next i (decodeOpword_wf hw) v
      exact ⟨_, (stepRunning_decoded h hw).trans (finishStep_of_next ht)⟩
    | none => exact ⟨_, stepRunning_undecoded h hw⟩
  | error e v =>
    obtain ⟨k, aux, rfl⟩ := fetchOpword_error h
    exact ⟨_, stepRunning_fetchFault h⟩

/-- Settles O8: a decoded instruction is well formed and answers a next state, and so does every exception of the fetch. -/
theorem everyStepAnswersNext : Obligations.EveryStepAnswersNext := by
  refine ⟨fun s => ?_, fun i s hwf => exec_answers_next i hwf s⟩
  unfold step
  split
  · exact ⟨s, rfl⟩
  · exact ⟨_, rfl⟩
  · exact stepRunning_answers_next s

/-- The decoder over the two bytes at pc reads the opword that the step fetches. -/
theorem decodeOpword_of_decode {rest : List Byte} (h : decode (peek s.mem s.pc :: peek s.mem (s.pc + 1#32) :: rest) = .ok i) :
    decodeOpword s.wordAtPc = some i := by
  rw [← wordAtPc_bytes]
  simp only [decode] at h
  split at h
  · next j hj => rw [hj, Except.ok.inj h]
  · cases h

theorem endStep_eq_ite (t : State) (cost : Nat) :
    t.endStep cost = if t.run = .halted then { t with cycles := t.cycles + cost } else checkPending { t with cycles := t.cycles + cost } := by
  unfold State.endStep
  dsimp only
  cases t.run <;> rfl

/-- Settles O4: the opword at pc is fetched and decoded, and what its instruction answers is given the end of the step. -/
theorem stepRunsDecodedInstruction : Obligations.StepRunsDecodedInstruction := by
  intro s i rest hrun hread hdecode u
  have runs : step s = finishStep (cycleCost i) (exec i u) := by
    rw [step_running hrun, stepRunning_decoded (fetchOpword_ok hread) (decodeOpword_of_decode hdecode)]
  exact ⟨runs, fun t ht => by rw [runs, finishStep_of_next ht, endStep_eq_ite]⟩

/-- Settles O5: one case for each way the operation of an instruction ends. -/
theorem outcomesAreSettled : Obligations.OutcomesAreSettled := fun _ _ _ =>
  ⟨instruction_ok, fun _ _ => instruction_fault, fun _ => instruction_trap, instruction_halted⟩

end Sys2Proof.Machine
end

section
/-! PROOFS. The frames of Enter: what stands on the stack and what else is kept (O54, O55). -/

namespace Sys2Proof.Machine

/-! ### Values pushed one below the other -/

/-- The bytes that pushed values take. -/
def pushedBytes : List (Size × Word) → Nat
  | [] => 0
  | (sz, _) :: rest => sizeBytes sz + pushedBytes rest

/-- Memory after values are pushed, the first one highest, with `depth` bytes already taken below `top`. -/
def pushAll (top : Word) : Nat → List (Size × Word) → Memory → Memory
  | _, [], m => m
  | depth, (sz, v) :: rest, m =>
    pushAll top (depth + sizeBytes sz) rest (writeMem m (top - BitVec.ofNat 32 (depth + sizeBytes sz)) sz v)

/-- Each pushed value is read at its place. -/
def HoldsPushed (m : Memory) (top : Word) : Nat → List (Size × Word) → Prop
  | _, [] => True
  | depth, (sz, v) :: rest =>
    readMem m (top - BitVec.ofNat 32 (depth + sizeBytes sz)) sz = trunc sz v ∧ HoldsPushed m top (depth + sizeBytes sz) rest

variable {top : Word} {depth : Nat} {vs : List (Size × Word)} {m : Memory}

/-- The bytes of an access whose end is `i` bytes below the top, counted down from there. -/
theorem mem_coveredBy_below {x : Word} {sz : Size} {i : Nat} (hx : x ∈ coveredBy (top - BitVec.ofNat 32 (i + sizeBytes sz)) sz)
    (hi : i + sizeBytes sz < 2 ^ 32) : ∃ j, i < j ∧ j ≤ i + sizeBytes sz ∧ x = top - BitVec.ofNat 32 j := by
  rw [mem_coveredBy_iff] at hx
  exact ⟨(top - x).toNat, by bv_omega, by bv_omega, by bv_omega⟩

/-- Pushes reach only the bytes they take. -/
theorem peek_pushAll_outside {b : Word} (h : ∀ j, depth < j → j ≤ depth + pushedBytes vs → b ≠ top - BitVec.ofNat 32 j)
    (hsize : depth + pushedBytes vs < 2 ^ 32) : peek (pushAll top depth vs m) b = peek m b := by
  induction vs generalizing depth m with
  | nil => rfl
  | cons v rest ih =>
    obtain ⟨sz, v⟩ := v
    simp only [pushedBytes] at h hsize
    have below := ih (depth := depth + sizeBytes sz) (m := writeMem m (top - BitVec.ofNat 32 (depth + sizeBytes sz)) sz v)
      (fun j hj hle => h j (by omega) (by omega)) (by omega)
    refine below.trans (peek_writeMem_outside _ _ _ _ _ fun hb => ?_)
    obtain ⟨j, hlt, hle, e⟩ := mem_coveredBy_below hb (by omega)
    exact h j hlt (by omega) e

/-- Each pushed value stands where it was pushed, for the later ones are stored below it. -/
theorem pushAll_holds (hm : m.wf = true) (hsize : depth + pushedBytes vs < 2 ^ 32) :
    HoldsPushed (pushAll top depth vs m) top depth vs := by
  induction vs generalizing depth m with
  | nil => trivial
  | cons v rest ih =>
    obtain ⟨sz, v⟩ := v
    simp only [pushedBytes] at hsize
    refine ⟨?_, ih (wf_writeMem m hm ..) (by omega)⟩
    have kept : ∀ x ∈ coveredBy (top - BitVec.ofNat 32 (depth + sizeBytes sz)) sz,
        peek (pushAll top (depth + sizeBytes sz) rest (writeMem m (top - BitVec.ofNat 32 (depth + sizeBytes sz)) sz v)) x =
          peek (writeMem m (top - BitVec.ofNat 32 (depth + sizeBytes sz)) sz v) x := by
      intro x hx
      obtain ⟨i, -, hi, ex⟩ := mem_coveredBy_below hx (by omega)
      refine peek_pushAll_outside (fun j hlt hle e => ?_) (by omega)
      have same : i = j := by
        rw [ex] at e
        bv_omega
      omega
    exact (readMem_congr kept).trans (readMem_writeMem_same m hm _ sz v)

/-! ### The two frames -/

theorem trunc_word_setWidth (h : Half) : trunc .word (h.setWidth 32) = h.setWidth 32 := by
  rw [trunc_word_eq, BitVec.setWidth_setWidth_of_le h (by decide), BitVec.setWidth_eq]

/-- Enter turns off both trace bits and turns on S (60_exceptions.md R407). -/
theorem srEntered_eq (sr : Half) : srEntered sr = (sr &&& 0x1FFF#16) ||| 0x2000#16 := by
  have mask : 0x3FFF#16 = 0x1FFF#16 ||| 0x2000#16 := by decide
  have absorbed : sr &&& 0x2000#16 ||| 0x2000#16 = 0x2000#16 := by
    refine BitVec.eq_of_getLsbD_eq fun i _ => ?_
    rw [BitVec.getLsbD_or, BitVec.getLsbD_and]
    cases sr.getLsbD i <;> cases (0x2000#16).getLsbD i <;> rfl
  rw [srEntered, mask, BitVec.and_or_distrib_left, BitVec.or_assoc, absorbed]

/-- The standard frame: SR, then PC (60_exceptions.md R409). -/
def standardFrame (s : State) : List (Size × Word) := [(.word, s.sr.setWidth 32), (.long, s.pc)]

/-- The group-0 frame: the words of the payload, then the standard frame (60_exceptions.md R408). -/
def group0Frame (aux : Aux) (s : State) : List (Size × Word) :=
  [(.word, (aux.extractLsb' 48 16).setWidth 32), (.word, (aux.extractLsb' 32 16).setWidth 32),
   (.word, (aux.extractLsb' 16 16).setWidth 32), (.word, (aux.extractLsb' 0 16).setWidth 32)] ++ standardFrame s

/-- What Enter leaves when its accesses go through, over the frame it pushes. -/
def enteredWith (k : IrqKind) (aux : Aux) (frame : List (Size × Word)) (s : State) : State :=
  let m := pushAll s.ssp 0 frame s.mem
  { s with sr := srEntered s.sr, ssp := s.ssp - BitVec.ofNat 32 (pushedBytes frame), mem := m
           pc := readMem m (vectorAddress k) .long, active := some (k, aux), run := .running }

/-- Settles O54: Enter pushes the standard frame. -/
theorem enterStandardFrame : Obligations.EnterStandardFrame := by
  intro k aux s hk hm h1 h2 h3 t
  have entered : t = enteredWith k aux (standardFrame s) s := enter_standard hk h1 h2 h3
  clear_value t
  have held : HoldsPushed t.mem s.ssp 0 (standardFrame s) := entered ▸ pushAll_holds hm (by decide : 6 < 2 ^ 32)
  simp only [standardFrame, HoldsPushed, sizeBytes, Nat.reduceAdd, trunc_word_setWidth, trunc_long_eq] at held
  obtain ⟨sr, pc, -⟩ := held
  subst entered
  refine ⟨rfl, sr, pc, fun b hsr hpc => peek_pushAll_outside (fun j hlt (hle : j ≤ 6) e => ?_) (by decide : 6 < 2 ^ 32),
    srEntered_eq s.sr, rfl, rfl, rfl, rfl, rfl, rfl, rfl⟩
  rw [mem_coveredBy_iff, e] at hsr hpc
  simp only [sizeBytes] at hsr hpc
  bv_omega

/-- The words of a payload, in the order in which they are pushed (10_state.md R47). -/
theorem extract_payload (fmt op : Half) (addr : Word) :
    (fmt ++ addr ++ op).extractLsb' 48 16 = fmt ∧ (fmt ++ addr ++ op).extractLsb' 32 16 = addr.extractLsb' 16 16 ∧
    (fmt ++ addr ++ op).extractLsb' 16 16 = addr.extractLsb' 0 16 ∧ (fmt ++ addr ++ op).extractLsb' 0 16 = op := by
  refine ⟨?_, ?_, ?_, BitVec.extractLsb'_append_eq_right⟩ <;> rw [BitVec.extractLsb'_append_eq_of_le (by decide)]
  · exact BitVec.extractLsb'_append_eq_left
  · exact BitVec.extractLsb'_append_eq_of_add_le (by decide)
  · exact BitVec.extractLsb'_append_eq_of_add_le (by decide)

/-- Settles O55: Enter pushes the words of the payload and then the standard frame. -/
theorem enterGroup0Frame : Obligations.EnterGroup0Frame := by
  intro k fmt op addr s hk hm hw hl hv t
  have entered : t = enteredWith k (fmt ++ addr ++ op) (group0Frame (fmt ++ addr ++ op) s) s :=
    enter_group0 hk (hw 2 (by decide)) (hw 4 (by decide)) (hw 6 (by decide)) (hw 8 (by decide)) (hw 10 (by decide)) hl hv
  clear_value t
  have held : HoldsPushed t.mem s.ssp 0 (group0Frame (fmt ++ addr ++ op) s) :=
    entered ▸ pushAll_holds hm (by decide : 14 < 2 ^ 32)
  obtain ⟨e1, e2, e3, e4⟩ := extract_payload fmt op addr
  simp only [group0Frame, standardFrame, List.cons_append, List.nil_append, HoldsPushed, sizeBytes, Nat.reduceAdd,
    trunc_word_setWidth, trunc_long_eq, e1, e2, e3, e4] at held
  obtain ⟨w1, w2, w3, w4, sr, pc, -⟩ := held
  subst entered
  refine ⟨rfl, w1, w2, w3, w4, sr, pc,
    fun b hb => peek_pushAll_outside (fun j hlt (hle : j ≤ 14) e => ?_) (by decide : 14 < 2 ^ 32),
    srEntered_eq s.sr, rfl, rfl, rfl, rfl, rfl, rfl, rfl⟩
  exact hb (14 - j) (by omega) (by bv_omega)

end Sys2Proof.Machine
end

section
/-! PROOFS. RTE (O51), and that it undoes an Enter (O57). -/

namespace Sys2Proof.Machine

variable {s : State} {sz : Size}

/-- A pop in supervisor mode reads at SSP and moves it. -/
theorem pop_supervisor (hs : s.supervisor = true) (h : s.readable s.ssp sz) :
    pop sz s = .ok (readMem s.mem s.ssp sz) { s with ssp := s.ssp + sizeWord sz } := by
  have active : s.sp = s.ssp := by simp [State.sp, hs]
  rw [pop_readable (active ▸ h), active, State.setSp, if_pos hs]

/-- Return pops PC and then SR (60_exceptions.md R411). -/
theorem restoreFrame_ok (hs : s.supervisor = true) (hpc : s.readable s.ssp .long) (hsr : s.readable (s.ssp + 4#32) .word) :
    returnFromException.restoreFrame s =
      .ok () { s with ssp := s.ssp + 6#32, pc := readMem s.mem s.ssp .long, active := none
                      sr := (readMem s.mem (s.ssp + 4#32) .word).setWidth 16 &&& s.params.srMask } := by
  have pc := pop_supervisor hs hpc
  have sr := pop_supervisor (s := { s with ssp := s.ssp + sizeWord .long }) hs hsr
  have popped : s.ssp + sizeWord .long + sizeWord .word = s.ssp + 6#32 := by rw [BitVec.add_assoc]; rfl
  rw [popped] at sr
  rw [returnFromException.restoreFrame, bind_ok pc, bind_ok sr]
  rfl

/-- RTE with no group-0 interrupt active. -/
theorem exec_rte (hs : s.supervisor = true) (hactive : ∀ k aux, s.active = some (k, aux) → irqGroup k ≠ 0)
    (hpc : s.readable s.ssp .long) (hsr : s.readable (s.ssp + 4#32) .word) :
    exec .rte s =
      .next (traceAfter (srT1 s.sr)
        { s with ssp := s.ssp + 6#32, pc := readMem s.mem s.ssp .long, active := none
                 sr := (readMem s.mem (s.ssp + 4#32) .word).setWidth 16 &&& s.params.srMask }) := by
  have returns : returnFromException s = returnFromException.restoreFrame s := by
    cases ha : s.active with
    | none => exact returnFromException_none ha
    | some r => exact returnFromException_some ha (hactive r.1 r.2 ha)
  refine (instruction_privileged hs).trans (instruction_ok ?_)
  rw [returns, restoreFrame_ok hs hpc hsr]

/-- Settles O51: with a group-0 interrupt active RTE halts, and else it pops its frame. -/
theorem returnFromExceptionHolds : Obligations.ReturnFromException := fun _ hs =>
  ⟨exec_rte hs, fun _ _ ha h0 => (instruction_privileged hs).trans (instruction_halted (returnFromException_group0 ha h0))⟩

/-- SR read back from a frame and written through SR_MASK, where it had no bit outside the mask (10_state.md R40). -/
theorem State.Inv.sr_masked (h : s.Inv) : (s.sr.setWidth 32).setWidth 16 &&& s.params.srMask = s.sr := by
  rw [BitVec.setWidth_setWidth_of_le s.sr (by decide), BitVec.setWidth_eq]
  refine BitVec.eq_of_getLsbD_eq fun i _ => ?_
  have inside := (status_iff _ _).mp h.status i
  rw [BitVec.getLsbD_and]
  cases hi : s.sr.getLsbD i
  · rfl
  · exact inside hi

/-- Settles O57: RTE reads the frame of Enter where it lies, and the SR saved in it lies within the mask. -/
theorem rteUndoesEnter : Obligations.RteUndoesEnter := by
  intro k aux s h hk inv hw hl hv e hs ht1 hssp husp hparams hactive hmem hpc hsr
  obtain ⟨essp, esr, epc, -, -, -, -, -, -, -, eusp, -⟩ := enterStandardFrame k aux s hk inv.memory hw hl hv
  have params : h.params = s.params := hparams.trans (enter_keeps k aux s).1.params
  have top : h.ssp = s.ssp - 6#32 := hssp.trans essp
  have place : h.ssp + 4#32 = s.ssp - 2#32 := by rw [top]; bv_omega
  have popped : h.ssp + 6#32 = s.ssp := by rw [top, BitVec.sub_add_cancel]
  have savedPc : readMem h.mem h.ssp .long = s.pc := by
    rw [top]
    exact (readMem_congr fun b hb => hmem b (.inr hb)).trans epc
  have savedSr : (readMem h.mem (h.ssp + 4#32) .word).setWidth 16 &&& h.params.srMask = s.sr := by
    have word := (readMem_congr fun b hb => hmem b (.inl hb)).trans esr
    rw [place, params, word, inv.sr_masked]
  have returns := exec_rte hs hactive (top ▸ hpc) (place ▸ hsr)
  rw [ht1, popped, savedPc, savedSr] at returns
  refine ⟨_, returns, rfl, rfl, husp.trans eusp, rfl, ?_, rfl, rfl, rfl, rfl⟩
  show (if srS s.sr then s.ssp else h.usp) = (if srS s.sr then s.ssp else s.usp)
  rw [husp.trans eusp]

end Sys2Proof.Machine
end

section
/-! PROOFS. The interrupt kinds (O53), and Raise, CheckPending and an Enter that faults (O56). -/

namespace Sys2Proof.Machine

/-- Settles O53: each row is evaluated. -/
theorem kindTable : Obligations.KindTable := by
  unfold Obligations.KindTable
  intro row
  and_intros <;> decide

variable {k : IrqKind} {aux : Aux} {s t u : State} {sz : Size} {v : Word} {m n : Nat}

/-! ### What the accesses of Enter need -/

/-- Pushes that go through: SSP moves down by `n` bytes, and the memory fails at none of them. -/
structure Descends (n : Nat) (s t : State) : Prop where
  supervisor : t.supervisor = true
  map : t.map = s.map
  ssp : t.ssp = s.ssp - BitVec.ofNat 32 n
  even : s.ssp.getLsbD 0 = false
  taken : ∀ j, 0 < j → j ≤ n → regionAt s.map (s.ssp - BitVec.ofNat 32 j) ≠ some .unmapped ∧
    regionAt s.map (s.ssp - BitVec.ofNat 32 j) ≠ some .writeProtected

theorem Descends.trans (f : Descends m s t) (g : Descends n t u) : Descends (m + n) s u where
  supervisor := g.supervisor
  map := g.map.trans f.map
  ssp := by rw [g.ssp, f.ssp, BitVec.sub_sub, BitVec.ofNat_add]
  even := f.even
  taken j hj hle := by
    by_cases h : j ≤ m
    · exact f.taken j hj h
    · have below := g.taken (j - m) (by omega) (by omega)
      rwa [f.map, f.ssp, BitVec.sub_sub, ← BitVec.ofNat_add, Nat.add_sub_cancel' (by omega)] at below

theorem memWrite_ok {a : Word} (h : memWrite sz a v s = .ok () t) :
    ¬AccessFails s a sz true ∧ t.map = s.map ∧ t.ssp = s.ssp ∧ t.sr = s.sr := by
  refine ⟨fun fails => ?_, ?_⟩
  · rw [memWrite_of_accessFails fails] at h
    cases h
  · rcases memWrite_cases sz a v s with e | ⟨o, e⟩ | e <;> rw [e] at h <;> cases h <;> exact ⟨rfl, rfl, rfl⟩

/-- A word or a long below an address is odd where the address is. -/
theorem getLsbD_zero_sub_sizeWord (hsz : sz ≠ .byte) (a : Word) : (a - sizeWord sz).getLsbD 0 = a.getLsbD 0 := by
  have even : (sizeWord sz).toNat % 2 = 0 := by
    cases sz
    · exact absurd rfl hsz
    · rfl
    · rfl
  simp only [BitVec.getLsbD, Nat.testBit_zero, BitVec.toNat_sub, decide_eq_decide]
  omega

/-- A push that goes through, of a word or a long. -/
theorem descends_of_push (hs : s.supervisor = true) (h : push sz v s = .ok () t) (hsz : sz ≠ .byte := by decide) :
    Descends (sizeBytes sz) s t := by
  have size : sizeWord sz = BitVec.ofNat 32 (sizeBytes sz) := rfl
  have active : s.sp = s.ssp := by simp [State.sp, hs]
  rw [push, modifyState_bind, getState_bind, setSp_sp, active] at h
  obtain ⟨ok, map, ssp, sr⟩ := memWrite_ok h
  have regions : t.map = s.map := map.trans (setSp_map s _)
  refine ⟨?_, regions, ?_, ?_, fun j hj hle => ?_⟩
  · rw [State.supervisor, sr, setSp_sr]
    exact hs
  · rw [ssp, setSp_ssp, if_pos hs, size]
  · by_contra odd
    refine ok (.inl (misaligned_odd hsz ?_))
    rw [getLsbD_zero_sub_sizeWord hsz]
    simpa using odd
  · have covered : s.ssp - BitVec.ofNat 32 j ∈ coveredBy (s.ssp - sizeWord sz) sz := by
      rw [mem_coveredBy_iff, size]
      cases sz <;> simp only [sizeBytes] at hle ⊢ <;> bv_omega
    rw [← setSp_map s (s.ssp - sizeWord sz)]
    exact ⟨fun e => ok (accessFails_of_odd_or_unmapped (.inr ⟨_, covered, e⟩)),
      fun e => ok (.inr (answerOf_writeProtected ⟨_, covered, e⟩))⟩

theorem descends_of_pushGroup0Words (hs : s.supervisor = true) (h : pushGroup0Words aux s = .ok () t) : Descends 8 s t := by
  obtain ⟨_, _, h1, h⟩ := bind_eq_ok h
  obtain ⟨_, _, h2, h⟩ := bind_eq_ok h
  obtain ⟨_, _, h3, h4⟩ := bind_eq_ok h
  have d1 := descends_of_push hs h1
  have d2 := descends_of_push d1.supervisor h2
  have d3 := descends_of_push d2.supervisor h3
  exact ((d1.trans d2).trans d3).trans (descends_of_push d3.supervisor h4)

/-! ### The accesses of Enter -/

/-- The accesses of the standard frame, which answer the handler's address (60_exceptions.md R409). -/
def frameAccesses (k : IrqKind) (oldSr : Half) (oldPc : Word) : M Word := do
  push .word (oldSr.setWidth 32)
  push .long oldPc
  memRead .data .long (vectorAddress k)

/-- The accesses of Enter (60_exceptions.md R408, R409). -/
def entryAccesses (k : IrqKind) (aux : Aux) (oldSr : Half) (oldPc : Word) : M Word :=
  if irqGroup k = 0 then pushGroup0Words aux >>= fun _ => frameAccesses k oldSr oldPc else frameAccesses k oldSr oldPc

/-- Enter's accesses come between its write of SR and its last update (60_exceptions.md R406 to R410). -/
theorem enterSequence_eq_accesses (k : IrqKind) (aux : Aux) (s : State) :
    enterSequence k aux s =
      (entryAccesses k aux s.sr s.pc >>= fun target => modifyState fun t =>
        { t with pc := target, active := some (k, aux), run := .running }) { s with sr := srEntered s.sr } := by
  rw [enterSequence_eq, entryAccesses]
  split <;> simp only [enterTail, frameAccesses, bind_assoc]

theorem descends_of_frameAccesses {oldSr : Half} {oldPc : Word} (hs : s.supervisor = true)
    (h : frameAccesses k oldSr oldPc s = .ok v t) :
    (∃ u, Descends 6 s u) ∧ ∀ b ∈ coveredBy (vectorAddress k) .long, regionAt s.map b ≠ some .unmapped := by
  obtain ⟨_, _, h1, h⟩ := bind_eq_ok h
  obtain ⟨_, u, h2, h3⟩ := bind_eq_ok h
  have d1 := descends_of_push hs h1
  have pushed : Descends 6 s u := d1.trans (descends_of_push d1.supervisor h2)
  refine ⟨⟨u, pushed⟩, fun b hb e => ?_⟩
  rw [← pushed.map] at e
  rw [memRead_of_accessFails (accessFails_of_odd_or_unmapped (.inr ⟨b, hb, e⟩))] at h3
  cases h3

theorem descends_of_entryAccesses {oldSr : Half} {oldPc : Word} (hs : s.supervisor = true)
    (h : entryAccesses k aux oldSr oldPc s = .ok v t) :
    (∃ u, Descends (if irqGroup k = 0 then 14 else 6) s u) ∧
      ∀ b ∈ coveredBy (vectorAddress k) .long, regionAt s.map b ≠ some .unmapped := by
  unfold entryAccesses at h
  split at h
  · next hk =>
    obtain ⟨_, w, h0, h⟩ := bind_eq_ok h
    have words := descends_of_pushGroup0Words hs h0
    obtain ⟨⟨u, frame⟩, vector⟩ := descends_of_frameAccesses words.supervisor h
    rw [if_pos hk, ← words.map]
    exact ⟨⟨u, words.trans frame⟩, vector⟩
  · next hk =>
    rw [if_neg hk]
    exact descends_of_frameAccesses hs h

theorem entryAccesses_control (k : IrqKind) (aux : Aux) (oldSr : Half) (oldPc : Word) :
    Preserves (fun s t => t.active = s.active ∧ t.pending = s.pending) (entryAccesses k aux oldSr oldPc) := by
  have hc := (control_closed .entry).toClosed
  have push : ∀ sz v, Preserves _ (push sz v) := fun sz v => .push hc trivial rfl sz v
  have frame : Preserves _ (frameAccesses k oldSr oldPc) :=
    .bind hc (push _ _) fun _ => .bind hc (push _ _) fun _ => .memRead hc _ _ _
  have words : Preserves _ (pushGroup0Words aux) :=
    .bind hc (push _ _) fun _ => .bind hc (push _ _) fun _ => .bind hc (push _ _) fun _ => push _ _
  exact .ite (.bind hc words fun _ => frame) frame

/-- Enter halts where one of its accesses faults, with the controller as it was (60_exceptions.md R418; log 17). -/
theorem enter_of_accesses_error {e : Abort} (h : entryAccesses k aux s.sr s.pc { s with sr := srEntered s.sr } = .error e t) :
    (enter k aux s).run = .halted ∧ (enter k aux s).active = s.active ∧ (enter k aux s).pending = s.pending := by
  have control := entryAccesses_control k aux s.sr s.pc { s with sr := srEntered s.sr }
  rw [h] at control
  have halts : enter k aux s = { t with run := .halted } := by
    rw [enter, enterSequence_eq_accesses, bind_error h]
  rw [halts]
  exact ⟨rfl, control⟩

theorem enter_faults
    (h : s.ssp.getLsbD 0 = true ∨
      (∃ j, 0 < j ∧ j ≤ (if irqGroup k = 0 then 14 else 6) ∧
        (regionAt s.map (s.ssp - BitVec.ofNat 32 j) = some .unmapped ∨ regionAt s.map (s.ssp - BitVec.ofNat 32 j) = some .writeProtected)) ∨
      ∃ b ∈ coveredBy (vectorAddress k) .long, regionAt s.map b = some .unmapped) :
    (enter k aux s).run = .halted ∧ (enter k aux s).active = s.active ∧ (enter k aux s).pending = s.pending := by
  cases access : entryAccesses k aux s.sr s.pc { s with sr := srEntered s.sr } with
  | error e t => exact enter_of_accesses_error access
  | ok v t =>
    have mode : State.supervisor { s with sr := srEntered s.sr } = true := srS_srEntered s.sr
    obtain ⟨⟨u, pushed⟩, vector⟩ := descends_of_entryAccesses mode access
    rcases h with odd | ⟨j, hj, hle, failing⟩ | ⟨b, hb, e⟩
    · exact absurd odd (Bool.eq_false_iff.mp pushed.even)
    · obtain ⟨mapped, writable⟩ := pushed.taken j hj hle
      exact failing.elim (fun e => absurd e mapped) fun e => absurd e writable
    · exact absurd e (vector b hb)

/-! ### The controller -/

theorem outranks_of_le {a : IrqKind} {x : Aux} (ha : s.active = some (a, x)) (h : priority s.params k ≤ priority s.params a) :
    s.outranks k = true := by
  simp [State.outranks, ha, h]

theorem raiseIrq_of_beats (h : ∀ a x, s.active = some (a, x) → priority s.params a < priority s.params k) :
    raiseIrq k aux s = enter k aux s := raiseIrq_enter (outranks_eq_false_iff.mpr h)

theorem checkPending_nil (h : s.pending = []) : checkPending s = s := by
  simp [checkPending, h]

theorem checkPending_enter {rest : List (IrqKind × Aux)} (h : s.pending = (k, aux) :: rest) (hk : s.outranks k = false) :
    checkPending s = enter k aux { s with pending := rest } := by
  simp [checkPending, h, hk]

theorem checkPending_waits {rest : List (IrqKind × Aux)} (h : s.pending = (k, aux) :: rest) (hk : s.outranks k = true) :
    checkPending s = s := by
  simp [checkPending, h, hk]

/-- Settles O56: Raise and CheckPending by whether the request waits behind the active one, Enter by its accesses. -/
theorem controllerTransitions : Obligations.ControllerTransitions := fun _ _ _ =>
  ⟨fun _ _ ha hle => ⟨raiseIrq_overflow (outranks_of_le ha hle), raiseIrq_queue (outranks_of_le ha hle)⟩,
    raiseIrq_of_beats, checkPending_nil,
    fun _ h => ⟨fun beats => checkPending_enter h (outranks_eq_false_iff.mpr beats),
      fun _ _ ha hle => checkPending_waits h (outranks_of_le ha hle)⟩,
    enter_faults⟩

end Sys2Proof.Machine
end

section
/-! PROOFS. STOPPED, HALTED and the clock tick (O7), and the reset transition (O10). -/

namespace Sys2Proof.Machine

variable {k : IrqKind} {aux : Aux} {s t : State}

/-! ### The run states -/

theorem step_stopped (h : s.run = .stopped) : step s = .next (checkPending s) := by
  simp only [step, h]

theorem step_halted (h : s.run = .halted) : step s = .next s := by
  simp only [step, h]

theorem tick_halted (h : s.run = .halted) : tick s = .next s := by
  simp only [tick, h]

theorem raiseInput_halted (h : s.run = .halted) (hk : k ≠ .reset) : raiseInput k aux s = s := by
  simp only [raiseInput, if_neg hk, h]

/-! ### The tick -/

theorem tick_alive (h : s.run ≠ .halted) : tick s = tickRunning { s with countdown := s.countdown - 1 } := by
  unfold tick
  cases hrun : s.run
  · rfl
  · rfl
  · exact absurd hrun h

theorem tick_counts (h : s.run ≠ .halted) (hc : 1 < s.countdown) : tick s = .next { s with countdown := s.countdown - 1 } := by
  have left : s.countdown - 1 ≠ 0 := by omega
  rw [tick_alive h, tickRunning, if_neg left]

theorem tick_steps (h : s.run ≠ .halted) (hc : s.countdown ≤ 1) (hstep : step { s with countdown := 0 } = .next t) :
    tick s = .next { t with countdown := t.nextCost } := by
  have done : s.countdown - 1 = 0 := by omega
  rw [tick_alive h, done, tickRunning, if_pos rfl, hstep]

theorem one_le_nextCost (s : State) : 1 ≤ s.nextCost := by
  unfold State.nextCost
  split
  · split
    · exact Nat.le_max_left 1 _
    · exact Nat.le_max_left 1 _
  · exact Nat.le_max_left 1 _

theorem nextCost_decoded {i : Instr} (h : s.readable s.pc .word) (hi : decodeOpword s.wordAtPc = some i) :
    s.nextCost = max 1 (cycleCost i) := by
  obtain ⟨even, plain⟩ := h
  have opword : s.peekOpword = some s.wordAtPc := by simp only [State.peekOpword, even, plain]; rfl
  simp only [State.nextCost, opword, hi]

/-- Settles O7: the run state chooses what a step does, the count whether a tick runs one. -/
theorem runStatesAndTicks : Obligations.RunStatesAndTicks :=
  ⟨fun _ => step_stopped, fun _ h => ⟨step_halted h, tick_halted h, fun _ _ => raiseInput_halted h⟩, fun _ => tick_counts,
    fun _ t h hc hstep => ⟨t.nextCost, one_le_nextCost t, tick_steps h hc hstep, fun _ => nextCost_decoded⟩⟩

/-! ### Reset -/

/-- SR after the reset transition, over the condition codes, which are free (10_state.md R60). -/
theorem srAfterReset_highByte (ccr : Byte) : srAfterReset ccr &&& 0xFF00#16 = 0x2700#16 := by
  have high : 0x2700#16 &&& 0xFF00#16 = 0x2700#16 := by decide
  have low : 0x001F#16 &&& 0xFF00#16 = 0#16 := by decide
  rw [srAfterReset, BitVec.and_or_distrib_right, BitVec.and_assoc, high, low, BitVec.and_zero, BitVec.or_zero]

/-- The reset transition up to its reads, with the registers it leaves unspecified drawn (70_reset_and_hazards.md R460; log 21). -/
def State.resetStart (s : State) : State := State.resetting { s with draws := s.draws + 17 } s.drawnFill

theorem resetInput_ok (h : resetReads s.resetStart = .ok () t) : resetInput s = t := by
  unfold State.resetStart at h
  simp only [resetInput, resetWith, h]

theorem resetInput_error {e : Abort} (h : resetReads s.resetStart = .error e t) : resetInput s = { t with run := .halted } := by
  unfold State.resetStart at h
  simp only [resetInput, resetWith, h]

/-- A reset whose reads are answered (70_reset_and_hazards.md R460). -/
theorem resetInput_readable (hsp : s.readable 0#32 .long) (hpc : s.readable 4#32 .long) :
    resetInput s = { s.resetStart with
      ssp := readMem s.mem 0#32 .long, pc := readMem s.mem 4#32 .long, cycles := 0, countdown := 0, run := .running } := by
  have sp := memRead_readable (s := s.resetStart) (sp := .data) hsp
  have pc := memRead_readable (s := { s.resetStart with ssp := readMem s.mem 0#32 .long }) (sp := .data) hpc
  exact resetInput_ok ((bind_ok sp).trans (bind_ok pc))

/-- A reset whose first read fails (R461). -/
theorem resetInput_unmapped_sp (h : answerOf s.map 0#32 .long false = .pageNotMapped) :
    resetInput s = { s.resetStart with run := .halted } := by
  have fails := memRead_of_accessFails (s := s.resetStart) (sp := .data) (.inr (.inl h))
  exact resetInput_error (bind_error fails)

/-- A reset whose second read fails: SSP is loaded by then (R461; log 23). -/
theorem resetInput_unmapped_pc (hsp : s.readable 0#32 .long) (h : answerOf s.map 4#32 .long false = .pageNotMapped) :
    resetInput s = { s.resetStart with ssp := readMem s.mem 0#32 .long, run := .halted } := by
  have sp := memRead_readable (s := s.resetStart) (sp := .data) hsp
  have fails := memRead_of_accessFails (s := { s.resetStart with ssp := readMem s.mem 0#32 .long }) (sp := .data) (.inr (.inl h))
  exact resetInput_error ((bind_ok sp).trans ((modifyState_bind _ _ _).trans (bind_error fails)))

/-- Settles O10: both reads answered, the first failing, and the second failing. -/
theorem resetTransition : Obligations.ResetTransition := by
  refine ⟨fun s hsp hpc => ?_, fun s h => ?_, fun s hsp h => ?_, fun s aux => if_pos rfl⟩ <;> dsimp only
  · rw [resetInput_readable hsp hpc]
    exact ⟨rfl, rfl, srAfterReset_highByte _, rfl, rfl, rfl, rfl, rfl, rfl, rfl, rfl⟩
  · rw [resetInput_unmapped_sp h]
    exact ⟨rfl, rfl, rfl, rfl, rfl, rfl, srAfterReset_highByte _, rfl⟩
  · rw [resetInput_unmapped_pc hsp h]
    exact ⟨rfl, rfl, rfl, rfl, rfl⟩

end Sys2Proof.Machine
end

section
/-! PROOFS. LEA, PEA, LINK and UNLK (O34). -/

namespace Sys2Proof.Machine

variable {s t u : State} {an : Fin 8} {ea : EA} {a : Word} {sp : Space} {w : Half}

/-! ### Writes of two address registers -/

theorem setAreg_setAreg_same (s : State) (n : Fin 8) (a b : Word) : (s.setAreg n a).setAreg n b = s.setAreg n b := by
  unfold State.setAreg
  split
  · simp only [Vector.set_set]
  · exact setSp_setSp s a b

/-- A stored address register and the active stack pointer are written in either order (10_state.md R32, R33). -/
theorem setAreg_seven_comm (s : State) (h : an ≠ 7) (a b : Word) :
    (s.setAreg 7 b).setAreg an a = (s.setAreg an a).setAreg 7 b := by
  have stored : an.val < 7 := by omega
  rw [setAreg_seven, setAreg_seven, State.setSp, State.setSp, setAreg_supervisor]
  split <;> simp only [State.setAreg, dif_pos stored]

/-! ### Addresses -/

theorem instruction_leaBody (h : resolve ea .long true s = .ok (.mem a sp) u) :
    instruction (leaBody an ea) s = .next (traceAfter (srT1 s.sr) (u.setAreg an a)) :=
  instruction_ok (bind_ok (controlAddress_ok h))

theorem instruction_peaBody (h : resolve ea .long true s = .ok (.mem a sp) u) (hw : u.writable (u.areg 7 - 4#32) .long) :
    instruction (peaBody ea) s =
      .next (traceAfter (srT1 s.sr) ({ u with mem := writeMem u.mem (u.areg 7 - 4#32) .long a }.setAreg 7 (u.areg 7 - 4#32))) :=
  instruction_ok ((bind_ok (controlAddress_ok h)).trans (push_eq_setAreg (sz := .long) hw))

/-! ### LINK -/

/-- What LINK stores: `An`, or the decremented pointer where `An` is A7 (43_data_movement.md R231). -/
def linkedValue (u : State) (an : Fin 8) : Word := if an = 7 then u.areg 7 - 4#32 else u.areg an

/-- LINK's three writes of registers after its store. -/
theorem instruction_linkBody (h : fetchWord s = .ok w u) (hw : u.writable (u.areg 7 - 4#32) .long) :
    let stored := { u with mem := writeMem u.mem (u.areg 7 - 4#32) .long (linkedValue u an) }
    let framed := (stored.setAreg 7 (u.areg 7 - 4#32)).setAreg an (u.areg 7 - 4#32)
    instruction (linkBody an) s = .next (traceAfter (srT1 s.sr) (framed.setAreg 7 (framed.areg 7 + sext16 w))) :=
  instruction_ok ((bind_ok h).trans (bind_ok (memWrite_writable hw)))

theorem exec_link_stored (h : fetchWord s = .ok w u) (hw : u.writable (u.areg 7 - 4#32) .long) (han : an ≠ 7) :
    exec (.link an) s =
      .next (traceAfter (srT1 s.sr)
        (({ u with mem := writeMem u.mem (u.areg 7 - 4#32) .long (u.areg an) }.setAreg an (u.areg 7 - 4#32)).setAreg 7
          (u.areg 7 - 4#32 + sext16 w))) := by
  refine (instruction_linkBody h hw).trans ?_
  rw [linkedValue, if_neg han, areg_setAreg_ne _ _ _ _ han.symm, areg_setAreg_same, setAreg_seven_comm _ han, setAreg_setAreg_same]

theorem exec_link_seven (h : fetchWord s = .ok w u) (hw : u.writable (u.areg 7 - 4#32) .long) :
    exec (.link 7) s =
      .next (traceAfter (srT1 s.sr)
        ({ u with mem := writeMem u.mem (u.areg 7 - 4#32) .long (u.areg 7 - 4#32) }.setAreg 7 (u.areg 7 - 4#32 + sext16 w))) := by
  refine (instruction_linkBody h hw).trans ?_
  rw [linkedValue, if_pos rfl, areg_setAreg_same, setAreg_setAreg_same, setAreg_setAreg_same]

/-- The fetch of an extension word writes no register but pc, and no memory. -/
theorem fetchWord_keeps (h : fetchWord s = .ok w u) : (∀ n, u.areg n = s.areg n) ∧ u.mem = s.mem := by
  rcases fetchWord_cases s with ⟨_, _, _, e⟩ | e
  · cases h.symm.trans e
    exact ⟨fun _ => rfl, rfl⟩
  · cases h.symm.trans e

/-- A LINK whose push faults has changed nothing but pc (43_data_movement.md R231; 60_exceptions.md R441). -/
theorem exec_link_fault {k : IrqKind} {aux : Aux} (h : fetchWord s = .ok w u)
    (hw : memWrite .long (u.areg 7 - 4#32) (linkedValue u an) u = .error (.fault k aux) t) :
    t = u ∧ exec (.link an) s = .next (raiseIrq k aux { u with pc := u.pcStart }) := by
  obtain ⟨-, rfl⟩ := memWrite_error hw
  exact ⟨rfl, instruction_fault ((bind_ok h).trans ((getState_bind _ _).trans (bind_error hw)))⟩

/-! ### UNLK -/

theorem instruction_unlkBody (h : s.readable (s.areg an) .long) :
    instruction (unlkBody an) s =
      .next (traceAfter (srT1 s.sr) ((s.setAreg 7 (s.areg an + 4#32)).setAreg an (readMem s.mem (s.areg an) .long))) :=
  instruction_ok ((getState_bind _ _).trans (bind_ok (memRead_readable h)))

/-- Settles O34: each is a sequence of accesses and then writes of registers, of which the last one to A7 stands. -/
theorem addressesAndFrames : Obligations.AddressesAndFrames := by
  refine fun s u an => ⟨fun ea a sp h => ⟨instruction_leaBody h, instruction_peaBody h⟩, fun w h => ?_,
    fun w k aux t h hw => ?_, fun h => ?_⟩
  · intro top hw
    refine ⟨exec_link_stored h hw, ?_⟩
    rintro rfl
    exact exec_link_seven h hw
  · obtain ⟨kept, raised⟩ := exec_link_fault h hw
    obtain ⟨registers, memory⟩ := fetchWord_keeps h
    exact ⟨kept, registers, memory, raised⟩
  · intro v
    refine ⟨fun _ => instruction_unlkBody h, ?_⟩
    rintro rfl
    exact (instruction_unlkBody h).trans (by rw [setAreg_setAreg_same])

end Sys2Proof.Machine
end
